-- ==== Sys2Proof/Word.lean ====
section
/-! DEFINITION. The words of the block: command words, bytes, cycle counts, and the numeric type of voltages. -/

namespace Sys2Proof

/-- One command of the host's stream: 32 bits (R81). -/
abbrev Word := BitVec 32

/-- `Bits8`: an index field, a port register, a byte on the two-wire bus (R10, R17). -/
abbrev Byte := BitVec 8

/-- `Bits64`: the cycle counter and every scheduled cycle (R8). -/
abbrev Cycle := BitVec 64

/-- The numeric type `Real` of voltages, resistances, capacitances and times, which R13 leaves OPEN.
The model takes exact rationals: plain data, exact sums, exact comparisons
(DESIGN CHOICE, unsafe only for rounding in an original; notes/assumptions/4.md). -/
abbrev Num := Rat

end Sys2Proof
end

