-- ==== Sys2Proof/Syntax.lean ====
section
/-! DEFINITION. The commands of the host (30_encoding.md R80, R90), with their code fields already turned into names. -/

namespace Sys2Proof

/-- A SignalLevel (R140): the six drive strengths and values a pin can assert or a node resolve to. -/
inductive Level where
  | drivenLow
  | drivenHigh
  | weakLow
  | weakHigh
  | floating
  | unknown
  deriving DecidableEq, Repr

/-- A pin's direction (R30, R84). -/
inductive Dir where
  | input
  | output
  | biDirectional
  deriving DecidableEq, Repr

/-- One constructor per row of spec/opcode_table.json (R90). Index fields are 8 bits (R82). -/
inductive Instr where
  | now
  | advance (imm16 : BitVec 16)
  | pinDrive (p : Byte) (lvl : Level)
  | pinRead (p : Byte)
  | pinConfig (p : Byte) (dir : Dir) (oc pu : Bool)
  | pinAnalog (p : Byte) (mv : BitVec 16)
  | nodeAttach (p n : Byte)
  | nodeDetach (p : Byte)
  | nodeRead (n : Byte)
  | portWrite (r v : Byte)
  | portRead (r : Byte)
  | twConfigure (e addr csmask : Byte)
  | twAttach (e scl sda : Byte)
  | twReset (e : Byte)
  | twStatus (e : Byte)
  deriving DecidableEq, Repr

end Sys2Proof
end

