-- ==== Sys2Proof/Decode.lean ====
section
/-! DEFINITION. From words to commands and back: the opcode map (R90), the reserved fields (R83, R89), the code fields (R84,
R85), the byte image of a word (R65), and the encoder written from the same tables. -/

namespace Sys2Proof

/-- Why a word, or a byte image, names no command. The first three are the decode faults of R88 that need no state. -/
inductive DecodeError where
  /-- fewer than four bytes are left: R65 never splits a word, so such an image holds no command -/
  | truncated
  /-- `w[31:24]` is not in the opcode map (R90) -/
  | illegalOpcode
  /-- a bit the format marks `0` is `1` (R89) -/
  | reservedField
  /-- a level code 6 or 7, or the direction code 3 (R84, R85) -/
  | badCode
  deriving DecidableEq, Repr

/-- The rows of the opcode map (R90). -/
inductive Op where
  | now | advance
  | pinDrive | pinRead | pinConfig | pinAnalog
  | nodeAttach | nodeDetach | nodeRead
  | portWrite | portRead
  | twConfigure | twAttach | twReset | twStatus
  deriving DecidableEq, Repr

/-- `op = w[31:24]` of a row (R90). -/
def Op.code : Op → Byte
  | .now => 0x01
  | .advance => 0x02
  | .pinDrive => 0x10
  | .pinRead => 0x11
  | .pinConfig => 0x12
  | .pinAnalog => 0x13
  | .nodeAttach => 0x18
  | .nodeDetach => 0x19
  | .nodeRead => 0x1A
  | .portWrite => 0x20
  | .portRead => 0x21
  | .twConfigure => 0x30
  | .twAttach => 0x31
  | .twReset => 0x32
  | .twStatus => 0x33

/-- Every row, in the table's order. -/
def Op.all : List Op :=
  [.now, .advance, .pinDrive, .pinRead, .pinConfig, .pinAnalog, .nodeAttach, .nodeDetach, .nodeRead, .portWrite, .portRead,
    .twConfigure, .twAttach, .twReset, .twStatus]

/-- The row an opcode byte names, if any (R90: every other opcode is illegal). -/
def Op.ofCode (b : Byte) : Option Op :=
  Op.all.find? fun o => o.code == b

/-- The `mask` column of R90: the opcode and every bit the format marks `0`. -/
def Op.mask : Op → Word
  | .now => 0xFFFFFFFF
  | .advance => 0xFFFF0000
  | .pinDrive => 0xFF00FFF8
  | .pinRead => 0xFF00FFFF
  | .pinConfig => 0xFF00FFF0
  | .pinAnalog => 0xFF000000
  | .nodeAttach => 0xFF0000FF
  | .nodeDetach => 0xFF00FFFF
  | .nodeRead => 0xFF00FFFF
  | .portWrite => 0xFF00FF00
  | .portRead => 0xFF00FFFF
  | .twConfigure => 0xFF000000
  | .twAttach => 0xFF000000
  | .twReset => 0xFF00FFFF
  | .twStatus => 0xFF00FFFF

/-- The `match` column of R90. -/
def Op.rowMatch (o : Op) : Word :=
  o.code ++ (0 : BitVec 24)

/-- `reserved_mask(op)`: `mask AND NOT 0xFF000000` (R89). -/
def Op.reservedMask (o : Op) : Word :=
  o.mask &&& 0x00FFFFFF

/-- The SignalLevel codes of R85. -/
def Level.code : Level → BitVec 3
  | .drivenLow => 0
  | .drivenHigh => 1
  | .weakLow => 2
  | .weakHigh => 3
  | .floating => 4
  | .unknown => 5

/-- The level a code names; 6 and 7 are reserved (R85). -/
def Level.ofCode (c : BitVec 3) : Option Level :=
  match c.toNat with
  | 0 => some .drivenLow
  | 1 => some .drivenHigh
  | 2 => some .weakLow
  | 3 => some .weakHigh
  | 4 => some .floating
  | 5 => some .unknown
  | _ => none

/-- The direction codes of R84. -/
def Dir.code : Dir → BitVec 2
  | .input => 0
  | .output => 1
  | .biDirectional => 2

/-- The direction a code names; 3 is reserved (R84). -/
def Dir.ofCode (c : BitVec 2) : Option Dir :=
  match c.toNat with
  | 0 => some .input
  | 1 => some .output
  | 2 => some .biDirectional
  | _ => none

/-- `w[23:16]`, the first index of every format that has one (R82). -/
def fieldA (w : Word) : Byte := w.extractLsb' 16 8

/-- `w[15:8]` (R83). -/
def fieldB (w : Word) : Byte := w.extractLsb' 8 8

/-- `w[7:0]` (R83). -/
def fieldC (w : Word) : Byte := w.extractLsb' 0 8

/-- `w[15:0]`: `imm16` and `mv` (R86). -/
def field16 (w : Word) : BitVec 16 := w.extractLsb' 0 16

/-- The operands of a word of row `o` whose reserved bits are zero (R83, R86), or `BAD_CODE` (R84, R85). -/
def decodeFields (o : Op) (w : Word) : Except DecodeError Instr :=
  match o with
  | .now => .ok .now
  | .advance => .ok (.advance (field16 w))
  | .pinDrive =>
      match Level.ofCode (w.extractLsb' 0 3) with
      | some l => .ok (.pinDrive (fieldA w) l)
      | none => .error .badCode
  | .pinRead => .ok (.pinRead (fieldA w))
  | .pinConfig =>
      match Dir.ofCode (w.extractLsb' 0 2) with
      | some d => .ok (.pinConfig (fieldA w) d (w.getLsbD 2) (w.getLsbD 3))
      | none => .error .badCode
  | .pinAnalog => .ok (.pinAnalog (fieldA w) (field16 w))
  | .nodeAttach => .ok (.nodeAttach (fieldA w) (fieldB w))
  | .nodeDetach => .ok (.nodeDetach (fieldA w))
  | .nodeRead => .ok (.nodeRead (fieldA w))
  | .portWrite => .ok (.portWrite (fieldA w) (fieldC w))
  | .portRead => .ok (.portRead (fieldA w))
  | .twConfigure => .ok (.twConfigure (fieldA w) (fieldB w) (fieldC w))
  | .twAttach => .ok (.twAttach (fieldA w) (fieldB w) (fieldC w))
  | .twReset => .ok (.twReset (fieldA w))
  | .twStatus => .ok (.twStatus (fieldA w))

/-- The command a word spells, or the first decode check it fails, in the order of R88: opcode, reserved bits, code fields.
(The index check, which needs the block's size, is each command's own first act.) -/
def decode (w : Word) : Except DecodeError Instr :=
  match Op.ofCode (w.extractLsb' 24 8) with
  | none => .error .illegalOpcode
  | some o => if w &&& o.reservedMask ≠ 0 then .error .reservedField else decodeFields o w

/-- The word whose byte image is `b0 b1 b2 b3`, little-endian: the byte holding bits `[7:0]` first (R65). -/
def wordOfBytes (b0 b1 b2 b3 : Byte) : Word :=
  b3 ++ b2 ++ b1 ++ b0

/-- The byte image of a word (R65). -/
def bytesOfWord (w : Word) : List Byte :=
  [w.extractLsb' 0 8, w.extractLsb' 8 8, w.extractLsb' 16 8, w.extractLsb' 24 8]

/-- The first command of a byte image of a command stream, and the bytes after it. Total on any bytes. -/
def decodeBytes : List Byte → Except DecodeError (Instr × List Byte)
  | b0 :: b1 :: b2 :: b3 :: rest =>
      match decode (wordOfBytes b0 b1 b2 b3) with
      | .ok i => .ok (i, rest)
      | .error e => .error e
  | _ => .error .truncated

/-- The word of the opcode table's numbering: bit 0 the least significant bit of the one word a command has, every bit above
`nbits` zero. -/
def tableWord (nbits w : Nat) : Word :=
  BitVec.ofNat 32 (w % 2 ^ nbits)

/-- What the decoder reads from a table row's bits, laid out as the byte image of R65. -/
def decodeTableWord (nbits w : Nat) : Option Instr :=
  match decodeBytes (bytesOfWord (tableWord nbits w)) with
  | .ok (i, _) => some i
  | .error _ => none

/-- The row of a command. -/
def Instr.op : Instr → Op
  | .now => .now
  | .advance _ => .advance
  | .pinDrive _ _ => .pinDrive
  | .pinRead _ => .pinRead
  | .pinConfig _ _ _ _ => .pinConfig
  | .pinAnalog _ _ => .pinAnalog
  | .nodeAttach _ _ => .nodeAttach
  | .nodeDetach _ => .nodeDetach
  | .nodeRead _ => .nodeRead
  | .portWrite _ _ => .portWrite
  | .portRead _ => .portRead
  | .twConfigure _ _ _ => .twConfigure
  | .twAttach _ _ _ => .twAttach
  | .twReset _ => .twReset
  | .twStatus _ => .twStatus

/-- A word by its four byte-wide fields `[31:24] [23:16] [15:8] [7:0]` (R83). -/
def word4 (op a b c : Byte) : Word :=
  op ++ a ++ b ++ c

/-- A word by its opcode, first index and 16-bit operand (R82, R86). -/
def word16 (op a : Byte) (x : BitVec 16) : Word :=
  op ++ a ++ x

/-- The word of a command, by the formats of R83. -/
def encode : Instr → Word
  | .now => word4 0x01 0 0 0
  | .advance imm => word16 0x02 0 imm
  | .pinDrive p l => word4 0x10 p 0 ((0 : BitVec 5) ++ l.code)
  | .pinRead p => word4 0x11 p 0 0
  | .pinConfig p d oc pu => word4 0x12 p 0 ((0 : BitVec 4) ++ BitVec.ofBool pu ++ BitVec.ofBool oc ++ d.code)
  | .pinAnalog p mv => word16 0x13 p mv
  | .nodeAttach p n => word4 0x18 p n 0
  | .nodeDetach p => word4 0x19 p 0 0
  | .nodeRead n => word4 0x1A n 0 0
  | .portWrite r v => word4 0x20 r 0 v
  | .portRead r => word4 0x21 r 0 0
  | .twConfigure e addr csmask => word4 0x30 e addr csmask
  | .twAttach e scl sda => word4 0x31 e scl sda
  | .twReset e => word4 0x32 e 0 0
  | .twStatus e => word4 0x33 e 0 0

end Sys2Proof
end

