-- ==== Sys2Proof/Config.lean ====
section
/-! DEFINITION. The construction parameters of the block (00_scope.md R9 to R15): the plain-data ones as one structure that
a state carries and no command writes, the function-valued ones as constants without a body. -/

namespace Sys2Proof

/-- The parameters of one pin: `Z_PIN[p]`, the source impedance of its analog drive, and `C_PIN[p]`, the capacitance it adds
to its node (R13). -/
structure PinCfg where
  z : Num
  c : Num
  deriving DecidableEq, Repr

/-- The parameters of one port register: `PORT_BASE`, `ENABLE_MASK`, `OUTPUT_MASK`, `DEFAULT_BITS` (R12). -/
structure PortCfg where
  base : Nat
  enable : Byte
  outMask : Byte
  dflt : Byte
  deriving DecidableEq, Repr

/-- The plain-data parameters. `NUM_PINS` is the number of entries of `pins`, `NUM_PORTS` that of `ports` (R9); the analog
parameters are those of R13. Every theorem about a state holds for every value of them. -/
structure Config where
  pins : List PinCfg
  numNodes : Nat
  ports : List PortCfg
  numEngines : Nat
  maxNotifyDepth : Nat
  vdd : Num
  zStrong : Num
  zWeak : Num
  zPullup : Num
  vih : Num
  vil : Num
  settleEps : Num
  cycleHz : Num
  deriving DecidableEq, Repr

/-- `NUM_PINS` (R9). -/
abbrev Config.numPins (c : Config) : Nat := c.pins.length

/-- `NUM_PORTS` (R9). -/
abbrev Config.numPorts (c : Config) : Nat := c.ports.length

/-- The constraint R12 puts on a port register: every enabled bit's pin exists. -/
def PortCfg.wf (numPins : Nat) (r : PortCfg) : Bool :=
  (List.range 8).all fun i => !r.enable.getLsbD i || decide (r.base + i < numPins)

/-- The constraints R9, R11, R12 and R13 put on the parameters. That every impedance is positive is DEDUCED from the `1/Z`
of R193 (notes/assumptions/6.md). -/
def Config.wf (c : Config) : Bool :=
  decide (1 ≤ c.numPins ∧ c.numPins ≤ 256) && decide (1 ≤ c.numNodes ∧ c.numNodes ≤ 256)
    && decide (c.numPorts ≤ 256) && decide (c.numEngines ≤ 256) && decide (1 ≤ c.maxNotifyDepth)
    && c.ports.all (PortCfg.wf c.numPins)
    && decide (c.vil < c.vih) && decide (0 < c.settleEps) && decide (0 < c.cycleHz)
    && decide (0 < c.zStrong ∧ 0 < c.zWeak ∧ 0 < c.zPullup)
    && c.pins.all fun p => decide (0 < p.z ∧ 0 ≤ p.c)

/-- The test configuration of 95_test_vectors.md: 16 pins, 4 nodes, 1 port register (`PORT_BASE = 8`, `ENABLE_MASK = 0x0F`,
`OUTPUT_MASK = 0xFF`, `DEFAULT_BITS = 0x00`), 1 engine, `MAX_NOTIFY_DEPTH = 8` (R9, R11, R12), and the analog values of its
section 3.4 (`V_DD = 5`, `V_IH = 3.5`, `V_IL = 1.5`, `SETTLE_EPS = 0.05`, `CYCLE_HZ = 1e6`, `Z_PIN[0] = 1e4`,
`C_PIN[0] = 1e-9`). `Z_STRONG`, `Z_WEAK`, `Z_PULLUP` and the other pins' `Z_PIN`, which it does not give, are a
DESIGN CHOICE (notes/assumptions/5.md); no statement rests on them. -/
def Config.test : Config where
  pins := ⟨10000, 1 / 1000000000⟩ :: List.replicate 15 ⟨10000, 0⟩
  numNodes := 4
  ports := [⟨8, 0x0F, 0xFF, 0x00⟩]
  numEngines := 1
  maxNotifyDepth := 8
  vdd := 5
  zStrong := 100
  zWeak := 10000
  zPullup := 10000
  vih := 7 / 2
  vil := 3 / 2
  settleEps := 1 / 20
  cycleHz := 1000000

/-- One call the engine made of its peripheral (R15): the byte sink with its byte, or the byte source. -/
inductive PeriphCall where
  | rx (b : Byte)
  | tx
  deriving DecidableEq, Repr

/-- `on_byte_received` of `PERIPH[e]` (R15): the answer (`true` = ACK) to a byte, after the calls made before it. FREE VALUE:
the parameter has no body, so a theorem holds for every peripheral (R16, notes/assumptions/1.md). -/
opaque Config.rxAnswer : (e : Nat) → (calls : List PeriphCall) → (b : Byte) → Bool

/-- `next_byte_to_send` of `PERIPH[e]` (R15), after the calls made before it. FREE VALUE (R16, notes/assumptions/1.md). -/
opaque Config.txByte : (e : Nat) → (calls : List PeriphCall) → Byte

/-- `STEP_FN(v, vt, τ, elapsed)` before the limits R13 and R197 put on it, which `stepCycles` enforces. FREE VALUE
(notes/assumptions/3.md). -/
opaque Config.stepFn : (v vt tau : Num) → (elapsed : Nat) → Nat

/-- The bit counter after a `Rise` in `TxData` at 15, whose next value does not fit the 4-bit field (R45, R267), before
the bound that `freeCount` enforces. FREE VALUE, a fresh one for each draw (notes/assumptions/7.md). -/
opaque Config.freeBits : (draw : Nat) → BitVec 4

/-- The Thevenin resistance recorded for a node with no source, `1/G` at `G = 0` (R193, R194). FREE VALUE, a fresh one for
each draw (notes/assumptions/8.md). -/
opaque Config.freeZth : (draw : Nat) → Num

end Sys2Proof
end

