-- ==== Sys2Proof/Machine/State.lean ====
section
/-! DEFINITION. Everything the spec gives the block as state (10_state.md R20 to R54), the reasons a step can stop, and the
state after power-on reset (70_reset_and_hazards.md R340, R341). -/

namespace Sys2Proof.Machine

/-- `pin[p].drive`: a digital level, or a source voltage in millivolts (R32). -/
inductive Drive where
  | digital (l : Level)
  | analog (mv : BitVec 16)
  deriving DecidableEq, Repr

/-- A pin (R30 to R34). -/
structure Pin where
  dir : Dir
  oc : Bool
  pu : Bool
  drive : Drive
  node : Option Nat
  driven : Level
  deriving DecidableEq, Repr

/-- A node (R37 to R39). Its members and its mode are derived (R35, R36); its settle callback stands in `pending`. -/
structure Node where
  level : Level
  contended : Bool
  voltage : Num
  v0 : Num
  t0 : Cycle
  vt : Num
  zth : Num
  cth : Num
  settling : Bool
  deriving DecidableEq, Repr

/-- A port register: driving-value and driven-value (R40, R41). -/
structure Port where
  driving : Byte
  driven : Byte
  deriving DecidableEq, Repr

/-- The bus states of an engine, in the order of their codes 0 to 9 (R44). -/
inductive BusState where
  | idle
  | start
  | rxAddress
  | ackAddress
  | rxData
  | ackReceivedData
  | ackAfterWrite
  | writePending
  | ackRead
  | txData
  deriving DecidableEq, Repr

/-- A clock edge waiting for its callback (R52); `None` is the absence of one. -/
inductive Edge where
  | fall
  | rise
  deriving DecidableEq, Repr

/-- An engine (R42 to R52) and the state of the peripheral behind it (R53). The peripheral is a parameter without a body
(R15, R16), so its state is the list of the calls made of it, oldest first: every peripheral's answers are some function of
that list (notes/assumptions/1.md). -/
structure Engine where
  attached : Bool
  sclPin : Byte
  sdaPin : Byte
  configured : Bool
  cfgAddress : Byte
  cfgCsmask : Byte
  state : BusState
  bits : BitVec 4
  shift : Byte
  matched : Byte
  rw : Bool
  ack : Bool
  sdaDrive : Bool
  sclSeen : Bool
  sdaSeen : Bool
  pend : Option Edge
  periph : List PeriphCall
  deriving DecidableEq, Repr

/-- The owners of callbacks (R23). -/
inductive Owner where
  | eng (e : Nat)
  | node (n : Nat)
  deriving DecidableEq, Repr

/-- One entry of `pending` (R21): the owner, the due cycle `at` and the sequence number. -/
structure Entry where
  owner : Owner
  due : Cycle
  seq : Nat
  deriving DecidableEq, Repr

/-- One record of `diag_log` (R25). -/
structure DiagRec where
  kind : BitVec 4
  cycle : Cycle
  obj : Byte
  data : Byte
  deriving DecidableEq, Repr

/-- One record of `out_log` (R26). -/
structure OutRec where
  cycle : Cycle
  value : BitVec 64
  deriving DecidableEq, Repr

/-- The whole block (R54). `cfg` holds the construction parameters, which no command writes; `stream` is the host's command
stream (R88), which no command writes (R74); `draws` counts the free values taken so far and is the model's own field
(notes/assumptions/7.md). `pending` is kept in the order of scheduling, so that equal maps are equal lists. -/
structure State where
  cfg : Config
  stream : List Word
  cycle : Cycle
  pending : List Entry
  nextSeq : Nat
  faultCode : BitVec 4
  faultWord : Word
  faultCycle : Cycle
  diagLog : List DiagRec
  outLog : List OutRec
  cp : Nat
  depth : Nat
  pins : List Pin
  nodes : List Node
  ports : List Port
  engines : List Engine
  draws : Nat
  deriving DecidableEq, Repr

/-- The reasons the machine takes no step. A fault the spec RAISES is not one of these: `raise Fault(code)` is a next state
with the fault record written (R300). -/
inductive Fault where
  /-- raised by `step` when `fault_code` is not 0: the block is halted and executes nothing until power-on reset (R88, R302);
  safe, the spec gives no step here -/
  | halted
  /-- raised by `step` when the stream has no command at `cp`: the run has ended (R88, R345); safe, the spec gives no step here -/
  | streamEnd
  deriving DecidableEq, Repr

/-- The reasons for a refusal. -/
inductive Refusal where
  /-- raised by an arm of `exec` whose instruction has no meaning in the model yet; safe. No arm raises it. -/
  | notModelled (mnemonic : String)
  deriving DecidableEq, Repr

/-- A pin after power-on reset (R30 to R34). -/
def Pin.reset : Pin where
  dir := .input
  oc := false
  pu := false
  drive := .digital .floating
  node := none
  driven := .floating

/-- A node after power-on reset (R37 to R39). -/
def Node.reset : Node where
  level := .floating
  contended := false
  voltage := 0
  v0 := 0
  t0 := 0
  vt := 0
  zth := 0
  cth := 0
  settling := false

/-- A port register after power-on reset: enabled bits 0, disabled bits their default (R40, R41). -/
def Port.reset (c : PortCfg) : Port where
  driving := 0x00
  driven := c.dflt &&& ~~~c.enable

/-- An engine after power-on reset (R42 to R53); the peripheral has been called by nobody. -/
def Engine.reset : Engine where
  attached := false
  sclPin := 0
  sdaPin := 0
  configured := false
  cfgAddress := 0x00
  cfgCsmask := 0xFE
  state := .idle
  bits := 0
  shift := 0x00
  matched := 0x00
  rw := false
  ack := false
  sdaDrive := false
  sclSeen := true
  sdaSeen := true
  pend := none
  periph := []

/-- The block right after power-on reset with parameters `c` (R341), before the host gives it a command stream. -/
def State.resetWith (c : Config) : State where
  cfg := c
  stream := []
  cycle := 0
  pending := []
  nextSeq := 0
  faultCode := 0
  faultWord := 0
  faultCycle := 0
  diagLog := []
  outLog := []
  cp := 0
  depth := 0
  pins := List.replicate c.numPins Pin.reset
  nodes := List.replicate c.numNodes Node.reset
  ports := c.ports.map Port.reset
  engines := List.replicate c.numEngines Engine.reset
  draws := 0

/-- The block right after power-on reset, with the parameters of the spec's test configuration (95_test_vectors.md section 1).
Statements about reset are made of `State.resetWith c` for every `c`. -/
def State.reset : State :=
  State.resetWith Config.test

end Sys2Proof.Machine
end

