-- ==== Sys2Proof/Machine/Ops.lean ====
section
/-! DEFINITION. The shared operations every meaning is made of: reading and writing one pin, node, port register or engine;
the output log and the diagnostic log; the time base's `schedule` and `cancel`; raising a fault, and the power-on reset that
is the only way out of one; fetching a command. -/

namespace Sys2Proof.Machine

/-! ### Results inside one command -/

/-- How an operation inside a command or callback ends: it goes on from a state, or a fault was raised and the rest of the
command, and of every callback, resolution and notification in progress, is abandoned in that state (R300). -/
inductive Res where
  | ok (s : State)
  | halt (s : State)
  deriving DecidableEq, Repr

/-- Goes on with `f` unless a fault was raised (R300). -/
def Res.andThen (r : Res) (f : State → Res) : Res :=
  match r with
  | .ok s => f s
  | .halt s => .halt s

/-- The state an operation ends in, whichever way it ends. -/
def Res.state : Res → State
  | .ok s => s
  | .halt s => s

/-- Runs `f` for each element in order, stopping at the first fault. -/
def forEach {α : Type} (f : α → State → Res) : List α → State → Res
  | [], s => .ok s
  | x :: xs, s => (f x s).andThen (forEach f xs)

/-- The end of a command: one that completes advances `cp` by 1, one that raised a fault leaves it (R27, R88, R300). Both are
next states. -/
def commit (r : Res) : Host.Outcome State Fault Refusal :=
  match r with
  | .ok s => .next { s with cp := s.cp + 1 }
  | .halt s => .next s

/-! ### The four index spaces (R61) -/

/-- `pin[p]`; outside the index space, a pin at reset (no command reaches one, R61). -/
def State.pin (s : State) (p : Nat) : Pin :=
  s.pins.getD p Pin.reset

/-- `pin[p] <- x`. -/
def State.setPin (s : State) (p : Nat) (x : Pin) : State :=
  { s with pins := s.pins.set p x }

/-- `node[n]`; outside the index space, a node at reset. -/
def State.node (s : State) (n : Nat) : Node :=
  s.nodes.getD n Node.reset

/-- `node[n] <- x`. -/
def State.setNode (s : State) (n : Nat) (x : Node) : State :=
  { s with nodes := s.nodes.set n x }

/-- The parameters of port register `r` (R12); outside the index space, one with no enabled bit. -/
def State.portCfg (s : State) (r : Nat) : PortCfg :=
  s.cfg.ports.getD r ⟨0, 0, 0, 0⟩

/-- `port[r]`; outside the index space, a port register at reset. -/
def State.port (s : State) (r : Nat) : Port :=
  s.ports.getD r ⟨0, 0⟩

/-- `port[r] <- x`. -/
def State.setPort (s : State) (r : Nat) (x : Port) : State :=
  { s with ports := s.ports.set r x }

/-- `eng[e]`; outside the index space, an engine at reset. -/
def State.eng (s : State) (e : Nat) : Engine :=
  s.engines.getD e Engine.reset

/-- `eng[e] <- x`. -/
def State.setEng (s : State) (e : Nat) (x : Engine) : State :=
  { s with engines := s.engines.set e x }

/-! ### Faults -/

/-- The fault codes 1 to 8 (R301). -/
inductive FaultCode where
  | illegalOpcode
  | reservedField
  | badCode
  | badIndex
  | schedPast
  | cycleOverflow
  | notifyDepth
  | pinConflict
  deriving DecidableEq, Repr

/-- The codes of R301. -/
def FaultCode.code : FaultCode → BitVec 4
  | .illegalOpcode => 1
  | .reservedField => 2
  | .badCode => 3
  | .badIndex => 4
  | .schedPast => 5
  | .cycleOverflow => 6
  | .notifyDepth => 7
  | .pinConflict => 8

/-- The command word at `cp`, or 0 if there is none (R24). -/
def wordAtCp (s : State) : Word :=
  s.stream.getD s.cp 0

/-- The state `raise Fault(code)` leaves: the fault record written, `depth` 0, every earlier write kept, `cp` not advanced
(R300). -/
def faulted (c : FaultCode) (s : State) : State :=
  { s with faultCode := c.code, faultWord := wordAtCp s, faultCycle := s.cycle, depth := 0 }

/-- `raise Fault(code)`: the one trap-like event of the block (R300, R322). -/
def raise (c : FaultCode) (s : State) : Res :=
  .halt (faulted c s)

/-- Power-on reset of a running block (R340): every piece of state to its reset value, the parameters untouched; the host's
stream is not state of the block and starts again at `cp = 0` (R343). It is the only way out of a fault (R302): a fault has no
return. It is an event from outside, so no command does it. Free values stay fresh. -/
def powerOnReset (s : State) : State :=
  { State.resetWith s.cfg with stream := s.stream, draws := s.draws }

/-! ### Logs -/

/-- The diagnostic kinds 1 to 5 (R311). -/
inductive DiagKind where
  | contention
  | portFloat
  | lineFloat
  | addrMismatch
  | ignoredBit
  deriving DecidableEq, Repr

/-- The codes of R311. -/
def DiagKind.code : DiagKind → BitVec 4
  | .contention => 1
  | .portFloat => 2
  | .lineFloat => 3
  | .addrMismatch => 4
  | .ignoredBit => 5

/-- `diag(kind, obj, data)` (R310). -/
def diag (k : DiagKind) (obj : Nat) (data : Byte) (s : State) : State :=
  { s with diagLog := s.diagLog ++ [⟨k.code, s.cycle, BitVec.ofNat 8 obj, data⟩] }

/-- `out(v)` (R87); `v` is already zero-extended. -/
def out (v : BitVec 64) (s : State) : State :=
  { s with outLog := s.outLog ++ [⟨s.cycle, v⟩] }

/-! ### The time base's primitives -/

/-- The greatest cycle, `2^64 - 1` (R8). -/
def maxCycle : Nat := 2 ^ 64 - 1

/-- `cancel(owner)` (R115). -/
def cancel (o : Owner) (s : State) : State :=
  { s with pending := s.pending.filter fun x => decide (x.owner ≠ o) }

/-- `schedule(owner, at)` (R114): an entry due at or before `cycle` is `SCHED_PAST`, one past the counter's end
`CYCLE_OVERFLOW`; otherwise it replaces any entry of the owner and takes the next sequence number. -/
def schedule (o : Owner) (due : Nat) (s : State) : Res :=
  if due ≤ s.cycle.toNat then raise .schedPast s
  else if due > maxCycle then raise .cycleOverflow s
  else
    .ok { s with
      pending := (cancel o s).pending ++ [⟨o, BitVec.ofNat 64 due, s.nextSeq⟩]
      nextSeq := s.nextSeq + 1 }

/-! ### Fetch and decode faults -/

/-- The command word at `cp`, if the stream has one there (R88). -/
def fetch (s : State) : Option Word :=
  s.stream[s.cp]?

/-- The fault a decode check raises (R88). A word is never truncated. -/
def faultOfDecode : DecodeError → FaultCode
  | .truncated => .illegalOpcode
  | .illegalOpcode => .illegalOpcode
  | .reservedField => .reservedField
  | .badCode => .badCode

/-- `s` with `w` as the command at `cp`; a stream shorter than `cp` is filled with words `0` that never execute. -/
def placeWord (s : State) (w : Word) : State :=
  { s with
    stream := s.stream.take s.cp ++ List.replicate (s.cp - s.stream.length) 0 ++ [w] ++ s.stream.drop (s.cp + 1) }

end Sys2Proof.Machine
end

