-- ==== Sys2Proof/Machine/Operands.lean ====
section
/-! DEFINITION. The operand forms of the commands: the index checks of R61 and the ways an operand becomes a value (R86). -/

namespace Sys2Proof.Machine

/-- Goes on with `f` if the index check holds, else raises `BAD_INDEX` before any other effect (R88, R303). -/
def checked (inRange : Bool) (s : State) (f : State → Res) : Res :=
  if inRange then f s else raise .badIndex s

/-- `p` names a pin (R61). -/
def pinOk (s : State) (p : Byte) : Bool := decide (p.toNat < s.cfg.numPins)

/-- `n` names a node (R61). -/
def nodeOk (s : State) (n : Byte) : Bool := decide (n.toNat < s.cfg.numNodes)

/-- `r` names a port register (R61). -/
def portOk (s : State) (r : Byte) : Bool := decide (r.toNat < s.cfg.numPorts)

/-- `e` names an engine (R61). -/
def engOk (s : State) (e : Byte) : Bool := decide (e.toNat < s.cfg.numEngines)

/-- The value a level code returns to the host: `zext_64(code)` (R85, R67, R87). -/
def levelValue (l : Level) : BitVec 64 := l.code.setWidth 64

/-- The bits of port register `r` bound to pins, ascending (R62, R210). -/
def enabledBits (s : State) (r : Nat) : List Nat :=
  (List.range 8).filter fun i => (s.portCfg r).enable.getLsbD i

/-- `bp(r, i)`: the pin bit `i` of port register `r` is bound to (R62, R210). -/
def boundPin (s : State) (r i : Nat) : Nat :=
  (s.portCfg r).base + i

/-- `v` with bit `i` set to `b`. -/
def setBit (v : Byte) (i : Nat) (b : Bool) : Byte :=
  if b then v ||| (1 : Byte) <<< i else v &&& ~~~((1 : Byte) <<< i)

/-- One bit as a byte: the `data` of a diagnostic. -/
def bitByte (b : Bool) : Byte :=
  if b then 1 else 0

/-- The members of node `n`, ascending (R35). -/
def members (s : State) (n : Nat) : List Nat :=
  (List.range s.cfg.numPins).filter fun p => decide ((s.pin p).node = some n)

end Sys2Proof.Machine
end

