-- ==== Sys2Proof/Machine/Flags.lean ====
section
/-! DEFINITION. The computed values the rules decide on: what a level reads as, what a pin contributes, the digital resolution
table with its contention flag, the analog thresholds, the address match and the status word. -/

namespace Sys2Proof.Machine

/-- `logic(l)`: 1, 0, or `X` as `none` (R143). -/
def logic : Level → Option Bool
  | .drivenHigh => some true
  | .weakHigh => some true
  | .drivenLow => some false
  | .weakLow => some false
  | .floating => none
  | .unknown => none

/-- The bit of a line that a latch is reloaded with: `X` reads as 1 (R243). -/
def latchOf (l : Level) : Bool :=
  match logic l with
  | some b => b
  | none => true

/-- `contribution(p)` of a pin driving the digital level `l` (R144, R145). -/
def contributionOf (dir : Dir) (oc : Bool) (l : Level) : Level :=
  if dir = .input then .floating
  else if oc && decide (l = .drivenHigh ∨ l = .weakHigh) then .floating
  else l

/-- `contribution(p)` (R145). A pin with an analog drive puts its node in analog mode, where its sources count and this does
not (R145, R192). -/
def contribution (x : Pin) : Level :=
  match x.drive with
  | .digital l => contributionOf x.dir x.oc l
  | .analog _ => .floating

/-- `ResolveDigital(C, pu)`: the level and the contention flag (R147). -/
def resolveDigital (c : List Level) (pu : Bool) : Level × Bool :=
  if .drivenHigh ∈ c ∧ .drivenLow ∈ c then (.unknown, true)
  else if .unknown ∈ c then (.unknown, false)
  else if .drivenHigh ∈ c then (.drivenHigh, false)
  else if .drivenLow ∈ c then (.drivenLow, false)
  else
    let high := .weakHigh ∈ c ∨ pu = true
    let low := .weakLow ∈ c
    if high ∧ low then (.unknown, false)
    else if high then (.weakHigh, false)
    else if low then (.weakLow, false)
    else (.floating, false)

/-- `pullup(n)`: some member has its pull-up enabled (R146). -/
def pullup (s : State) (n : Nat) : Bool :=
  (members s n).any fun p => (s.pin p).pu

/-- The driving state is analog. -/
def Drive.isAnalog : Drive → Bool
  | .digital _ => false
  | .analog _ => true

/-- `mode(n) = analog` (R36, R190). -/
def analogMode (s : State) (n : Nat) : Bool :=
  (members s n).any fun p => (s.pin p).drive.isAnalog

/-- `LevelOf(voltage)` (R196). -/
def levelOf (c : Config) (v : Num) : Level :=
  if c.vih ≤ v then .drivenHigh else if v ≤ c.vil then .drivenLow else .unknown

/-- `Match(e, b)` (R257). -/
def addressMatch (g : Engine) (b : Byte) : Bool :=
  g.configured && ((b ^^^ g.cfgAddress) &&& g.cfgCsmask &&& 0xFE) == 0x00

/-- The state codes of R44. -/
def BusState.code : BusState → BitVec 4
  | .idle => 0
  | .start => 1
  | .rxAddress => 2
  | .ackAddress => 3
  | .rxData => 4
  | .ackReceivedData => 5
  | .ackAfterWrite => 6
  | .writePending => 7
  | .ackRead => 8
  | .txData => 9

/-- The `pend` codes of R52. -/
def pendCode : Option Edge → BitVec 2
  | none => 0
  | some .fall => 1
  | some .rise => 2

/-- The word `TW_STATUS` returns, from bit 31 down to bit 0 (R245). -/
def statusWord (g : Engine) : Word :=
  (0 : BitVec 1) ++ pendCode g.pend ++ BitVec.ofBool g.configured ++ BitVec.ofBool g.attached ++ BitVec.ofBool g.ack
    ++ BitVec.ofBool g.sdaDrive ++ BitVec.ofBool g.rw ++ g.matched ++ g.shift ++ g.bits ++ g.state.code

end Sys2Proof.Machine
end

