-- ==== Sys2Proof/Machine/Settle.lean ====
section
/-! DEFINITION. A node's analog mode (43_node_analog.md): sources, the Thevenin equivalent, the voltage at a cycle, and the
update and settling of a node's voltage up to the point where its level is published. -/

namespace Sys2Proof.Machine

/-- One source of a member: its voltage and its impedance (R192). -/
structure Source where
  v : Num
  z : Num
  deriving DecidableEq, Repr

/-- The source of a digital contribution (R192). -/
def levelSources (c : Config) : Level → List Source
  | .drivenHigh => [⟨c.vdd, c.zStrong⟩]
  | .drivenLow => [⟨0, c.zStrong⟩]
  | .weakHigh => [⟨c.vdd, c.zWeak⟩]
  | .weakLow => [⟨0, c.zWeak⟩]
  | .floating => []
  | .unknown => []

/-- The source of a pin's driving state: an analog drive stands for `mv / 1000` volts behind `Z_PIN[p]`, and an `Input` pin
offers none (R191, R192). -/
def driveSources (c : Config) (p : Nat) (x : Pin) : List Source :=
  match x.drive with
  | .digital _ => levelSources c (contribution x)
  | .analog mv => if x.dir = .input then [] else [⟨(mv.toNat : Num) / 1000, (c.pins.getD p ⟨1, 0⟩).z⟩]

/-- Every source pin `p` offers: its drive's and its pull-up's (R192). -/
def pinSources (s : State) (p : Nat) : List Source :=
  driveSources s.cfg p (s.pin p) ++ if (s.pin p).pu then [⟨s.cfg.vdd, s.cfg.zPullup⟩] else []

/-- Every source of node `n`'s members, ascending. -/
def nodeSources (s : State) (n : Nat) : List Source :=
  (members s n).flatMap (pinSources s)

/-- `G = Σ 1/Z` (R193). -/
def conductance (xs : List Source) : Num :=
  (xs.map fun x => 1 / x.z).sum

/-- `vt = (Σ V/Z) / G` (R193). -/
def theveninV (xs : List Source) : Num :=
  (xs.map fun x => x.v / x.z).sum / conductance xs

/-- `zth = 1/G` (R193). -/
def theveninZ (xs : List Source) : Num :=
  1 / conductance xs

/-- `cth = Σ C_PIN[p]` over all members (R192, R193). -/
def nodeC (s : State) (n : Nat) : Num :=
  ((members s n).map fun p => (s.cfg.pins.getD p ⟨1, 0⟩).c).sum

/-- The series of `exp(x)` up to `x^32/32!`. -/
def expSeries (x : Num) : Num :=
  ((List.range 33).map fun k => x ^ k / (k.factorial : Num)).sum

/-- `exp(r)` for `r` from 0 to 1: its series up to `r^32/32!` and the geometric bound of the rest. -/
def expUnit (r : Num) : Num :=
  expSeries r + r ^ 33 / (Nat.factorial 33 : Num) / (1 - r / 34)

/-- `exp(-x)` of R201 for `x ≥ 0`, in the model's numeric type: `1 / (e^n · exp(x - n))` with `n` the whole part of `x`. It is 1 at
`x = 0`, falls as `x` grows, and is the exponential to within `(x + 1) · 10^-36` of it, from below
(DESIGN CHOICE, unsafe only for rounding in an original; notes/assumptions/2.md; `expNeg_mem` in Laws/Settling.lean). -/
def expNeg (x : Num) : Num :=
  let n := (Rat.floor x).toNat
  1 / (expUnit 1 ^ n * expUnit (x - (n : Num)))

/-- The factor `exp(-(k / CYCLE_HZ) / τ)` of R201, `k` cycles after the change. -/
def decayAt (hz tau : Num) (k : Nat) : Num :=
  expNeg ((k : Num) / hz / tau)

/-- `VoltageAt(n, t)` (R201). -/
def voltageAt (s : State) (n : Nat) (t : Cycle) : Num :=
  let x := s.node n
  if x.settling then x.vt + (x.v0 - x.vt) * decayAt s.cfg.cycleHz (x.zth * x.cth) (t.toNat - x.t0.toNat)
  else x.voltage

/-- `ceil(5 · τ · CYCLE_HZ)`, the cycles of `5τ` (R197). -/
def horizon (c : Config) (tau : Num) : Nat :=
  (Rat.ceil (5 * tau * c.cycleHz)).toNat

/-- `STEP_FN(v, vt, τ, elapsed)`: at least 1 (R13), and while `elapsed` is below the horizon at most what is left of it
(R197). -/
def stepCycles (c : Config) (v vt tau : Num) (elapsed : Nat) : Nat :=
  let step := max 1 (Config.stepFn v vt tau elapsed)
  if elapsed < horizon c tau then min step (max 1 (horizon c tau - elapsed)) else step

/-- The voltage is within the settle threshold of its target (R194, R195). -/
def withinEps (c : Config) (v vt : Num) : Bool :=
  decide (|v - vt| ≤ c.settleEps)

/-- `Settle(n, v)` (R194). -/
def settleNode (n : Nat) (v : Num) (s : State) : State :=
  cancel (.node n) (s.setNode n { s.node n with voltage := v, settling := false })

/-- `AnalogUpdate(n)` up to its `Publish` (R194). With no source the target is the present voltage and the recorded `zth` is a
free value, because `1/G` has none at `G = 0` (R193, notes/assumptions/8.md). -/
def analogUpdate (n : Nat) (s : State) : Res :=
  let v := voltageAt s n s.cycle
  let xs := nodeSources s n
  let cth := nodeC s n
  if xs.isEmpty then
    let s := s.setNode n
      { s.node n with voltage := v, v0 := v, t0 := s.cycle, vt := v, zth := Config.freeZth s.draws, cth := cth,
                      contended := false }
    .ok (settleNode n v { s with draws := s.draws + 1 })
  else
    let vt := theveninV xs
    let zth := theveninZ xs
    let s := s.setNode n
      { s.node n with voltage := v, v0 := v, t0 := s.cycle, vt := vt, zth := zth, cth := cth, contended := false }
    if decide (cth = 0) || withinEps s.cfg v vt then .ok (settleNode n vt s)
    else
      schedule (.node n) (s.cycle.toNat + stepCycles s.cfg v vt (zth * cth) 0)
        (s.setNode n { s.node n with settling := true })

/-- `SettleCallback(n)` up to its `Publish` (R195). -/
def settleUpdate (n : Nat) (s : State) : Res :=
  let v := voltageAt s n s.cycle
  let x := s.node n
  let s := s.setNode n { x with voltage := v }
  if withinEps s.cfg v x.vt then .ok (settleNode n x.vt s)
  else
    schedule (.node n)
      (s.cycle.toNat + stepCycles s.cfg v x.vt (x.zth * x.cth) (s.cycle.toNat - x.t0.toNat)) s

/-- `LeaveAnalog(n)` (R199). -/
def leaveAnalog (n : Nat) (s : State) : State :=
  if (s.node n).settling then cancel (.node n) (s.setNode n { s.node n with settling := false }) else s

/-- The level of a pin attached to no node (R149, R200). -/
def aloneLevel (s : State) (p : Nat) : Level :=
  let x := s.pin p
  if x.drive.isAnalog then
    if (pinSources s p).isEmpty then .floating else levelOf s.cfg (theveninV (pinSources s p))
  else (resolveDigital [contribution x] x.pu).1

end Sys2Proof.Machine
end

