-- ==== Sys2Proof/Machine/Network.lean ====
section
/-! DEFINITION. Resolving a node or a lone pin, notifying the observers of a pin, and changing a driving state, which call
each other (42_pin_node.md R150 to R160; 44_port_register.md R216; 45_twowire_engine.md R246 to R252). Each piece takes the
resolution it may start from inside as an argument `res`; `resolveJob` ties the knot, one level of nesting at a time. -/

namespace Sys2Proof.Machine

/-- What is resolved: a node (R150), a pin on no node (R151), or a node at its settle callback (R195). -/
inductive Job where
  | node (n : Nat)
  | pin (p : Nat)
  | settle (n : Nat)
  deriving DecidableEq, Repr

/-- The resolution that a change of pin `p` calls for: its node's, or its own (R160, R163). -/
def jobOf (s : State) (p : Nat) : Job :=
  match (s.pin p).node with
  | some n => .node n
  | none => .pin p

/-- `SetDriving(p, d)` (R160). -/
def setDrivingVia (res : Job → State → Res) (p : Nat) (d : Drive) (s : State) : Res :=
  if (s.pin p).drive = d then .ok s
  else
    let s := s.setPin p { s.pin p with drive := d }
    res (jobOf s p) s

/-! ### Observers -/

/-- `on_pin_changed` for bit `i` of port register `r` (R216). -/
def onPinChanged (r i : Nat) (s : State) : State :=
  match logic (s.pin (boundPin s r i)).driven with
  | some b => s.setPort r { s.port r with driven := setBit (s.port r).driven i b }
  | none => s

/-- The part of `Notify(p)` that tells port register `r`: R216 for the enabled bit bound to `p`, if any (R152). -/
def notifyPort (p r : Nat) (s : State) : State :=
  ((enabledBits s r).filter fun i => decide (boundPin s r i = p)).foldl (fun s i => onPinChanged r i s) s

/-- `Drive(e, bit)`: 0 pulls SDA low, 1 releases it; `sda_drive` is written before the pin (R252). -/
def driveSdaVia (res : Job → State → Res) (e : Nat) (bit : Bool) (s : State) : Res :=
  let s := s.setEng e { s.eng e with sdaDrive := !bit }
  setDrivingVia res (s.eng e).sdaPin.toNat (.digital (if bit then .floating else .drivenLow)) s

/-- `cancel(ENG(e)); eng[e].pend <- None` (R248, R249). -/
def dropEdge (e : Nat) (s : State) : State :=
  let s := cancel (.eng e) s
  s.setEng e { s.eng e with pend := none }

/-- `Start(e)` (R248). -/
def startVia (res : Job → State → Res) (e : Nat) (s : State) : Res :=
  let s := dropEdge e s
  driveSdaVia res e true (s.setEng e { s.eng e with state := .rxAddress, bits := 0, shift := 0x00 })

/-- `Stop(e)` (R249). -/
def stopVia (res : Job → State → Res) (e : Nat) (s : State) : Res :=
  let s := dropEdge e s
  driveSdaVia res e true (s.setEng e { s.eng e with state := .idle, bits := 0 })

/-- `OnScl(e)` (R246, R254). -/
def onScl (e : Nat) (s : State) : Res :=
  match logic (s.pin (s.eng e).sclPin.toNat).driven with
  | none => .ok (diag .lineFloat e 0 s)
  | some b =>
      if b = (s.eng e).sclSeen then .ok s
      else
        schedule (.eng e) (s.cycle.toNat + 1)
          (s.setEng e { s.eng e with sclSeen := b, pend := some (if b then .rise else .fall) })

/-- `OnSda(e)` (R247, R254). -/
def onSdaVia (res : Job → State → Res) (e : Nat) (s : State) : Res :=
  match logic (s.pin (s.eng e).sdaPin.toNat).driven with
  | none => .ok (diag .lineFloat e 1 s)
  | some b =>
      if b = (s.eng e).sdaSeen then .ok s
      else
        let s := s.setEng e { s.eng e with sdaSeen := b }
        if (s.eng e).sclSeen then if b then stopVia res e s else startVia res e s
        else .ok s

/-- The part of `Notify(p)` that tells engine `e`: its SCL handler if `p` is its clock pin, its SDA handler if `p` is its data
pin; an engine with no attached pins is never notified (R152, R253). -/
def notifyEngineVia (res : Job → State → Res) (p e : Nat) (s : State) : Res :=
  if (s.eng e).attached then
    (if p = (s.eng e).sclPin.toNat then onScl e s else .ok s).andThen fun s =>
      if p = (s.eng e).sdaPin.toNat then onSdaVia res e s else .ok s
  else .ok s

/-- `Notify(p)`: the port registers ascending, then the engines ascending (R152). -/
def notifyVia (res : Job → State → Res) (p : Nat) (s : State) : Res :=
  forEach (notifyEngineVia res p) (List.range s.cfg.numEngines)
    ((List.range s.cfg.numPorts).foldl (fun s r => notifyPort p r s) s)

/-! ### Resolution -/

/-- The writes of `Publish(n, l)`: the node's level, then every member's driven state (R150). -/
def publishWrites (n : Nat) (l : Level) (s : State) : State :=
  (members s n).foldl (fun s p => s.setPin p { s.pin p with driven := l }) (s.setNode n { s.node n with level := l })

/-- The members whose driven state `Publish(n, l)` changes, ascending (R150). -/
def changedBy (n : Nat) (l : Level) (s : State) : List Nat :=
  (members s n).filter fun p => decide ((s.pin p).driven ≠ l)

/-- `Publish(n, l)`: every member's driven state is written before any observer is notified (R150). -/
def publishVia (res : Job → State → Res) (n : Nat) (l : Level) (s : State) : Res :=
  forEach (notifyVia res) (changedBy n l s) (publishWrites n l s)

/-- The digital branch of `Resolve(n)` up to its `Publish` (R148, R150). -/
def digitalUpdate (n : Nat) (s : State) : State :=
  let s := leaveAnalog n s
  let k := (resolveDigital ((members s n).map fun p => contribution (s.pin p)) (pullup s n)).2
  let s := s.setNode n { s.node n with contended := k }
  if k then diag .contention n 0 s else s

/-- The level the digital branch of `Resolve(n)` publishes (R147, R150). -/
def digitalLevel (s : State) (n : Nat) : Level :=
  (resolveDigital ((members s n).map fun p => contribution (s.pin p)) (pullup s n)).1

/-- `Resolve(n)` inside its nesting count (R150). -/
def resolveNodeVia (res : Job → State → Res) (n : Nat) (s : State) : Res :=
  if analogMode s n then
    (analogUpdate n s).andThen fun s => publishVia res n (levelOf s.cfg (s.node n).voltage) s
  else publishVia res n (digitalLevel s n) (digitalUpdate n s)

/-- `ResolveAlone(p)` inside its nesting count (R151). -/
def resolveAloneVia (res : Job → State → Res) (p : Nat) (s : State) : Res :=
  let l := aloneLevel s p
  if (s.pin p).driven = l then .ok s
  else notifyVia res p (s.setPin p { s.pin p with driven := l })

/-- `SettleCallback(n)` inside its nesting count (R195). -/
def settleCallbackVia (res : Job → State → Res) (n : Nat) (s : State) : Res :=
  (settleUpdate n s).andThen fun s => publishVia res n (levelOf s.cfg (s.node n).voltage) s

/-- One resolution inside its nesting count. -/
def runJobVia (res : Job → State → Res) (j : Job) (s : State) : Res :=
  match j with
  | .node n => resolveNodeVia res n s
  | .pin p => resolveAloneVia res p s
  | .settle n => settleCallbackVia res n s

/-- A resolution with room for `room` levels of nesting, itself among them: with none left it raises `NOTIFY_DEPTH`; otherwise
`depth` counts it while it runs, and whatever it starts has one level less (R150, R151, R152, R195). -/
def resolveJob : (room : Nat) → Job → State → Res
  | 0 => fun _ s => raise .notifyDepth s
  | room + 1 => fun j s =>
      (runJobVia (resolveJob room) j { s with depth := s.depth + 1 }).andThen fun s =>
        .ok { s with depth := s.depth - 1 }

/-- A resolution from where the block stands: `MAX_NOTIFY_DEPTH - depth` levels are left, so it raises `NOTIFY_DEPTH` exactly
when `depth + 1 > MAX_NOTIFY_DEPTH` (R11, R150). -/
def resolve (j : Job) (s : State) : Res :=
  resolveJob (s.cfg.maxNotifyDepth - s.depth) j s

/-- `SetDriving(p, d)` of a command or callback (R160). -/
def setDriving (p : Nat) (d : Drive) (s : State) : Res :=
  setDrivingVia resolve p d s

/-- `Drive(e, bit)` of a callback or `TwReset` (R252). -/
def driveSda (e : Nat) (bit : Bool) (s : State) : Res :=
  driveSdaVia resolve e bit s

/-- `ConfigurePin(p, dir, oc, pu)`, the body of `PIN_CONFIG` (R163, R243). -/
def configurePin (p : Nat) (dir : Dir) (oc pu : Bool) (s : State) : Res :=
  let x := s.pin p
  if x.dir = dir ∧ x.oc = oc ∧ x.pu = pu then .ok s
  else
    let s := s.setPin p { x with dir := dir, oc := oc, pu := pu }
    resolve (jobOf s p) s

end Sys2Proof.Machine
end

