-- ==== Sys2Proof/Machine/Analog.lean ====
section
/-! DEFINITION. The meaning of `PIN_ANALOG` (43_node_analog.md R198). -/

namespace Sys2Proof.Machine

/-- `PIN_ANALOG p, mv` (R198). -/
def execPinAnalog (p : Byte) (mv : BitVec 16) (s : State) : Host.Outcome State Fault Refusal :=
  commit <| checked (pinOk s p) s fun s => setDriving p.toNat (.analog mv) s

end Sys2Proof.Machine
end

