-- ==== Sys2Proof/Machine/PinNode.lean ====
section
/-! DEFINITION. The meanings of `PIN_DRIVE`, `PIN_READ`, `PIN_CONFIG`, `NODE_ATTACH`, `NODE_DETACH` and `NODE_READ`
(42_pin_node.md section 6). -/

namespace Sys2Proof.Machine

/-- `PIN_DRIVE p, lvl` (R161). -/
def execPinDrive (p : Byte) (lvl : Level) (s : State) : Host.Outcome State Fault Refusal :=
  commit <| checked (pinOk s p) s fun s => setDriving p.toNat (.digital lvl) s

/-- `PIN_READ p` (R162). -/
def execPinRead (p : Byte) (s : State) : Host.Outcome State Fault Refusal :=
  commit <| checked (pinOk s p) s fun s => .ok (out (levelValue (s.pin p.toNat).driven) s)

/-- `PIN_CONFIG p, dir, oc, pu` (R163). -/
def execPinConfig (p : Byte) (dir : Dir) (oc pu : Bool) (s : State) : Host.Outcome State Fault Refusal :=
  commit <| checked (pinOk s p) s fun s => configurePin p.toNat dir oc pu s

/-- The body of `NODE_ATTACH` (R164): the node left is resolved first, then the one joined. -/
def attachPin (p n : Nat) (s : State) : Res :=
  let old := (s.pin p).node
  if old = some n then .ok s
  else
    let s := s.setPin p { s.pin p with node := some n }
    (match old with
      | some m => resolve (.node m) s
      | none => .ok s).andThen (resolve (.node n))

/-- The body of `NODE_DETACH` (R165): the node left is resolved first, then the lone pin. -/
def detachPin (p : Nat) (s : State) : Res :=
  match (s.pin p).node with
  | none => .ok s
  | some m => (resolve (.node m) (s.setPin p { s.pin p with node := none })).andThen (resolve (.pin p))

/-- `NODE_ATTACH p, n` (R164). -/
def execNodeAttach (p n : Byte) (s : State) : Host.Outcome State Fault Refusal :=
  commit <| checked (pinOk s p && nodeOk s n) s fun s => attachPin p.toNat n.toNat s

/-- `NODE_DETACH p` (R165). -/
def execNodeDetach (p : Byte) (s : State) : Host.Outcome State Fault Refusal :=
  commit <| checked (pinOk s p) s fun s => detachPin p.toNat s

/-- `NODE_READ n` (R166). -/
def execNodeRead (n : Byte) (s : State) : Host.Outcome State Fault Refusal :=
  commit <| checked (nodeOk s n) s fun s => .ok (out (levelValue (s.node n.toNat).level) s)

end Sys2Proof.Machine
end

