-- ==== Sys2Proof/Machine/PortReg.lean ====
section
/-! DEFINITION. The meanings of `PORT_WRITE` and `PORT_READ` (44_port_register.md). -/

namespace Sys2Proof.Machine

/-- The driving state a bit of the driving-value stands for (R211). -/
def bitDrive (b : Bool) : Drive :=
  .digital (if b then .drivenHigh else .drivenLow)

/-- `Reconcile(r)` (R217). -/
def reconcile (r : Nat) (s : State) : State :=
  (enabledBits s r).foldl (fun s i => onPinChanged r i s) s

/-- The body of `PORT_WRITE` (R213, R214): all 8 bits stored, every enabled bit pushed in ascending order, then the
driven-value read again. -/
def writePort (r : Nat) (v : Byte) (s : State) : Res :=
  let s := s.setPort r { s.port r with driving := v }
  (forEach (fun i s => setDriving (boundPin s r i) (bitDrive (v.getLsbD i)) s) (enabledBits s r) s).andThen fun s =>
    .ok (reconcile r s)

/-- The mask of read bits whose pins have no definite level (R215). -/
def floatMask (s : State) (r : Nat) : Byte :=
  ((enabledBits s r).filter fun i =>
      (s.portCfg r).outMask.getLsbD i && (logic (s.pin (boundPin s r i)).driven).isNone).foldl
    (fun m i => setBit m i true) 0x00

/-- The value `PORT_READ` returns (R215). -/
def portValue (s : State) (r : Nat) : Byte :=
  (s.port r).driven &&& (s.portCfg r).outMask

/-- `PORT_WRITE r, v` (R213). -/
def execPortWrite (r v : Byte) (s : State) : Host.Outcome State Fault Refusal :=
  commit <| checked (portOk s r) s fun s => writePort r.toNat v s

/-- `PORT_READ r` (R215). -/
def execPortRead (r : Byte) (s : State) : Host.Outcome State Fault Refusal :=
  commit <| checked (portOk s r) s fun s =>
    let fl := floatMask s r.toNat
    let s := if fl = 0x00 then s else diag .portFloat r.toNat fl s
    .ok (out ((portValue s r.toNat).setWidth 64) s)

end Sys2Proof.Machine
end

