-- ==== Sys2Proof/Machine/Edges.lean ====
section
/-! DEFINITION. The engine's clock-edge callback and its transition table (45_twowire_engine.md R250 to R271), and the return
of an engine to `Idle` (R244). -/

namespace Sys2Proof.Machine

/-- The shift register after one more bit, most significant first (R63, R258, R262). -/
def shiftIn (v : Byte) (bit : Bool) : Byte :=
  (v <<< 1) ||| bitByte bit

/-- `RxAddress`, `Rise` (R258); a bit count that no row of R271 names does nothing. -/
def rowRxAddressRise (e : Nat) (sda : Bool) (s : State) : Res :=
  let g := s.eng e
  let v := shiftIn g.shift sda
  if g.bits.toNat + 1 < 8 then .ok (s.setEng e { g with shift := v, bits := g.bits + 1 })
  else if g.bits.toNat + 1 = 8 then
    if addressMatch g v then
      .ok (s.setEng e { g with shift := v, bits := g.bits + 1, matched := v, rw := v.getLsbD 0, state := .ackAddress })
    else
      .ok (diag .addrMismatch e v (s.setEng e { g with shift := v, bits := 0, state := .idle }))
  else .ok s

/-- `LoadTx(e)` (R266): the one place `tx` is called. -/
def loadTx (e : Nat) (s : State) : Res :=
  let g := s.eng e
  let b := Config.txByte e g.periph
  (driveSda e (b.getLsbD 7) (s.setEng e { g with periph := g.periph ++ [.tx], shift := b, bits := 0 })).andThen fun s =>
    .ok (s.setEng e { s.eng e with state := .txData })

/-- `AckAddress`, `Fall` (R259, R261). -/
def rowAckAddressFall (e : Nat) (s : State) : Res :=
  let g := s.eng e
  if g.bits.toNat = 8 then
    (driveSda e false s).andThen fun s => .ok (s.setEng e { s.eng e with bits := 9 })
  else if g.bits.toNat = 9 then
    if g.rw then loadTx e s
    else
      (driveSda e true s).andThen fun s =>
        .ok (s.setEng e { s.eng e with shift := 0x00, bits := 0, state := .rxData })
  else .ok s

/-- `RxData`, `Rise` (R262): the one place `rx` is called. -/
def rowRxDataRise (e : Nat) (sda : Bool) (s : State) : Res :=
  let g := s.eng e
  let v := shiftIn g.shift sda
  if g.bits.toNat + 1 < 8 then .ok (s.setEng e { g with shift := v, bits := g.bits + 1 })
  else if g.bits.toNat + 1 = 8 then
    .ok (s.setEng e
      { g with shift := v, bits := g.bits + 1, periph := g.periph ++ [.rx v], ack := Config.rxAnswer e g.periph v,
               state := .ackReceivedData })
  else .ok s

/-- `AckReceivedData`, `Fall` (R263). -/
def rowAckReceivedDataFall (e : Nat) (s : State) : Res :=
  (driveSda e (!(s.eng e).ack) s).andThen fun s =>
    .ok (s.setEng e { s.eng e with bits := 9, state := .ackAfterWrite })

/-- `AckAfterWrite`, `Fall` (R265). -/
def rowAckAfterWriteFall (e : Nat) (s : State) : Res :=
  (driveSda e true s).andThen fun s =>
    if (s.eng e).ack then .ok (s.setEng e { s.eng e with shift := 0x00, bits := 0, state := .rxData })
    else .ok (s.setEng e { s.eng e with bits := 0, state := .idle })

/-- The count that stands in the field where R267 has no value for it: a free value in the range R45 gives the field
(notes/assumptions/7.md). -/
def freeCount (draw : Nat) : BitVec 4 :=
  BitVec.ofNat 4 ((Config.freeBits draw).toNat % 10)

/-- `TxData`, `Rise` (R267). At a count of 15, reached only after lost edges (notes/assumptions/18.md), the next value does not fit
the field and is a free one. -/
def rowTxDataRise (e : Nat) (s : State) : Res :=
  let g := s.eng e
  if g.bits.toNat = 15 then
    .ok { s.setEng e { g with bits := freeCount s.draws } with draws := s.draws + 1 }
  else .ok (s.setEng e { g with bits := g.bits + 1 })

/-- `TxData`, `Fall` (R268); a bit count above 8 has no row in R271 and does nothing (R251). -/
def rowTxDataFall (e : Nat) (s : State) : Res :=
  let g := s.eng e
  if g.bits.toNat = 8 then
    (driveSda e true s).andThen fun s => .ok (s.setEng e { s.eng e with state := .ackRead })
  else if g.bits.toNat < 8 then driveSda e (g.shift.getLsbD (7 - g.bits.toNat)) s
  else .ok s

/-- `AckRead`, `Rise` (R269). -/
def rowAckReadRise (e : Nat) (sda : Bool) (s : State) : Res :=
  let g := s.eng e
  if g.bits.toNat = 8 then
    if sda then .ok (s.setEng e { g with ack := false, bits := 0, state := .idle })
    else .ok (s.setEng e { g with ack := true, bits := 9 })
  else .ok s

/-- `AckRead`, `Fall` (R270). -/
def rowAckReadFall (e : Nat) (s : State) : Res :=
  if (s.eng e).bits.toNat = 9 then loadTx e s else .ok s

/-- The row of the transition table R271 for the engine's state, the edge and its bit count; what no row names does nothing
(R251), the states `Start` and `WritePending` among it (R255). -/
def edgeRow (e : Nat) (edge : Edge) (sda : Bool) (s : State) : Res :=
  match (s.eng e).state, edge with
  | .idle, .rise => .ok (diag .ignoredBit e (bitByte sda) s)
  | .idle, .fall => .ok s
  | .start, _ => .ok s
  | .rxAddress, .rise => rowRxAddressRise e sda s
  | .rxAddress, .fall => .ok s
  | .ackAddress, .rise => .ok s
  | .ackAddress, .fall => rowAckAddressFall e s
  | .rxData, .rise => rowRxDataRise e sda s
  | .rxData, .fall => .ok s
  | .ackReceivedData, .rise => .ok s
  | .ackReceivedData, .fall => rowAckReceivedDataFall e s
  | .ackAfterWrite, .rise => .ok s
  | .ackAfterWrite, .fall => rowAckAfterWriteFall e s
  | .writePending, _ => .ok s
  | .ackRead, .rise => rowAckReadRise e sda s
  | .ackRead, .fall => rowAckReadFall e s
  | .txData, .rise => rowTxDataRise e s
  | .txData, .fall => rowTxDataFall e s

/-- `EngCallback(e)` (R250). -/
def engCallback (e : Nat) (s : State) : Res :=
  let g := s.eng e
  let s := s.setEng e { g with pend := none }
  match g.pend with
  | none => .ok s
  | some edge => edgeRow e edge g.sdaSeen s

/-- `TwReset(e)` (R244). -/
def twReset (e : Nat) (s : State) : Res :=
  let s := s.setEng e { s.eng e with state := .idle, bits := 0, shift := 0x00, ack := false, pend := none }
  let s := cancel (.eng e) s
  if (s.eng e).attached && (s.eng e).sdaDrive then driveSda e true s else .ok s

end Sys2Proof.Machine
end

