-- ==== Sys2Proof/Machine/Clock.lean ====
section
/-! DEFINITION. Firing callbacks and advancing time (41_timebase.md R110, R116, R118). -/

namespace Sys2Proof.Machine

/-- The callback of an owner (R110). -/
def callback (o : Owner) (s : State) : Res :=
  match o with
  | .eng e => engCallback e s
  | .node n => resolve (.settle n) s

/-- The state in which an entry's callback starts: its owner's entry is gone and `cycle` is its due cycle (R116). -/
def startFiring (x : Entry) (s : State) : State :=
  { cancel x.owner s with cycle := x.due }

/-- Firing one entry (R116). -/
def fire (x : Entry) (s : State) : Res :=
  callback x.owner (startFiring x s)

/-- `(at, seq)` of `x` is before that of `y`, compared as a pair (R118). -/
def firesBefore (x y : Entry) : Bool :=
  decide (x.due.toNat < y.due.toNat ∨ (x.due.toNat = y.due.toNat ∧ x.seq < y.seq))

/-- The first of a list by `firesBefore`. -/
def firstToFire : List Entry → Option Entry
  | [] => none
  | x :: xs =>
      match firstToFire xs with
      | none => some x
      | some y => if firesBefore y x then some y else some x

/-- The entry `AdvanceTo(target)` fires next: the least, by `(at, seq)`, of those due at or before `target` (R112, R118). -/
def nextDue (target : Cycle) (s : State) : Option Entry :=
  firstToFire (s.pending.filter fun x => decide (x.due.toNat ≤ target.toNat))

/-- The loop of `AdvanceTo` (R118), on fuel: with no entry left to fire, the counter takes the target. -/
def advanceLoop (target : Cycle) : (fuel : Nat) → State → Res
  | 0, s => .ok { s with cycle := target }
  | fuel + 1, s =>
      match nextDue target s with
      | none => .ok { s with cycle := target }
      | some x => (fire x s).andThen (advanceLoop target fuel)

/-- Fuel for `AdvanceTo`: at each cycle up to the target every owner fires at most once, because a callback schedules only
later than the present cycle (R114), so this is never used up (DEDUCED, notes/assumptions/9.md). -/
def advanceFuel (target : Cycle) (s : State) : Nat :=
  (s.cfg.numEngines + s.cfg.numNodes + s.pending.length) * (target.toNat + 1) + 1

/-- `AdvanceTo(target)` (R118). -/
def advanceTo (target : Cycle) (s : State) : Res :=
  advanceLoop target (advanceFuel target s) s

end Sys2Proof.Machine
end

