-- ==== Sys2Proof/Machine/TimeBase.lean ====
section
/-! DEFINITION. The meanings of `NOW` and `ADVANCE` (41_timebase.md). -/

namespace Sys2Proof.Machine

/-- `NOW` (R111). -/
def execNow (s : State) : Host.Outcome State Fault Refusal :=
  commit (.ok (out s.cycle s))

/-- `ADVANCE imm16` (R117): a target past the counter's end is `CYCLE_OVERFLOW` before any change. -/
def execAdvance (imm16 : BitVec 16) (s : State) : Host.Outcome State Fault Refusal :=
  commit <|
    if s.cycle.toNat + imm16.toNat > maxCycle then raise .cycleOverflow s
    else advanceTo (BitVec.ofNat 64 (s.cycle.toNat + imm16.toNat)) s

end Sys2Proof.Machine
end

