-- ==== Sys2Proof/Machine/TwoWire.lean ====
section
/-! DEFINITION. The meanings of `TW_CONFIGURE`, `TW_ATTACH`, `TW_RESET` and `TW_STATUS` (45_twowire_engine.md section 2). -/

namespace Sys2Proof.Machine

/-- `TW_CONFIGURE e, addr, csmask` (R242). -/
def execTwConfigure (e addr csmask : Byte) (s : State) : Host.Outcome State Fault Refusal :=
  commit <| checked (engOk s e) s fun s =>
    .ok (s.setEng e.toNat { s.eng e.toNat with cfgAddress := addr, cfgCsmask := csmask, configured := true })

/-- The last lines of `TW_ATTACH`: the latches take the present line values, and the engine is attached (R243). -/
def latchLines (e scl sda : Nat) (s : State) : State :=
  s.setEng e
    { s.eng e with
      sclSeen := latchOf (s.pin scl).driven, sdaSeen := latchOf (s.pin sda).driven, attached := true }

/-- The body of `TW_ATTACH` after its conflict check (R243): between the two writes of `attached` no notification reaches the
engine. -/
def attachEngine (e : Nat) (scl sda : Byte) (s : State) : Res :=
  (twReset e s).andThen fun s =>
    let s := s.setEng e { s.eng e with attached := false, sclPin := scl, sdaPin := sda }
    (configurePin scl.toNat .input (s.pin scl.toNat).oc (s.pin scl.toNat).pu s).andThen fun s =>
      (configurePin sda.toNat .biDirectional true (s.pin sda.toNat).pu s).andThen fun s =>
        (setDriving sda.toNat (.digital .floating) s).andThen fun s =>
          .ok (latchLines e scl.toNat sda.toNat (s.setEng e { s.eng e with sdaDrive := false }))

/-- `TW_ATTACH e, scl, sda` (R243): the same pin twice is `PIN_CONFLICT` before any change. -/
def execTwAttach (e scl sda : Byte) (s : State) : Host.Outcome State Fault Refusal :=
  commit <| checked (engOk s e && pinOk s scl && pinOk s sda) s fun s =>
    if scl = sda then raise .pinConflict s else attachEngine e.toNat scl sda s

/-- `TW_RESET e` (R244). -/
def execTwReset (e : Byte) (s : State) : Host.Outcome State Fault Refusal :=
  commit <| checked (engOk s e) s fun s => twReset e.toNat s

/-- `TW_STATUS e` (R245). -/
def execTwStatus (e : Byte) (s : State) : Host.Outcome State Fault Refusal :=
  commit <| checked (engOk s e) s fun s => .ok (out ((statusWord (s.eng e.toNat)).setWidth 64) s)

end Sys2Proof.Machine
end

