-- ==== Sys2Proof/Machine/Dispatch.lean ====
section
/-! DEFINITION. What each command does: one arm per row of the opcode map (R90), one meaning per arm. -/

namespace Sys2Proof.Machine

def exec (i : Instr) (s : State) : Host.Outcome State Fault Refusal :=
  match i with
  | .now => Sys2Proof.Machine.execNow s
  | .advance imm16 => Sys2Proof.Machine.execAdvance imm16 s
  | .pinDrive p lvl => Sys2Proof.Machine.execPinDrive p lvl s
  | .pinRead p => Sys2Proof.Machine.execPinRead p s
  | .pinConfig p dir oc pu => Sys2Proof.Machine.execPinConfig p dir oc pu s
  | .pinAnalog p mv => Sys2Proof.Machine.execPinAnalog p mv s
  | .nodeAttach p n => Sys2Proof.Machine.execNodeAttach p n s
  | .nodeDetach p => Sys2Proof.Machine.execNodeDetach p s
  | .nodeRead n => Sys2Proof.Machine.execNodeRead n s
  | .portWrite r v => Sys2Proof.Machine.execPortWrite r v s
  | .portRead r => Sys2Proof.Machine.execPortRead r s
  | .twConfigure e addr csmask => Sys2Proof.Machine.execTwConfigure e addr csmask s
  | .twAttach e scl sda => Sys2Proof.Machine.execTwAttach e scl sda s
  | .twReset e => Sys2Proof.Machine.execTwReset e s
  | .twStatus e => Sys2Proof.Machine.execTwStatus e s

end Sys2Proof.Machine
end

