-- ==== Sys2Proof/Machine/Step.lean ====
section
/-! DEFINITION. One step of the block (R88), and placing a command where the next step fetches it. -/

namespace Sys2Proof.Machine

/-- `Step` (R88): a halted block takes no step, nor does one whose stream has no command at `cp`; a word that fails a decode
check raises its fault; any other word is executed. -/
def step (s : State) : Host.Outcome State Fault Refusal :=
  if s.faultCode ≠ 0 then .fault .halted
  else
    match fetch s with
    | none => .fault .streamEnd
    | some w =>
        match decode w with
        | .ok i => exec i s
        | .error d => commit (raise (faultOfDecode d) s)

/-- `s` with the instruction of bits `w` as the command at `cp` (notes/assumptions/10.md). -/
def State.withFetchWord (s : State) (nbits w : Nat) : State :=
  placeWord s (tableWord nbits w)

end Sys2Proof.Machine
end

