-- ==== Sys2Proof/WellFormed.lean ====
section
/-! DEFINITION. Which commands are well-formed for a block of given size: every index names a unit of its space (R61).
The code fields and reserved bits of a word are checked by the decoder, and no value of `Instr` can carry a bad one. -/

namespace Sys2Proof

/-- Every index field of the command is inside its space (R61). A command that is not well-formed raises `BAD_INDEX` (R88). -/
def Instr.wellFormed (c : Config) : Instr → Bool
  | .now => true
  | .advance _ => true
  | .pinDrive p _ => decide (p.toNat < c.numPins)
  | .pinRead p => decide (p.toNat < c.numPins)
  | .pinConfig p _ _ _ => decide (p.toNat < c.numPins)
  | .pinAnalog p _ => decide (p.toNat < c.numPins)
  | .nodeAttach p n => decide (p.toNat < c.numPins) && decide (n.toNat < c.numNodes)
  | .nodeDetach p => decide (p.toNat < c.numPins)
  | .nodeRead n => decide (n.toNat < c.numNodes)
  | .portWrite r _ => decide (r.toNat < c.numPorts)
  | .portRead r => decide (r.toNat < c.numPorts)
  | .twConfigure e _ _ => decide (e.toNat < c.numEngines)
  | .twAttach e scl sda =>
      decide (e.toNat < c.numEngines) && decide (scl.toNat < c.numPins) && decide (sda.toNat < c.numPins)
  | .twReset e => decide (e.toNat < c.numEngines)
  | .twStatus e => decide (e.toNat < c.numEngines)

end Sys2Proof
end

