-- ==== Sys2Proof/Safety.lean ====
section
/-! DEFINITION. The terms statements use: the shape of the state's lists, what it means that the time base, the network, the
port registers and the engines are in order after a command, and the conditions under which a command meets no fault. -/

namespace Sys2Proof.Machine

/-- The lists have the lengths the parameters give them, and every index the state holds names a unit of its space (R9, R42,
R61). -/
structure Shaped (s : State) : Prop where
  pins : s.pins.length = s.cfg.numPins
  nodes : s.nodes.length = s.cfg.numNodes
  ports : s.ports.length = s.cfg.numPorts
  engines : s.engines.length = s.cfg.numEngines
  nodeOf : ∀ p n, (s.pin p).node = some n → n < s.cfg.numNodes
  enginePins : ∀ e, (s.eng e).attached = true →
    (s.eng e).sclPin.toNat < s.cfg.numPins ∧ (s.eng e).sdaPin.toNat < s.cfg.numPins

/-- An owner of this block (R23). -/
def Owner.inBlock (c : Config) : Owner → Prop
  | .eng e => e < c.numEngines
  | .node n => n < c.numNodes

/-- `pending` as R21, R22 and R114 have it: one entry per owner, in the order of their sequence numbers, each below `next_seq`;
every owner is in the block; and unless the block is halted every entry is due after `cycle`. -/
structure PendingOk (s : State) : Prop where
  owners : s.pending.Pairwise fun x y => x.owner ≠ y.owner
  seqs : s.pending.Pairwise fun x y => x.seq < y.seq
  below : ∀ x ∈ s.pending, x.seq < s.nextSeq
  inBlock : ∀ x ∈ s.pending, x.owner.inBlock s.cfg
  later : s.faultCode = 0 → ∀ x ∈ s.pending, s.cycle.toNat < x.due.toNat

/-- `PendingOk` while `ADVANCE` is firing: entries due at the present cycle may remain (R118). -/
structure PendingBase (s : State) : Prop where
  owners : s.pending.Pairwise fun x y => x.owner ≠ y.owner
  seqs : s.pending.Pairwise fun x y => x.seq < y.seq
  below : ∀ x ∈ s.pending, x.seq < s.nextSeq
  inBlock : ∀ x ∈ s.pending, x.owner.inBlock s.cfg
  notPast : s.faultCode = 0 → ∀ x ∈ s.pending, s.cycle.toNat ≤ x.due.toNat

/-- What every state between two firings of one `ADVANCE` satisfies, the first among them (R118). -/
structure Ready (s : State) : Prop where
  shaped : Shaped s
  pending : PendingBase s
  running : s.faultCode = 0

/-- The owner has a pending entry. -/
def hasEntry (s : State) (o : Owner) : Prop :=
  ∃ x ∈ s.pending, x.owner = o

/-- `x` records what the members of node `n` offer in analog mode: their capacitance and the Thevenin equivalent of their sources.
It settles only with a source, a capacitance, and more than the threshold left to its target; else its voltage is the target
(R193, R194, R195). -/
structure AnalogSet (s : State) (n : Nat) (x : Node) : Prop where
  cth : x.cth = nodeC s n
  vt : nodeSources s n ≠ [] → x.vt = theveninV (nodeSources s n)
  zth : nodeSources s n ≠ [] → x.zth = theveninZ (nodeSources s n)
  settling : x.settling = true → nodeSources s n ≠ [] ∧ x.cth ≠ 0 ∧ s.cfg.settleEps < |x.voltage - x.vt|
  settled : x.settling = false → x.voltage = x.vt

/-- Node `n` shows what its members offer: in digital mode the level and contention flag of the table, in analog mode the level
of its voltage, whose target is the members' own; every member reads that level (R147, R148, R150, R194, R196). -/
structure NodeResolved (s : State) (n : Nat) : Prop where
  level : (s.node n).level = if analogMode s n then levelOf s.cfg (s.node n).voltage else digitalLevel s n
  contended : (s.node n).contended = if analogMode s n then false
    else (resolveDigital ((members s n).map fun p => contribution (s.pin p)) (pullup s n)).2
  driven : ∀ p, p < s.cfg.numPins → (s.pin p).node = some n → (s.pin p).driven = (s.node n).level
  settling : (s.node n).settling = true → analogMode s n = true
  analog : analogMode s n = true → AnalogSet s n (s.node n)

/-- A pin on no node reads what it offers alone (R149, R200). -/
def PinResolved (s : State) (p : Nat) : Prop :=
  (s.pin p).node = none → (s.pin p).driven = aloneLevel s p

/-- Every node and every lone pin is resolved (R150, R154). -/
def Resolved (s : State) : Prop :=
  (∀ n, n < s.cfg.numNodes → NodeResolved s n) ∧ ∀ p, p < s.cfg.numPins → PinResolved s p

/-- A node has a settle callback pending exactly while it settles (R39, R194, R195). -/
def SettleSync (s : State) : Prop :=
  ∀ n, n < s.cfg.numNodes → (hasEntry s (.node n) ↔ (s.node n).settling = true)

/-- Every enabled bit of every port register holds its pin's definite value (R217). -/
def PortsSynced (s : State) : Prop :=
  ∀ r, r < s.cfg.numPorts → ∀ i ∈ enabledBits s r, ∀ b, logic (s.pin (boundPin s r i)).driven = some b →
    (s.port r).driven.getLsbD i = b

/-- Every disabled bit of every port register reads its default (R41, R218). -/
def DisabledBitsDefault (s : State) : Prop :=
  ∀ r, r < s.cfg.numPorts → ∀ i, i < 8 → (s.portCfg r).enable.getLsbD i = false →
    (s.port r).driven.getLsbD i = (s.portCfg r).dflt.getLsbD i

/-- Every attached engine's latches hold its lines' definite values (R51, R246, R247). -/
def LatchesSynced (s : State) : Prop :=
  ∀ e, e < s.cfg.numEngines → (s.eng e).attached = true →
    (∀ b, logic (s.pin (s.eng e).sclPin.toNat).driven = some b → (s.eng e).sclSeen = b) ∧
    ∀ b, logic (s.pin (s.eng e).sdaPin.toNat).driven = some b → (s.eng e).sdaSeen = b

/-- No engine is in one of the two states that are never entered (R255, R272). -/
def StatesEntered (s : State) : Prop :=
  ∀ e, (s.eng e).state ≠ .start ∧ (s.eng e).state ≠ .writePending

/-- Unless the block is halted, an engine has a clock edge waiting exactly when it has an entry in `pending` (R52, R272). -/
def EdgesPending (s : State) : Prop :=
  s.faultCode = 0 → ∀ e, e < s.cfg.numEngines → ((s.eng e).pend ≠ none ↔ hasEntry s (.eng e))

/-- An engine that is not attached has no callback pending: only a notification schedules one (R152, R246). -/
def UnattachedNoEntry (s : State) : Prop :=
  ∀ e, e < s.cfg.numEngines → (s.eng e).attached = false → ¬ hasEntry s (.eng e)

/-- Everything is in order after a command: the shape of the state, the pending callbacks, every level resolved, every port
register and latch holding its pin's value, every waiting edge scheduled, and no resolution under way. -/
structure InOrder (s : State) : Prop where
  shaped : Shaped s
  pending : PendingOk s
  resolved : Resolved s
  settle : SettleSync s
  ports : PortsSynced s
  latches : LatchesSynced s
  edges : EdgesPending s
  depth : s.depth = 0

/-- No node is in analog mode (R36). -/
def NoAnalogNode (s : State) : Prop :=
  ∀ n, analogMode s n = false

/-- Nothing is under way, no node is in analog mode, the counter has a cycle left, and there are more levels of nesting than
engines: the conditions under which a command that changes the network meets no fault (R11, R150, R114). -/
structure Calm (s : State) : Prop where
  depth : s.depth = 0
  room : s.cfg.numEngines < s.cfg.maxNotifyDepth
  cycle : s.cycle.toNat + 1 ≤ maxCycle
  digital : NoAnalogNode s

/-- `p` is the data pin of an attached engine. -/
def isEngineSda (s : State) (p : Nat) : Prop :=
  ∃ e, e < s.cfg.numEngines ∧ (s.eng e).attached = true ∧ (s.eng e).sdaPin.toNat = p

/-- No engine is attached, so no notification starts another resolution. -/
def NoEngineAttached (s : State) : Prop :=
  ∀ e, e < s.cfg.numEngines → (s.eng e).attached = false

/-- The fault record of two states agrees. -/
def SameFault (s t : State) : Prop :=
  t.faultCode = s.faultCode ∧ t.faultWord = s.faultWord ∧ t.faultCycle = s.faultCycle

/-- The parameters, the command stream and the output log of two states agree. -/
def SameHostSide (s t : State) : Prop :=
  t.cfg = s.cfg ∧ t.stream = s.stream ∧ t.outLog = s.outLog

/-- What the host set of a pin beside its driving state agrees: node, direction, open-collector, pull-up. -/
def SamePinSetup (s t : State) (p : Nat) : Prop :=
  (t.pin p).node = (s.pin p).node ∧ (t.pin p).dir = (s.pin p).dir ∧ (t.pin p).oc = (s.pin p).oc ∧
    (t.pin p).pu = (s.pin p).pu

/-- A pin's driving state agrees, or an attached engine has released it as its data pin (R248, R249, R252). -/
def DriveKeptOrReleased (s t : State) (p : Nat) : Prop :=
  (t.pin p).drive = (s.pin p).drive ∨ ((t.pin p).drive = .digital .floating ∧ isEngineSda s p)

/-- What no bus event writes of an engine agrees: attachment, configuration, the last match, the verdict, the peripheral. -/
def SameEngineSetup (s t : State) (e : Nat) : Prop :=
  (t.eng e).attached = (s.eng e).attached ∧ (t.eng e).sclPin = (s.eng e).sclPin ∧ (t.eng e).sdaPin = (s.eng e).sdaPin ∧
    (t.eng e).configured = (s.eng e).configured ∧ (t.eng e).cfgAddress = (s.eng e).cfgAddress ∧
    (t.eng e).cfgCsmask = (s.eng e).cfgCsmask ∧ (t.eng e).matched = (s.eng e).matched ∧ (t.eng e).rw = (s.eng e).rw ∧
    (t.eng e).ack = (s.eng e).ack ∧ (t.eng e).periph = (s.eng e).periph

/-- A command other than `ADVANCE` and the reads went through: `cp` one further, no fault, and the counter, the parameters, the
stream, the output log and the nesting depth as they were (R87, R88, R119, R360). -/
structure Done (s t : State) : Prop where
  cp : t.cp = s.cp + 1
  fault : SameFault s t
  host : SameHostSide s t
  cycle : t.cycle = s.cycle
  depth : t.depth = s.depth

/-- A pin has the driving state it was given, or an attached engine has released it as its data pin since (R160, R252). -/
def DrivenTo (s t : State) (p : Nat) (d : Drive) : Prop :=
  (t.pin p).drive = d ∨ ((t.pin p).drive = .digital .floating ∧ isEngineSda s p)

/-- What a change at one pin leaves of the rest: every other pin's setup and, but for released data pins, its driving state; every
driving-value; what the host and the last byte left of every engine (R150, R152, R160, R216, R246 to R249). -/
structure RestKept (s t : State) (p : Nat) : Prop where
  setup : ∀ q, q ≠ p → SamePinSetup s t q
  drives : ∀ q, q ≠ p → DriveKeptOrReleased s t q
  driving : ∀ r, (t.port r).driving = (s.port r).driving
  engines : ∀ e, SameEngineSetup s t e

/-- What `PORT_WRITE r, v` leaves wherever it completes: all 8 bits stored, every enabled bit's pin driven strongly to its bit, and
nothing of the rest but released data pins (R213, R214). -/
structure PortWritten (s t : State) (r : Nat) (v : Byte) : Prop where
  driving : (t.port r).driving = v
  pins : ∀ i, i < 8 → (s.portCfg r).enable.getLsbD i = true →
    DrivenTo s t ((s.portCfg r).base + i) (.digital (if v.getLsbD i then .drivenHigh else .drivenLow))
  drives : ∀ q, (∀ i, i < 8 → (s.portCfg r).enable.getLsbD i = true → q ≠ (s.portCfg r).base + i) → DriveKeptOrReleased s t q
  setup : ∀ q, SamePinSetup s t q
  others : ∀ f, f ≠ r → (t.port f).driving = (s.port f).driving
  engines : ∀ e, SameEngineSetup s t e

/-- What neither `TW_RESET` nor `TW_ATTACH` writes of the engine it names: configuration, last match and verdict, peripheral (R243,
R244). -/
structure EngineKept (s t : State) (e : Nat) : Prop where
  configured : (t.eng e).configured = (s.eng e).configured
  cfgAddress : (t.eng e).cfgAddress = (s.eng e).cfgAddress
  cfgCsmask : (t.eng e).cfgCsmask = (s.eng e).cfgCsmask
  matched : (t.eng e).matched = (s.eng e).matched
  rw : (t.eng e).rw = (s.eng e).rw
  periph : (t.eng e).periph = (s.eng e).periph

/-- What `TW_RESET e` of an engine pulling its data pin low leaves wherever it completes: its fields cleared and SDA released (R244). -/
structure PullReleased (s t : State) (e : Nat) : Prop where
  sdaDrive : (t.eng e).sdaDrive = false
  bits : (t.eng e).bits = 0
  shift : (t.eng e).shift = 0
  ack : (t.eng e).ack = false
  drive : (t.pin (s.eng e).sdaPin.toNat).drive = .digital .floating
  attached : (t.eng e).attached = true
  sclPin : (t.eng e).sclPin = (s.eng e).sclPin
  sdaPin : (t.eng e).sdaPin = (s.eng e).sdaPin
  kept : EngineKept s t e
  engines : ∀ f, f ≠ e → SameEngineSetup s t f
  setup : ∀ q, SamePinSetup s t q
  drives : ∀ q, q ≠ (s.eng e).sdaPin.toNat → DriveKeptOrReleased s t q
  driving : ∀ r, (t.port r).driving = (s.port r).driving

/-- What `TW_ATTACH e, scl, sda` leaves wherever it completes: the engine attached to the two pins with SDA released and its latches
at the present line values, `X` as 1; the clock pin an `Input`, the data pin `BiDirectional` and open-collector; and an engine that
was not pulling its old data pin `Idle` with nothing pending (R243). -/
structure AttachedTo (s t : State) (e scl sda : Byte) : Prop where
  attached : (t.eng e.toNat).attached = true
  sclPin : (t.eng e.toNat).sclPin = scl
  sdaPin : (t.eng e.toNat).sdaPin = sda
  sdaDrive : (t.eng e.toNat).sdaDrive = false
  sclSeen : (t.eng e.toNat).sclSeen = false ↔ logic (t.pin scl.toNat).driven = some false
  sdaSeen : (t.eng e.toNat).sdaSeen = false ↔ logic (t.pin sda.toNat).driven = some false
  sclDir : (t.pin scl.toNat).dir = .input
  sclOc : (t.pin scl.toNat).oc = (s.pin scl.toNat).oc
  sclPu : (t.pin scl.toNat).pu = (s.pin scl.toNat).pu
  sdaDir : (t.pin sda.toNat).dir = .biDirectional
  sdaOc : (t.pin sda.toNat).oc = true
  sdaPu : (t.pin sda.toNat).pu = (s.pin sda.toNat).pu
  drive : (t.pin sda.toNat).drive = .digital .floating
  kept : EngineKept s t e.toNat
  idle : ((s.eng e.toNat).attached = false ∨ (s.eng e.toNat).sdaDrive = false) →
    (t.eng e.toNat).state = .idle ∧ (t.eng e.toNat).bits = 0 ∧ (t.eng e.toNat).shift = 0 ∧ (t.eng e.toNat).ack = false ∧
      (t.eng e.toNat).pend = none ∧ ¬ hasEntry t (.eng e.toNat)
  engines : ∀ f, f ≠ e.toNat → SameEngineSetup s t f
  node : ∀ q, (t.pin q).node = (s.pin q).node
  setup : ∀ q, q ≠ scl.toNat → q ≠ sda.toNat → SamePinSetup s t q
  drives : ∀ q, q ≠ sda.toNat → DriveKeptOrReleased s t q
  driving : ∀ r, (t.port r).driving = (s.port r).driving

end Sys2Proof.Machine
end

