-- ==== Sys2Proof/Certificates/Slice0/Obligations.lean ====
section
/-! DEFINITION. The statements for the provers, each from the spec's numbered rules, about the block and never about a program. -/

open Sys2Proof Sys2Proof.Machine

/-! ### Words and commands (30_encoding.md) -/

/-- R82, R83, R86: every command, with every operand its fields admit, is read back from the word the encoder writes. -/
def Obligations.DecodeInvertsEncode : Prop :=
  ∀ i : Instr, decode (encode i) = .ok i

/-- R83, R90: no two words spell one command: a word that decodes is the word of the command it decodes to. -/
def Obligations.EncodeInvertsDecode : Prop :=
  ∀ (w : Word) (i : Instr), decode w = .ok i → encode i = w

/-- R90: the opcode map, row by row (opcode, match, mask). A word whose opcode no row has is illegal and raises
`ILLEGAL_OPCODE`; a word with a row's opcode spells that row's command, and fails the reserved-field check exactly when it
disagrees with the row under its mask. -/
def Obligations.OpcodeMapRows : Prop :=
  ∀ rows : List (Op × Word × Word),
    rows = [(.now, 0x01000000, 0xFFFFFFFF), (.advance, 0x02000000, 0xFFFF0000), (.pinDrive, 0x10000000, 0xFF00FFF8),
      (.pinRead, 0x11000000, 0xFF00FFFF), (.pinConfig, 0x12000000, 0xFF00FFF0), (.pinAnalog, 0x13000000, 0xFF000000),
      (.nodeAttach, 0x18000000, 0xFF0000FF), (.nodeDetach, 0x19000000, 0xFF00FFFF), (.nodeRead, 0x1A000000, 0xFF00FFFF),
      (.portWrite, 0x20000000, 0xFF00FF00), (.portRead, 0x21000000, 0xFF00FFFF), (.twConfigure, 0x30000000, 0xFF000000),
      (.twAttach, 0x31000000, 0xFF000000), (.twReset, 0x32000000, 0xFF00FFFF), (.twStatus, 0x33000000, 0xFF00FFFF)] →
    (∀ w : Word, decode w = .error .illegalOpcode ↔ ∀ r ∈ rows, w &&& 0xFF000000 ≠ r.2.1 &&& 0xFF000000) ∧
    (∀ r ∈ rows, ∀ w : Word, w &&& 0xFF000000 = r.2.1 &&& 0xFF000000 →
      (decode w = .error .reservedField ↔ w &&& r.2.2 ≠ r.2.1) ∧ ∀ i, decode w = .ok i → i.op = r.1) ∧
    ∀ (s : State) (w : Word), s.faultCode = 0 → fetch s = some w → (∀ r ∈ rows, w &&& 0xFF000000 ≠ r.2.1 &&& 0xFF000000) →
      step s = .next (faulted .illegalOpcode s)

/-- R84, R85: the code fields. `PIN_DRIVE` names the six levels by codes 0 to 5 and `PIN_CONFIG` the three directions by codes 0
to 2; the reserved codes raise `BAD_CODE`; and the value a read of a level returns is its code, never a reserved one. -/
def Obligations.CodeFieldValues : Prop :=
  (∀ w : Word, w &&& 0xFF00FFF8 = 0x10000000 → decode w =
    (match (w &&& 7).toNat with
      | 0 => .ok (.pinDrive (w.extractLsb' 16 8) .drivenLow)
      | 1 => .ok (.pinDrive (w.extractLsb' 16 8) .drivenHigh)
      | 2 => .ok (.pinDrive (w.extractLsb' 16 8) .weakLow)
      | 3 => .ok (.pinDrive (w.extractLsb' 16 8) .weakHigh)
      | 4 => .ok (.pinDrive (w.extractLsb' 16 8) .floating)
      | 5 => .ok (.pinDrive (w.extractLsb' 16 8) .unknown)
      | _ => .error .badCode)) ∧
  (∀ w : Word, w &&& 0xFF00FFF0 = 0x12000000 → decode w =
    (match (w &&& 3).toNat with
      | 0 => .ok (.pinConfig (w.extractLsb' 16 8) .input (w.getLsbD 2) (w.getLsbD 3))
      | 1 => .ok (.pinConfig (w.extractLsb' 16 8) .output (w.getLsbD 2) (w.getLsbD 3))
      | 2 => .ok (.pinConfig (w.extractLsb' 16 8) .biDirectional (w.getLsbD 2) (w.getLsbD 3))
      | _ => .error .badCode)) ∧
  (∀ (s : State) (w : Word), s.faultCode = 0 → fetch s = some w → decode w = .error .badCode →
    step s = .next (faulted .badCode s)) ∧
  levelValue .drivenLow = 0 ∧ levelValue .drivenHigh = 1 ∧ levelValue .weakLow = 2 ∧ levelValue .weakHigh = 3 ∧
    levelValue .floating = 4 ∧ levelValue .unknown = 5

/-- R90, R163, R198, R213, R242, R243: words written out bit by bit from the formats of R83, one family at a time, read as the
commands they stand for. -/
def Obligations.SampleWordsDecode : Prop :=
  decode 0x01000000 = .ok .now ∧
  decode 0x0200FFFF = .ok (.advance 0xFFFF) ∧
  decode 0x10050004 = .ok (.pinDrive 5 .floating) ∧
  decode 0x1201000E = .ok (.pinConfig 1 .biDirectional true true) ∧
  decode 0x13001388 = .ok (.pinAnalog 0 5000) ∧
  decode 0x18020100 = .ok (.nodeAttach 2 1) ∧
  decode 0x200000FF = .ok (.portWrite 0 0xFF) ∧
  decode 0x3000A0FE = .ok (.twConfigure 0 0xA0 0xFE) ∧
  decode 0x31000203 = .ok (.twAttach 0 2 3)

/-- R65: a command word is never split, and in a byte image it stands in little-endian order, the byte holding bits `[7:0]`
first. -/
def Obligations.ByteImageLittleEndian : Prop :=
  (∀ (w : Word) (k : Nat), k < 4 → (bytesOfWord w)[k]? = some (w.extractLsb' (8 * k) 8)) ∧
  (∀ w : Word, (bytesOfWord w).length = 4) ∧
  ∀ (w : Word) (rest : List Byte), decodeBytes (bytesOfWord w ++ rest) = (decode w).map fun i => (i, rest)

/-! ### The step (R88), faults (60_exceptions.md) and reset (70_reset_and_hazards.md) -/

/-- R88: a running block whose word at `cp` decodes to a command takes exactly that command's step. The per-command statements
reach a run through this one. -/
def Obligations.StepRunsDecodedCommand : Prop :=
  ∀ (s : State) (w : Word) (i : Instr), s.faultCode = 0 → fetch s = some w → decode w = .ok i → step s = exec i s

/-- R88, R89, R300, R301: a word that fails a decode check raises the fault of that check and has no other effect: the record
holds its code (1, 2 or 3), the word and the cycle, `cp` stays at the word. -/
def Obligations.DecodeFaultHasNoOtherEffect : Prop :=
  ∀ (s : State) (w : Word) (d : DecodeError), s.faultCode = 0 → fetch s = some w → decode w = .error d →
    step s = .next { s with
      faultCode := match d with
        | .illegalOpcode => 1
        | .reservedField => 2
        | .badCode => 3
        | .truncated => 0
      faultWord := w, faultCycle := s.cycle, depth := 0 } ∧ d ≠ .truncated

/-- R302, R345: a halted block executes nothing, whatever the word at `cp`; only power-on reset clears the record; and a running
block whose stream has no command at `cp` has ended its run. -/
def Obligations.NoStepWhenHaltedOrEnded : Prop :=
  (∀ s : State, s.faultCode ≠ 0 → step s = .fault .halted) ∧
  (∀ s : State, (powerOnReset s).faultCode = 0 ∧ (powerOnReset s).faultWord = 0 ∧ (powerOnReset s).faultCycle = 0) ∧
  ∀ s : State, s.faultCode = 0 → (step s = .fault .streamEnd ↔ s.stream.length ≤ s.cp)

/-- R300: raising a fault writes the record (the code, the word at `cp`, the cycle), clears `depth` and changes nothing else, so
every earlier write stays and `cp` still names the command; the rest of the command is abandoned. The codes are those of R301. -/
def Obligations.RaiseWritesRecord : Prop :=
  ∀ (s : State) (f : State → Res),
    (∀ c, (raise c s).andThen f = .halt { s with
      faultCode := match c with
        | .illegalOpcode => 1
        | .reservedField => 2
        | .badCode => 3
        | .badIndex => 4
        | .schedPast => 5
        | .cycleOverflow => 6
        | .notifyDepth => 7
        | .pinConflict => 8
      faultWord := s.stream.getD s.cp 0, faultCycle := s.cycle, depth := 0 })

/-- R61, R88, R303: a command with an index outside its space raises `BAD_INDEX` (code 4) before any other effect. -/
def Obligations.BadIndexRaisesBeforeAnyEffect : Prop :=
  ∀ (i : Instr) (s : State), i.wellFormed s.cfg = false →
    exec i s = .next { s with faultCode := 4, faultWord := s.stream.getD s.cp 0, faultCycle := s.cycle, depth := 0 }

/-- R27, R88, R300: every command answers a next state, and ends in one of two ways: it completes, `cp` one further and the fault
record as it was; or it raises one fault, the record holding the code, its own word and the cycle then, `cp` still at it and
`depth` 0. Neither changes the parameters or the stream (R54, R74). -/
def Obligations.EveryCommandCompletesOrFaults : Prop :=
  ∀ (i : Instr) (s : State), Ready s → ∃ t, exec i s = .next t ∧ t.cfg = s.cfg ∧ t.stream = s.stream ∧
    ((t.cp = s.cp + 1 ∧ SameFault s t) ∨
      (t.cp = s.cp ∧ 1 ≤ t.faultCode.toNat ∧ t.faultCode.toNat ≤ 8 ∧ t.faultWord = s.stream.getD s.cp 0 ∧
        t.faultCycle = t.cycle ∧ t.depth = 0))

/-- R114, R304: no command ever raises `SCHED_PAST` (code 5), and a fault that stops `ADVANCE` is `CYCLE_OVERFLOW` (6) or
`NOTIFY_DEPTH` (7). -/
def Obligations.FaultsThatCanArise : Prop :=
  ∀ (i : Instr) (s t : State), Ready s → exec i s = .next t →
    t.faultCode ≠ 5 ∧ ∀ imm, i = .advance imm → t.faultCode = 0 ∨ t.faultCode = 6 ∨ t.faultCode = 7

/-- R341: the reset state, field by field, for every configuration. -/
def Obligations.ResetFields : Prop :=
  ∀ (c : Config) (s : State), s = State.resetWith c →
    s.cfg = c ∧ s.cycle = 0 ∧ s.pending = [] ∧ s.nextSeq = 0 ∧ s.faultCode = 0 ∧ s.faultWord = 0 ∧ s.faultCycle = 0 ∧
    s.diagLog = [] ∧ s.outLog = [] ∧ s.cp = 0 ∧ s.depth = 0 ∧
    (∀ p, p < c.numPins → (s.pin p).dir = .input ∧ (s.pin p).oc = false ∧ (s.pin p).pu = false ∧
      (s.pin p).drive = .digital .floating ∧ (s.pin p).node = none ∧ (s.pin p).driven = .floating) ∧
    (∀ n, n < c.numNodes → (s.node n).level = .floating ∧ (s.node n).contended = false ∧ (s.node n).voltage = 0 ∧
      (s.node n).v0 = 0 ∧ (s.node n).vt = 0 ∧ (s.node n).zth = 0 ∧ (s.node n).cth = 0 ∧ (s.node n).t0 = 0 ∧
      (s.node n).settling = false) ∧
    (∀ r, r < c.numPorts → (s.port r).driving = 0x00 ∧
      (s.port r).driven = (s.portCfg r).dflt &&& ~~~(s.portCfg r).enable) ∧
    (∀ e, e < c.numEngines → (s.eng e).attached = false ∧ (s.eng e).sclPin = 0 ∧ (s.eng e).sdaPin = 0 ∧
      (s.eng e).configured = false ∧ (s.eng e).cfgAddress = 0x00 ∧ (s.eng e).cfgCsmask = 0xFE ∧ (s.eng e).state = .idle ∧
      (s.eng e).bits = 0 ∧ (s.eng e).shift = 0 ∧ (s.eng e).matched = 0 ∧ (s.eng e).rw = false ∧ (s.eng e).ack = false ∧
      (s.eng e).sdaDrive = false ∧ (s.eng e).sclSeen = true ∧ (s.eng e).sdaSeen = true ∧ (s.eng e).pend = none ∧
      (s.eng e).periph = []) ∧
    s.pins.length = c.numPins ∧ s.nodes.length = c.numNodes ∧ s.ports.length = c.numPorts ∧
    s.engines.length = c.numEngines

/-- R342, R343: the reset state is already in order, for every configuration: every node and pin resolved, nothing pending, every
port bit and latch in agreement, no bus state that is never entered; and power-on reset of any state leaves that state, its
stream (which is the host's) and the model's own counter of free values kept. `State.reset` is that state for the spec's test
configuration (notes/assumptions/5.md, 11.md and 13.md). -/
def Obligations.ResetInOrder : Prop :=
  ∀ c : Config, InOrder (State.resetWith c) ∧ StatesEntered (State.resetWith c) ∧ DisabledBitsDefault (State.resetWith c) ∧
    UnattachedNoEntry (State.resetWith c) ∧ (∀ n, members (State.resetWith c) n = []) ∧ (∀ p, aloneLevel (State.resetWith c) p = .floating) ∧
    (∀ s : State, s.cfg = c → { powerOnReset s with stream := [], draws := 0 } = State.resetWith c ∧
      (powerOnReset s).stream = s.stream ∧ (powerOnReset s).draws = s.draws) ∧
    State.reset = State.resetWith Config.test

/-! ### Reads and configuration: exact next states -/

/-- R67, R69, R85, R111, R162, R166: `NOW` appends the present cycle to the output log, `PIN_READ` the code of the pin's driven
state and `NODE_READ` that of the node's level; none of them changes anything else. -/
def Obligations.ReadsReturnValues : Prop :=
  (∀ s : State, exec .now s = .next { s with outLog := s.outLog ++ [⟨s.cycle, s.cycle⟩], cp := s.cp + 1 }) ∧
  (∀ (p : Byte) (s : State), p.toNat < s.cfg.numPins →
    exec (.pinRead p) s =
      .next { s with outLog := s.outLog ++ [⟨s.cycle, ((s.pin p.toNat).driven.code).setWidth 64⟩], cp := s.cp + 1 }) ∧
  ∀ (n : Byte) (s : State), n.toNat < s.cfg.numNodes →
    exec (.nodeRead n) s =
      .next { s with outLog := s.outLog ++ [⟨s.cycle, ((s.node n.toNat).level.code).setWidth 64⟩], cp := s.cp + 1 }

/-- R44, R52, R245: `TW_STATUS` appends one word that holds the engine's registers at the bits the table gives them, and changes
nothing else. -/
def Obligations.StatusWordFields : Prop :=
  ∀ (e : Byte) (s : State) (g : Engine), e.toNat < s.cfg.numEngines → g = s.eng e.toNat →
    ∃ w : Word,
      exec (.twStatus e) s = .next { s with outLog := s.outLog ++ [⟨s.cycle, w.setWidth 64⟩], cp := s.cp + 1 } ∧
      (w.extractLsb' 0 4).toNat =
        (match g.state with
          | .idle => 0 | .start => 1 | .rxAddress => 2 | .ackAddress => 3 | .rxData => 4 | .ackReceivedData => 5
          | .ackAfterWrite => 6 | .writePending => 7 | .ackRead => 8 | .txData => 9) ∧
      w.extractLsb' 4 4 = g.bits ∧ w.extractLsb' 8 8 = g.shift ∧ w.extractLsb' 16 8 = g.matched ∧
      w.getLsbD 24 = g.rw ∧ w.getLsbD 25 = g.sdaDrive ∧ w.getLsbD 26 = g.ack ∧ w.getLsbD 27 = g.attached ∧
      w.getLsbD 28 = g.configured ∧
      (w.extractLsb' 29 2).toNat = (match g.pend with | none => 0 | some .fall => 1 | some .rise => 2) ∧
      w.getLsbD 31 = false

/-- R215, R311: `PORT_READ` appends the driven-value under the output mask; first, if a read bit's pin has no definite level, it
records one `PORT_FLOAT` (kind 2) with the mask of those bits; it changes nothing else. -/
def Obligations.PortReadValue : Prop :=
  ∀ (r : Byte) (s : State), r.toNat < s.cfg.numPorts → ∃ fl : Byte,
    (∀ i, i < 8 → (fl.getLsbD i = true ↔ (s.portCfg r.toNat).enable.getLsbD i = true ∧
      (s.portCfg r.toNat).outMask.getLsbD i = true ∧ logic (s.pin ((s.portCfg r.toNat).base + i)).driven = none)) ∧
    exec (.portRead r) s = .next { s with
      diagLog := if fl = 0 then s.diagLog else s.diagLog ++ [⟨2, s.cycle, r, fl⟩]
      outLog := s.outLog ++ [⟨s.cycle, ((s.port r.toNat).driven &&& (s.portCfg r.toNat).outMask).setWidth 64⟩]
      cp := s.cp + 1 }

/-- R242: `TW_CONFIGURE` writes the engine's address, mask and `configured`, and nothing else: a transfer in progress goes on. -/
def Obligations.TwConfigureStores : Prop :=
  ∀ (e addr csmask : Byte) (s : State), Shaped s → e.toNat < s.cfg.numEngines → ∃ t, exec (.twConfigure e addr csmask) s = .next t ∧
    t.eng e.toNat = { s.eng e.toNat with cfgAddress := addr, cfgCsmask := csmask, configured := true } ∧
    (∀ f, f ≠ e.toNat → t.eng f = s.eng f) ∧ { t with engines := s.engines, cp := s.cp } = s ∧ t.cp = s.cp + 1

/-! ### Time (41_timebase.md) -/

/-- R117: `ADVANCE` past the end of the counter raises `CYCLE_OVERFLOW` (code 6) before any change; with nothing due by its
target, `ADVANCE 0` among them, it moves the counter there and changes nothing else. -/
def Obligations.AdvanceOverflowsOrMovesTheCounter : Prop :=
  ∀ (imm : BitVec 16) (s : State),
    (2 ^ 64 - 1 < s.cycle.toNat + imm.toNat →
      exec (.advance imm) s =
        .next { s with faultCode := 6, faultWord := s.stream.getD s.cp 0, faultCycle := s.cycle, depth := 0 }) ∧
    (s.cycle.toNat + imm.toNat ≤ 2 ^ 64 - 1 → (∀ x ∈ s.pending, s.cycle.toNat + imm.toNat < x.due.toNat) →
      exec (.advance imm) s =
        .next { s with cycle := BitVec.ofNat 64 (s.cycle.toNat + imm.toNat), cp := s.cp + 1 })

/-- R116, R118: `AdvanceTo(target)` fires the next due entry and goes on from there, or, with none due, sets the counter to the
target; a fault in a callback ends it there. Firing an entry removes it, sets the counter to its due cycle and runs its owner's
callback: an engine's clock edge or a node's settle step (R110). R250: an engine's callback takes its waiting edge and runs that
edge's row once, with the data bit its SDA latch holds; with no edge waiting it does nothing more. R195: a node's callback takes its
voltage at this cycle; within the threshold of the target the node settles there and its callback is gone, otherwise it keeps what
its settling started from and its callback is scheduled `STEP_FN` cycles ahead, at least one and within `5τ` no later than that
(R13, R197, notes/assumptions/3.md); in both cases the level of the voltage it then has is published. -/
def Obligations.AdvanceFiresOneAtATime : Prop :=
  (∀ (s : State) (target : Cycle), Ready s →
    advanceTo target s =
      (match nextDue target s with
        | none => .ok { s with cycle := target }
        | some x => (fire x s).andThen (advanceTo target))) ∧
  (∀ (e : Nat) (s u : State), u = s.setEng e { s.eng e with pend := none } →
    ((s.eng e).pend = none → engCallback e s = .ok u) ∧
    ∀ edge, (s.eng e).pend = some edge → engCallback e s = edgeRow e edge (s.eng e).sdaSeen u) ∧
  (∀ (n : Nat) (s : State) (x : Node) (v : Sys2Proof.Num) (step : Nat) (res : Job → State → Res), Shaped s → n < s.cfg.numNodes →
    x = s.node n → v = voltageAt s n s.cycle →
    step = stepCycles s.cfg v x.vt (x.zth * x.cth) (s.cycle.toNat - x.t0.toNat) →
    (|v - x.vt| ≤ s.cfg.settleEps → runJobVia res (.settle n) s = publishVia res n (levelOf s.cfg x.vt)
      { s.setNode n { x with voltage := x.vt, settling := false } with
        pending := s.pending.filter fun y => decide (y.owner ≠ .node n) }) ∧
    (s.cfg.settleEps < |v - x.vt| → runJobVia res (.settle n) s =
      (schedule (.node n) (s.cycle.toNat + step) (s.setNode n { x with voltage := v })).andThen
        (publishVia res n (levelOf s.cfg v))) ∧
    1 ≤ step ∧ (s.cycle.toNat - x.t0.toNat < horizon s.cfg (x.zth * x.cth) →
      step ≤ max 1 (horizon s.cfg (x.zth * x.cth) - (s.cycle.toNat - x.t0.toNat)))) ∧
  ∀ (s : State) (due : Cycle) (seq : Nat),
    (∀ e, fire ⟨.eng e, due, seq⟩ s =
      engCallback e { s with pending := s.pending.filter fun y => decide (y.owner ≠ .eng e), cycle := due }) ∧
    ∀ n, fire ⟨.node n, due, seq⟩ s =
      resolve (.settle n) { s with pending := s.pending.filter fun y => decide (y.owner ≠ .node n), cycle := due }

/-- R112, R118: what is fired next is the pending entry due at or before the target with the least pair of due cycle and sequence
number: at one cycle, in the order of scheduling. -/
def Obligations.NextDueIsLeast : Prop :=
  ∀ (s : State) (target : Cycle) (x : Entry), PendingBase s →
    (nextDue target s = some x ↔ x ∈ s.pending ∧ x.due.toNat ≤ target.toNat ∧
      ∀ y ∈ s.pending, y ≠ x → x.due.toNat < y.due.toNat ∨ (x.due.toNat = y.due.toNat ∧ x.seq < y.seq))

/-- R117, R118: an `ADVANCE` from a block in order that completes leaves the counter at its target with every entry due by then
fired, those that callbacks scheduled on the way too; one that a callback faults leaves the counter at that callback's due cycle,
between the start and the target, and the record says so. -/
def Obligations.AdvanceReachesTarget : Prop :=
  ∀ (imm : BitVec 16) (s t : State), InOrder s → s.faultCode = 0 → s.cycle.toNat + imm.toNat ≤ 2 ^ 64 - 1 →
    exec (.advance imm) s = .next t →
    (t.faultCode = 0 → t.cycle.toNat = s.cycle.toNat + imm.toNat ∧ t.cp = s.cp + 1 ∧
      ∀ x ∈ t.pending, s.cycle.toNat + imm.toNat < x.due.toNat) ∧
    (t.faultCode ≠ 0 → t.cp = s.cp ∧ t.faultCycle = t.cycle ∧ s.cycle.toNat ≤ t.cycle.toNat ∧
      t.cycle.toNat ≤ s.cycle.toNat + imm.toNat)

/-- R117, R304: where `ADVANCE` completes: in a block in order, with no node in analog mode and more levels of nesting than
engines, to a target below the last cycle. Everything due has fired, and the block is in order again. -/
def Obligations.AdvanceCompletesWhenCalm : Prop :=
  ∀ (imm : BitVec 16) (s : State), InOrder s → Calm s → s.faultCode = 0 → s.cycle.toNat + imm.toNat + 1 ≤ 2 ^ 64 - 1 →
    ∃ t, exec (.advance imm) s = .next t ∧ t.cycle.toNat = s.cycle.toNat + imm.toNat ∧ t.cp = s.cp + 1 ∧ SameFault s t ∧
      SameHostSide s t ∧ InOrder t

/-- R114, R115, R122: `schedule` at or before the present cycle is `SCHED_PAST`, past the counter's end `CYCLE_OVERFLOW`; else it
replaces its owner's entry and takes the next sequence number, and changes nothing else; `cancel` removes the owner's entry and
changes nothing else. So of two schedules of one owner only the second is left,
and after a cancel none. -/
def Obligations.ScheduleReplacesCancelRemoves : Prop :=
  (∀ (o : Owner) (due : Nat) (s : State),
    (due ≤ s.cycle.toNat → schedule o due s = .halt (faulted .schedPast s)) ∧
    (s.cycle.toNat < due → 2 ^ 64 - 1 < due → schedule o due s = .halt (faulted .cycleOverflow s)) ∧
    (s.cycle.toNat < due → due ≤ 2 ^ 64 - 1 → ∃ t, schedule o due s = .ok t ∧
      (∀ x, x ∈ t.pending ↔ (x ∈ s.pending ∧ x.owner ≠ o) ∨ (x.owner = o ∧ x.due.toNat = due ∧ x.seq = s.nextSeq)) ∧
      t.nextSeq = s.nextSeq + 1 ∧ { t with pending := s.pending, nextSeq := s.nextSeq } = s)) ∧
  ∀ (o : Owner) (s : State),
    (∀ x, x ∈ (cancel o s).pending ↔ x ∈ s.pending ∧ x.owner ≠ o) ∧ { cancel o s with pending := s.pending } = s

/-- R20, R121, R360: the counter never goes back, and only `ADVANCE` moves it. -/
def Obligations.TimeNeverGoesBack : Prop :=
  (∀ s t : State, Ready s → step s = .next t → s.cycle.toNat ≤ t.cycle.toNat) ∧
  ∀ (i : Instr) (s t : State), Shaped s → (∀ imm, i ≠ .advance imm) → exec i s = .next t → t.cycle = s.cycle

/-! ### Digital resolution (42_pin_node.md) -/

/-- R147: the digital resolution table, line by line, and that it depends only on the set of contributions. -/
def Obligations.ResolutionTable : Prop :=
  (∀ (c : List Level) (pu : Bool),
    (.drivenHigh ∈ c → .drivenLow ∈ c → resolveDigital c pu = (.unknown, true)) ∧
    (¬ (.drivenHigh ∈ c ∧ .drivenLow ∈ c) → .unknown ∈ c → resolveDigital c pu = (.unknown, false)) ∧
    (.unknown ∉ c → .drivenHigh ∈ c → .drivenLow ∉ c → resolveDigital c pu = (.drivenHigh, false)) ∧
    (.unknown ∉ c → .drivenLow ∈ c → .drivenHigh ∉ c → resolveDigital c pu = (.drivenLow, false)) ∧
    (.unknown ∉ c → .drivenHigh ∉ c → .drivenLow ∉ c →
      ((.weakHigh ∈ c ∨ pu = true) → .weakLow ∈ c → resolveDigital c pu = (.unknown, false)) ∧
      ((.weakHigh ∈ c ∨ pu = true) → .weakLow ∉ c → resolveDigital c pu = (.weakHigh, false)) ∧
      (.weakHigh ∉ c → pu = false → .weakLow ∈ c → resolveDigital c pu = (.weakLow, false)) ∧
      (.weakHigh ∉ c → pu = false → .weakLow ∉ c → resolveDigital c pu = (.floating, false)))) ∧
  ∀ (c d : List Level) (pu : Bool), (∀ l, l ∈ c ↔ l ∈ d) → resolveDigital c pu = resolveDigital d pu

/-- R143, R144, R145: what a pin offers: an `Input` pin offers nothing, an open-collector pin never a high level, any other pin
what it drives; and the bit a level reads as.
R35, R36, R146: a node's members, ascending; its pull-up; its mode. R191, R192: the sources a pin offers, row by row, its pull-up's
in addition. R193: the target is the conductance-weighted mean of the sources, the resistance their parallel one (exactly,
notes/assumptions/4.md; the formulas are the spec's general knowledge, 23.md), the capacitance the members' sum. R196: the
thresholds, both inclusive. R149, R200: the level of a pin on no node. -/
def Obligations.ContributionAndLogic : Prop :=
  (∀ (x : Pin) (l : Level), x.drive = .digital l → x.dir = .input → contribution x = .floating) ∧
  (∀ (x : Pin) (l : Level), x.drive = .digital l → x.oc = true → (l = .drivenHigh ∨ l = .weakHigh) →
    contribution x = .floating) ∧
  (∀ (x : Pin) (l : Level), x.drive = .digital l → x.dir ≠ .input → (x.oc = false ∨ (l ≠ .drivenHigh ∧ l ≠ .weakHigh)) →
    contribution x = l) ∧
  (∀ l, logic l = some true ↔ l = .drivenHigh ∨ l = .weakHigh) ∧
  (∀ l, logic l = some false ↔ l = .drivenLow ∨ l = .weakLow) ∧
  (∀ l, logic l = none ↔ l = .floating ∨ l = .unknown) ∧
  (∀ (s : State) (n : Nat), (members s n).Pairwise (· < ·) ∧
    (∀ p, p ∈ members s n ↔ p < s.cfg.numPins ∧ (s.pin p).node = some n) ∧
    (pullup s n = true ↔ ∃ p ∈ members s n, (s.pin p).pu = true) ∧
    (analogMode s n = true ↔ ∃ p ∈ members s n, ∃ mv, (s.pin p).drive = .analog mv) ∧
    digitalLevel s n = (resolveDigital ((members s n).map fun p => contribution (s.pin p)) (pullup s n)).1 ∧
    nodeSources s n = (members s n).flatMap (pinSources s) ∧
    nodeC s n = ((members s n).map fun p => (s.cfg.pins.getD p ⟨1, 0⟩).c).sum) ∧
  (∀ (s : State) (p : Nat) (x : Pin) (up : List Source), x = s.pin p →
    up = (if x.pu then [⟨s.cfg.vdd, s.cfg.zPullup⟩] else []) →
    (x.dir = .input → pinSources s p = up) ∧
    (∀ mv, x.dir ≠ .input → x.drive = .analog mv →
      pinSources s p = ⟨(mv.toNat : Sys2Proof.Num) / 1000, (s.cfg.pins.getD p ⟨1, 0⟩).z⟩ :: up) ∧
    (∀ l, x.dir ≠ .input → x.drive = .digital l →
      (contribution x = .drivenHigh → pinSources s p = ⟨s.cfg.vdd, s.cfg.zStrong⟩ :: up) ∧
      (contribution x = .drivenLow → pinSources s p = ⟨0, s.cfg.zStrong⟩ :: up) ∧
      (contribution x = .weakHigh → pinSources s p = ⟨s.cfg.vdd, s.cfg.zWeak⟩ :: up) ∧
      (contribution x = .weakLow → pinSources s p = ⟨0, s.cfg.zWeak⟩ :: up) ∧
      ((contribution x = .floating ∨ contribution x = .unknown) → pinSources s p = up)) ∧
    (∀ l, x.drive = .digital l → aloneLevel s p = (resolveDigital [contribution x] x.pu).1) ∧
    ∀ mv, x.drive = .analog mv → (pinSources s p = [] → aloneLevel s p = .floating) ∧
      (pinSources s p ≠ [] → aloneLevel s p = levelOf s.cfg (theveninV (pinSources s p)))) ∧
  (∀ (xs : List Source) (cond : Sys2Proof.Num), cond = (xs.map fun x => 1 / x.z).sum → cond ≠ 0 →
    theveninV xs * cond = (xs.map fun x => x.v / x.z).sum ∧ theveninZ xs * cond = 1) ∧
  ∀ (c : Config) (v : Sys2Proof.Num), (c.vih ≤ v → levelOf c v = .drivenHigh) ∧
    (v < c.vih → v ≤ c.vil → levelOf c v = .drivenLow) ∧ (v < c.vih → c.vil < v → levelOf c v = .unknown)

/-- R168: a resolved node whose members are open-collector pins with digital drives and at least one pull-up is a wired-AND bus:
never contended; `WeakHigh` when every member contributes `Floating`; `DrivenLow` when one contributes `DrivenLow` and none
`Unknown`; `Unknown` only when some member contributes `Unknown`, or some contributes `WeakLow` while none contributes
`DrivenLow`.
R148, R150, R311: a resolution of any digital node appends the record `CONTENTION` (kind 1, the cycle, the node, 0) exactly if it
is contended, before anything it notifies; and with no engine attached that is all it appends, and the node's flag says so.
R11, R150, R151, R195: a resolution raises `NOTIFY_DEPTH` exactly where `depth` has reached `MAX_NOTIFY_DEPTH`, before any effect;
otherwise it runs with `depth` one more, which it takes back at its end, and what it starts on the way is a resolution from that
depth, with one level less. R150, R199: of a digital node it writes the flag, records contention, ends the node's settling and
publishes the table's level; of a node in analog mode it runs the analog update and publishes its voltage's level. R151: of a pin on
no node it notifies if the level the pin offers alone is a new one. -/
def Obligations.WiredAndBus : Prop :=
  (∀ (s : State) (n : Nat), n < s.cfg.numNodes → NodeResolved s n → analogMode s n = false → pullup s n = true →
    (∀ p ∈ members s n, (s.pin p).oc = true) →
    (s.node n).contended = false ∧
    ((∀ p ∈ members s n, contribution (s.pin p) = .floating) → (s.node n).level = .weakHigh) ∧
    ((∃ p ∈ members s n, contribution (s.pin p) = .drivenLow) → (∀ p ∈ members s n, contribution (s.pin p) ≠ .unknown) →
      (s.node n).level = .drivenLow) ∧
    ((s.node n).level = .unknown → (∃ p ∈ members s n, contribution (s.pin p) = .unknown) ∨
      ((∃ p ∈ members s n, contribution (s.pin p) = .weakLow) ∧ ∀ p ∈ members s n, contribution (s.pin p) ≠ .drivenLow))) ∧
  (∀ (s : State) (n : Nat) (k : Bool) (r : List DiagRec), Shaped s → n < s.cfg.numNodes → s.depth < s.cfg.maxNotifyDepth →
    analogMode s n = false →
    k = (resolveDigital ((members s n).map fun p => contribution (s.pin p)) (pullup s n)).2 →
    r = (if k then [⟨1, s.cycle, BitVec.ofNat 8 n, 0⟩] else []) →
    (s.diagLog ++ r) <+: (resolve (.node n) s).state.diagLog ∧
    (NoEngineAttached s → ∃ t, resolve (.node n) s = .ok t ∧ t.diagLog = s.diagLog ++ r ∧ (t.node n).contended = k)) ∧
  (∀ (j : Job) (s : State),
    (s.cfg.maxNotifyDepth ≤ s.depth → resolve j s = .halt (faulted .notifyDepth s)) ∧
    (s.depth < s.cfg.maxNotifyDepth → ∃ res : Job → State → Res,
      (∀ k u, u.cfg = s.cfg → u.depth = s.depth + 1 → res k u = resolve k u) ∧
      resolve j s = (runJobVia res j { s with depth := s.depth + 1 }).andThen fun t => .ok { t with depth := t.depth - 1 })) ∧
  ∀ (s : State) (res : Job → State → Res), Shaped s →
    (∀ n d, n < s.cfg.numNodes → analogMode s n = false →
      d = resolveDigital ((members s n).map fun p => contribution (s.pin p)) (pullup s n) →
      runJobVia res (.node n) s = publishVia res n d.1
        { s.setNode n { s.node n with settling := false, contended := d.2 } with
          pending := if (s.node n).settling then s.pending.filter fun y => decide (y.owner ≠ .node n) else s.pending
          diagLog := if d.2 then s.diagLog ++ [⟨1, s.cycle, BitVec.ofNat 8 n, 0⟩] else s.diagLog }) ∧
    (∀ n, analogMode s n = true → runJobVia res (.node n) s =
      (analogUpdate n s).andThen fun t => publishVia res n (levelOf t.cfg (t.node n).voltage) t) ∧
    ∀ p, ((s.pin p).driven = aloneLevel s p → runJobVia res (.pin p) s = .ok s) ∧
      ((s.pin p).driven ≠ aloneLevel s p →
        runJobVia res (.pin p) s = notifyVia res p (s.setPin p { s.pin p with driven := aloneLevel s p }))

/-! ### What every step keeps -/

/-- R150, R151, R154, R193 to R199: after every step that meets no fault every node shows what its members offer, every member reads
its node's level, every lone pin reads its own, and a settle callback is pending exactly while a node settles. A node in analog mode
records its members' capacitance and, with a source, the Thevenin equivalent of their sources, whichever command changed them; it
settles only with a source, a capacitance and more than the threshold left to go, and has its target's voltage otherwise. -/
def Obligations.StepKeepsEveryLevelResolved : Prop :=
  ∀ s t : State, InOrder s → step s = .next t → t.faultCode = 0 → Resolved t ∧ SettleSync t

/-- R217: after every step that meets no fault every enabled bit of every port register holds its pin's definite value. -/
def Obligations.StepKeepsPortsSynced : Prop :=
  ∀ s t : State, InOrder s → step s = .next t → t.faultCode = 0 → PortsSynced t

/-- R51, R246, R247: after every step that meets no fault every attached engine's latches hold its lines' definite values. -/
def Obligations.StepKeepsLatchesSynced : Prop :=
  ∀ s t : State, InOrder s → step s = .next t → t.faultCode = 0 → LatchesSynced t

/-- R52, R272: after every step without a fault an engine has a clock edge waiting exactly when it has an entry pending. -/
def Obligations.StepKeepsEdgesPending : Prop :=
  ∀ s t : State, InOrder s → step s = .next t → EdgesPending t

/-- R21, R23, R114: every step keeps the pending callbacks one to an owner, of owners of the block, with sequence numbers below the
next; and, unless the block is halted, all due later than the counter. The shape of the state stays. That the list stands in the
order of the sequence numbers is the model's choice: R21 gives a map without an order (notes/assumptions/16.md). -/
def Obligations.StepKeepsPendingOrdered : Prop :=
  ∀ s t : State, Shaped s → PendingOk s → step s = .next t → PendingOk t ∧ Shaped t

/-- R255, R272: no step enters the bus states `Start` and `WritePending`. R152, R246: nor does a step without a fault leave an engine
that is not attached with a pending callback. -/
def Obligations.StepNeverEntersStartOrWritePending : Prop :=
  (∀ s t : State, Ready s → StatesEntered s → step s = .next t → StatesEntered t) ∧
  ∀ s t : State, Ready s → UnattachedNoEntry s → step s = .next t → t.faultCode = 0 → UnattachedNoEntry t

/-- R41, R218: a disabled bit of a port register reads its default at all times: no step changes it. -/
def Obligations.StepKeepsDisabledBits : Prop :=
  ∀ s t : State, Ready s → DisabledBitsDefault s → step s = .next t → DisabledBitsDefault t

/-- R28: `depth` is 0 whenever no command or callback is executing, after a fault too, and at reset. -/
def Obligations.DepthIsZeroBetweenCommands : Prop :=
  (∀ s t : State, Ready s → s.depth = 0 → step s = .next t → t.depth = 0) ∧ ∀ c, (State.resetWith c).depth = 0

/-- R25, R26, R113: no step takes anything from either log or changes what is there, and `next_seq` only increases. -/
def Obligations.StepOnlyAppendsToLogs : Prop :=
  ∀ s t : State, Ready s → step s = .next t →
    s.outLog <+: t.outLog ∧ s.diagLog <+: t.diagLog ∧ s.nextSeq ≤ t.nextSeq

/-! ### Where the commands on pins and nodes complete -/

/-- R154, R160, R163, R164, R165: a command that changes no input of any resolution does nothing but advance `cp`: no resolution, no
notification, no diagnostic. -/
def Obligations.UnchangedInputsDoNothing : Prop :=
  ∀ (s : State) (p : Byte), p.toNat < s.cfg.numPins →
    (∀ l, (s.pin p.toNat).drive = .digital l → exec (.pinDrive p l) s = .next { s with cp := s.cp + 1 }) ∧
    (∀ mv, (s.pin p.toNat).drive = .analog mv → exec (.pinAnalog p mv) s = .next { s with cp := s.cp + 1 }) ∧
    (∀ d oc pu, (s.pin p.toNat).dir = d → (s.pin p.toNat).oc = oc → (s.pin p.toNat).pu = pu →
      exec (.pinConfig p d oc pu) s = .next { s with cp := s.cp + 1 }) ∧
    (∀ n : Byte, n.toNat < s.cfg.numNodes → (s.pin p.toNat).node = some n.toNat →
      exec (.nodeAttach p n) s = .next { s with cp := s.cp + 1 }) ∧
    ((s.pin p.toNat).node = none → exec (.nodeDetach p) s = .next { s with cp := s.cp + 1 })

/-- R160, R161: where `PIN_DRIVE` completes, and with what: a calm block in order. The pin has the level it was given (or an attached
engine has released it, if it is that engine's data pin), and the block is in order again, so every level shows it.
R39, R161, R199: and with no engine attached, analog nodes or not, where the pin's node is digital once it drives the level: its
last analog member may have become digital. The node then does not settle, has no callback, keeps its voltage and every other
analog field, and has the level and flag of the digital table. -/
def Obligations.PinDriveCompletes : Prop :=
  (∀ (p : Byte) (l : Level) (s : State), InOrder s → Calm s → s.faultCode = 0 → p.toNat < s.cfg.numPins →
    ∃ t, exec (.pinDrive p l) s = .next t ∧ Done s t ∧ InOrder t ∧ DrivenTo s t p.toNat (.digital l) ∧
      SamePinSetup s t p.toNat ∧ RestKept s t p.toNat) ∧
  ∀ (p : Byte) (l : Level) (s u : State), InOrder s → s.faultCode = 0 → s.cfg.wf = true → NoEngineAttached s →
    p.toNat < s.cfg.numPins → u = s.setPin p.toNat { s.pin p.toNat with drive := .digital l } →
    (∀ n, (s.pin p.toNat).node = some n → analogMode u n = false) →
    ∃ t, exec (.pinDrive p l) s = .next t ∧ Done s t ∧ InOrder t ∧ t.engines = s.engines ∧
      (t.pin p.toNat).drive = .digital l ∧ SamePinSetup s t p.toNat ∧ RestKept s t p.toNat ∧
      ∀ n d, (s.pin p.toNat).node = some n →
        d = resolveDigital ((members u n).map fun q => contribution (u.pin q)) (pullup u n) →
        analogMode t n = false ∧ ¬ hasEntry t (.node n) ∧
        t.node n = { s.node n with level := d.1, contended := d.2, settling := false } ∧
        ∀ q ∈ members t n, (t.pin q).driven = d.1

/-- R163: where `PIN_CONFIG` completes, and with what: the three fields written, the driving state kept (or released by an engine). -/
def Obligations.PinConfigCompletes : Prop :=
  ∀ (p : Byte) (d : Dir) (oc pu : Bool) (s : State), InOrder s → Calm s → s.faultCode = 0 → p.toNat < s.cfg.numPins →
    ∃ t, exec (.pinConfig p d oc pu) s = .next t ∧ Done s t ∧ InOrder t ∧ (t.pin p.toNat).dir = d ∧
      (t.pin p.toNat).oc = oc ∧ (t.pin p.toNat).pu = pu ∧ (t.pin p.toNat).node = (s.pin p.toNat).node ∧
      DriveKeptOrReleased s t p.toNat ∧ RestKept s t p.toNat

/-- R164: where `NODE_ATTACH` completes, and with what: the pin is on that node and on no other, whatever node it left. -/
def Obligations.NodeAttachCompletes : Prop :=
  ∀ (p n : Byte) (s : State), InOrder s → Calm s → s.faultCode = 0 → p.toNat < s.cfg.numPins → n.toNat < s.cfg.numNodes →
    (s.pin p.toNat).drive.isAnalog = false →
    ∃ t, exec (.nodeAttach p n) s = .next t ∧ Done s t ∧ InOrder t ∧ (t.pin p.toNat).node = some n.toNat ∧
      (∀ m, p.toNat ∈ members t m ↔ m = n.toNat) ∧ (t.pin p.toNat).dir = (s.pin p.toNat).dir ∧
      (t.pin p.toNat).oc = (s.pin p.toNat).oc ∧ (t.pin p.toNat).pu = (s.pin p.toNat).pu ∧
      DriveKeptOrReleased s t p.toNat ∧ RestKept s t p.toNat

/-- R165: where `NODE_DETACH` completes, and with what: the pin is on no node and reads what it offers alone.
R39, R199: and with no engine attached, analog nodes or not, where the node is digital without the pin, its last analog member perhaps:
the node then does not settle, has no callback, keeps its voltage and every other analog field, and has the level and flag of the
digital table. -/
def Obligations.NodeDetachCompletes : Prop :=
  (∀ (p : Byte) (s : State), InOrder s → Calm s → s.faultCode = 0 → p.toNat < s.cfg.numPins →
    ∃ t, exec (.nodeDetach p) s = .next t ∧ Done s t ∧ InOrder t ∧ (t.pin p.toNat).node = none ∧
      (t.pin p.toNat).driven = aloneLevel t p.toNat ∧ (t.pin p.toNat).dir = (s.pin p.toNat).dir ∧
      (t.pin p.toNat).oc = (s.pin p.toNat).oc ∧ (t.pin p.toNat).pu = (s.pin p.toNat).pu ∧
      DriveKeptOrReleased s t p.toNat ∧ RestKept s t p.toNat) ∧
  ∀ (p : Byte) (n : Nat) (d : Level × Bool) (s u : State), InOrder s → s.faultCode = 0 → s.cfg.wf = true → NoEngineAttached s →
    p.toNat < s.cfg.numPins → (s.pin p.toNat).node = some n → u = s.setPin p.toNat { s.pin p.toNat with node := none } →
    analogMode u n = false → d = resolveDigital ((members u n).map fun q => contribution (u.pin q)) (pullup u n) →
    ∃ t, exec (.nodeDetach p) s = .next t ∧ Done s t ∧ InOrder t ∧ t.engines = s.engines ∧
      t.pin p.toNat = { s.pin p.toNat with node := none, driven := aloneLevel t p.toNat } ∧ RestKept s t p.toNat ∧
      analogMode t n = false ∧ ¬ hasEntry t (.node n) ∧
      t.node n = { s.node n with level := d.1, contended := d.2, settling := false } ∧
      ∀ q ∈ members t n, (t.pin q).driven = d.1

/-- R198, R200: where `PIN_ANALOG` on a pin on no node completes: the pin drives its voltage (or an engine has released it) and reads
what it offers alone; no settle callback is scheduled for any node. -/
def Obligations.PinAnalogAloneCompletes : Prop :=
  ∀ (p : Byte) (mv : BitVec 16) (s : State), InOrder s → Calm s → s.faultCode = 0 → p.toNat < s.cfg.numPins →
    (s.pin p.toNat).node = none →
    ∃ t, exec (.pinAnalog p mv) s = .next t ∧ Done s t ∧ InOrder t ∧ DrivenTo s t p.toNat (.analog mv) ∧
      (t.pin p.toNat).driven = aloneLevel t p.toNat ∧ SamePinSetup s t p.toNat ∧ RestKept s t p.toNat ∧
      ∀ n, ¬ hasEntry t (.node n)

/-- R193, R194, R196, R198: where `PIN_ANALOG` on a pin of a node completes, with no engine attached: the node is in analog mode, its
settling starts from its present voltage at this cycle toward the Thevenin target, and it is settled at the target at once (no
capacitance, or within the threshold) or has a callback within `5τ`; its members read the level of its voltage. With no source it
keeps its voltage. -/
def Obligations.PinAnalogOnNodeCompletes : Prop :=
  ∀ (p : Byte) (mv : BitVec 16) (s u : State) (n : Nat) (xs : List Source) (v : Sys2Proof.Num), InOrder s → s.faultCode = 0 →
    s.cfg.wf = true → NoEngineAttached s → p.toNat < s.cfg.numPins → (s.pin p.toNat).node = some n →
    (s.pin p.toNat).drive ≠ .analog mv → u = s.setPin p.toNat { s.pin p.toNat with drive := .analog mv } →
    xs = nodeSources u n → v = voltageAt s n s.cycle →
    s.cycle.toNat + max 1 (horizon s.cfg (theveninZ xs * nodeC s n)) ≤ 2 ^ 64 - 1 →
    ∃ t, exec (.pinAnalog p mv) s = .next t ∧ Done s t ∧ InOrder t ∧ t.engines = s.engines ∧
      (t.pin p.toNat).drive = .analog mv ∧ analogMode t n = true ∧ (t.node n).v0 = v ∧ (t.node n).t0 = s.cycle ∧
      (t.node n).cth = nodeC s n ∧ (t.node n).level = levelOf s.cfg (t.node n).voltage ∧
      (xs = [] → (t.node n).vt = v ∧ (t.node n).voltage = v ∧ (t.node n).settling = false) ∧
      (xs ≠ [] → (t.node n).vt = theveninV xs ∧ (t.node n).zth = theveninZ xs ∧
        ((nodeC s n = 0 ∨ |v - theveninV xs| ≤ s.cfg.settleEps) →
          (t.node n).voltage = theveninV xs ∧ (t.node n).settling = false) ∧
        (nodeC s n ≠ 0 → s.cfg.settleEps < |v - theveninV xs| →
          (t.node n).voltage = v ∧ (t.node n).settling = true ∧
          ∃ x ∈ t.pending, x.owner = .node n ∧ s.cycle.toNat < x.due.toNat ∧
            x.due.toNat ≤ s.cycle.toNat + horizon s.cfg (theveninZ xs * nodeC s n)))

/-- R213, R214, R217: where `PORT_WRITE` completes, and with what: all 8 bits stored, every enabled bit's pin driven strongly to its
bit (or released by an engine whose data pin it is), and the register in order with its pins. The same is left wherever it
completes, analog nodes or not. -/
def Obligations.PortWriteCompletes : Prop :=
  (∀ (r v : Byte) (s : State), InOrder s → Calm s → s.faultCode = 0 → s.cfg.wf = true → r.toNat < s.cfg.numPorts →
    ∃ t, exec (.portWrite r v) s = .next t ∧ Done s t ∧ InOrder t ∧ PortWritten s t r.toNat v) ∧
  ∀ (r v : Byte) (s t : State), Shaped s → s.cfg.wf = true → exec (.portWrite r v) s = .next t → t.cp = s.cp + 1 →
    Done s t ∧ PortWritten s t r.toNat v ∧ (InOrder s → s.faultCode = 0 → InOrder t)

/-! ### The engine (45_twowire_engine.md) -/

/-- R244: where `TW_RESET` completes, and with what. An engine that is not pulling its data pin low has its protocol fields cleared
and its entry cancelled, and nothing else changes. One that is also releases its data pin, in a calm block in order and wherever else
the command completes; it keeps its configuration, pins, match and peripheral. -/
def Obligations.TwResetCompletes : Prop :=
  (∀ (e : Byte) (s : State), Shaped s → e.toNat < s.cfg.numEngines →
    ((s.eng e.toNat).attached = false ∨ (s.eng e.toNat).sdaDrive = false) →
    ∃ t, exec (.twReset e) s = .next t ∧ t.cp = s.cp + 1 ∧
      t.eng e.toNat = { s.eng e.toNat with state := .idle, bits := 0, shift := 0, ack := false, pend := none } ∧
      (∀ f, f ≠ e.toNat → t.eng f = s.eng f) ∧ t.pending = s.pending.filter (fun x => decide (x.owner ≠ .eng e.toNat)) ∧
      { t with engines := s.engines, pending := s.pending, cp := s.cp } = s) ∧
  (∀ (e : Byte) (s : State), InOrder s → Calm s → s.faultCode = 0 → e.toNat < s.cfg.numEngines →
    (s.eng e.toNat).attached = true → (s.eng e.toNat).sdaDrive = true →
    ∃ t, exec (.twReset e) s = .next t ∧ Done s t ∧ InOrder t ∧ PullReleased s t e.toNat) ∧
  ∀ (e : Byte) (s t : State), Shaped s → (s.eng e.toNat).attached = true → (s.eng e.toNat).sdaDrive = true →
    exec (.twReset e) s = .next t → t.cp = s.cp + 1 →
    Done s t ∧ PullReleased s t e.toNat ∧ (InOrder s → s.faultCode = 0 → InOrder t)

/-- R244: in the middle of a transfer, `TW_RESET` of the only attached engine, pulling its data pin low, leaves it `Idle` with SDA
released and no pending callback, when its clock pin is not wired to its data pin: the STOP its own release may make changes
nothing. -/
def Obligations.TwResetLeavesIdle : Prop :=
  ∀ (e : Byte) (s : State), InOrder s → Calm s → s.faultCode = 0 → e.toNat < s.cfg.numEngines →
    (∀ f, f < s.cfg.numEngines → (s.eng f).attached = true → f = e.toNat) →
    (s.eng e.toNat).attached = true → (s.eng e.toNat).sdaDrive = true →
    (s.pin (s.eng e.toNat).sdaPin.toNat).drive = .digital .drivenLow →
    (s.eng e.toNat).sclPin ≠ (s.eng e.toNat).sdaPin →
    ((s.pin (s.eng e.toNat).sclPin.toNat).node = none ∨
      (s.pin (s.eng e.toNat).sclPin.toNat).node ≠ (s.pin (s.eng e.toNat).sdaPin.toNat).node) →
    ∃ t, exec (.twReset e) s = .next t ∧ Done s t ∧ (t.eng e.toNat).state = .idle ∧ (t.eng e.toNat).pend = none ∧
      ¬ hasEntry t (.eng e.toNat) ∧ (t.pin (s.eng e.toNat).sdaPin.toNat).drive = .digital .floating

/-- R243: `TW_ATTACH` with one pin for both lines raises `PIN_CONFLICT` (code 8) before any change. In a calm block in order it
completes otherwise: the engine is attached to the two pins with SDA released and its latches at the present line values (`X` as
1), so no edge follows; the clock pin is an `Input`, the data pin `BiDirectional` and open-collector driving `Floating`, their
pull-ups kept; every pin stays on its node; the configuration, match and peripheral stay; and an engine that was not pulling its old data pin is `Idle` with
nothing pending, and so is the only attached one that was pulling it, when its old clock pin is not wired to that pin. All but the last
holds wherever the command completes, analog nodes or not. -/
def Obligations.TwAttachCompletes : Prop :=
  (∀ (e scl : Byte) (s : State), e.toNat < s.cfg.numEngines → scl.toNat < s.cfg.numPins →
    exec (.twAttach e scl scl) s =
      .next { s with faultCode := 8, faultWord := s.stream.getD s.cp 0, faultCycle := s.cycle, depth := 0 }) ∧
  (∀ (e scl sda : Byte) (s : State), InOrder s → Calm s → s.faultCode = 0 → e.toNat < s.cfg.numEngines →
    scl.toNat < s.cfg.numPins → sda.toNat < s.cfg.numPins → scl ≠ sda →
    ∃ t, exec (.twAttach e scl sda) s = .next t ∧ Done s t ∧ InOrder t ∧ AttachedTo s t e scl sda ∧
      ((∀ f, f < s.cfg.numEngines → (s.eng f).attached = true → f = e.toNat) →
        (s.eng e.toNat).attached = true → (s.eng e.toNat).sdaDrive = true →
        (s.pin (s.eng e.toNat).sdaPin.toNat).drive = .digital .drivenLow →
        (s.eng e.toNat).sclPin ≠ (s.eng e.toNat).sdaPin →
        ((s.pin (s.eng e.toNat).sclPin.toNat).node = none ∨
          (s.pin (s.eng e.toNat).sclPin.toNat).node ≠ (s.pin (s.eng e.toNat).sdaPin.toNat).node) →
        (t.eng e.toNat).state = .idle ∧ (t.eng e.toNat).bits = 0 ∧ (t.eng e.toNat).shift = 0 ∧
        (t.eng e.toNat).ack = false ∧ (t.eng e.toNat).pend = none ∧ ¬ hasEntry t (.eng e.toNat) ∧
        (t.pin (s.eng e.toNat).sdaPin.toNat).drive = .digital .floating)) ∧
  ∀ (e scl sda : Byte) (s t : State), Shaped s → scl ≠ sda → exec (.twAttach e scl sda) s = .next t → t.cp = s.cp + 1 →
    Done s t ∧ AttachedTo s t e scl sda ∧ (InOrder s → s.faultCode = 0 → InOrder t)

/-- R251, R255, R256, R258 to R271: the transition table row by row, for an engine's state, the edge and the bit count; every
combination that no row names does nothing. R252, R266: what `Drive` writes for both bits before it resolves the data pin's node or
the pin, and what `LoadTx` writes before and after it. The records are those of R311: `IGNORED_BIT` is kind 5, `ADDR_MISMATCH` kind
4. The model's choices in it: the peripheral's answer and byte are functions of the calls made of it (notes/assumptions/1.md), and
the count after a rise in `TxData` at 15, which R45 says is never held, is some value that R45 admits (7.md, 18.md). -/
def Obligations.TransitionTableRows : Prop :=
  ∀ (e : Nat) (s : State) (sda : Bool) (g : Engine) (v : Byte), g = s.eng e →
    v = (g.shift <<< 1 ||| if sda then 1 else 0) →
    (g.state = .idle → edgeRow e .rise sda s =
      .ok { s with diagLog := s.diagLog ++ [⟨5, s.cycle, BitVec.ofNat 8 e, if sda then 1 else 0⟩] } ∧
      edgeRow e .fall sda s = .ok s) ∧
    (g.state = .rxAddress → edgeRow e .fall sda s = .ok s ∧
      (g.bits.toNat + 1 < 8 → edgeRow e .rise sda s = .ok (s.setEng e { g with shift := v, bits := g.bits + 1 })) ∧
      (g.bits.toNat + 1 = 8 → addressMatch g v = true → edgeRow e .rise sda s =
        .ok (s.setEng e { g with shift := v, bits := 8, matched := v, rw := v.getLsbD 0, state := .ackAddress })) ∧
      (g.bits.toNat + 1 = 8 → addressMatch g v = false → edgeRow e .rise sda s =
        .ok { s.setEng e { g with shift := v, bits := 0, state := .idle } with
          diagLog := s.diagLog ++ [⟨4, s.cycle, BitVec.ofNat 8 e, v⟩] }) ∧
      (8 ≤ g.bits.toNat → edgeRow e .rise sda s = .ok s)) ∧
    (g.state = .ackAddress → edgeRow e .rise sda s = .ok s ∧
      (g.bits.toNat = 8 → edgeRow e .fall sda s =
        (driveSda e false s).andThen fun t => .ok (t.setEng e { t.eng e with bits := 9 })) ∧
      (g.bits.toNat = 9 → g.rw = false → edgeRow e .fall sda s =
        (driveSda e true s).andThen fun t => .ok (t.setEng e { t.eng e with shift := 0, bits := 0, state := .rxData })) ∧
      (g.bits.toNat = 9 → g.rw = true → edgeRow e .fall sda s = loadTx e s) ∧
      (g.bits.toNat ≠ 8 → g.bits.toNat ≠ 9 → edgeRow e .fall sda s = .ok s)) ∧
    (g.state = .rxData → edgeRow e .fall sda s = .ok s ∧
      (g.bits.toNat + 1 < 8 → edgeRow e .rise sda s = .ok (s.setEng e { g with shift := v, bits := g.bits + 1 })) ∧
      (g.bits.toNat + 1 = 8 → edgeRow e .rise sda s = .ok (s.setEng e
        { g with shift := v, bits := 8, periph := g.periph ++ [.rx v], ack := Config.rxAnswer e g.periph v,
                 state := .ackReceivedData })) ∧
      (8 ≤ g.bits.toNat → edgeRow e .rise sda s = .ok s)) ∧
    (g.state = .ackReceivedData → edgeRow e .rise sda s = .ok s ∧ edgeRow e .fall sda s =
      (driveSda e (!g.ack) s).andThen fun t => .ok (t.setEng e { t.eng e with bits := 9, state := .ackAfterWrite })) ∧
    (g.state = .ackAfterWrite → edgeRow e .rise sda s = .ok s ∧ edgeRow e .fall sda s =
      (driveSda e true s).andThen fun t =>
        if (t.eng e).ack then .ok (t.setEng e { t.eng e with shift := 0, bits := 0, state := .rxData })
        else .ok (t.setEng e { t.eng e with bits := 0, state := .idle })) ∧
    (g.state = .txData →
      (g.bits.toNat ≠ 15 → edgeRow e .rise sda s = .ok (s.setEng e { g with bits := g.bits + 1 })) ∧
      (g.bits.toNat = 15 → ∃ b : BitVec 4, b.toNat ≤ 9 ∧
        edgeRow e .rise sda s = .ok { s.setEng e { g with bits := b } with draws := s.draws + 1 }) ∧
      (g.bits.toNat < 8 → edgeRow e .fall sda s = driveSda e (g.shift.getLsbD (7 - g.bits.toNat)) s) ∧
      (g.bits.toNat = 8 → edgeRow e .fall sda s =
        (driveSda e true s).andThen fun t => .ok (t.setEng e { t.eng e with state := .ackRead })) ∧
      (8 < g.bits.toNat → edgeRow e .fall sda s = .ok s)) ∧
    (g.state = .ackRead →
      (g.bits.toNat = 8 → sda = true →
        edgeRow e .rise sda s = .ok (s.setEng e { g with ack := false, bits := 0, state := .idle })) ∧
      (g.bits.toNat = 8 → sda = false → edgeRow e .rise sda s = .ok (s.setEng e { g with ack := true, bits := 9 })) ∧
      (g.bits.toNat ≠ 8 → edgeRow e .rise sda s = .ok s) ∧
      (g.bits.toNat = 9 → edgeRow e .fall sda s = loadTx e s) ∧
      (g.bits.toNat ≠ 9 → edgeRow e .fall sda s = .ok s)) ∧
    ((g.state = .start ∨ g.state = .writePending) → ∀ edge, edgeRow e edge sda s = .ok s) ∧
    (∀ (bit : Bool) (d : Drive) (p : Nat) (u : State), d = .digital (if bit then .floating else .drivenLow) →
      p = g.sdaPin.toNat → u = s.setEng e { g with sdaDrive := !bit } →
      ((s.pin p).drive = d → driveSda e bit s = .ok u) ∧
      ((s.pin p).drive ≠ d → driveSda e bit s =
        resolve (match (s.pin p).node with | some n => .node n | none => .pin p)
          (u.setPin p { s.pin p with drive := d }))) ∧
    ∀ b : Byte, b = Config.txByte e g.periph →
      loadTx e s =
        (driveSda e (b.getLsbD 7) (s.setEng e { g with periph := g.periph ++ [.tx], shift := b, bits := 0 })).andThen
          fun t => .ok (t.setEng e { t.eng e with state := .txData })

/-- R257: the address match, bit by bit: a configured engine answers a byte exactly when every bit from 7 to 1 that the mask selects
agrees with its address; bit 0 takes no part, and an engine never configured answers none. -/
def Obligations.AddressMatchBits : Prop :=
  ∀ (g : Engine) (b : Byte), addressMatch g b = true ↔
    g.configured = true ∧ ∀ k, 1 ≤ k → k ≤ 7 → g.cfgCsmask.getLsbD k = true → b.getLsbD k = g.cfgAddress.getLsbD k

/-- R63, R258, R262: eight rises shift a byte in most significant bit first, whatever the shift register held. -/
def Obligations.EightRisesMakeTheByte : Prop :=
  ∀ v old : Byte,
    [v.getLsbD 7, v.getLsbD 6, v.getLsbD 5, v.getLsbD 4, v.getLsbD 3, v.getLsbD 2, v.getLsbD 1, v.getLsbD 0].foldl
      shiftIn old = v

/-- R16, R240, R272: the engine calls its peripheral only at a clock edge: `rx` with the assembled byte at the eighth rise of a data
byte, `tx` at the fall that starts a transmitted byte, once each; no other edge, no line event and no command other than `ADVANCE`
calls it. Of what `ADVANCE` fires (R116, R118): an engine's callback processes its waiting edge so, with the data bit it has
latched, and calls nothing if none waits; a node's settle callback, with all that its notifications set off (R356), calls none. -/
def Obligations.PeripheralCalledOncePerByte : Prop :=
  (∀ (e : Nat) (edge : Edge) (sda : Bool) (s : State) (g : Engine), Shaped s → e < s.cfg.numEngines → g = s.eng e →
    ((edgeRow e edge sda s).state.eng e).periph = g.periph ++
      (if g.state = .rxData ∧ edge = .rise ∧ g.bits.toNat = 7 then [PeriphCall.rx (shiftIn g.shift sda)]
       else if edge = .fall ∧ g.bits.toNat = 9 ∧ ((g.state = .ackAddress ∧ g.rw = true) ∨ g.state = .ackRead) then
         [PeriphCall.tx]
       else []) ∧
    ∀ f, f ≠ e → ((edgeRow e edge sda s).state.eng f).periph = (s.eng f).periph) ∧
  (∀ (e : Nat) (due : Cycle) (seq : Nat) (s : State) (g : Engine), Shaped s → e < s.cfg.numEngines → g = s.eng e →
    ((fire ⟨.eng e, due, seq⟩ s).state.eng e).periph = g.periph ++
      (if g.state = .rxData ∧ g.pend = some .rise ∧ g.bits.toNat = 7 then [PeriphCall.rx (shiftIn g.shift g.sdaSeen)]
       else if g.pend = some .fall ∧ g.bits.toNat = 9 ∧ ((g.state = .ackAddress ∧ g.rw = true) ∨ g.state = .ackRead) then
         [PeriphCall.tx]
       else []) ∧
    ∀ f, f ≠ e → ((fire ⟨.eng e, due, seq⟩ s).state.eng f).periph = (s.eng f).periph) ∧
  (∀ (n : Nat) (due : Cycle) (seq : Nat) (s : State), Shaped s →
    ∀ e, ((fire ⟨.node n, due, seq⟩ s).state.eng e).periph = (s.eng e).periph) ∧
  ∀ (i : Instr) (s t : State), Shaped s → (∀ imm, i ≠ .advance imm) → exec i s = .next t → ∀ e, (t.eng e).periph = (s.eng e).periph

/-- R246 to R249, R252, R254, R311: what the line handlers do. A line with no definite value records `LINE_FLOAT` (kind 3, 0 for the
clock and 1 for the data line) and keeps its latch; one that reads its latch does nothing; a clock edge is latched and scheduled one
cycle ahead; a data change while the clock is seen low is only latched; and a data fall or rise while it is seen high is a START or
a STOP at once, which drops the waiting edge and releases SDA: if the data pin drives anything but `Floating` it is released and
its node, or the pin, resolved after all that.
R150: a publication writes the node's level and every member's driven state, and then notifies the members it changed, ascending.
R152, R216, R253: a notification of a pin first gives every enabled port bit bound to it the pin's definite value, and then tells
the engines, ascending: of an attached one the clock handler if the pin is its clock pin, the data handler if it is its data pin. -/
def Obligations.LineHandlers : Prop :=
  (∀ (n : Nat) (l : Level) (s : State) (res : Job → State → Res), Shaped s → n < s.cfg.numNodes →
    ∃ u : State, publishVia res n l s =
        ((members s n).filter fun p => decide ((s.pin p).driven ≠ l)).foldl (fun r p => r.andThen (notifyVia res p)) (.ok u) ∧
      { u with pins := s.pins, nodes := s.nodes } = s ∧ u.node n = { s.node n with level := l } ∧
      (∀ m, m ≠ n → u.node m = s.node m) ∧ (∀ p ∈ members s n, u.pin p = { s.pin p with driven := l }) ∧
      ∀ p, p ∉ members s n → u.pin p = s.pin p) ∧
  (∀ (p : Nat) (s : State) (res : Job → State → Res), Shaped s →
    ∃ u : State, notifyVia res p s =
        (List.range s.cfg.numEngines).foldl (fun r e => r.andThen (notifyEngineVia res p e)) (.ok u) ∧
      { u with ports := s.ports } = s ∧
      ∀ r, (u.port r).driving = (s.port r).driving ∧ ∀ i, i < 8 → (u.port r).driven.getLsbD i =
        if (s.portCfg r).enable.getLsbD i = true ∧ (s.portCfg r).base + i = p then
          (logic (s.pin p).driven).getD ((s.port r).driven.getLsbD i)
        else (s.port r).driven.getLsbD i) ∧
  (∀ (p e : Nat) (s : State) (res : Job → State → Res),
    ((s.eng e).attached = false → notifyEngineVia res p e s = .ok s) ∧
    ((s.eng e).attached = true →
      (p ≠ (s.eng e).sclPin.toNat → p ≠ (s.eng e).sdaPin.toNat → notifyEngineVia res p e s = .ok s) ∧
      (p = (s.eng e).sclPin.toNat → p ≠ (s.eng e).sdaPin.toNat → notifyEngineVia res p e s = onScl e s) ∧
      (p ≠ (s.eng e).sclPin.toNat → p = (s.eng e).sdaPin.toNat → notifyEngineVia res p e s = onSdaVia res e s) ∧
      (p = (s.eng e).sclPin.toNat → p = (s.eng e).sdaPin.toNat →
        notifyEngineVia res p e s = (onScl e s).andThen (onSdaVia res e)))) ∧
  ∀ (e : Nat) (s : State) (g : Engine) (res : Job → State → Res), Shaped s → e < s.cfg.numEngines → g = s.eng e →
    (logic (s.pin g.sclPin.toNat).driven = none →
      onScl e s = .ok { s with diagLog := s.diagLog ++ [⟨3, s.cycle, BitVec.ofNat 8 e, 0⟩] }) ∧
    (logic (s.pin g.sclPin.toNat).driven = some g.sclSeen → onScl e s = .ok s) ∧
    (∀ b, logic (s.pin g.sclPin.toNat).driven = some b → b ≠ g.sclSeen → onScl e s =
      schedule (.eng e) (s.cycle.toNat + 1)
        (s.setEng e { g with sclSeen := b, pend := some (if b then .rise else .fall) })) ∧
    (logic (s.pin g.sdaPin.toNat).driven = none →
      onSdaVia res e s = .ok { s with diagLog := s.diagLog ++ [⟨3, s.cycle, BitVec.ofNat 8 e, 1⟩] }) ∧
    (logic (s.pin g.sdaPin.toNat).driven = some g.sdaSeen → onSdaVia res e s = .ok s) ∧
    (∀ b, logic (s.pin g.sdaPin.toNat).driven = some b → b ≠ g.sdaSeen → g.sclSeen = false →
      onSdaVia res e s = .ok (s.setEng e { g with sdaSeen := b })) ∧
    ∀ (b : Bool) (p : Nat) (u : State), p = g.sdaPin.toNat → logic (s.pin p).driven = some b → b ≠ g.sdaSeen →
      g.sclSeen = true →
      u = { s.setEng e
              (if b then { g with sdaSeen := b, pend := none, state := .idle, bits := 0, sdaDrive := false }
               else { g with sdaSeen := b, pend := none, state := .rxAddress, bits := 0, shift := 0, sdaDrive := false }) with
            pending := s.pending.filter fun x => decide (x.owner ≠ .eng e) } →
      ((s.pin p).drive = .digital .floating → onSdaVia res e s = .ok u) ∧
      ((s.pin p).drive ≠ .digital .floating → onSdaVia res e s =
        res (match (s.pin p).node with | some n => .node n | none => .pin p)
          (u.setPin p { s.pin p with drive := .digital .floating }))

/-! ### Analog settling (43_node_analog.md) -/

/-- R201, R202: a settling node is at its start voltage at its start cycle, and from there its voltage never moves away from its
target nor past it. After `x` time constants it is `vt + (v0 - vt)` times the model's `exp(-x)`, so that what is left of the step is
`exp(-x)` of it to within one part in `10^36` for every time constant passed and one more: between 0.3678 and 0.3679 of it after one,
and at most 0.006738 of it from the horizon on, which is the least number of cycles that make five (R197). That the model's
exponential is a rational number, at most that far below the exponential, is its own choice (notes/assumptions/2.md). -/
def Obligations.SettlingVoltageConverges : Prop :=
  (∀ (s : State) (n : Nat) (t₁ t₂ : Cycle), (s.node n).settling = true → 0 < s.cfg.cycleHz →
    0 < (s.node n).zth * (s.node n).cth → (s.node n).t0.toNat ≤ t₁.toNat → t₁.toNat ≤ t₂.toNat →
    voltageAt s n (s.node n).t0 = (s.node n).v0 ∧
    |voltageAt s n t₂ - (s.node n).vt| ≤ |voltageAt s n t₁ - (s.node n).vt| ∧
    0 ≤ (voltageAt s n t₁ - (s.node n).vt) * ((s.node n).v0 - (s.node n).vt) ∧
    ∀ (k : Nat) (x gap left : Sys2Proof.Num), k = t₁.toNat - (s.node n).t0.toNat →
      x = (k : Sys2Proof.Num) / s.cfg.cycleHz / ((s.node n).zth * (s.node n).cth) →
      gap = |(s.node n).v0 - (s.node n).vt| → left = |voltageAt s n t₁ - (s.node n).vt| →
      voltageAt s n t₁ = (s.node n).vt + ((s.node n).v0 - (s.node n).vt) * expNeg x ∧
      (gap : Real) * (Real.exp (-(x : Real)) * (1 - ((x : Real) + 1) / 10 ^ 36)) ≤ (left : Real) ∧
      (left : Real) ≤ (gap : Real) * Real.exp (-(x : Real)) ∧
      (x = 1 → gap * (3678 / 10000) ≤ left ∧ left ≤ gap * (3679 / 10000)) ∧
      (horizon s.cfg ((s.node n).zth * (s.node n).cth) ≤ k → left ≤ gap * (6738 / 1000000))) ∧
  (∀ (c : Config) (tau : Sys2Proof.Num) (h : Nat), horizon c tau ≤ h ↔ 5 * tau * c.cycleHz ≤ (h : Sys2Proof.Num)) ∧
  ∀ x : Sys2Proof.Num, 0 ≤ x →
    Real.exp (-(x : Real)) * (1 - ((x : Real) + 1) / 10 ^ 36) ≤ (expNeg x : Real) ∧
    (expNeg x : Real) ≤ Real.exp (-(x : Real))

/-- R195, R197, R201, R202: a settling node whose callback is due within `5τ` of its start, in a block in order with no engine
attached and nothing else pending, is settled at its target by any `ADVANCE` that reaches `5τ` after the start, if what is left
of the step at `5τ` is within the threshold; and it and its members then read the target's level. -/
def Obligations.SettlesWithinFiveTau : Prop :=
  ∀ (s : State) (n : Nat) (x : Entry) (imm : BitVec 16) (h : Nat), InOrder s → s.faultCode = 0 → s.cfg.wf = true →
    NoEngineAttached s → n < s.cfg.numNodes → s.pending = [x] → x.owner = .node n →
    0 < (s.node n).zth * (s.node n).cth → h = horizon s.cfg ((s.node n).zth * (s.node n).cth) →
    (s.node n).t0.toNat ≤ s.cycle.toNat → x.due.toNat ≤ (s.node n).t0.toNat + h →
    |(s.node n).v0 - (s.node n).vt| * (6738 / 1000000) ≤ s.cfg.settleEps →
    (s.node n).t0.toNat + h ≤ s.cycle.toNat + imm.toNat → s.cycle.toNat + imm.toNat ≤ 2 ^ 64 - 1 →
    ∃ t, exec (.advance imm) s = .next t ∧ t.cycle.toNat = s.cycle.toNat + imm.toNat ∧ t.cp = s.cp + 1 ∧ SameFault s t ∧
      InOrder t ∧ (t.node n).settling = false ∧ (t.node n).voltage = (s.node n).vt ∧
      (t.node n).level = levelOf s.cfg (s.node n).vt ∧ ¬ hasEntry t (.node n) ∧
      ∀ p ∈ members t n, (t.pin p).driven = levelOf s.cfg (s.node n).vt

/-! ### Frames -/

/-- R160, R161, R163, R198: the frame of the commands on one pin's drive or configuration, wherever they complete: whatever follows
from them through notifications, the counter, the logs of values, the fault record, every other pin's setup and (but for released
data pins) drive, every driving-value and every engine's host settings and last results stay. The pin has the driving state or the
three fields it was given, digital or analog, whatever its node and engines are; and a block in order is in order again. -/
def Obligations.FrameOfPinCommands : Prop :=
  ∀ (p : Byte) (i : Instr) (s t : State),
    ((∃ l, i = .pinDrive p l) ∨ (∃ mv, i = .pinAnalog p mv) ∨ ∃ d oc pu, i = .pinConfig p d oc pu) →
    exec i s = .next t → t.cp = s.cp + 1 →
    Done s t ∧ RestKept s t p.toNat ∧ (t.pin p.toNat).node = (s.pin p.toNat).node ∧
    ((∃ l, i = .pinDrive p l) ∨ (∃ mv, i = .pinAnalog p mv) → SamePinSetup s t p.toNat) ∧
    ((∃ d oc pu, i = .pinConfig p d oc pu) → DriveKeptOrReleased s t p.toNat) ∧
    (Shaped s →
      (∀ l, i = .pinDrive p l → DrivenTo s t p.toNat (.digital l)) ∧
      (∀ mv, i = .pinAnalog p mv → DrivenTo s t p.toNat (.analog mv)) ∧
      ∀ d oc pu, i = .pinConfig p d oc pu →
        (t.pin p.toNat).dir = d ∧ (t.pin p.toNat).oc = oc ∧ (t.pin p.toNat).pu = pu) ∧
    (InOrder s → s.faultCode = 0 → InOrder t)

/-- R164, R165: the frame of `NODE_ATTACH` and `NODE_DETACH`, wherever they complete: of the pin only its node changes (and its drive,
where an engine releases its data pin). The pin is on the node given, or on none; an analog-driving pin puts the node it joins in
analog mode (unless an engine has released it); and a block in order is in order again. -/
def Obligations.FrameOfAttachAndDetach : Prop :=
  ∀ (p : Byte) (i : Instr) (s t : State), ((∃ n, i = .nodeAttach p n) ∨ i = .nodeDetach p) →
    exec i s = .next t → t.cp = s.cp + 1 →
    Done s t ∧ RestKept s t p.toNat ∧ (t.pin p.toNat).dir = (s.pin p.toNat).dir ∧ (t.pin p.toNat).oc = (s.pin p.toNat).oc ∧
    (t.pin p.toNat).pu = (s.pin p.toNat).pu ∧ DriveKeptOrReleased s t p.toNat ∧
    (Shaped s →
      (∀ n, i = .nodeAttach p n → (t.pin p.toNat).node = some n.toNat ∧ (∀ m, p.toNat ∈ members t m ↔ m = n.toNat) ∧
        ((s.pin p.toNat).drive.isAnalog = true → ¬ isEngineSda s p.toNat → analogMode t n.toNat = true)) ∧
      (i = .nodeDetach p → (t.pin p.toNat).node = none ∧ ∀ m, p.toNat ∉ members t m)) ∧
    (InOrder s → s.faultCode = 0 → InOrder t)

/-- R150, R160, R161, R163, R198: with no engine attached, a command on one pin's drive or configuration reaches nothing but that
pin, its node and that node's members: every other pin and node, every engine, every pending entry of another owner, and every port
bit bound to another pin are exactly as before. R194: where the command changes the pin and its node is in analog mode then, the
node's settling starts again from its present voltage at this cycle. -/
def Obligations.FrameWithNoEngineAttached : Prop :=
  ∀ (p : Byte) (i : Instr) (s t : State), Shaped s → NoEngineAttached s →
    ((∃ l, i = .pinDrive p l) ∨ (∃ mv, i = .pinAnalog p mv) ∨ ∃ d oc pu, i = .pinConfig p d oc pu) →
    exec i s = .next t →
    t.engines = s.engines ∧
    (∀ q, q ≠ p.toNat → ((s.pin p.toNat).node = none ∨ (s.pin q).node ≠ (s.pin p.toNat).node) → t.pin q = s.pin q) ∧
    (∀ q, q ≠ p.toNat → (t.pin q).drive = (s.pin q).drive) ∧
    (∀ n, (s.pin p.toNat).node ≠ some n → t.node n = s.node n ∧
      ∀ x, x.owner = .node n → (x ∈ t.pending ↔ x ∈ s.pending)) ∧
    (∀ e x, x.owner = .eng e → (x ∈ t.pending ↔ x ∈ s.pending)) ∧
    (∀ r i, i < 8 → (s.portCfg r).base + i ≠ p.toNat →
      ((s.pin p.toNat).node = none ∨ (s.pin ((s.portCfg r).base + i)).node ≠ (s.pin p.toNat).node) →
      (t.port r).driven.getLsbD i = (s.port r).driven.getLsbD i) ∧
    ∀ n, t.cp = s.cp + 1 → (s.pin p.toNat).node = some n → analogMode t n = true →
      (t.pin p.toNat).drive ≠ (s.pin p.toNat).drive ∨ (t.pin p.toNat).dir ≠ (s.pin p.toNat).dir ∨
        (t.pin p.toNat).oc ≠ (s.pin p.toNat).oc ∨ (t.pin p.toNat).pu ≠ (s.pin p.toNat).pu →
      (t.node n).v0 = voltageAt s n s.cycle ∧ (t.node n).t0 = s.cycle

/-- R117, R240, R250 to R253: the frame of `ADVANCE`: whatever its callbacks do, the parameters, the stream, the output log, every pin's setup,
every driving-value and every engine's attachment and configuration stay; only a pin that an engine names as its data pin changes its
drive, and only an attached engine's where no engine that is not attached has an entry pending (which every step without a fault
keeps so). -/
def Obligations.FrameOfAdvance : Prop :=
  ∀ (imm : BitVec 16) (s t : State), Ready s → exec (.advance imm) s = .next t →
    SameHostSide s t ∧ (∀ q, SamePinSetup s t q) ∧ (∀ r, (t.port r).driving = (s.port r).driving) ∧
    (∀ e, (t.eng e).attached = (s.eng e).attached ∧ (t.eng e).sclPin = (s.eng e).sclPin ∧
      (t.eng e).sdaPin = (s.eng e).sdaPin ∧ (t.eng e).configured = (s.eng e).configured ∧
      (t.eng e).cfgAddress = (s.eng e).cfgAddress ∧ (t.eng e).cfgCsmask = (s.eng e).cfgCsmask) ∧
    (∀ q, (∀ e, e < s.cfg.numEngines → (s.eng e).sdaPin.toNat ≠ q) → (t.pin q).drive = (s.pin q).drive) ∧
    (UnattachedNoEntry s → ∀ q, ¬ isEngineSda s q → (t.pin q).drive = (s.pin q).drive)
end

