-- ==== Sys2Proof/Laws/State.lean ====
section
/-! SUPPORT. The small lemmas of the state and its updates: one per field per update, true by rfl, and reading one pin, node,
port register or engine after writing one. No later proof unfolds a record update. -/

namespace Sys2Proof.Machine

/-! #### `setPin` -/

@[simp] theorem setPin_cfg (s : State) (p : Nat) (x : Pin) : (s.setPin p x).cfg = s.cfg := rfl
@[simp] theorem setPin_stream (s : State) (p : Nat) (x : Pin) : (s.setPin p x).stream = s.stream := rfl
@[simp] theorem setPin_cycle (s : State) (p : Nat) (x : Pin) : (s.setPin p x).cycle = s.cycle := rfl
@[simp] theorem setPin_pending (s : State) (p : Nat) (x : Pin) : (s.setPin p x).pending = s.pending := rfl
@[simp] theorem setPin_nextSeq (s : State) (p : Nat) (x : Pin) : (s.setPin p x).nextSeq = s.nextSeq := rfl
@[simp] theorem setPin_faultCode (s : State) (p : Nat) (x : Pin) : (s.setPin p x).faultCode = s.faultCode := rfl
@[simp] theorem setPin_faultWord (s : State) (p : Nat) (x : Pin) : (s.setPin p x).faultWord = s.faultWord := rfl
@[simp] theorem setPin_faultCycle (s : State) (p : Nat) (x : Pin) : (s.setPin p x).faultCycle = s.faultCycle := rfl
@[simp] theorem setPin_diagLog (s : State) (p : Nat) (x : Pin) : (s.setPin p x).diagLog = s.diagLog := rfl
@[simp] theorem setPin_outLog (s : State) (p : Nat) (x : Pin) : (s.setPin p x).outLog = s.outLog := rfl
@[simp] theorem setPin_cp (s : State) (p : Nat) (x : Pin) : (s.setPin p x).cp = s.cp := rfl
@[simp] theorem setPin_depth (s : State) (p : Nat) (x : Pin) : (s.setPin p x).depth = s.depth := rfl
@[simp] theorem setPin_nodes (s : State) (p : Nat) (x : Pin) : (s.setPin p x).nodes = s.nodes := rfl
@[simp] theorem setPin_ports (s : State) (p : Nat) (x : Pin) : (s.setPin p x).ports = s.ports := rfl
@[simp] theorem setPin_engines (s : State) (p : Nat) (x : Pin) : (s.setPin p x).engines = s.engines := rfl
@[simp] theorem setPin_draws (s : State) (p : Nat) (x : Pin) : (s.setPin p x).draws = s.draws := rfl

/-! #### `setNode` -/

@[simp] theorem setNode_cfg (s : State) (n : Nat) (x : Node) : (s.setNode n x).cfg = s.cfg := rfl
@[simp] theorem setNode_stream (s : State) (n : Nat) (x : Node) : (s.setNode n x).stream = s.stream := rfl
@[simp] theorem setNode_cycle (s : State) (n : Nat) (x : Node) : (s.setNode n x).cycle = s.cycle := rfl
@[simp] theorem setNode_pending (s : State) (n : Nat) (x : Node) : (s.setNode n x).pending = s.pending := rfl
@[simp] theorem setNode_nextSeq (s : State) (n : Nat) (x : Node) : (s.setNode n x).nextSeq = s.nextSeq := rfl
@[simp] theorem setNode_faultCode (s : State) (n : Nat) (x : Node) : (s.setNode n x).faultCode = s.faultCode := rfl
@[simp] theorem setNode_faultWord (s : State) (n : Nat) (x : Node) : (s.setNode n x).faultWord = s.faultWord := rfl
@[simp] theorem setNode_faultCycle (s : State) (n : Nat) (x : Node) : (s.setNode n x).faultCycle = s.faultCycle := rfl
@[simp] theorem setNode_diagLog (s : State) (n : Nat) (x : Node) : (s.setNode n x).diagLog = s.diagLog := rfl
@[simp] theorem setNode_outLog (s : State) (n : Nat) (x : Node) : (s.setNode n x).outLog = s.outLog := rfl
@[simp] theorem setNode_cp (s : State) (n : Nat) (x : Node) : (s.setNode n x).cp = s.cp := rfl
@[simp] theorem setNode_depth (s : State) (n : Nat) (x : Node) : (s.setNode n x).depth = s.depth := rfl
@[simp] theorem setNode_pins (s : State) (n : Nat) (x : Node) : (s.setNode n x).pins = s.pins := rfl
@[simp] theorem setNode_ports (s : State) (n : Nat) (x : Node) : (s.setNode n x).ports = s.ports := rfl
@[simp] theorem setNode_engines (s : State) (n : Nat) (x : Node) : (s.setNode n x).engines = s.engines := rfl
@[simp] theorem setNode_draws (s : State) (n : Nat) (x : Node) : (s.setNode n x).draws = s.draws := rfl

/-! #### `setPort` -/

@[simp] theorem setPort_cfg (s : State) (r : Nat) (x : Port) : (s.setPort r x).cfg = s.cfg := rfl
@[simp] theorem setPort_stream (s : State) (r : Nat) (x : Port) : (s.setPort r x).stream = s.stream := rfl
@[simp] theorem setPort_cycle (s : State) (r : Nat) (x : Port) : (s.setPort r x).cycle = s.cycle := rfl
@[simp] theorem setPort_pending (s : State) (r : Nat) (x : Port) : (s.setPort r x).pending = s.pending := rfl
@[simp] theorem setPort_nextSeq (s : State) (r : Nat) (x : Port) : (s.setPort r x).nextSeq = s.nextSeq := rfl
@[simp] theorem setPort_faultCode (s : State) (r : Nat) (x : Port) : (s.setPort r x).faultCode = s.faultCode := rfl
@[simp] theorem setPort_faultWord (s : State) (r : Nat) (x : Port) : (s.setPort r x).faultWord = s.faultWord := rfl
@[simp] theorem setPort_faultCycle (s : State) (r : Nat) (x : Port) : (s.setPort r x).faultCycle = s.faultCycle := rfl
@[simp] theorem setPort_diagLog (s : State) (r : Nat) (x : Port) : (s.setPort r x).diagLog = s.diagLog := rfl
@[simp] theorem setPort_outLog (s : State) (r : Nat) (x : Port) : (s.setPort r x).outLog = s.outLog := rfl
@[simp] theorem setPort_cp (s : State) (r : Nat) (x : Port) : (s.setPort r x).cp = s.cp := rfl
@[simp] theorem setPort_depth (s : State) (r : Nat) (x : Port) : (s.setPort r x).depth = s.depth := rfl
@[simp] theorem setPort_pins (s : State) (r : Nat) (x : Port) : (s.setPort r x).pins = s.pins := rfl
@[simp] theorem setPort_nodes (s : State) (r : Nat) (x : Port) : (s.setPort r x).nodes = s.nodes := rfl
@[simp] theorem setPort_engines (s : State) (r : Nat) (x : Port) : (s.setPort r x).engines = s.engines := rfl
@[simp] theorem setPort_draws (s : State) (r : Nat) (x : Port) : (s.setPort r x).draws = s.draws := rfl

/-! #### `setEng` -/

@[simp] theorem setEng_cfg (s : State) (e : Nat) (x : Engine) : (s.setEng e x).cfg = s.cfg := rfl
@[simp] theorem setEng_stream (s : State) (e : Nat) (x : Engine) : (s.setEng e x).stream = s.stream := rfl
@[simp] theorem setEng_cycle (s : State) (e : Nat) (x : Engine) : (s.setEng e x).cycle = s.cycle := rfl
@[simp] theorem setEng_pending (s : State) (e : Nat) (x : Engine) : (s.setEng e x).pending = s.pending := rfl
@[simp] theorem setEng_nextSeq (s : State) (e : Nat) (x : Engine) : (s.setEng e x).nextSeq = s.nextSeq := rfl
@[simp] theorem setEng_faultCode (s : State) (e : Nat) (x : Engine) : (s.setEng e x).faultCode = s.faultCode := rfl
@[simp] theorem setEng_faultWord (s : State) (e : Nat) (x : Engine) : (s.setEng e x).faultWord = s.faultWord := rfl
@[simp] theorem setEng_faultCycle (s : State) (e : Nat) (x : Engine) : (s.setEng e x).faultCycle = s.faultCycle := rfl
@[simp] theorem setEng_diagLog (s : State) (e : Nat) (x : Engine) : (s.setEng e x).diagLog = s.diagLog := rfl
@[simp] theorem setEng_outLog (s : State) (e : Nat) (x : Engine) : (s.setEng e x).outLog = s.outLog := rfl
@[simp] theorem setEng_cp (s : State) (e : Nat) (x : Engine) : (s.setEng e x).cp = s.cp := rfl
@[simp] theorem setEng_depth (s : State) (e : Nat) (x : Engine) : (s.setEng e x).depth = s.depth := rfl
@[simp] theorem setEng_pins (s : State) (e : Nat) (x : Engine) : (s.setEng e x).pins = s.pins := rfl
@[simp] theorem setEng_nodes (s : State) (e : Nat) (x : Engine) : (s.setEng e x).nodes = s.nodes := rfl
@[simp] theorem setEng_ports (s : State) (e : Nat) (x : Engine) : (s.setEng e x).ports = s.ports := rfl
@[simp] theorem setEng_draws (s : State) (e : Nat) (x : Engine) : (s.setEng e x).draws = s.draws := rfl

/-! #### `diag` -/

@[simp] theorem diag_cfg (k : DiagKind) (obj : Nat) (d : Byte) (s : State) : (diag k obj d s).cfg = s.cfg := rfl
@[simp] theorem diag_stream (k : DiagKind) (obj : Nat) (d : Byte) (s : State) : (diag k obj d s).stream = s.stream := rfl
@[simp] theorem diag_cycle (k : DiagKind) (obj : Nat) (d : Byte) (s : State) : (diag k obj d s).cycle = s.cycle := rfl
@[simp] theorem diag_pending (k : DiagKind) (obj : Nat) (d : Byte) (s : State) : (diag k obj d s).pending = s.pending := rfl
@[simp] theorem diag_nextSeq (k : DiagKind) (obj : Nat) (d : Byte) (s : State) : (diag k obj d s).nextSeq = s.nextSeq := rfl
@[simp] theorem diag_faultCode (k : DiagKind) (obj : Nat) (d : Byte) (s : State) : (diag k obj d s).faultCode = s.faultCode := rfl
@[simp] theorem diag_faultWord (k : DiagKind) (obj : Nat) (d : Byte) (s : State) : (diag k obj d s).faultWord = s.faultWord := rfl
@[simp] theorem diag_faultCycle (k : DiagKind) (obj : Nat) (d : Byte) (s : State) : (diag k obj d s).faultCycle = s.faultCycle := rfl
@[simp] theorem diag_outLog (k : DiagKind) (obj : Nat) (d : Byte) (s : State) : (diag k obj d s).outLog = s.outLog := rfl
@[simp] theorem diag_cp (k : DiagKind) (obj : Nat) (d : Byte) (s : State) : (diag k obj d s).cp = s.cp := rfl
@[simp] theorem diag_depth (k : DiagKind) (obj : Nat) (d : Byte) (s : State) : (diag k obj d s).depth = s.depth := rfl
@[simp] theorem diag_pins (k : DiagKind) (obj : Nat) (d : Byte) (s : State) : (diag k obj d s).pins = s.pins := rfl
@[simp] theorem diag_nodes (k : DiagKind) (obj : Nat) (d : Byte) (s : State) : (diag k obj d s).nodes = s.nodes := rfl
@[simp] theorem diag_ports (k : DiagKind) (obj : Nat) (d : Byte) (s : State) : (diag k obj d s).ports = s.ports := rfl
@[simp] theorem diag_engines (k : DiagKind) (obj : Nat) (d : Byte) (s : State) : (diag k obj d s).engines = s.engines := rfl
@[simp] theorem diag_draws (k : DiagKind) (obj : Nat) (d : Byte) (s : State) : (diag k obj d s).draws = s.draws := rfl

/-! #### `out` -/

@[simp] theorem out_cfg (v : BitVec 64) (s : State) : (out v s).cfg = s.cfg := rfl
@[simp] theorem out_stream (v : BitVec 64) (s : State) : (out v s).stream = s.stream := rfl
@[simp] theorem out_cycle (v : BitVec 64) (s : State) : (out v s).cycle = s.cycle := rfl
@[simp] theorem out_pending (v : BitVec 64) (s : State) : (out v s).pending = s.pending := rfl
@[simp] theorem out_nextSeq (v : BitVec 64) (s : State) : (out v s).nextSeq = s.nextSeq := rfl
@[simp] theorem out_faultCode (v : BitVec 64) (s : State) : (out v s).faultCode = s.faultCode := rfl
@[simp] theorem out_faultWord (v : BitVec 64) (s : State) : (out v s).faultWord = s.faultWord := rfl
@[simp] theorem out_faultCycle (v : BitVec 64) (s : State) : (out v s).faultCycle = s.faultCycle := rfl
@[simp] theorem out_diagLog (v : BitVec 64) (s : State) : (out v s).diagLog = s.diagLog := rfl
@[simp] theorem out_cp (v : BitVec 64) (s : State) : (out v s).cp = s.cp := rfl
@[simp] theorem out_depth (v : BitVec 64) (s : State) : (out v s).depth = s.depth := rfl
@[simp] theorem out_pins (v : BitVec 64) (s : State) : (out v s).pins = s.pins := rfl
@[simp] theorem out_nodes (v : BitVec 64) (s : State) : (out v s).nodes = s.nodes := rfl
@[simp] theorem out_ports (v : BitVec 64) (s : State) : (out v s).ports = s.ports := rfl
@[simp] theorem out_engines (v : BitVec 64) (s : State) : (out v s).engines = s.engines := rfl
@[simp] theorem out_draws (v : BitVec 64) (s : State) : (out v s).draws = s.draws := rfl

/-! #### `cancel` -/

@[simp] theorem cancel_cfg (o : Owner) (s : State) : (cancel o s).cfg = s.cfg := rfl
@[simp] theorem cancel_stream (o : Owner) (s : State) : (cancel o s).stream = s.stream := rfl
@[simp] theorem cancel_cycle (o : Owner) (s : State) : (cancel o s).cycle = s.cycle := rfl
@[simp] theorem cancel_nextSeq (o : Owner) (s : State) : (cancel o s).nextSeq = s.nextSeq := rfl
@[simp] theorem cancel_faultCode (o : Owner) (s : State) : (cancel o s).faultCode = s.faultCode := rfl
@[simp] theorem cancel_faultWord (o : Owner) (s : State) : (cancel o s).faultWord = s.faultWord := rfl
@[simp] theorem cancel_faultCycle (o : Owner) (s : State) : (cancel o s).faultCycle = s.faultCycle := rfl
@[simp] theorem cancel_diagLog (o : Owner) (s : State) : (cancel o s).diagLog = s.diagLog := rfl
@[simp] theorem cancel_outLog (o : Owner) (s : State) : (cancel o s).outLog = s.outLog := rfl
@[simp] theorem cancel_cp (o : Owner) (s : State) : (cancel o s).cp = s.cp := rfl
@[simp] theorem cancel_depth (o : Owner) (s : State) : (cancel o s).depth = s.depth := rfl
@[simp] theorem cancel_pins (o : Owner) (s : State) : (cancel o s).pins = s.pins := rfl
@[simp] theorem cancel_nodes (o : Owner) (s : State) : (cancel o s).nodes = s.nodes := rfl
@[simp] theorem cancel_ports (o : Owner) (s : State) : (cancel o s).ports = s.ports := rfl
@[simp] theorem cancel_engines (o : Owner) (s : State) : (cancel o s).engines = s.engines := rfl
@[simp] theorem cancel_draws (o : Owner) (s : State) : (cancel o s).draws = s.draws := rfl

/-! #### `faulted` -/

@[simp] theorem faulted_cfg (c : FaultCode) (s : State) : (faulted c s).cfg = s.cfg := rfl
@[simp] theorem faulted_stream (c : FaultCode) (s : State) : (faulted c s).stream = s.stream := rfl
@[simp] theorem faulted_cycle (c : FaultCode) (s : State) : (faulted c s).cycle = s.cycle := rfl
@[simp] theorem faulted_pending (c : FaultCode) (s : State) : (faulted c s).pending = s.pending := rfl
@[simp] theorem faulted_nextSeq (c : FaultCode) (s : State) : (faulted c s).nextSeq = s.nextSeq := rfl
@[simp] theorem faulted_diagLog (c : FaultCode) (s : State) : (faulted c s).diagLog = s.diagLog := rfl
@[simp] theorem faulted_outLog (c : FaultCode) (s : State) : (faulted c s).outLog = s.outLog := rfl
@[simp] theorem faulted_cp (c : FaultCode) (s : State) : (faulted c s).cp = s.cp := rfl
@[simp] theorem faulted_pins (c : FaultCode) (s : State) : (faulted c s).pins = s.pins := rfl
@[simp] theorem faulted_nodes (c : FaultCode) (s : State) : (faulted c s).nodes = s.nodes := rfl
@[simp] theorem faulted_ports (c : FaultCode) (s : State) : (faulted c s).ports = s.ports := rfl
@[simp] theorem faulted_engines (c : FaultCode) (s : State) : (faulted c s).engines = s.engines := rfl
@[simp] theorem faulted_draws (c : FaultCode) (s : State) : (faulted c s).draws = s.draws := rfl

/-! #### What each update writes -/

@[simp] theorem faulted_faultCode (c : FaultCode) (s : State) : (faulted c s).faultCode = c.code := rfl
@[simp] theorem faulted_faultWord (c : FaultCode) (s : State) : (faulted c s).faultWord = wordAtCp s := rfl
@[simp] theorem faulted_faultCycle (c : FaultCode) (s : State) : (faulted c s).faultCycle = s.cycle := rfl
@[simp] theorem faulted_depth (c : FaultCode) (s : State) : (faulted c s).depth = 0 := rfl
@[simp] theorem setPin_pins_length (s : State) (p : Nat) (x : Pin) : (s.setPin p x).pins.length = s.pins.length := by
  simp [State.setPin]
@[simp] theorem setNode_nodes_length (s : State) (n : Nat) (x : Node) : (s.setNode n x).nodes.length = s.nodes.length := by
  simp [State.setNode]
@[simp] theorem setPort_ports_length (s : State) (r : Nat) (x : Port) : (s.setPort r x).ports.length = s.ports.length := by
  simp [State.setPort]
@[simp] theorem setEng_engines_length (s : State) (e : Nat) (x : Engine) :
    (s.setEng e x).engines.length = s.engines.length := by
  simp [State.setEng]

/-! #### Reading after writing -/

theorem getD_set_eq {α : Type} (xs : List α) (i j : Nat) (x d : α) :
    (xs.set i x).getD j d = if i = j ∧ i < xs.length then x else xs.getD j d := by
  simp only [List.getD_eq_getElem?_getD, List.getElem?_set]
  by_cases h : i = j
  · subst h; by_cases h2 : i < xs.length <;> simp [h2]
  · simp [h]

theorem setPin_pin (s : State) (p q : Nat) (x : Pin) :
    (s.setPin p x).pin q = if p = q ∧ p < s.pins.length then x else s.pin q :=
  getD_set_eq _ _ _ _ _

theorem setNode_node (s : State) (n m : Nat) (x : Node) :
    (s.setNode n x).node m = if n = m ∧ n < s.nodes.length then x else s.node m :=
  getD_set_eq _ _ _ _ _

theorem setPort_port (s : State) (r q : Nat) (x : Port) :
    (s.setPort r x).port q = if r = q ∧ r < s.ports.length then x else s.port q :=
  getD_set_eq _ _ _ _ _

theorem setEng_eng (s : State) (e f : Nat) (x : Engine) :
    (s.setEng e x).eng f = if e = f ∧ e < s.engines.length then x else s.eng f :=
  getD_set_eq _ _ _ _ _

/-- A pin outside the lists reads as at reset. -/
theorem pin_out_of_range (s : State) (p : Nat) (h : s.pins.length ≤ p) : s.pin p = Pin.reset := by
  simp [State.pin, h]

/-- An engine outside the lists reads as at reset. -/
theorem eng_out_of_range (s : State) (e : Nat) (h : s.engines.length ≤ e) : s.eng e = Engine.reset := by
  simp [State.eng, h]

/-- Writing a field of a pin that the reset pin has the same is seen at every index. -/
theorem setPin_pin_self (s : State) (p : Nat) (x : Pin) (h : p < s.pins.length) : (s.setPin p x).pin p = x := by
  simp [setPin_pin, h]

theorem setNode_node_self (s : State) (n : Nat) (x : Node) (h : n < s.nodes.length) : (s.setNode n x).node n = x := by
  simp [setNode_node, h]

theorem setPort_port_self (s : State) (r : Nat) (x : Port) (h : r < s.ports.length) : (s.setPort r x).port r = x := by
  simp [setPort_port, h]

theorem setEng_eng_self (s : State) (e : Nat) (x : Engine) (h : e < s.engines.length) : (s.setEng e x).eng e = x := by
  simp [setEng_eng, h]

/-! #### The accessors see only their own list -/

@[simp] theorem setNode_pin (s : State) (n : Nat) (x : Node) (p : Nat) : (s.setNode n x).pin p = s.pin p := rfl
@[simp] theorem setPort_pin (s : State) (r : Nat) (x : Port) (p : Nat) : (s.setPort r x).pin p = s.pin p := rfl
@[simp] theorem setEng_pin (s : State) (e : Nat) (x : Engine) (p : Nat) : (s.setEng e x).pin p = s.pin p := rfl
@[simp] theorem diag_pin (k : DiagKind) (o : Nat) (d : Byte) (s : State) (p : Nat) : (diag k o d s).pin p = s.pin p := rfl
@[simp] theorem out_pin (v : BitVec 64) (s : State) (p : Nat) : (out v s).pin p = s.pin p := rfl
@[simp] theorem cancel_pin (o : Owner) (s : State) (p : Nat) : (cancel o s).pin p = s.pin p := rfl
@[simp] theorem faulted_pin (c : FaultCode) (s : State) (p : Nat) : (faulted c s).pin p = s.pin p := rfl
@[simp] theorem setPin_node (s : State) (p : Nat) (x : Pin) (n : Nat) : (s.setPin p x).node n = s.node n := rfl
@[simp] theorem setPort_node (s : State) (r : Nat) (x : Port) (n : Nat) : (s.setPort r x).node n = s.node n := rfl
@[simp] theorem setEng_node (s : State) (e : Nat) (x : Engine) (n : Nat) : (s.setEng e x).node n = s.node n := rfl
@[simp] theorem diag_node (k : DiagKind) (o : Nat) (d : Byte) (s : State) (n : Nat) : (diag k o d s).node n = s.node n := rfl
@[simp] theorem out_node (v : BitVec 64) (s : State) (n : Nat) : (out v s).node n = s.node n := rfl
@[simp] theorem cancel_node (o : Owner) (s : State) (n : Nat) : (cancel o s).node n = s.node n := rfl
@[simp] theorem faulted_node (c : FaultCode) (s : State) (n : Nat) : (faulted c s).node n = s.node n := rfl
@[simp] theorem setPin_port (s : State) (p : Nat) (x : Pin) (r : Nat) : (s.setPin p x).port r = s.port r := rfl
@[simp] theorem setNode_port (s : State) (n : Nat) (x : Node) (r : Nat) : (s.setNode n x).port r = s.port r := rfl
@[simp] theorem setEng_port (s : State) (e : Nat) (x : Engine) (r : Nat) : (s.setEng e x).port r = s.port r := rfl
@[simp] theorem diag_port (k : DiagKind) (o : Nat) (d : Byte) (s : State) (r : Nat) : (diag k o d s).port r = s.port r := rfl
@[simp] theorem out_port (v : BitVec 64) (s : State) (r : Nat) : (out v s).port r = s.port r := rfl
@[simp] theorem cancel_port (o : Owner) (s : State) (r : Nat) : (cancel o s).port r = s.port r := rfl
@[simp] theorem faulted_port (c : FaultCode) (s : State) (r : Nat) : (faulted c s).port r = s.port r := rfl
@[simp] theorem setPin_eng (s : State) (p : Nat) (x : Pin) (e : Nat) : (s.setPin p x).eng e = s.eng e := rfl
@[simp] theorem setNode_eng (s : State) (n : Nat) (x : Node) (e : Nat) : (s.setNode n x).eng e = s.eng e := rfl
@[simp] theorem setPort_eng (s : State) (r : Nat) (x : Port) (e : Nat) : (s.setPort r x).eng e = s.eng e := rfl
@[simp] theorem diag_eng (k : DiagKind) (o : Nat) (d : Byte) (s : State) (e : Nat) : (diag k o d s).eng e = s.eng e := rfl
@[simp] theorem out_eng (v : BitVec 64) (s : State) (e : Nat) : (out v s).eng e = s.eng e := rfl
@[simp] theorem cancel_eng (o : Owner) (s : State) (e : Nat) : (cancel o s).eng e = s.eng e := rfl
@[simp] theorem faulted_eng (c : FaultCode) (s : State) (e : Nat) : (faulted c s).eng e = s.eng e := rfl

/-! #### Results -/

@[simp] theorem andThen_ok (s : State) (f : State → Res) : (Res.ok s).andThen f = f s := rfl
@[simp] theorem andThen_halt (s : State) (f : State → Res) : (Res.halt s).andThen f = .halt s := rfl
@[simp] theorem commit_ok (s : State) : commit (.ok s) = .next { s with cp := s.cp + 1 } := rfl
@[simp] theorem commit_halt (s : State) : commit (.halt s) = .next s := rfl
@[simp] theorem raise_eq (c : FaultCode) (s : State) : raise c s = .halt (faulted c s) := rfl
@[simp] theorem forEach_nil {α : Type} (f : α → State → Res) (s : State) : forEach f [] s = .ok s := rfl
@[simp] theorem forEach_cons {α : Type} (f : α → State → Res) (x : α) (xs : List α) (s : State) :
    forEach f (x :: xs) s = (f x s).andThen (forEach f xs) := rfl

/-- A chain that goes on went on at each of its links. -/
theorem andThen_eq_ok {r : Res} {f : State → Res} {t : State} (h : r.andThen f = .ok t) :
    ∃ u, r = .ok u ∧ f u = .ok t := by
  cases r with
  | ok u => exact ⟨u, rfl, h⟩
  | halt u => cases h

/-- A chain that halts halted at its first link or at a later one. -/
theorem andThen_eq_halt {r : Res} {f : State → Res} {t : State} (h : r.andThen f = .halt t) :
    r = .halt t ∨ ∃ u, r = .ok u ∧ f u = .halt t := by
  cases r with
  | ok u => exact .inr ⟨u, rfl, h⟩
  | halt u => exact .inl (by simpa using h)

theorem andThen_assoc (r : Res) (f g : State → Res) :
    (r.andThen f).andThen g = r.andThen fun s => (f s).andThen g := by
  cases r <;> rfl

end Sys2Proof.Machine
end

