-- ==== Sys2Proof/Laws/Cascade.lean ====
section
/-! SUPPORT. Everything a resolution can do, said once: the small writes a cascade is made of, and the theorem that every
resolution is a sequence of them, or such a sequence and then a fault. Frames and invariants are proved of the small writes. -/

namespace Sys2Proof.Machine

/-- The state `schedule` leaves when it raises nothing. -/
def scheduled (o : Owner) (due : Nat) (s : State) : State :=
  { s with
    pending := (cancel o s).pending ++ [⟨o, BitVec.ofNat 64 due, s.nextSeq⟩]
    nextSeq := s.nextSeq + 1 }

/-- The state in which the SCL handler calls `schedule` (R246). -/
def edgeLatch (e : Nat) (b : Bool) (s : State) : State :=
  s.setEng e { s.eng e with sclSeen := b, pend := some (if b then .rise else .fall) }

/-- What a notification may do to an engine beside its `pend`: everything the host set, the peripheral and the results of the
last byte stay; the bus state only moves to `Idle` or `RxAddress`, and SDA is only released. -/
structure EngKeeps (g g' : Engine) : Prop where
  attached : g'.attached = g.attached
  sclPin : g'.sclPin = g.sclPin
  sdaPin : g'.sdaPin = g.sdaPin
  configured : g'.configured = g.configured
  cfgAddress : g'.cfgAddress = g.cfgAddress
  cfgCsmask : g'.cfgCsmask = g.cfgCsmask
  matched : g'.matched = g.matched
  rw : g'.rw = g.rw
  ack : g'.ack = g.ack
  periph : g'.periph = g.periph
  pend : g'.pend = g.pend
  sclSeen : g'.sclSeen = g.sclSeen
  state : g'.state = g.state ∨ g'.state = .idle ∨ g'.state = .rxAddress
  bits : g'.bits = g.bits ∨ g'.bits = 0
  shift : g'.shift = g.shift ∨ g'.shift = 0
  sdaDrive : g'.sdaDrive = g.sdaDrive ∨ g'.sdaDrive = false

/-- One small write of a cascade. `A` says which node numbers may be scheduled. -/
inductive Casc (A : Nat → Prop) (s : State) : State → Prop where
  | depth (d : Nat) : Casc A s { s with depth := d }
  | driven (p : Nat) (l : Level) : Casc A s (s.setPin p { s.pin p with driven := l })
  | node (n : Nat) (x : Node) : Casc A s (s.setNode n x)
  | diag (k : DiagKind) (o : Nat) (d : Byte) : Casc A s (diag k o d s)
  | settleAt (n due : Nat) (hn : A n) (lo : s.cycle.toNat < due) (hi : due ≤ maxCycle) :
      Casc A s (scheduled (.node n) due s)
  | cancelNode (n : Nat) : Casc A s (cancel (.node n) s)
  | port (r i : Nat) (b : Bool) (hi : i ∈ enabledBits s r) :
      Casc A s (s.setPort r { s.port r with driven := setBit (s.port r).driven i b })
  | eng (e : Nat) (he : e < s.cfg.numEngines) (ha : (s.eng e).attached = true) (g : Engine) (h : EngKeeps (s.eng e) g) :
      Casc A s (s.setEng e g)
  | edge (e : Nat) (b : Bool) (he : e < s.cfg.numEngines) (ha : (s.eng e).attached = true)
      (hi : s.cycle.toNat + 1 ≤ maxCycle) : Casc A s (scheduled (.eng e) (s.cycle.toNat + 1) (edgeLatch e b s))
  | drop (e : Nat) (he : e < s.cfg.numEngines) (ha : (s.eng e).attached = true) : Casc A s (dropEdge e s)
  | release (e : Nat) (he : e < s.cfg.numEngines) (ha : (s.eng e).attached = true) :
      Casc A s (s.setPin (s.eng e).sdaPin.toNat { s.pin (s.eng e).sdaPin.toNat with drive := .digital .floating })
  | draw : Casc A s { s with draws := s.draws + 1 }

/-- A sequence of small writes. -/
abbrev Cascs (A : Nat → Prop) : State → State → Prop := Relation.ReflTransGen (Casc A)

/-- A fault as an operation leaves it: `NOTIFY_DEPTH` or `CYCLE_OVERFLOW`; only a clock edge whose callback does not fit the
counter leaves its latch written (R304). -/
def HaltOf (u t : State) : Prop :=
  t = faulted .notifyDepth u ∨ t = faulted .cycleOverflow u ∨
    ∃ e b, e < u.cfg.numEngines ∧ (u.eng e).attached = true ∧ t = faulted .cycleOverflow (edgeLatch e b u)

/-- How an operation made of writes of a kind `R` may end: after some of them, or after some of them and then a fault. -/
def RunRes (R : State → State → Prop) (s : State) (r : Res) : Prop :=
  match r with
  | .ok t => Relation.ReflTransGen R s t
  | .halt t => ∃ u, Relation.ReflTransGen R s u ∧ HaltOf u t

/-- How an operation made of a cascade's small writes may end. -/
abbrev CascRes (A : Nat → Prop) : State → Res → Prop := RunRes (Casc A)

section
variable {R : State → State → Prop}

theorem RunRes.of_ok {s t : State} (h : Relation.ReflTransGen R s t) : RunRes R s (.ok t) := h

/-- What is true of a continuation is true after some more writes before it. -/
theorem RunRes.after {s u : State} {r : Res} (h : Relation.ReflTransGen R s u) (hr : RunRes R u r) : RunRes R s r := by
  cases r with
  | ok t => exact h.trans hr
  | halt t =>
      obtain ⟨v, hv, ht⟩ := hr
      exact ⟨v, h.trans hv, ht⟩

theorem RunRes.step {s u : State} {r : Res} (h : R s u) (hr : RunRes R u r) : RunRes R s r :=
  hr.after (.single h)

/-- Chaining: if the first part is made of such writes and the second is from wherever the first ends. -/
theorem RunRes.andThen {s : State} {r : Res} {f : State → Res} (hr : RunRes R s r)
    (hf : ∀ u, r = .ok u → Relation.ReflTransGen R s u → RunRes R u (f u)) : RunRes R s (r.andThen f) := by
  cases r with
  | halt t => exact hr
  | ok u => exact RunRes.after hr (hf u rfl hr)

theorem RunRes.mono {R' : State → State → Prop} (h : ∀ s t, R s t → R' s t) {s : State} {r : Res} (hr : RunRes R s r) :
    RunRes R' s r := by
  cases r with
  | ok t => exact Relation.ReflTransGen.mono (fun a b => h a b) _ _ hr
  | halt t =>
      obtain ⟨u, hu, ht⟩ := hr
      exact ⟨u, Relation.ReflTransGen.mono (fun a b => h a b) _ _ hu, ht⟩

end

/-- Every node a pin is attached to is allowed. -/
def NodesIn (A : Nat → Prop) (s : State) : Prop :=
  ∀ p n, (s.pin p).node = some n → A n

/-- The node of a job is allowed. -/
def JobIn (A : Nat → Prop) : Job → Prop
  | .node n => A n
  | .pin _ => True
  | .settle n => A n

theorem Cascs.keeps {A : Nat → Prop} {P : State → Prop} (h : ∀ s t, Casc A s t → P s → P t) {s t : State}
    (hs : Cascs A s t) (p : P s) : P t := by
  induction hs with
  | refl => exact p
  | tail _ hc ih => exact h _ _ hc ih

/-- Reading one pin after writing a pin: the written record where it is, the old one elsewhere. -/
theorem setPin_pin_cases (s : State) (p q : Nat) (x : Pin) :
    (s.setPin p x).pin q = s.pin q ∨ (p = q ∧ (s.setPin p x).pin q = x) := by
  rw [setPin_pin]; split
  · next h => exact .inr ⟨h.1, rfl⟩
  · exact .inl rfl

theorem setEng_eng_cases (s : State) (e f : Nat) (x : Engine) :
    (s.setEng e x).eng f = s.eng f ∨ (e = f ∧ (s.setEng e x).eng f = x) := by
  rw [setEng_eng]; split
  · next h => exact .inr ⟨h.1, rfl⟩
  · exact .inl rfl

theorem setPort_port_cases (s : State) (r q : Nat) (x : Port) :
    (s.setPort r x).port q = s.port q ∨ (r = q ∧ (s.setPort r x).port q = x) := by
  rw [setPort_port]; split
  · next h => exact .inr ⟨h.1, rfl⟩
  · exact .inl rfl

theorem setNode_node_cases (s : State) (n m : Nat) (x : Node) :
    (s.setNode n x).node m = s.node m ∨ (n = m ∧ (s.setNode n x).node m = x) := by
  rw [setNode_node]; split
  · next h => exact .inr ⟨h.1, rfl⟩
  · exact .inl rfl

/-- A cascade never changes where a pin is attached, nor a pin's direction, open-collector or pull-up field. -/
theorem Casc.pin_fixed {A : Nat → Prop} {s t : State} (h : Casc A s t) (p : Nat) :
    (t.pin p).node = (s.pin p).node ∧ (t.pin p).dir = (s.pin p).dir ∧ (t.pin p).oc = (s.pin p).oc ∧
      (t.pin p).pu = (s.pin p).pu := by
  cases h with
  | driven q l =>
      rcases setPin_pin_cases s q p { s.pin q with driven := l } with h | ⟨rfl, h⟩ <;> simp [h]
  | release e =>
      rcases setPin_pin_cases s (s.eng e).sdaPin.toNat p { s.pin (s.eng e).sdaPin.toNat with drive := .digital .floating }
        with h | ⟨rfl, h⟩ <;> simp [h]
  | _ => exact ⟨rfl, rfl, rfl, rfl⟩

theorem Cascs.pin_fixed {A : Nat → Prop} {s t : State} (h : Cascs A s t) (p : Nat) :
    (t.pin p).node = (s.pin p).node ∧ (t.pin p).dir = (s.pin p).dir ∧ (t.pin p).oc = (s.pin p).oc ∧
      (t.pin p).pu = (s.pin p).pu := by
  induction h with
  | refl => exact ⟨rfl, rfl, rfl, rfl⟩
  | tail _ hc ih =>
      obtain ⟨a, b, c, d⟩ := hc.pin_fixed p
      exact ⟨a.trans ih.1, b.trans ih.2.1, c.trans ih.2.2.1, d.trans ih.2.2.2⟩

theorem NodesIn.casc {A : Nat → Prop} {s t : State} (hn : NodesIn A s) (h : Cascs A s t) : NodesIn A t := by
  intro p n hp
  rw [(h.pin_fixed p).1] at hp
  exact hn p n hp

/-- The engine fields no cascade changes, and the parameters. -/
theorem Casc.eng_fixed {A : Nat → Prop} {s t : State} (h : Casc A s t) (e : Nat) :
    t.cfg = s.cfg ∧ (t.eng e).attached = (s.eng e).attached ∧ (t.eng e).sclPin = (s.eng e).sclPin ∧
      (t.eng e).sdaPin = (s.eng e).sdaPin ∧ (t.eng e).configured = (s.eng e).configured ∧
      (t.eng e).cfgAddress = (s.eng e).cfgAddress ∧ (t.eng e).cfgCsmask = (s.eng e).cfgCsmask ∧
      (t.eng e).matched = (s.eng e).matched ∧ (t.eng e).rw = (s.eng e).rw ∧ (t.eng e).ack = (s.eng e).ack ∧
      (t.eng e).periph = (s.eng e).periph := by
  cases h with
  | eng f hf ha g h =>
      rcases setEng_eng_cases s f e g with h' | ⟨rfl, h'⟩
      · simp [h']
      · simp [h', h.attached, h.sclPin, h.sdaPin, h.configured, h.cfgAddress, h.cfgCsmask, h.matched, h.rw, h.ack, h.periph]
  | edge f b =>
      have : (scheduled (.eng f) (s.cycle.toNat + 1) (edgeLatch f b s)).eng e = (edgeLatch f b s).eng e := rfl
      rw [this]
      rcases setEng_eng_cases s f e { s.eng f with sclSeen := b, pend := some (if b then .rise else .fall) }
        with h' | ⟨rfl, h'⟩ <;> simp [edgeLatch, h', scheduled]
  | drop f =>
      have : (dropEdge f s).eng e = (s.setEng f { s.eng f with pend := none }).eng e := rfl
      rw [this]
      rcases setEng_eng_cases s f e { s.eng f with pend := none } with h' | ⟨rfl, h'⟩ <;> simp [dropEdge, h']
  | _ => exact ⟨rfl, rfl, rfl, rfl, rfl, rfl, rfl, rfl, rfl, rfl, rfl⟩

theorem Cascs.eng_fixed {A : Nat → Prop} {s t : State} (h : Cascs A s t) (e : Nat) :
    t.cfg = s.cfg ∧ (t.eng e).attached = (s.eng e).attached ∧ (t.eng e).sclPin = (s.eng e).sclPin ∧
      (t.eng e).sdaPin = (s.eng e).sdaPin ∧ (t.eng e).configured = (s.eng e).configured ∧
      (t.eng e).cfgAddress = (s.eng e).cfgAddress ∧ (t.eng e).cfgCsmask = (s.eng e).cfgCsmask ∧
      (t.eng e).matched = (s.eng e).matched ∧ (t.eng e).rw = (s.eng e).rw ∧ (t.eng e).ack = (s.eng e).ack ∧
      (t.eng e).periph = (s.eng e).periph := by
  induction h with
  | refl => simp
  | tail _ hc ih =>
      obtain ⟨a1, a2, a3, a4, a5, a6, a7, a8, a9, a10, a11⟩ := hc.eng_fixed e
      obtain ⟨b1, b2, b3, b4, b5, b6, b7, b8, b9, b10, b11⟩ := ih
      exact ⟨a1.trans b1, a2.trans b2, a3.trans b3, a4.trans b4, a5.trans b5, a6.trans b6, a7.trans b7, a8.trans b8,
        a9.trans b9, a10.trans b10, a11.trans b11⟩

/-! ### One lemma per operation: it is made of small writes -/

theorem forEach_casc {A : Nat → Prop} {α : Type} {f : α → State → Res} (xs : List α) {s : State} (hs : NodesIn A s)
    (hf : ∀ x ∈ xs, ∀ u, Cascs A s u → NodesIn A u → CascRes A u (f x u)) : CascRes A s (forEach f xs s) := by
  induction xs generalizing s with
  | nil => exact .refl
  | cons x xs ih =>
      refine RunRes.andThen (hf x (by simp) s .refl hs) fun u _ hu => ih (hs.casc hu) fun y hy v hv hn => ?_
      exact hf y (by simp [hy]) v (hu.trans hv) hn

theorem foldl_casc {A : Nat → Prop} {α : Type} {f : State → α → State} (xs : List α) {s : State}
    (hf : ∀ x ∈ xs, ∀ u, Cascs A s u → Cascs A u (f u x)) : Cascs A s (xs.foldl f s) := by
  induction xs generalizing s with
  | nil => exact .refl
  | cons x xs ih =>
      have h1 := hf x (by simp) s .refl
      exact h1.trans (ih fun y hy v hv => hf y (by simp [hy]) v (h1.trans hv))

theorem onPinChanged_casc {A : Nat → Prop} (r i : Nat) (s : State) (hi : i ∈ enabledBits s r) :
    Cascs A s (onPinChanged r i s) := by
  unfold onPinChanged
  split
  · exact .single (.port r i _ hi)
  · exact .refl

theorem Cascs.enabledBits {A : Nat → Prop} {s t : State} (h : Cascs A s t) (r : Nat) :
    enabledBits t r = enabledBits s r := by
  simp [Machine.enabledBits, State.portCfg, (h.eng_fixed 0).1]

theorem notifyPort_casc {A : Nat → Prop} (p r : Nat) (s : State) : Cascs A s (notifyPort p r s) := by
  refine foldl_casc _ fun i hi u hu => onPinChanged_casc r i u ?_
  rw [hu.enabledBits]
  exact (List.mem_filter.mp hi).1

/-- `schedule` at a later cycle either schedules or raises `CYCLE_OVERFLOW` (R114). -/
theorem schedule_later (o : Owner) (due : Nat) (s : State) (h : s.cycle.toNat < due) :
    schedule o due s = if due ≤ maxCycle then .ok (scheduled o due s) else raise .cycleOverflow s := by
  unfold schedule
  rw [if_neg (by omega)]
  by_cases hd : due ≤ maxCycle
  · rw [if_neg (by omega), if_pos hd]; rfl
  · rw [if_pos (by omega), if_neg hd]

theorem onScl_casc {A : Nat → Prop} (e : Nat) (s : State) (he : e < s.cfg.numEngines) (ha : (s.eng e).attached = true) :
    CascRes A s (onScl e s) := by
  unfold onScl
  split
  · exact .single (.diag _ _ _)
  · next b hb =>
    split
    · exact .refl
    · have hc : ({ s.eng e with sclSeen := b, pend := some (if b then Edge.rise else .fall) } : Engine)
          = { s.eng e with sclSeen := b, pend := some (if b then .rise else .fall) } := rfl
      change CascRes A s (schedule (.eng e) (s.cycle.toNat + 1) (edgeLatch e b s))
      rw [schedule_later _ _ _ (by simp [edgeLatch])]
      split
      · next h => exact .single (.edge e b he ha h)
      · exact ⟨s, .refl, .inr (.inr ⟨e, b, he, ha, rfl⟩)⟩

section
variable {A : Nat → Prop} {res : Job → State → Res}

theorem jobOf_in {s : State} (hs : NodesIn A s) (p : Nat) : JobIn A (jobOf s p) := by
  unfold jobOf
  split
  · next n hn => exact hs p n hn
  · trivial

/-- `SetDriving` is made of small writes when its own write is one and the resolution is. -/
theorem setDrivingVia_casc (hres : ∀ j s, NodesIn A s → JobIn A j → CascRes A s (res j s)) (p : Nat) (d : Drive) (s : State)
    (hs : NodesIn A s) (h : Casc A s (s.setPin p { s.pin p with drive := d })) : CascRes A s (setDrivingVia res p d s) := by
  unfold setDrivingVia
  split
  · exact RunRes.of_ok .refl
  · have hs' := hs.casc (.single h)
    exact RunRes.step h (hres _ _ hs' (jobOf_in hs' p))

/-- Releasing SDA: `Drive(e, 1)` is made of small writes when the resolution is. -/
theorem driveSdaVia_release_casc (hres : ∀ j s, NodesIn A s → JobIn A j → CascRes A s (res j s)) (e : Nat) (s : State)
    (hs : NodesIn A s) (he : e < s.cfg.numEngines) (ha : (s.eng e).attached = true) :
    CascRes A s (driveSdaVia res e true s) := by
  have h1 : Casc A s (s.setEng e { s.eng e with sdaDrive := !true }) :=
    .eng e he ha _ ⟨rfl, rfl, rfl, rfl, rfl, rfl, rfl, rfl, rfl, rfl, rfl, rfl, .inl rfl, .inl rfl, .inl rfl, .inr rfl⟩
  exact RunRes.step h1 (setDrivingVia_casc hres _ _ _ (hs.casc (.single h1))
    (Casc.release e (by simpa using he) ((h1.eng_fixed e).2.1.trans ha)))

theorem startVia_casc (hres : ∀ j s, NodesIn A s → JobIn A j → CascRes A s (res j s)) (e : Nat) (s : State)
    (hs : NodesIn A s) (he : e < s.cfg.numEngines) (ha : (s.eng e).attached = true) : CascRes A s (startVia res e s) := by
  unfold startVia
  have h1 : Casc A s (dropEdge e s) := .drop e he ha
  have h2 : Casc A (dropEdge e s) ((dropEdge e s).setEng e
      { (dropEdge e s).eng e with state := .rxAddress, bits := 0, shift := 0x00 }) :=
    .eng (s := dropEdge e s) e he ((h1.eng_fixed e).2.1.trans ha) _
      ⟨rfl, rfl, rfl, rfl, rfl, rfl, rfl, rfl, rfl, rfl, rfl, rfl, .inr (.inr rfl), .inr rfl, .inr rfl, .inl rfl⟩
  have h12 := (Relation.ReflTransGen.single h1).tail h2
  refine RunRes.after h12 (driveSdaVia_release_casc hres e _ (hs.casc h12) he ?_)
  exact (Cascs.eng_fixed h12 e).2.1.trans ha

theorem stopVia_casc (hres : ∀ j s, NodesIn A s → JobIn A j → CascRes A s (res j s)) (e : Nat) (s : State)
    (hs : NodesIn A s) (he : e < s.cfg.numEngines) (ha : (s.eng e).attached = true) : CascRes A s (stopVia res e s) := by
  unfold stopVia
  have h1 : Casc A s (dropEdge e s) := .drop e he ha
  have h2 : Casc A (dropEdge e s) ((dropEdge e s).setEng e
      { (dropEdge e s).eng e with state := .idle, bits := 0 }) :=
    .eng (s := dropEdge e s) e he ((h1.eng_fixed e).2.1.trans ha) _
      ⟨rfl, rfl, rfl, rfl, rfl, rfl, rfl, rfl, rfl, rfl, rfl, rfl, .inr (.inl rfl), .inr rfl, .inl rfl, .inl rfl⟩
  have h12 := (Relation.ReflTransGen.single h1).tail h2
  refine RunRes.after h12 (driveSdaVia_release_casc hres e _ (hs.casc h12) he ?_)
  exact (Cascs.eng_fixed h12 e).2.1.trans ha

theorem onSdaVia_casc (hres : ∀ j s, NodesIn A s → JobIn A j → CascRes A s (res j s)) (e : Nat) (s : State)
    (hs : NodesIn A s) (he : e < s.cfg.numEngines) (ha : (s.eng e).attached = true) : CascRes A s (onSdaVia res e s) := by
  unfold onSdaVia
  split
  · exact .single (.diag _ _ _)
  · next b hb =>
    split
    · exact .refl
    · have h1 : Casc A s (s.setEng e { s.eng e with sdaSeen := b }) :=
        .eng e he ha _ ⟨rfl, rfl, rfl, rfl, rfl, rfl, rfl, rfl, rfl, rfl, rfl, rfl, .inl rfl, .inl rfl, .inl rfl, .inl rfl⟩
      refine RunRes.step h1 ?_
      have ha' := (h1.eng_fixed e).2.1.trans ha
      have hs' := hs.casc (.single h1)
      dsimp only
      split
      · split
        · exact stopVia_casc hres e _ hs' he ha'
        · exact startVia_casc hres e _ hs' he ha'
      · exact .refl

theorem notifyEngineVia_casc (hres : ∀ j s, NodesIn A s → JobIn A j → CascRes A s (res j s)) (p e : Nat) (s : State)
    (hs : NodesIn A s) (he : e < s.cfg.numEngines) : CascRes A s (notifyEngineVia res p e s) := by
  unfold notifyEngineVia
  split
  · next ha =>
    refine RunRes.andThen ?_ fun u _ hu => ?_
    · split
      · exact onScl_casc e s he ha
      · exact .refl
    · split
      · exact onSdaVia_casc hres e u (hs.casc hu) (by rw [(Cascs.eng_fixed hu e).1]; exact he)
          ((Cascs.eng_fixed hu e).2.1.trans ha)
      · exact .refl
  · exact .refl

theorem notifyVia_casc (hres : ∀ j s, NodesIn A s → JobIn A j → CascRes A s (res j s)) (p : Nat) (s : State)
    (hs : NodesIn A s) : CascRes A s (notifyVia res p s) := by
  unfold notifyVia
  have h1 : Cascs A s ((List.range s.cfg.numPorts).foldl (fun s r => notifyPort p r s) s) :=
    foldl_casc _ fun r _ u _ => notifyPort_casc p r u
  refine RunRes.after h1 (forEach_casc _ (hs.casc h1) fun e he u hu hn => ?_)
  refine notifyEngineVia_casc hres p e u hn ?_
  have hc := (Cascs.eng_fixed (h1.trans hu) 0).1
  rw [hc]
  exact List.mem_range.mp he

theorem publishWrites_casc (n : Nat) (l : Level) (s : State) : Cascs A s (publishWrites n l s) := by
  unfold publishWrites
  exact Relation.ReflTransGen.head (.node n _) (foldl_casc _ fun p _ u _ => .single (.driven p l))

theorem publishVia_casc (hres : ∀ j s, NodesIn A s → JobIn A j → CascRes A s (res j s)) (n : Nat) (l : Level) (s : State)
    (hs : NodesIn A s) : CascRes A s (publishVia res n l s) := by
  have h1 := publishWrites_casc (A := A) n l s
  exact RunRes.after h1 (forEach_casc _ (hs.casc h1) fun p _ u _ hn => notifyVia_casc hres p u hn)

theorem settleNode_casc (n : Nat) (v : Num) (s : State) : Cascs A s (settleNode n v s) :=
  (Relation.ReflTransGen.single (.node n _)).tail (.cancelNode n)

theorem one_le_stepCycles (c : Config) (v vt tau : Num) (k : Nat) : 1 ≤ stepCycles c v vt tau k := by
  unfold stepCycles
  dsimp only
  split <;> omega

theorem schedule_node_casc (n : Nat) (hn : A n) (k : Nat) (hk : 1 ≤ k) (s : State) :
    CascRes A s (schedule (.node n) (s.cycle.toNat + k) s) := by
  rw [schedule_later _ _ _ (by omega)]
  split
  · next h => exact RunRes.of_ok (.single (.settleAt n _ hn (by omega) h))
  · exact ⟨s, .refl, .inr (.inl rfl)⟩

theorem analogUpdate_casc (n : Nat) (hn : A n) (s : State) : CascRes A s (analogUpdate n s) := by
  unfold analogUpdate
  dsimp only
  split
  · exact RunRes.of_ok (Relation.ReflTransGen.head (.node n _) (Relation.ReflTransGen.head .draw (settleNode_casc _ _ _)))
  · split
    · exact RunRes.of_ok (Relation.ReflTransGen.head (.node n _) (settleNode_casc _ _ _))
    · exact RunRes.after ((Relation.ReflTransGen.single (.node n _)).tail (.node n _))
        (schedule_node_casc n hn _ (one_le_stepCycles _ _ _ _ _) _)

theorem settleUpdate_casc (n : Nat) (hn : A n) (s : State) : CascRes A s (settleUpdate n s) := by
  unfold settleUpdate
  dsimp only
  split
  · exact RunRes.of_ok (Relation.ReflTransGen.head (.node n _) (settleNode_casc _ _ _))
  · exact RunRes.after (Relation.ReflTransGen.single (.node n _))
      (schedule_node_casc n hn _ (one_le_stepCycles _ _ _ _ _) _)

theorem leaveAnalog_casc (n : Nat) (s : State) : Cascs A s (leaveAnalog n s) := by
  unfold leaveAnalog
  split
  · exact (Relation.ReflTransGen.single (.node n _)).tail (.cancelNode n)
  · exact .refl

theorem digitalUpdate_casc (n : Nat) (s : State) : Cascs A s (digitalUpdate n s) := by
  unfold digitalUpdate
  refine (leaveAnalog_casc n s).trans ?_
  dsimp only
  split
  · exact (Relation.ReflTransGen.single (.node n _)).tail (.diag _ _ _)
  · exact .single (.node n _)

theorem runJobVia_casc (hres : ∀ j s, NodesIn A s → JobIn A j → CascRes A s (res j s)) (j : Job) (s : State)
    (hs : NodesIn A s) (hj : JobIn A j) : CascRes A s (runJobVia res j s) := by
  cases j with
  | node n =>
      change CascRes A s (resolveNodeVia res n s)
      unfold resolveNodeVia
      split
      · exact RunRes.andThen (analogUpdate_casc n hj s) fun u _ hu => publishVia_casc hres n _ u (hs.casc hu)
      · have h1 := digitalUpdate_casc (A := A) n s
        exact RunRes.after h1 (publishVia_casc hres n _ _ (hs.casc h1))
  | pin p =>
      change CascRes A s (resolveAloneVia res p s)
      unfold resolveAloneVia
      dsimp only
      split
      · exact .refl
      · exact RunRes.step (.driven p _) (notifyVia_casc hres p _ (hs.casc (.single (.driven p _))))
  | settle n =>
      exact RunRes.andThen (settleUpdate_casc n hj s) fun u _ hu => publishVia_casc hres n _ u (hs.casc hu)

end

/-- Every resolution, at any depth, is a sequence of small writes, or one and then a fault. -/
theorem resolveJob_casc {A : Nat → Prop} (room : Nat) (j : Job) (s : State) (hs : NodesIn A s) (hj : JobIn A j) :
    CascRes A s (resolveJob room j s) := by
  induction room generalizing j s with
  | zero => exact ⟨s, .refl, .inl rfl⟩
  | succ room ih =>
      refine RunRes.step (.depth (s.depth + 1)) (RunRes.andThen ?_ fun u _ _ => RunRes.of_ok (.single (.depth _)))
      exact runJobVia_casc ih j _ hs hj

theorem resolve_casc {A : Nat → Prop} (j : Job) (s : State) (hs : NodesIn A s) (hj : JobIn A j) :
    CascRes A s (resolve j s) :=
  resolveJob_casc _ j s hs hj

end Sys2Proof.Machine
end

