-- ==== Sys2Proof/Laws/Callback.lean ====
section
/-! SUPPORT. Everything a callback can do, said once: the small writes of the transition table beside those of a cascade, and the
theorem that firing an entry is a sequence of them; and what `nextDue` picks. -/

namespace Sys2Proof.Machine

/-- What a row of the transition table may do to an engine: the host's settings, the latches and `pend` stay; no row enters
`Start` or `WritePending`; the peripheral is called at most once. -/
structure RowKeeps (g g' : Engine) : Prop where
  attached : g'.attached = g.attached
  sclPin : g'.sclPin = g.sclPin
  sdaPin : g'.sdaPin = g.sdaPin
  configured : g'.configured = g.configured
  cfgAddress : g'.cfgAddress = g.cfgAddress
  cfgCsmask : g'.cfgCsmask = g.cfgCsmask
  sclSeen : g'.sclSeen = g.sclSeen
  sdaSeen : g'.sdaSeen = g.sdaSeen
  pend : g'.pend = g.pend
  state : g'.state = g.state ∨ (g'.state ≠ .start ∧ g'.state ≠ .writePending)
  periph : g'.periph = g.periph ∨ ∃ c, g'.periph = g.periph ++ [c]

/-- One small write of a callback. `A` says which node numbers may be scheduled, `E` whose callback it is: only that engine
drives its data pin low. -/
inductive Act (A E : Nat → Prop) (s : State) : State → Prop where
  | casc {t : State} (h : Casc A s t) : Act A E s t
  | row (e : Nat) (g : Engine) (h : RowKeeps (s.eng e) g) : Act A E s (s.setEng e g)
  | drive (e : Nat) (bit : Bool) (he : e < s.cfg.numEngines) (hE : E e) :
      Act A E s (s.setPin (s.eng e).sdaPin.toNat
        { s.pin (s.eng e).sdaPin.toNat with drive := .digital (if bit then .floating else .drivenLow) })

/-- A sequence of small writes of a callback. -/
abbrev Acts (A E : Nat → Prop) : State → State → Prop := Relation.ReflTransGen (Act A E)

/-- How a callback may end. -/
abbrev ActRes (A E : Nat → Prop) : State → Res → Prop := RunRes (Act A E)

theorem Acts.keeps {A E : Nat → Prop} {P : State → Prop} (h : ∀ s t, Act A E s t → P s → P t) {s t : State}
    (hs : Acts A E s t) (p : P s) : P t := by
  induction hs with
  | refl => exact p
  | tail _ hc ih => exact h _ _ hc ih

/-- A callback never changes where a pin is attached, nor a pin's direction, open-collector or pull-up field, nor the
parameters. -/
theorem Act.pin_fixed {A E : Nat → Prop} {s t : State} (h : Act A E s t) (p : Nat) :
    t.cfg = s.cfg ∧ (t.pin p).node = (s.pin p).node ∧ (t.pin p).dir = (s.pin p).dir ∧ (t.pin p).oc = (s.pin p).oc ∧
      (t.pin p).pu = (s.pin p).pu := by
  cases h with
  | casc h => exact ⟨(h.eng_fixed 0).1, h.pin_fixed p⟩
  | row e g h => exact ⟨rfl, rfl, rfl, rfl, rfl⟩
  | drive e bit he =>
      rcases setPin_pin_cases s (s.eng e).sdaPin.toNat p
        { s.pin (s.eng e).sdaPin.toNat with drive := .digital (if bit then .floating else .drivenLow) } with h | ⟨rfl, h⟩ <;>
        simp [h]

theorem Acts.pin_fixed {A E : Nat → Prop} {s t : State} (h : Acts A E s t) (p : Nat) :
    t.cfg = s.cfg ∧ (t.pin p).node = (s.pin p).node ∧ (t.pin p).dir = (s.pin p).dir ∧ (t.pin p).oc = (s.pin p).oc ∧
      (t.pin p).pu = (s.pin p).pu := by
  induction h with
  | refl => exact ⟨rfl, rfl, rfl, rfl, rfl⟩
  | tail _ hc ih =>
      obtain ⟨z, a, b, c, d⟩ := hc.pin_fixed p
      exact ⟨z.trans ih.1, a.trans ih.2.1, b.trans ih.2.2.1, c.trans ih.2.2.2.1, d.trans ih.2.2.2.2⟩

theorem NodesIn.acts {A E : Nat → Prop} {s t : State} (hn : NodesIn A s) (h : Acts A E s t) : NodesIn A t := by
  intro p n hp
  rw [(Acts.pin_fixed h p).2.1] at hp
  exact hn p n hp

section
variable {A E : Nat → Prop}

/-- Driving SDA from a callback. -/
theorem driveSda_act (e : Nat) (bit : Bool) (s : State) (hs : NodesIn A s) (he : e < s.cfg.numEngines) (hE : E e) : ActRes A E s (driveSda e bit s) := by
  unfold driveSda driveSdaVia setDrivingVia
  have h1 : Act A E s (s.setEng e { s.eng e with sdaDrive := !bit }) :=
    .row e _ ⟨rfl, rfl, rfl, rfl, rfl, rfl, rfl, rfl, rfl, .inl rfl, .inl rfl⟩
  refine RunRes.step h1 ?_
  have h2 := Act.drive (A := A) (E := E) (s := s.setEng e { s.eng e with sdaDrive := !bit }) e bit he hE
  have hn := (hs.acts (.single h1)).acts (.single h2)
  generalize hu : s.setEng e { s.eng e with sdaDrive := !bit } = u at h2 hn ⊢
  dsimp only
  by_cases hd : (u.pin (u.eng e).sdaPin.toNat).drive = .digital (if bit then .floating else .drivenLow)
  · rw [if_pos hd]; exact RunRes.of_ok .refl
  · rw [if_neg hd]
    exact RunRes.step h2 (RunRes.mono (fun a b => Act.casc) (resolve_casc _ _ hn (jobOf_in hn _)))

theorem setEng_row_act (e : Nat) (g : Engine) (s : State) (h : RowKeeps (s.eng e) g) : ActRes A E s (.ok (s.setEng e g)) :=
  RunRes.of_ok (.single (.row e g h))

theorem loadTx_act (e : Nat) (s : State) (hs : NodesIn A s) (he : e < s.cfg.numEngines) (hE : E e) : ActRes A E s (loadTx e s) := by
  have h1 : Act A E s (s.setEng e
      { s.eng e with periph := (s.eng e).periph ++ [.tx], shift := Config.txByte e (s.eng e).periph, bits := 0 }) :=
    .row e _ ⟨rfl, rfl, rfl, rfl, rfl, rfl, rfl, rfl, rfl, .inl rfl, .inr ⟨_, rfl⟩⟩
  refine RunRes.step h1 (RunRes.andThen (driveSda_act e _ _ (hs.acts (.single h1)) he hE) fun u _ _ => ?_)
  exact setEng_row_act e _ u ⟨rfl, rfl, rfl, rfl, rfl, rfl, rfl, rfl, rfl, .inr ⟨by simp, by simp⟩, .inl rfl⟩

/-- Every row of the transition table is made of a callback's small writes. -/
theorem edgeRow_act (e : Nat) (edge : Edge) (sda : Bool) (s : State) (hs : NodesIn A s) (he : e < s.cfg.numEngines) (hE : E e) :
    ActRes A E s (edgeRow e edge sda s) := by
  have stay : ActRes A E s (.ok s) := RunRes.of_ok .refl
  have done : ∀ (u : State) (g : Engine), RowKeeps (u.eng e) g → ActRes A E u (.ok (u.setEng e g)) :=
    fun u g h => setEng_row_act e g u h
  unfold edgeRow
  split
  · exact RunRes.of_ok (.single (.casc (.diag _ _ _)))
  · exact stay
  · exact stay
  · unfold rowRxAddressRise
    dsimp only
    split
    · exact done _ _ ⟨rfl, rfl, rfl, rfl, rfl, rfl, rfl, rfl, rfl, .inl rfl, .inl rfl⟩
    · split
      · split
        · exact done _ _ ⟨rfl, rfl, rfl, rfl, rfl, rfl, rfl, rfl, rfl, .inr ⟨by simp, by simp⟩, .inl rfl⟩
        · refine RunRes.of_ok (.tail (.single (.row e _ ?_)) (.casc (.diag _ _ _)))
          exact ⟨rfl, rfl, rfl, rfl, rfl, rfl, rfl, rfl, rfl, .inr ⟨by simp, by simp⟩, .inl rfl⟩
      · exact stay
  · exact stay
  · exact stay
  · unfold rowAckAddressFall
    dsimp only
    split
    · exact RunRes.andThen (driveSda_act e _ _ hs he hE) fun u _ _ =>
        done _ _ ⟨rfl, rfl, rfl, rfl, rfl, rfl, rfl, rfl, rfl, .inl rfl, .inl rfl⟩
    · split
      · split
        · exact loadTx_act e s hs he hE
        · exact RunRes.andThen (driveSda_act e _ _ hs he hE) fun u _ _ =>
            done _ _ ⟨rfl, rfl, rfl, rfl, rfl, rfl, rfl, rfl, rfl, .inr ⟨by simp, by simp⟩, .inl rfl⟩
      · exact stay
  · unfold rowRxDataRise
    dsimp only
    split
    · exact done _ _ ⟨rfl, rfl, rfl, rfl, rfl, rfl, rfl, rfl, rfl, .inl rfl, .inl rfl⟩
    · split
      · exact done _ _ ⟨rfl, rfl, rfl, rfl, rfl, rfl, rfl, rfl, rfl, .inr ⟨by simp, by simp⟩, .inr ⟨_, rfl⟩⟩
      · exact stay
  · exact stay
  · exact stay
  · exact RunRes.andThen (driveSda_act e _ _ hs he hE) fun u _ _ =>
      done _ _ ⟨rfl, rfl, rfl, rfl, rfl, rfl, rfl, rfl, rfl, .inr ⟨by simp, by simp⟩, .inl rfl⟩
  · exact stay
  · refine RunRes.andThen (driveSda_act e _ _ hs he hE) fun u _ _ => ?_
    split
    · exact done _ _ ⟨rfl, rfl, rfl, rfl, rfl, rfl, rfl, rfl, rfl, .inr ⟨by simp, by simp⟩, .inl rfl⟩
    · exact done _ _ ⟨rfl, rfl, rfl, rfl, rfl, rfl, rfl, rfl, rfl, .inr ⟨by simp, by simp⟩, .inl rfl⟩
  · exact stay
  · unfold rowAckReadRise
    dsimp only
    split
    · split
      · exact done _ _ ⟨rfl, rfl, rfl, rfl, rfl, rfl, rfl, rfl, rfl, .inr ⟨by simp, by simp⟩, .inl rfl⟩
      · exact done _ _ ⟨rfl, rfl, rfl, rfl, rfl, rfl, rfl, rfl, rfl, .inl rfl, .inl rfl⟩
    · exact stay
  · unfold rowAckReadFall
    split
    · exact loadTx_act e s hs he hE
    · exact stay
  · unfold rowTxDataRise
    dsimp only
    split
    · exact RunRes.of_ok ((Relation.ReflTransGen.single
        (.row e _ ⟨rfl, rfl, rfl, rfl, rfl, rfl, rfl, rfl, rfl, .inl rfl, .inl rfl⟩)).tail (.casc .draw))
    · exact done _ _ ⟨rfl, rfl, rfl, rfl, rfl, rfl, rfl, rfl, rfl, .inl rfl, .inl rfl⟩
  · unfold rowTxDataFall
    dsimp only
    split
    · exact RunRes.andThen (driveSda_act e _ _ hs he hE) fun u _ _ =>
        done _ _ ⟨rfl, rfl, rfl, rfl, rfl, rfl, rfl, rfl, rfl, .inr ⟨by simp, by simp⟩, .inl rfl⟩
    · split
      · exact driveSda_act e _ _ hs he hE
      · exact stay

/-- The state a fired callback really starts from: its owner's entry gone, `cycle` its due cycle, and an engine's `pend`
taken (R116, R250). -/
def beginFiring (x : Entry) (s : State) : State :=
  match x.owner with
  | .eng e => (startFiring x s).setEng e { s.eng e with pend := none }
  | .node _ => startFiring x s

/-- The engine of an owner is in the block, and its node is allowed. -/
def OwnerIn (A : Nat → Prop) (c : Config) : Owner → Prop
  | .eng e => e < c.numEngines
  | .node n => A n

/-- The engine whose entry this is: the one engine that may drive its data pin low while the entry fires. -/
def FiredBy (x : Entry) (e : Nat) : Prop := x.owner = .eng e

/-- Firing an entry is a sequence of a callback's small writes, or one and then a fault. -/
theorem fire_act (x : Entry) (s : State) (hs : NodesIn A s) (hx : OwnerIn A s.cfg x.owner) :
    ActRes A (FiredBy x) (beginFiring x s) (fire x s) := by
  obtain ⟨o, due, seq⟩ := x
  cases o with
  | eng e =>
    have hn : NodesIn A ((startFiring ⟨.eng e, due, seq⟩ s).setEng e { s.eng e with pend := none }) := hs
    change ActRes A _ ((startFiring ⟨.eng e, due, seq⟩ s).setEng e { s.eng e with pend := none })
      (match (s.eng e).pend with
        | none => .ok ((startFiring ⟨.eng e, due, seq⟩ s).setEng e { s.eng e with pend := none })
        | some edge => edgeRow e edge (s.eng e).sdaSeen
            ((startFiring ⟨.eng e, due, seq⟩ s).setEng e { s.eng e with pend := none }))
    split
    · exact RunRes.of_ok .refl
    · exact edgeRow_act e _ _ _ hn hx rfl
  | node n =>
    exact RunRes.mono (fun a b => Act.casc) (resolve_casc (.settle n) (startFiring ⟨.node n, due, seq⟩ s) hs hx)

end

/-! ### What `AdvanceTo` fires next -/

/-- The order `firesBefore` compares by. -/
theorem firesBefore_iff (x y : Entry) :
    firesBefore x y = true ↔ x.due.toNat < y.due.toNat ∨ (x.due.toNat = y.due.toNat ∧ x.seq < y.seq) := by
  simp [firesBefore]

theorem firstToFire_none {xs : List Entry} (h : firstToFire xs = none) : xs = [] := by
  cases xs with
  | nil => rfl
  | cons x xs =>
      unfold firstToFire at h
      cases h' : firstToFire xs <;> simp [h'] at h
      split at h <;> simp at h

theorem firstToFire_some {xs : List Entry} {x : Entry} (h : firstToFire xs = some x) :
    x ∈ xs ∧ ∀ y ∈ xs, ¬ firesBefore y x = true := by
  induction xs generalizing x with
  | nil => simp [firstToFire] at h
  | cons z xs ih =>
      unfold firstToFire at h
      cases h' : firstToFire xs with
      | none =>
          have hx : xs = [] := firstToFire_none h'
          simp [h'] at h
          subst h hx
          simp [firesBefore_iff]
      | some y =>
          obtain ⟨hm, hy⟩ := ih h'
          rw [h'] at h
          by_cases hf : firesBefore y z = true
          · simp [hf] at h
            subst h
            refine ⟨by simp [hm], fun w hw => ?_⟩
            rcases List.mem_cons.mp hw with rfl | hw
            · rw [firesBefore_iff] at hf ⊢; omega
            · exact hy w hw
          · simp [hf] at h
            subst h
            refine ⟨by simp, fun w hw => ?_⟩
            rcases List.mem_cons.mp hw with rfl | hw
            · rw [firesBefore_iff]; omega
            · have := hy w hw
              rw [firesBefore_iff] at hf this ⊢; omega

/-- What is fired next is a pending entry due at or before the target, and none such is before it. -/
theorem nextDue_some {target : Cycle} {s : State} {x : Entry} (h : nextDue target s = some x) :
    x ∈ s.pending ∧ x.due.toNat ≤ target.toNat ∧
      ∀ y ∈ s.pending, x.due.toNat < y.due.toNat ∨ (x.due.toNat = y.due.toNat ∧ x.seq ≤ y.seq) := by
  obtain ⟨hm, hb⟩ := firstToFire_some h
  obtain ⟨hp, hd⟩ := List.mem_filter.mp hm
  refine ⟨hp, by simpa using hd, fun y hy => ?_⟩
  by_cases hyt : y.due.toNat ≤ target.toNat
  · have := hb y (List.mem_filter.mpr ⟨hy, by simpa using hyt⟩)
    rw [firesBefore_iff] at this
    omega
  · have : x.due.toNat ≤ target.toNat := by simpa using hd
    omega

/-- Nothing is fired exactly when no entry is due at or before the target. -/
theorem nextDue_none {target : Cycle} {s : State} (h : nextDue target s = none) :
    ∀ y ∈ s.pending, target.toNat < y.due.toNat := by
  intro y hy
  have := firstToFire_none h
  by_contra hc
  have : y ∈ s.pending.filter fun x => decide (x.due.toNat ≤ target.toNat) :=
    List.mem_filter.mpr ⟨hy, by simpa using hc⟩
  simp_all

end Sys2Proof.Machine
end

