-- ==== Sys2Proof/Laws/Calm.lean ====
section
/-! SUPPORT. When a resolution meets no fault: each level of nesting releases the data pin of one more engine, so the number of
engines bounds the nesting; and in digital mode only a clock edge schedules. -/

namespace Sys2Proof.Machine

/-- No restriction on node numbers. -/
abbrev AnyNode : Nat → Prop := fun _ => True

theorem nodesIn_any (s : State) : NodesIn AnyNode s := fun _ _ _ => trivial

theorem jobIn_any (j : Job) : JobIn AnyNode j := by cases j <;> trivial

/-- What a cascade leaves of the state as a whole. -/
theorem Casc.globals {A : Nat → Prop} {s t : State} (h : Casc A s t) :
    t.cfg = s.cfg ∧ t.stream = s.stream ∧ t.cycle = s.cycle ∧ t.outLog = s.outLog ∧ t.cp = s.cp ∧
      t.faultCode = s.faultCode ∧ t.faultWord = s.faultWord ∧ t.faultCycle = s.faultCycle := by
  cases h <;> exact ⟨rfl, rfl, rfl, rfl, rfl, rfl, rfl, rfl⟩

theorem Cascs.globals {A : Nat → Prop} {s t : State} (h : Cascs A s t) :
    t.cfg = s.cfg ∧ t.stream = s.stream ∧ t.cycle = s.cycle ∧ t.outLog = s.outLog ∧ t.cp = s.cp ∧
      t.faultCode = s.faultCode ∧ t.faultWord = s.faultWord ∧ t.faultCycle = s.faultCycle := by
  induction h with
  | refl => simp
  | tail _ hc ih =>
      obtain ⟨a1, a2, a3, a4, a5, a6, a7, a8⟩ := hc.globals
      obtain ⟨b1, b2, b3, b4, b5, b6, b7, b8⟩ := ih
      exact ⟨a1.trans b1, a2.trans b2, a3.trans b3, a4.trans b4, a5.trans b5, a6.trans b6, a7.trans b7, a8.trans b8⟩

theorem isEngineSda_of_casc {A : Nat → Prop} {s t : State} (h : Cascs A s t) (p : Nat) :
    isEngineSda t p ↔ isEngineSda s p := by
  unfold isEngineSda
  constructor
  · rintro ⟨e, he, ha, hp⟩
    obtain ⟨h1, h2, -, h4, -⟩ := Cascs.eng_fixed h e
    exact ⟨e, by rw [← h1]; exact he, h2 ▸ ha, h4 ▸ hp⟩
  · rintro ⟨e, he, ha, hp⟩
    obtain ⟨h1, h2, -, h4, -⟩ := Cascs.eng_fixed h e
    exact ⟨e, by rw [h1]; exact he, h2.trans ha, by rw [h4]; exact hp⟩

/-- A cascade changes a driving state only by releasing an engine's data pin. -/
theorem Casc.drive {A : Nat → Prop} {s t : State} (h : Casc A s t) (p : Nat) : DriveKeptOrReleased s t p := by
  cases h with
  | driven q l =>
      left
      rcases setPin_pin_cases s q p { s.pin q with driven := l } with h | ⟨rfl, h⟩ <;> simp [h]
  | release e he ha =>
      rcases setPin_pin_cases s (s.eng e).sdaPin.toNat p { s.pin (s.eng e).sdaPin.toNat with drive := .digital .floating }
        with h | ⟨rfl, h⟩
      · left; simp [h]
      · right; exact ⟨by simp [h], e, he, ha, rfl⟩
  | _ => exact .inl rfl

theorem Cascs.drive {A : Nat → Prop} {s t : State} (h : Cascs A s t) (p : Nat) : DriveKeptOrReleased s t p := by
  induction h with
  | refl => exact .inl rfl
  | tail hb hc ih =>
      rcases hc.drive p with h1 | ⟨h1, h2⟩
      · rcases ih with h3 | ⟨h3, h4⟩
        · exact .inl (h1.trans h3)
        · exact .inr ⟨h1.trans h3, h4⟩
      · exact .inr ⟨h1, (isEngineSda_of_casc hb p).mp h2⟩

theorem Cascs.members {A : Nat → Prop} {s t : State} (h : Cascs A s t) (n : Nat) : members t n = members s n := by
  unfold Machine.members
  rw [h.globals.1]
  exact List.filter_congr fun p _ => by rw [(h.pin_fixed p).1]

theorem NoAnalogNode.casc {A : Nat → Prop} {s t : State} (hs : NoAnalogNode s) (h : Cascs A s t) : NoAnalogNode t := by
  intro n
  have hn := hs n
  rw [analogMode, List.any_eq_false] at hn ⊢
  intro p hp
  rw [h.members] at hp
  have := hn p hp
  rcases h.drive p with h1 | ⟨h1, -⟩
  · rwa [h1]
  · simp [h1, Drive.isAnalog]

/-- The engines whose data pin is not released: each nested resolution of a cascade releases one more. -/
def busyEngines (s : State) : Finset Nat :=
  (Finset.range s.cfg.numEngines).filter fun e =>
    (s.eng e).attached = true ∧ (s.pin (s.eng e).sdaPin.toNat).drive ≠ .digital .floating

theorem busyEngines_casc {A : Nat → Prop} {s t : State} (h : Cascs A s t) : busyEngines t ⊆ busyEngines s := by
  intro e he
  obtain ⟨hr, ha, hd⟩ := by simpa [busyEngines] using he
  obtain ⟨h1, h2, -, h4, -⟩ := Cascs.eng_fixed h e
  rw [h4] at hd
  refine by
    simp only [busyEngines, Finset.mem_filter, Finset.mem_range]
    refine ⟨by rw [← h1]; exact hr, h2 ▸ ha, fun hf => hd ?_⟩
    rcases h.drive (s.eng e).sdaPin.toNat with h5 | ⟨h5, -⟩
    · rw [h5, hf]
    · exact h5

theorem busyEngines_le (s : State) : (busyEngines s).card ≤ s.cfg.numEngines := by
  have := Finset.card_le_card (Finset.filter_subset
    (fun e => (s.eng e).attached = true ∧ (s.pin (s.eng e).sdaPin.toNat).drive ≠ .digital .floating)
    (Finset.range s.cfg.numEngines))
  simpa [busyEngines] using this

/-- Releasing the data pin of an engine that was not released makes one engine fewer busy. -/
theorem busyEngines_release {s : State} (e : Nat) (he : e < s.cfg.numEngines) (ha : (s.eng e).attached = true)
    (hd : (s.pin (s.eng e).sdaPin.toNat).drive ≠ .digital .floating) :
    (busyEngines (s.setPin (s.eng e).sdaPin.toNat
      { s.pin (s.eng e).sdaPin.toNat with drive := .digital .floating })).card < (busyEngines s).card := by
  refine Finset.card_lt_card ⟨busyEngines_casc (A := AnyNode) (.single (.release e he ha)), fun hsub => ?_⟩
  have hmem : e ∈ busyEngines s := by simp [busyEngines, he, ha, hd]
  have := hsub hmem
  have h3 := (Finset.mem_filter.mp this).2.2
  have hlt : (s.eng e).sdaPin.toNat < s.pins.length := by
    by_contra hc
    rw [pin_out_of_range s _ (by omega)] at hd
    exact hd rfl
  exact h3 (by rw [setPin_eng, setPin_pin_self _ _ _ hlt])

/-- The conditions under which a resolution inside a cascade meets no fault, beside the room. -/
def Quiet (s : State) : Prop :=
  NoAnalogNode s ∧ s.cycle.toNat + 1 ≤ maxCycle

theorem Quiet.casc {A : Nat → Prop} {s t : State} (hs : Quiet s) (h : Cascs A s t) : Quiet t :=
  ⟨hs.1.casc h, by rw [h.globals.2.2.1]; exact hs.2⟩

theorem Quiet.analogMode {s : State} (hs : Quiet s) (n : Nat) : analogMode s n = false := hs.1 n

/-- It ends without a fault. -/
def Res.isOk (r : Res) : Prop := ∃ t, r = .ok t

theorem Res.isOk.andThen {r : Res} {f : State → Res} (hr : r.isOk) (hf : ∀ u, r = .ok u → (f u).isOk) :
    (r.andThen f).isOk := by
  obtain ⟨u, hu⟩ := hr
  rw [hu]
  exact hf u hu

theorem CascRes.ok {A : Nat → Prop} {s u : State} {r : Res} (h : CascRes A s r) (hr : r = .ok u) : Cascs A s u := by
  rw [hr] at h; exact h

theorem forEach_isOk {α : Type} {f : α → State → Res} (xs : List α) (P : State → Prop) {s : State} (hs : P s)
    (hf : ∀ x ∈ xs, ∀ u, P u → (f x u).isOk ∧ ∀ v, f x u = .ok v → P v) : (forEach f xs s).isOk := by
  induction xs generalizing s with
  | nil => exact ⟨s, rfl⟩
  | cons x xs ih =>
      have hx := hf x (by simp) s hs
      exact hx.1.andThen fun u hu => ih (hx.2 u hu) fun y hy => hf y (by simp [hy])

section
variable {res : Job → State → Res} {b : Nat}

theorem onScl_calm (e : Nat) (s : State) (hs : Quiet s) : (onScl e s).isOk := by
  unfold onScl
  split
  · exact ⟨_, rfl⟩
  · split
    · exact ⟨_, rfl⟩
    · rw [schedule_later _ _ _ (by simp)]
      exact ⟨_, if_pos hs.2⟩

theorem driveSdaVia_release_calm
    (hres : ∀ p s, Quiet s → (busyEngines s).card < b → (res (jobOf s p) s).isOk) (e : Nat) (s : State)
    (hs : Quiet s) (hb : (busyEngines s).card ≤ b) (he : e < s.cfg.numEngines) (ha : (s.eng e).attached = true) :
    (driveSdaVia res e true s).isOk := by
  unfold driveSdaVia setDrivingVia
  have h1 : Casc AnyNode s (s.setEng e { s.eng e with sdaDrive := !true }) :=
    .eng e he ha _ ⟨rfl, rfl, rfl, rfl, rfl, rfl, rfl, rfl, rfl, rfl, rfl, rfl, .inl rfl, .inl rfl, .inl rfl, .inr rfl⟩
  have hs1 := hs.casc (.single h1)
  have hb1 := Finset.card_le_card (busyEngines_casc (.single h1))
  have he1 : e < (s.setEng e { s.eng e with sdaDrive := !true }).cfg.numEngines := he
  have ha1 := (h1.eng_fixed e).2.1.trans ha
  generalize s.setEng e { s.eng e with sdaDrive := !true } = u at *
  dsimp only
  by_cases hd : (u.pin (u.eng e).sdaPin.toNat).drive = .digital .floating
  · rw [if_pos (by simpa using hd)]; exact ⟨_, rfl⟩
  · rw [if_neg (by simpa using hd)]
    have hlt := busyEngines_release e he1 ha1 hd
    exact hres _ _ (hs1.casc (.single (.release (A := AnyNode) e he1 ha1))) (lt_of_lt_of_le hlt (hb1.trans hb))

theorem startVia_calm
    (hres : ∀ p s, Quiet s → (busyEngines s).card < b → (res (jobOf s p) s).isOk) (e : Nat) (s : State)
    (hs : Quiet s) (hb : (busyEngines s).card ≤ b) (he : e < s.cfg.numEngines) (ha : (s.eng e).attached = true) :
    (startVia res e s).isOk := by
  unfold startVia
  have h1 : Casc AnyNode s (dropEdge e s) := .drop e he ha
  have h2 : Casc AnyNode (dropEdge e s) ((dropEdge e s).setEng e
      { (dropEdge e s).eng e with state := .rxAddress, bits := 0, shift := 0x00 }) :=
    .eng (s := dropEdge e s) e he ((h1.eng_fixed e).2.1.trans ha) _
      ⟨rfl, rfl, rfl, rfl, rfl, rfl, rfl, rfl, rfl, rfl, rfl, rfl, .inr (.inr rfl), .inr rfl, .inr rfl, .inl rfl⟩
  have h12 := (Relation.ReflTransGen.single h1).tail h2
  exact driveSdaVia_release_calm hres e _ (hs.casc h12) ((Finset.card_le_card (busyEngines_casc h12)).trans hb) he
    ((Cascs.eng_fixed h12 e).2.1.trans ha)

theorem stopVia_calm
    (hres : ∀ p s, Quiet s → (busyEngines s).card < b → (res (jobOf s p) s).isOk) (e : Nat) (s : State)
    (hs : Quiet s) (hb : (busyEngines s).card ≤ b) (he : e < s.cfg.numEngines) (ha : (s.eng e).attached = true) :
    (stopVia res e s).isOk := by
  unfold stopVia
  have h1 : Casc AnyNode s (dropEdge e s) := .drop e he ha
  have h2 : Casc AnyNode (dropEdge e s) ((dropEdge e s).setEng e
      { (dropEdge e s).eng e with state := .idle, bits := 0 }) :=
    .eng (s := dropEdge e s) e he ((h1.eng_fixed e).2.1.trans ha) _
      ⟨rfl, rfl, rfl, rfl, rfl, rfl, rfl, rfl, rfl, rfl, rfl, rfl, .inr (.inl rfl), .inr rfl, .inl rfl, .inl rfl⟩
  have h12 := (Relation.ReflTransGen.single h1).tail h2
  exact driveSdaVia_release_calm hres e _ (hs.casc h12) ((Finset.card_le_card (busyEngines_casc h12)).trans hb) he
    ((Cascs.eng_fixed h12 e).2.1.trans ha)

theorem onSdaVia_calm
    (hres : ∀ p s, Quiet s → (busyEngines s).card < b → (res (jobOf s p) s).isOk) (e : Nat) (s : State)
    (hs : Quiet s) (hb : (busyEngines s).card ≤ b) (he : e < s.cfg.numEngines) (ha : (s.eng e).attached = true) :
    (onSdaVia res e s).isOk := by
  unfold onSdaVia
  split
  · exact ⟨_, rfl⟩
  · next v hv =>
    split
    · exact ⟨_, rfl⟩
    · have h1 : Casc AnyNode s (s.setEng e { s.eng e with sdaSeen := v }) :=
        .eng e he ha _ ⟨rfl, rfl, rfl, rfl, rfl, rfl, rfl, rfl, rfl, rfl, rfl, rfl, .inl rfl, .inl rfl, .inl rfl, .inl rfl⟩
      have hs1 := hs.casc (.single h1)
      have hb1 := (Finset.card_le_card (busyEngines_casc (.single h1))).trans hb
      have ha1 := (h1.eng_fixed e).2.1.trans ha
      dsimp only
      split
      · split
        · exact stopVia_calm hres e _ hs1 hb1 he ha1
        · exact startVia_calm hres e _ hs1 hb1 he ha1
      · exact ⟨_, rfl⟩

theorem notifyVia_calm (hcasc : ∀ j s, NodesIn AnyNode s → JobIn AnyNode j → CascRes AnyNode s (res j s))
    (hres : ∀ p s, Quiet s → (busyEngines s).card < b → (res (jobOf s p) s).isOk) (p : Nat) (s : State)
    (hs : Quiet s) (hb : (busyEngines s).card ≤ b) : (notifyVia res p s).isOk := by
  unfold notifyVia
  have h1 : Cascs AnyNode s ((List.range s.cfg.numPorts).foldl (fun s r => notifyPort p r s) s) :=
    foldl_casc _ fun r _ u _ => notifyPort_casc p r u
  generalize hv : (List.range s.cfg.numPorts).foldl (fun s r => notifyPort p r s) s = v at *
  refine forEach_isOk _ (fun u => Cascs AnyNode v u) .refl fun e he u hu => ?_
  have hvu := h1.trans hu
  have hsu := hs.casc hvu
  have hbu := (Finset.card_le_card (busyEngines_casc hvu)).trans hb
  have heu : e < u.cfg.numEngines := by rw [(Cascs.globals hvu).1]; exact List.mem_range.mp he
  refine ⟨?_, fun w hw => hu.trans ((notifyEngineVia_casc hcasc p e u (nodesIn_any u) heu).ok hw)⟩
  unfold notifyEngineVia
  split
  · next ha =>
    refine Res.isOk.andThen ?_ fun w hw => ?_
    · split
      · exact onScl_calm e u hsu
      · exact ⟨_, rfl⟩
    · have huw : Cascs AnyNode u w := by
        split at hw
        · exact (onScl_casc e u heu ha).ok hw
        · cases hw; exact .refl
      split
      · exact onSdaVia_calm hres e w (hsu.casc huw) ((Finset.card_le_card (busyEngines_casc huw)).trans hbu)
          (by rw [(Cascs.globals huw).1]; exact heu) ((Cascs.eng_fixed huw e).2.1.trans ha)
      · exact ⟨_, rfl⟩
  · exact ⟨_, rfl⟩

theorem publishVia_calm (hcasc : ∀ j s, NodesIn AnyNode s → JobIn AnyNode j → CascRes AnyNode s (res j s))
    (hres : ∀ p s, Quiet s → (busyEngines s).card < b → (res (jobOf s p) s).isOk) (n : Nat) (l : Level) (s : State)
    (hs : Quiet s) (hb : (busyEngines s).card ≤ b) : (publishVia res n l s).isOk := by
  have h1 := publishWrites_casc (A := AnyNode) n l s
  refine forEach_isOk _ (fun u => Cascs AnyNode s u) h1 fun p _ u hu => ?_
  have hsu := hs.casc hu
  exact ⟨notifyVia_calm hcasc hres p u hsu ((Finset.card_le_card (busyEngines_casc hu)).trans hb),
    fun w hw => hu.trans ((notifyVia_casc hcasc p u (nodesIn_any u)).ok hw)⟩

end

/-- With no node in analog mode, a cycle left, and more levels of nesting than busy engines, resolving the node of a pin, or a
lone pin, meets no fault. -/
theorem resolveJob_calm (room : Nat) (j : Job) (hj : ∀ n, j ≠ .settle n) (s : State) (hs : Quiet s)
    (hb : (busyEngines s).card < room) : (resolveJob room j s).isOk := by
  induction room generalizing j s with
  | zero => omega
  | succ room ih =>
      have hres : ∀ p s, Quiet s → (busyEngines s).card < room → (resolveJob room (jobOf s p) s).isOk := by
        intro p u hu hbu
        refine ih _ (fun n hn => ?_) u hu hbu
        unfold jobOf at hn
        split at hn <;> cases hn
      have hcasc : ∀ j s, NodesIn AnyNode s → JobIn AnyNode j → CascRes AnyNode s (resolveJob room j s) :=
        fun j s h1 h2 => resolveJob_casc room j s h1 h2
      have h0 : Casc AnyNode s { s with depth := s.depth + 1 } := .depth _
      have hs0 := hs.casc (.single h0)
      have hb0 : (busyEngines { s with depth := s.depth + 1 }).card ≤ room := by
        have := Finset.card_le_card (busyEngines_casc (.single h0)); omega
      refine Res.isOk.andThen ?_ fun u _ => ⟨_, rfl⟩
      cases j with
      | settle n => exact absurd rfl (hj n)
      | node n =>
          change (resolveNodeVia (resolveJob room) n { s with depth := s.depth + 1 }).isOk
          unfold resolveNodeVia
          rw [if_neg (by simp [hs0.analogMode n])]
          have h1 := digitalUpdate_casc (A := AnyNode) n { s with depth := s.depth + 1 }
          exact publishVia_calm hcasc hres n _ _ (hs0.casc h1) ((Finset.card_le_card (busyEngines_casc h1)).trans hb0)
      | pin p =>
          change (resolveAloneVia (resolveJob room) p { s with depth := s.depth + 1 }).isOk
          unfold resolveAloneVia
          dsimp only
          split
          · exact ⟨_, rfl⟩
          · have h1 := Casc.driven (A := AnyNode) (s := { s with depth := s.depth + 1 }) p
              (aloneLevel { s with depth := s.depth + 1 } p)
            exact notifyVia_calm hcasc hres p _ (hs0.casc (.single h1))
              ((Finset.card_le_card (busyEngines_casc (.single h1))).trans hb0)

end Sys2Proof.Machine
end

