-- ==== Sys2Proof/Laws/Writes.lean ====
section
/-! SUPPORT. What single operations write, read back: one bit of a byte, the driven states a publication writes, the driven-value
of a port register after a notification; and that a cascade keeps the shape of the state. -/

namespace Sys2Proof.Machine

/-- Reading a bit of a byte after setting one. -/
theorem setBit_getLsbD (v : Byte) (i j : Nat) (b : Bool) (hi : i < 8) :
    (setBit v i b).getLsbD j = if j = i then b else v.getLsbD j := by
  unfold setBit
  have one : ∀ k, (1 : Byte).getLsbD k = decide (k = 0) := by
    intro k; cases k <;> simp [BitVec.getLsbD_one]
  cases b
  · simp only [Bool.false_eq_true, if_false, BitVec.getLsbD_and, BitVec.getLsbD_not, BitVec.getLsbD_shiftLeft, one]
    by_cases hj : j = i
    · subst hj; simp [hi]
    · by_cases h8 : j < 8
      · by_cases hlt : j < i
        · simp [hj, h8, hlt]
        · have : j - i ≠ 0 := by omega
          simp [hj, h8, hlt, this]
      · simp [hj, h8]
        rw [BitVec.getLsbD_of_ge _ _ (by omega)]
  · simp only [if_true, BitVec.getLsbD_or, BitVec.getLsbD_shiftLeft, one]
    by_cases hj : j = i
    · subst hj; simp [hi]
    · by_cases hlt : j < i
      · simp [hj, hlt]
      · have : j - i ≠ 0 := by omega
        simp [hj, this]

theorem enabledBits_lt {s : State} {r i : Nat} (h : i ∈ enabledBits s r) : i < 8 :=
  List.mem_range.mp (List.mem_filter.mp h).1

theorem mem_enabledBits {s : State} {r i : Nat} :
    i ∈ enabledBits s r ↔ i < 8 ∧ (s.portCfg r).enable.getLsbD i = true := by
  simp [enabledBits]

theorem mem_members {s : State} {n p : Nat} : p ∈ members s n ↔ p < s.cfg.numPins ∧ (s.pin p).node = some n := by
  simp [members]

/-- Writing the driven state of each pin of a list. -/
theorem foldl_driven_pin (l : Level) (ps : List Nat) (s : State) (q : Nat) :
    (ps.foldl (fun s p => s.setPin p { s.pin p with driven := l }) s).pin q
      = if q ∈ ps ∧ q < s.pins.length then { s.pin q with driven := l } else s.pin q := by
  induction ps generalizing s with
  | nil => simp
  | cons p ps ih =>
      rw [List.foldl_cons, ih]
      by_cases hpq : p = q
      · subst hpq
        by_cases hl : p < s.pins.length
        · simp [hl, setPin_pin]
        · simp [hl, setPin_pin]
      · have hqp : q ≠ p := fun h => hpq h.symm
        simp [setPin_pin, hpq, hqp]

theorem foldl_driven_rest (l : Level) (ps : List Nat) (s : State) :
    { ps.foldl (fun s p => s.setPin p { s.pin p with driven := l }) s with pins := s.pins } = s ∧
      (ps.foldl (fun s p => s.setPin p { s.pin p with driven := l }) s).pins.length = s.pins.length := by
  induction ps generalizing s with
  | nil => exact ⟨rfl, rfl⟩
  | cons p ps ih =>
      have := ih (s.setPin p { s.pin p with driven := l })
      simp only [List.foldl_cons]
      refine ⟨?_, by simpa using this.2⟩
      exact congrArg (fun u : State => { u with pins := s.pins }) this.1

/-- Every field of the state a publication leaves beside its pins and its node. -/
theorem publishWrites_rest (n : Nat) (l : Level) (s : State) :
    { publishWrites n l s with pins := s.pins } = s.setNode n { s.node n with level := l } ∧
      (publishWrites n l s).pins.length = s.pins.length := by
  have := foldl_driven_rest l (members s n) (s.setNode n { s.node n with level := l })
  exact ⟨this.1, this.2⟩

/-- The pins a publication leaves: every member reads the level, every other pin is as before. -/
theorem publishWrites_pin {s : State} (hs : Shaped s) (n : Nat) (l : Level) (q : Nat) :
    (publishWrites n l s).pin q = if q ∈ members s n then { s.pin q with driven := l } else s.pin q := by
  unfold publishWrites
  rw [foldl_driven_pin]
  by_cases hm : q ∈ members s n
  · have : q < s.pins.length := by rw [hs.pins]; exact (mem_members.mp hm).1
    simp [hm, this]
  · simp [hm]

theorem publishWrites_node {s : State} (n : Nat) (l : Level) (m : Nat) :
    (publishWrites n l s).node m = (s.setNode n { s.node n with level := l }).node m := by
  have h := (publishWrites_rest n l s).1
  have : ({ publishWrites n l s with pins := s.pins } : State).node m = (publishWrites n l s).node m := rfl
  rw [← this, h]

theorem publishWrites_fields (n : Nat) (l : Level) (s : State) :
    (publishWrites n l s).cfg = s.cfg ∧ (publishWrites n l s).pending = s.pending ∧
      (publishWrites n l s).ports = s.ports ∧ (publishWrites n l s).engines = s.engines ∧
      (publishWrites n l s).diagLog = s.diagLog ∧ (publishWrites n l s).nextSeq = s.nextSeq ∧
      (publishWrites n l s).depth = s.depth ∧ (publishWrites n l s).draws = s.draws := by
  have h := (publishWrites_rest n l s).1
  have f : ∀ {α : Type} (g : State → α), g { publishWrites n l s with pins := s.pins }
      = g (s.setNode n { s.node n with level := l }) := fun g => congrArg g h
  exact ⟨f (·.cfg), f (·.pending), f (·.ports), f (·.engines), f (·.diagLog), f (·.nextSeq), f (·.depth), f (·.draws)⟩

/-- A cascade keeps the lengths of the lists. -/
theorem Casc.lengths {A : Nat → Prop} {s t : State} (h : Casc A s t) :
    t.pins.length = s.pins.length ∧ t.nodes.length = s.nodes.length ∧ t.ports.length = s.ports.length ∧
      t.engines.length = s.engines.length := by
  cases h <;> simp [scheduled, edgeLatch, dropEdge]

theorem Cascs.lengths {A : Nat → Prop} {s t : State} (h : Cascs A s t) :
    t.pins.length = s.pins.length ∧ t.nodes.length = s.nodes.length ∧ t.ports.length = s.ports.length ∧
      t.engines.length = s.engines.length := by
  induction h with
  | refl => simp
  | tail _ hc ih =>
      obtain ⟨a, b, c, d⟩ := hc.lengths
      exact ⟨a.trans ih.1, b.trans ih.2.1, c.trans ih.2.2.1, d.trans ih.2.2.2⟩

/-- The shape of the state depends only on the parameters, the lengths, where pins are attached and what engines are bound to. -/
theorem Shaped.of_same {s t : State} (hs : Shaped s) (hc : t.cfg = s.cfg)
    (hl : t.pins.length = s.pins.length ∧ t.nodes.length = s.nodes.length ∧ t.ports.length = s.ports.length ∧
      t.engines.length = s.engines.length)
    (hn : ∀ p, (t.pin p).node = (s.pin p).node)
    (he : ∀ e, (t.eng e).attached = (s.eng e).attached ∧ (t.eng e).sclPin = (s.eng e).sclPin ∧
      (t.eng e).sdaPin = (s.eng e).sdaPin) : Shaped t where
  pins := by rw [hl.1, hc]; exact hs.pins
  nodes := by rw [hl.2.1, hc]; exact hs.nodes
  ports := by rw [hl.2.2.1, hc]; exact hs.ports
  engines := by rw [hl.2.2.2, hc]; exact hs.engines
  nodeOf := fun p n h => by rw [hn] at h; rw [hc]; exact hs.nodeOf p n h
  enginePins := fun e h => by
    obtain ⟨h1, h2, h3⟩ := he e
    rw [h1] at h
    rw [h2, h3, hc]
    exact hs.enginePins e h

theorem Shaped.casc {A : Nat → Prop} {s t : State} (hs : Shaped s) (h : Cascs A s t) : Shaped t :=
  hs.of_same h.globals.1 h.lengths (fun p => (h.pin_fixed p).1) fun e =>
    ⟨(Cascs.eng_fixed h e).2.1, (Cascs.eng_fixed h e).2.2.1, (Cascs.eng_fixed h e).2.2.2.1⟩

end Sys2Proof.Machine
end

