-- ==== Sys2Proof/Laws/Resolved.lean ====
section
/-! SUPPORT. What a resolution that meets no fault leaves in order: the node or pin it resolves, and every port register and
engine latch it notifies. `Good U P L s` says that everything is in order in `s` but the jobs in `U`, the pin and port register
pairs in `P`, and the pin, engine and line triples in `L`. -/

namespace Sys2Proof.Machine

/-- Everything is in order but what `U`, `P` and `L` name: nodes and lone pins resolved, settle callbacks pending exactly while a
node settles, port registers and latches holding their pins' definite values. In `L`, `true` is the clock line. -/
structure Good (U : Job → Prop) (P : Nat → Nat → Prop) (L : Nat → Nat → Bool → Prop) (s : State) : Prop where
  shaped : Shaped s
  node : ∀ n, n < s.cfg.numNodes → ¬ U (.node n) → NodeResolved s n
  pin : ∀ p, p < s.cfg.numPins → ¬ U (.pin p) → PinResolved s p
  settle : ∀ n, n < s.cfg.numNodes → ¬ U (.settle n) → (hasEntry s (.node n) ↔ (s.node n).settling = true)
  port : ∀ r, r < s.cfg.numPorts → ∀ i ∈ enabledBits s r, ¬ P (boundPin s r i) r →
    ∀ b, logic (s.pin (boundPin s r i)).driven = some b → (s.port r).driven.getLsbD i = b
  scl : ∀ e, e < s.cfg.numEngines → (s.eng e).attached = true → ¬ L (s.eng e).sclPin.toNat e true →
    ∀ b, logic (s.pin (s.eng e).sclPin.toNat).driven = some b → (s.eng e).sclSeen = b
  sda : ∀ e, e < s.cfg.numEngines → (s.eng e).attached = true → ¬ L (s.eng e).sdaPin.toNat e false →
    ∀ b, logic (s.pin (s.eng e).sdaPin.toNat).driven = some b → (s.eng e).sdaSeen = b

/-- Nothing is out of order. -/
abbrev AllGood (s : State) : Prop := Good (fun _ => False) (fun _ _ => False) (fun _ _ _ => False) s

theorem Good.resolved {s : State} (h : AllGood s) : Resolved s :=
  ⟨fun n hn => h.node n hn id, fun p hp => h.pin p hp id⟩

theorem Good.settleSync {s : State} (h : AllGood s) : SettleSync s := fun n hn => h.settle n hn id

theorem Good.portsSynced {s : State} (h : AllGood s) : PortsSynced s := fun r hr i hi b hb => h.port r hr i hi id b hb

theorem Good.latchesSynced {s : State} (h : AllGood s) : LatchesSynced s :=
  fun e he ha => ⟨h.scl e he ha id, h.sda e he ha id⟩

theorem allGood_of {s : State} (h1 : Shaped s) (h2 : Resolved s) (h3 : SettleSync s) (h4 : PortsSynced s)
    (h5 : LatchesSynced s) : AllGood s where
  shaped := h1
  node := fun n hn _ => h2.1 n hn
  pin := fun p hp _ => h2.2 p hp
  settle := fun n hn _ => h3 n hn
  port := fun r hr i hi _ b hb => h4 r hr i hi b hb
  scl := fun e he ha _ b hb => (h5 e he ha).1 b hb
  sda := fun e he ha _ b hb => (h5 e he ha).2 b hb

section
variable {U U' : Job → Prop} {P P' : Nat → Nat → Prop} {L L' : Nat → Nat → Bool → Prop}

theorem Good.mono {s : State} (h : Good U P L s) (hU : ∀ j, U j → U' j) (hP : ∀ p r, P p r → P' p r)
    (hL : ∀ p e b, L p e b → L' p e b) : Good U' P' L' s where
  shaped := h.shaped
  node := fun n hn hu => h.node n hn fun h' => hu (hU _ h')
  pin := fun p hp hu => h.pin p hp fun h' => hu (hU _ h')
  settle := fun n hn hu => h.settle n hn fun h' => hu (hU _ h')
  port := fun r hr i hi hp => h.port r hr i hi fun h' => hp (hP _ _ h')
  scl := fun e he ha hl => h.scl e he ha fun h' => hl (hL _ _ _ h')
  sda := fun e he ha hl => h.sda e he ha fun h' => hl (hL _ _ _ h')

theorem members_congr {s t : State} (hc : t.cfg = s.cfg) (n : Nat)
    (hp : ∀ p, (t.pin p).node = some n ↔ (s.pin p).node = some n) : members t n = members s n := by
  unfold Machine.members
  rw [hc]
  exact List.filter_congr fun p _ => by simp [hp]

/-- What a node's mode, pull-up and contributions are depends only on its members. -/
theorem nodeView_congr {s t : State} {n : Nat} (hm : members t n = members s n)
    (hp : ∀ q ∈ members s n, (t.pin q).drive = (s.pin q).drive ∧ (t.pin q).dir = (s.pin q).dir ∧
      (t.pin q).oc = (s.pin q).oc ∧ (t.pin q).pu = (s.pin q).pu) :
    analogMode t n = analogMode s n ∧ pullup t n = pullup s n ∧
      ((members t n).map fun p => contribution (t.pin p)) = (members s n).map fun p => contribution (s.pin p) := by
  refine ⟨?_, ?_, ?_⟩
  · unfold analogMode; rw [hm, Bool.eq_iff_iff]; simp only [List.any_eq_true]
    exact exists_congr fun q => and_congr_right fun hq => by rw [(hp q hq).1]
  · unfold pullup; rw [hm, Bool.eq_iff_iff]; simp only [List.any_eq_true]
    exact exists_congr fun q => and_congr_right fun hq => by rw [(hp q hq).2.2.2]
  · rw [hm]
    refine List.map_congr_left fun q hq => ?_
    obtain ⟨a, b, c, -⟩ := hp q hq
    simp only [contribution, a, b, c]

theorem pinSources_congr {s t : State} {p : Nat} (hc : t.cfg = s.cfg)
    (hp : (t.pin p).drive = (s.pin p).drive ∧ (t.pin p).dir = (s.pin p).dir ∧ (t.pin p).oc = (s.pin p).oc ∧
      (t.pin p).pu = (s.pin p).pu) : pinSources t p = pinSources s p := by
  obtain ⟨a, b, c, d⟩ := hp
  have hk : contribution (t.pin p) = contribution (s.pin p) := by simp only [contribution, a, b, c]
  simp only [pinSources, driveSources, hk, a, b, d, hc]

/-- What a node records in analog mode depends only on the parameters and its members. -/
theorem AnalogSet.congr {s t : State} {n : Nat} {x : Node} (h : AnalogSet s n x) (hc : t.cfg = s.cfg)
    (hm : members t n = members s n)
    (hp : ∀ q ∈ members s n, (t.pin q).drive = (s.pin q).drive ∧ (t.pin q).dir = (s.pin q).dir ∧
      (t.pin q).oc = (s.pin q).oc ∧ (t.pin q).pu = (s.pin q).pu) : AnalogSet t n x := by
  have hs : nodeSources t n = nodeSources s n := by
    simp only [nodeSources, hm]
    exact List.flatMap_congr fun q hq => pinSources_congr hc (hp q hq)
  have hC : nodeC t n = nodeC s n := by simp only [nodeC, hm, hc]
  refine ⟨?_, ?_, ?_, ?_, h.settled⟩
  · rw [hC]; exact h.cth
  · rw [hs]; exact h.vt
  · rw [hs]; exact h.zth
  · rw [hs, hc]; exact h.settling

theorem NodeResolved.congr {s t : State} {n : Nat} (h : NodeResolved s n) (hc : t.cfg = s.cfg)
    (hm : members t n = members s n) (hp : ∀ q ∈ members s n, t.pin q = s.pin q) (hx : t.node n = s.node n) :
    NodeResolved t n := by
  have hq : ∀ q ∈ members s n, (t.pin q).drive = (s.pin q).drive ∧ (t.pin q).dir = (s.pin q).dir ∧
      (t.pin q).oc = (s.pin q).oc ∧ (t.pin q).pu = (s.pin q).pu := fun q hq => by rw [hp q hq]; exact ⟨rfl, rfl, rfl, rfl⟩
  obtain ⟨v1, v2, v3⟩ := nodeView_congr hm hq
  refine ⟨?_, ?_, fun p hlt hn => ?_, ?_, ?_⟩
  · rw [hx, v1, hc, h.level]; simp only [digitalLevel, v2, v3]
  · rw [hx, v1, v2, v3, h.contended]
  · have hmem : p ∈ members s n := by rw [← hm]; exact mem_members.mpr ⟨hlt, hn⟩
    rw [hp p hmem, hx]
    exact h.driven p (mem_members.mp hmem).1 (mem_members.mp hmem).2
  · rw [hx, v1]; exact h.settling
  · rw [hx, v1]; exact fun ha => (h.analog ha).congr hc hm hq

theorem aloneLevel_congr {s t : State} {p : Nat} (hc : t.cfg = s.cfg)
    (hp : (t.pin p).drive = (s.pin p).drive ∧ (t.pin p).dir = (s.pin p).dir ∧ (t.pin p).oc = (s.pin p).oc ∧
      (t.pin p).pu = (s.pin p).pu) : aloneLevel t p = aloneLevel s p := by
  have hs := pinSources_congr hc hp
  obtain ⟨a, b, c, d⟩ := hp
  have hk : contribution (t.pin p) = contribution (s.pin p) := by simp only [contribution, a, b, c]
  simp only [aloneLevel, hs, hk, a, d, hc]

theorem PinResolved.congr {s t : State} {p : Nat} (h : PinResolved s p) (hc : t.cfg = s.cfg) (hp : t.pin p = s.pin p) :
    PinResolved t p := by
  intro hn
  rw [aloneLevel_congr hc (by rw [hp]; exact ⟨rfl, rfl, rfl, rfl⟩), hp]
  exact h (by rw [← hp]; exact hn)

theorem boundPin_congr {s t : State} (hc : t.cfg = s.cfg) (r i : Nat) : boundPin t r i = boundPin s r i := by
  simp only [boundPin, State.portCfg, hc]

theorem enabledBits_congr {s t : State} (hc : t.cfg = s.cfg) (r : Nat) : enabledBits t r = enabledBits s r := by
  simp only [enabledBits, State.portCfg, hc]

/-- `Good` depends on the parameters, the lengths, the pins, the nodes, which nodes have an entry, the driven-values, and the
lines and latches of the engines. -/
theorem Good.transfer {s t : State} (h : Good U P L s) (hc : t.cfg = s.cfg)
    (hl : t.pins.length = s.pins.length ∧ t.nodes.length = s.nodes.length ∧ t.ports.length = s.ports.length ∧
      t.engines.length = s.engines.length)
    (hp : ∀ p, t.pin p = s.pin p) (hn : ∀ n, t.node n = s.node n)
    (he : ∀ n, hasEntry t (.node n) ↔ hasEntry s (.node n)) (hr : ∀ r, (t.port r).driven = (s.port r).driven)
    (hg : ∀ e, (t.eng e).attached = (s.eng e).attached ∧ (t.eng e).sclPin = (s.eng e).sclPin ∧
      (t.eng e).sdaPin = (s.eng e).sdaPin ∧ (t.eng e).sclSeen = (s.eng e).sclSeen ∧
      (t.eng e).sdaSeen = (s.eng e).sdaSeen) : Good U P L t where
  shaped := h.shaped.of_same hc hl (fun p => by rw [hp]) fun e => ⟨(hg e).1, (hg e).2.1, (hg e).2.2.1⟩
  node := fun n hn' hu => (h.node n (by rwa [hc] at hn') hu).congr hc (members_congr hc n fun p => by rw [hp])
    (fun q _ => hp q) (hn n)
  pin := fun p hp' hu => (h.pin p (by rwa [hc] at hp') hu).congr hc (hp p)
  settle := fun n hn' hu => by rw [he, hn]; exact h.settle n (by rwa [hc] at hn') hu
  port := fun r hr' i hi hu b hb => by
    rw [boundPin_congr hc] at hu hb
    rw [hp] at hb
    rw [hr]
    exact h.port r (by rwa [hc] at hr') i (by rwa [enabledBits_congr hc] at hi) hu b hb
  scl := fun e he' ha hu b hb => by
    obtain ⟨g1, g2, g3, g4, g5⟩ := hg e
    rw [g2] at hu hb
    rw [hp] at hb
    rw [g4]
    exact h.scl e (by rwa [hc] at he') (g1 ▸ ha) hu b hb
  sda := fun e he' ha hu b hb => by
    obtain ⟨g1, g2, g3, g4, g5⟩ := hg e
    rw [g3] at hu hb
    rw [hp] at hb
    rw [g5]
    exact h.sda e (by rwa [hc] at he') (g1 ▸ ha) hu b hb

/-- Writing what no line or latch is made of. -/
theorem Good.setEng {s : State} (h : Good U P L s) (e : Nat) (g : Engine)
    (hg : g.attached = (s.eng e).attached ∧ g.sclPin = (s.eng e).sclPin ∧ g.sdaPin = (s.eng e).sdaPin ∧
      g.sclSeen = (s.eng e).sclSeen ∧ g.sdaSeen = (s.eng e).sdaSeen) : Good U P L (s.setEng e g) :=
  h.transfer rfl (by simp) (fun _ => rfl) (fun _ => rfl) (fun _ => Iff.rfl) (fun _ => rfl) fun f => by
    rcases setEng_eng_cases s e f g with h' | ⟨rfl, h'⟩ <;> simp [h', hg]

theorem Good.depth {s : State} (h : Good U P L s) (d : Nat) : Good U P L { s with depth := d } :=
  h.transfer rfl ⟨rfl, rfl, rfl, rfl⟩ (fun _ => rfl) (fun _ => rfl) (fun _ => Iff.rfl) (fun _ => rfl)
    fun _ => ⟨rfl, rfl, rfl, rfl, rfl⟩

theorem Good.diag {s : State} (h : Good U P L s) (k : DiagKind) (o : Nat) (d : Byte) : Good U P L (diag k o d s) :=
  h.transfer rfl ⟨rfl, rfl, rfl, rfl⟩ (fun _ => rfl) (fun _ => rfl) (fun _ => Iff.rfl) (fun _ => rfl)
    fun _ => ⟨rfl, rfl, rfl, rfl, rfl⟩

theorem hasEntry_cancel (s : State) (o o' : Owner) : hasEntry (cancel o s) o' ↔ o' ≠ o ∧ hasEntry s o' := by
  simp only [hasEntry, cancel, List.mem_filter, decide_eq_true_eq]
  constructor
  · rintro ⟨x, ⟨hx, hne⟩, rfl⟩; exact ⟨hne, x, hx, rfl⟩
  · rintro ⟨hne, x, hx, rfl⟩; exact ⟨x, ⟨hx, hne⟩, rfl⟩

theorem hasEntry_scheduled (s : State) (o o' : Owner) (due : Nat) :
    hasEntry (scheduled o due s) o' ↔ o' = o ∨ hasEntry s o' := by
  have : hasEntry (scheduled o due s) o' ↔ hasEntry (cancel o s) o' ∨ o' = o := by
    simp only [hasEntry, scheduled, List.mem_append, List.mem_singleton]
    constructor
    · rintro ⟨x, hx | rfl, rfl⟩
      · exact .inl ⟨x, hx, rfl⟩
      · exact .inr rfl
    · rintro (⟨x, hx, rfl⟩ | rfl)
      · exact ⟨x, .inl hx, rfl⟩
      · exact ⟨_, .inr rfl, rfl⟩
  rw [this, hasEntry_cancel]
  by_cases h : o' = o <;> simp [h]

theorem Good.cancelEng {s : State} (h : Good U P L s) (e : Nat) : Good U P L (cancel (.eng e) s) :=
  h.transfer rfl ⟨rfl, rfl, rfl, rfl⟩ (fun _ => rfl) (fun _ => rfl) (fun n => by simp [hasEntry_cancel]) (fun _ => rfl)
    fun _ => ⟨rfl, rfl, rfl, rfl, rfl⟩

theorem Good.dropEdge {s : State} (h : Good U P L s) (e : Nat) : Good U P L (dropEdge e s) :=
  (h.cancelEng e).setEng e _ ⟨rfl, rfl, rfl, rfl, rfl⟩

/-- What a pin's write can put out of order: the node or lone pin it was, and the one it is. -/
theorem Good.setPin {s : State} (h : Good U P L s) (p : Nat) (x : Pin) (hd : x.driven = (s.pin p).driven)
    (hn : ∀ n, x.node = some n → n < s.cfg.numNodes) :
    Good (fun j => U j ∨ j = jobOf s p ∨ j = match x.node with | some n => .node n | none => .pin p) P L (s.setPin p x) := by
  have hdr : ∀ q, ((s.setPin p x).pin q).driven = (s.pin q).driven := fun q => by
    rcases setPin_pin_cases s p q x with h' | ⟨rfl, h'⟩ <;> simp [h', hd]
  have hne : ∀ q, q ≠ p → (s.setPin p x).pin q = s.pin q := fun q hq => by
    rw [setPin_pin, if_neg fun h' => hq h'.1.symm]
  have hpp : (s.setPin p x).pin p = s.pin p ∨ (s.setPin p x).pin p = x := by
    rcases setPin_pin_cases s p p x with h' | ⟨-, h'⟩
    · exact .inl h'
    · exact .inr h'
  refine ⟨⟨?_, h.shaped.nodes, h.shaped.ports, h.shaped.engines, fun q n hq => ?_, h.shaped.enginePins⟩, ?_, ?_,
    fun n hn' hu => h.settle n hn' fun h' => hu (.inl h'), ?_, ?_, ?_⟩
  · rw [setPin_pins_length]; exact h.shaped.pins
  · rcases setPin_pin_cases s p q x with h' | ⟨rfl, h'⟩
    · rw [h'] at hq; exact h.shaped.nodeOf q n hq
    · rw [h'] at hq; exact hn n hq
  · intro n hlt hu
    simp only [not_or] at hu
    obtain ⟨hu1, hu2, hu3⟩ := hu
    have h1 : (s.pin p).node ≠ some n := fun h' => hu2 (by simp [jobOf, h'])
    have h2 : x.node ≠ some n := fun h' => hu3 (by simp [h'])
    have h3 : ((s.setPin p x).pin p).node ≠ some n := by rcases hpp with h' | h' <;> rw [h'] <;> assumption
    refine (h.node n hlt hu1).congr rfl (members_congr (s := s) (t := s.setPin p x) rfl n fun q => ?_)
      (fun q hq => hne q fun hqp => ?_) rfl
    · by_cases hq : q = p
      · subst hq; simp [h1, h3]
      · rw [hne q hq]
    · subst hqp; exact h1 (mem_members.mp hq).2
  · intro q hlt hu
    simp only [not_or] at hu
    obtain ⟨hu1, hu2, hu3⟩ := hu
    by_cases hq : q = p
    · subst hq
      intro hnone
      exfalso
      rcases hpp with h' | h'
      · rw [h'] at hnone; exact hu2 (by simp [jobOf, hnone])
      · rw [h'] at hnone; exact hu3 (by simp [hnone])
    · exact (h.pin q hlt hu1).congr rfl (hne q hq)
  · intro r hr i hi hu b hb
    rw [hdr] at hb
    exact h.port r hr i hi hu b hb
  · intro e he ha hu b hb
    rw [hdr] at hb
    exact h.scl e he ha hu b hb
  · intro e he ha hu b hb
    rw [hdr] at hb
    exact h.sda e he ha hu b hb

/-- Writing a field of a pin that is not its node or driven state puts out of order only what the pin's job resolves. -/
theorem Good.setPin_same {s : State} (h : Good U P L s) (p : Nat) (x : Pin) (hd : x.driven = (s.pin p).driven)
    (hn : x.node = (s.pin p).node) : Good (fun j => U j ∨ j = jobOf (s.setPin p x) p) P L (s.setPin p x) := by
  refine (h.setPin p x hd fun n h' => h.shaped.nodeOf p n (hn ▸ h')).mono (fun j hj => ?_) (fun _ _ h => h) fun _ _ _ h => h
  have hj2 : jobOf (s.setPin p x) p = jobOf s p := by
    have : ((s.setPin p x).pin p).node = (s.pin p).node := by
      rcases setPin_pin_cases s p p x with h' | ⟨-, h'⟩ <;> rw [h']
      exact hn
    simp only [jobOf, this]
  rcases hj with hj | hj | hj
  · exact .inl hj
  · exact .inr (hj.trans hj2.symm)
  · right
    rw [hj, hj2, hn]
    unfold jobOf
    cases (s.pin p).node <;> rfl

end

/-- A job as a change of a pin calls for it: a node's, or a lone pin's own. -/
def Fits (s : State) : Job → Prop
  | .node _ => True
  | .pin p => (s.pin p).node = none
  | .settle _ => False

/-- What a resolution that meets no fault does: it puts its job in order, and nothing else out of order. -/
def Puts (res : Job → State → Res) : Prop :=
  ∀ (j : Job) (U : Job → Prop) (P : Nat → Nat → Prop) (L : Nat → Nat → Bool → Prop) (s t : State), Fits s j →
    Good (fun k => U k ∨ k = j) P L s → res j s = .ok t → Good U P L t

theorem fits_jobOf (s : State) (p : Nat) : Fits s (jobOf s p) := by
  unfold jobOf
  split
  · trivial
  · next h => exact h

section
variable {U : Job → Prop} {P : Nat → Nat → Prop} {L : Nat → Nat → Bool → Prop} {res : Job → State → Res}

theorem setDrivingVia_good (hres : Puts res) {p : Nat} {d : Drive} {s t : State} (h : Good U P L s)
    (ht : setDrivingVia res p d s = .ok t) : Good U P L t := by
  unfold setDrivingVia at ht
  split at ht
  · cases ht; exact h
  · exact hres _ U P L _ t (fits_jobOf _ _) (h.setPin_same p { s.pin p with drive := d } rfl rfl) ht

theorem driveSdaVia_good (hres : Puts res) {e : Nat} {bit : Bool} {s t : State} (h : Good U P L s)
    (ht : driveSdaVia res e bit s = .ok t) : Good U P L t :=
  setDrivingVia_good hres (h.setEng e { s.eng e with sdaDrive := !bit } ⟨rfl, rfl, rfl, rfl, rfl⟩) ht

theorem startVia_good (hres : Puts res) {e : Nat} {s t : State} (h : Good U P L s) (ht : startVia res e s = .ok t) :
    Good U P L t :=
  driveSdaVia_good hres ((h.dropEdge e).setEng e
    { (Machine.dropEdge e s).eng e with state := .rxAddress, bits := 0, shift := 0x00 } ⟨rfl, rfl, rfl, rfl, rfl⟩) ht

theorem stopVia_good (hres : Puts res) {e : Nat} {s t : State} (h : Good U P L s) (ht : stopVia res e s = .ok t) :
    Good U P L t :=
  driveSdaVia_good hres ((h.dropEdge e).setEng e
    { (Machine.dropEdge e s).eng e with state := .idle, bits := 0 } ⟨rfl, rfl, rfl, rfl, rfl⟩) ht

/-- Reloading both latches of an engine with what its lines read puts them in order. -/
theorem Good.latch {L' : Nat → Nat → Bool → Prop} {s : State} (h : Good U P L' s) (e : Nat) (he : e < s.cfg.numEngines)
    (g : Engine) (hg : g.attached = (s.eng e).attached ∧ g.sclPin = (s.eng e).sclPin ∧ g.sdaPin = (s.eng e).sdaPin)
    (hL : ∀ p f k, f ≠ e → L' p f k → L p f k)
    (hscl : ¬ L g.sclPin.toNat e true → ∀ b, logic (s.pin g.sclPin.toNat).driven = some b → g.sclSeen = b)
    (hsda : ¬ L g.sdaPin.toNat e false → ∀ b, logic (s.pin g.sdaPin.toNat).driven = some b → g.sdaSeen = b) :
    Good U P L (s.setEng e g) := by
  have hel : e < s.engines.length := by rw [h.shaped.engines]; exact he
  have hother : ∀ f, f ≠ e → (s.setEng e g).eng f = s.eng f := fun f hf => by
    rw [setEng_eng, if_neg fun h' => hf h'.1.symm]
  refine ⟨h.shaped.of_same rfl (by simp) (fun _ => rfl) fun f => ?_,
    fun n hn hu => (h.node n hn hu).congr rfl (members_congr (s := s) (t := s.setEng e g) rfl n fun _ => Iff.rfl) (fun _ _ => rfl) rfl,
    fun p hp hu => (h.pin p hp hu).congr rfl rfl, h.settle, h.port, ?_, ?_⟩
  · rcases setEng_eng_cases s e f g with h' | ⟨rfl, h'⟩ <;> simp [h', hg]
  · intro f hf ha hu b hb
    by_cases hfe : f = e
    · subst hfe
      rw [setEng_eng_self _ _ _ hel] at hu hb ⊢
      exact hscl hu b hb
    · rw [hother f hfe] at ha hu hb ⊢
      exact h.scl f hf ha (fun h' => hu (hL _ _ _ hfe h')) b hb
  · intro f hf ha hu b hb
    by_cases hfe : f = e
    · subst hfe
      rw [setEng_eng_self _ _ _ hel] at hu hb ⊢
      exact hsda hu b hb
    · rw [hother f hfe] at ha hu hb ⊢
      exact h.sda f hf ha (fun h' => hu (hL _ _ _ hfe h')) b hb

/-- Dropping a triple of `L` whose line has nothing to hold. -/
theorem Good.drop_line {L' : Nat → Nat → Bool → Prop} {s : State} (h : Good U P L' s) (e : Nat)
    (hL : ∀ p f k, f ≠ e → L' p f k → L p f k)
    (hscl : (s.eng e).attached = true → ¬ L (s.eng e).sclPin.toNat e true →
      ∀ b, logic (s.pin (s.eng e).sclPin.toNat).driven = some b → (s.eng e).sclSeen = b)
    (hsda : (s.eng e).attached = true → ¬ L (s.eng e).sdaPin.toNat e false →
      ∀ b, logic (s.pin (s.eng e).sdaPin.toNat).driven = some b → (s.eng e).sdaSeen = b) : Good U P L s := by
  refine ⟨h.shaped, h.node, h.pin, h.settle, h.port, ?_, ?_⟩
  · intro f hf ha hu b hb
    by_cases hfe : f = e
    · subst hfe; exact hscl ha hu b hb
    · exact h.scl f hf ha (fun h' => hu (hL _ _ _ hfe h')) b hb
  · intro f hf ha hu b hb
    by_cases hfe : f = e
    · subst hfe; exact hsda ha hu b hb
    · exact h.sda f hf ha (fun h' => hu (hL _ _ _ hfe h')) b hb

theorem Good.schedEng {s : State} (h : Good U P L s) (e due : Nat) : Good U P L (scheduled (.eng e) due s) :=
  h.transfer rfl ⟨rfl, rfl, rfl, rfl⟩ (fun _ => rfl) (fun _ => rfl) (fun n => by simp [hasEntry_scheduled]) (fun _ => rfl)
    fun _ => ⟨rfl, rfl, rfl, rfl, rfl⟩

/-- The SCL handler puts the clock latch of its engine in order. -/
theorem onScl_good {e : Nat} {s t : State} (he : e < s.cfg.numEngines) (ha : (s.eng e).attached = true)
    (h : Good U P (fun p f k => L p f k ∨ (p = (s.eng e).sclPin.toNat ∧ f = e ∧ k = true)) s)
    (ht : onScl e s = .ok t) : Good U P L t := by
  unfold onScl at ht
  split at ht
  · next hx =>
    cases ht
    refine Good.diag (h.drop_line e (fun p f k hf h' => h'.resolve_right fun h'' => hf h''.2.1) (fun _ _ b hb => ?_)
      fun ha hu b hb => ?_) _ _ _
    · rw [hx] at hb; cases hb
    · exact h.sda e he ha (fun h' => h'.elim hu fun h'' => by simp at h'') b hb
  · next v hv =>
    split at ht
    · next hsame =>
      cases ht
      refine h.drop_line e (fun p f k hf h' => h'.resolve_right fun h'' => hf h''.2.1) (fun _ _ b hb => ?_)
        fun ha hu b hb => ?_
      · rw [hv] at hb; cases hb; exact hsame.symm
      · exact h.sda e he ha (fun h' => h'.elim hu fun h'' => by simp at h'') b hb
    · change schedule (.eng e) (s.cycle.toNat + 1) (edgeLatch e v s) = .ok t at ht
      rw [schedule_later _ _ _ (by simp [edgeLatch])] at ht
      split at ht
      · cases ht
        refine Good.schedEng ?_ _ _
        refine h.latch e he _ ⟨rfl, rfl, rfl⟩ (fun p f k hf h' => h'.resolve_right fun h'' => hf h''.2.1)
          (fun _ b hb => ?_) fun hu b hb => ?_
        · change logic (s.pin (s.eng e).sclPin.toNat).driven = some b at hb
          rw [hv] at hb; cases hb; rfl
        · exact h.sda e he ha (fun h' => h'.elim hu fun h'' => by simp at h'') b hb
      · cases ht

end

end Sys2Proof.Machine
end

