-- ==== Sys2Proof/Laws/Puts.lean ====
section
/-! SUPPORT. Every resolution that meets no fault puts its job in order and nothing else out of order (`resolveJob_puts`), and
so do the callback of a settling node and the operations of commands and callbacks made of resolutions. -/

namespace Sys2Proof.Machine

section
variable {U : Job → Prop} {P : Nat → Nat → Prop} {L : Nat → Nat → Bool → Prop} {res : Job → State → Res}

theorem onSdaVia_good (hres : Puts res) {e : Nat} {s t : State} (he : e < s.cfg.numEngines)
    (ha : (s.eng e).attached = true)
    (h : Good U P (fun p f k => L p f k ∨ (p = (s.eng e).sdaPin.toNat ∧ f = e ∧ k = false)) s)
    (ht : onSdaVia res e s = .ok t) : Good U P L t := by
  have other : ∀ p f k, f ≠ e → (L p f k ∨ (p = (s.eng e).sdaPin.toNat ∧ f = e ∧ k = false)) → L p f k :=
    fun p f k hf h' => h'.resolve_right fun h'' => hf h''.2.1
  have hscl : ¬ L (s.eng e).sclPin.toNat e true →
      ∀ b, logic (s.pin (s.eng e).sclPin.toNat).driven = some b → (s.eng e).sclSeen = b :=
    fun hu b hb => h.scl e he ha (fun h' => h'.elim hu fun h'' => by simp at h'') b hb
  unfold onSdaVia at ht
  split at ht
  · next hx =>
    cases ht
    exact Good.diag (h.drop_line e other (fun _ => hscl) fun _ _ b hb => by rw [hx] at hb; cases hb) _ _ _
  · next v hv =>
    split at ht
    · next hsame =>
      cases ht
      exact h.drop_line e other (fun _ => hscl) fun _ _ b hb => by rw [hv] at hb; cases hb; exact hsame.symm
    · have h1 : Good U P L (s.setEng e { s.eng e with sdaSeen := v }) :=
        h.latch e he _ ⟨rfl, rfl, rfl⟩ other hscl fun _ b hb => by
          change logic (s.pin (s.eng e).sdaPin.toNat).driven = some b at hb
          rw [hv] at hb; cases hb; rfl
      dsimp only at ht
      split at ht
      · split at ht
        · exact stopVia_good hres h1 ht
        · exact startVia_good hres h1 ht
      · cases ht; exact h1

theorem notifyEngineVia_good (hres : Puts res) {p e : Nat} {s t : State} (he : e < s.cfg.numEngines)
    (h : Good U P (fun q f k => L q f k ∨ (q = p ∧ f = e)) s) (ht : notifyEngineVia res p e s = .ok t) : Good U P L t := by
  have other : ∀ q f k, f ≠ e → (L q f k ∨ (q = p ∧ f = e)) → L q f k :=
    fun q f k hf h' => h'.resolve_right fun h'' => hf h''.2
  unfold notifyEngineVia at ht
  split at ht
  · next ha =>
    obtain ⟨u, hu, ht⟩ := andThen_eq_ok ht
    have h1 : Good U P (fun q f k => L q f k ∨ (q = p ∧ f = e ∧ k = false)) u ∧ (u.eng e).attached = true ∧
        (u.eng e).sdaPin = (s.eng e).sdaPin ∧ u.cfg = s.cfg := by
      split at hu
      · next hp =>
        refine ⟨onScl_good he ha (h.mono (fun _ h' => h') (fun _ _ h' => h') fun q f k h' => ?_) hu, ?_⟩
        · rcases h' with h' | ⟨h1, h2⟩
          · exact .inl (.inl h')
          · cases k
            · exact .inl (.inr ⟨h1, h2, rfl⟩)
            · exact .inr ⟨h1.trans hp, h2, rfl⟩
        · have := (onScl_casc (A := AnyNode) e s he ha).ok hu
          obtain ⟨a, b, -, c, -⟩ := Cascs.eng_fixed this e
          exact ⟨b.trans ha, c, a⟩
      · next hp =>
        cases hu
        refine ⟨h.drop_line e (fun q f k hf h' => .inl (other q f k hf h')) (fun ha hu b hb => ?_) fun ha hu b hb => ?_,
          ha, rfl, rfl⟩
        · refine h.scl e he ha (fun h' => ?_) b hb
          rcases h' with h' | ⟨h1, -⟩
          · exact hu (.inl h')
          · exact hp h1.symm
        · refine h.sda e he ha (fun h' => hu ?_) b hb
          rcases h' with h' | ⟨h1, h2⟩
          · exact .inl h'
          · exact .inr ⟨h1, h2, rfl⟩
    obtain ⟨h1, ha', hsda, hcfg⟩ := h1
    split at ht
    · next hp =>
      refine onSdaVia_good hres (by rwa [hcfg]) ha' (h1.mono (fun _ h' => h') (fun _ _ h' => h') fun q f k h' => ?_) ht
      exact h'.imp id fun ⟨a, b, c⟩ => ⟨a.trans hp, b, c⟩
    · next hp =>
      cases ht
      refine h1.drop_line e (fun q f k hf h' => h'.resolve_right fun h'' => hf h''.2.1) (fun ha hu b hb => ?_)
        fun ha hu b hb => ?_
      · exact h1.scl e (by rwa [hcfg]) ha (fun h' => h'.elim hu fun h'' => by simp at h'') b hb
      · refine h1.sda e (by rwa [hcfg]) ha (fun h' => h'.elim hu fun h'' => hp ?_) b hb
        rw [← h''.1, hsda]
  · next ha =>
    cases ht
    exact h.drop_line e other (fun h' => absurd h' ha) fun h' => absurd h' ha

/-- Telling a port register of one enabled bit puts that bit in order and leaves every other as it was. -/
theorem onPinChanged_good {r i : Nat} {s : State} (hi : i ∈ enabledBits s r)
    (h : Good U P L s) : Good U P L (onPinChanged r i s) := by
  unfold onPinChanged
  split
  · next v hv =>
    refine ⟨h.shaped.of_same rfl (by simp) (fun _ => rfl) fun _ => ⟨rfl, rfl, rfl⟩,
      fun n hn hu => (h.node n hn hu).congr rfl
        (members_congr (s := s) (t := s.setPort r { s.port r with driven := setBit (s.port r).driven i v }) rfl n
          fun _ => Iff.rfl) (fun _ _ => rfl) rfl,
      fun p hp hu => (h.pin p hp hu).congr rfl rfl, h.settle, ?_, h.scl, h.sda⟩
    intro q hq j hj hu b hb
    rcases setPort_port_cases s r q { s.port r with driven := setBit (s.port r).driven i v } with h' | ⟨rfl, h'⟩
    · rw [h']; exact h.port q hq j hj hu b hb
    · rw [h', setBit_getLsbD _ _ _ _ (enabledBits_lt hi)]
      by_cases hji : j = i
      · subst hji
        rw [if_pos rfl]
        change logic (s.pin (boundPin s r j)).driven = some b at hb
        rw [hv] at hb; cases hb; rfl
      · rw [if_neg hji]; exact h.port r hq j hj hu b hb
  · exact h

/-- Telling a port register of one enabled bit puts that bit in order. -/
theorem onPinChanged_bit {r i : Nat} {s : State} (hs : Shaped s) (hr : r < s.cfg.numPorts) (hi : i < 8) (b : Bool)
    (hb : logic (s.pin (boundPin s r i)).driven = some b) : ((onPinChanged r i s).port r).driven.getLsbD i = b := by
  unfold onPinChanged
  rw [hb]
  change ((s.setPort r { s.port r with driven := setBit (s.port r).driven i b }).port r).driven.getLsbD i = b
  rw [setPort_port_self _ _ _ (by rw [hs.ports]; exact hr), setBit_getLsbD _ _ _ _ hi, if_pos rfl]

/-- What telling a port register leaves: everything but that register's driven-value. -/
theorem onPinChanged_fields (r i : Nat) (s : State) :
    (onPinChanged r i s).cfg = s.cfg ∧ ∀ q, (onPinChanged r i s).pin q = s.pin q := by
  unfold onPinChanged
  split <;> exact ⟨rfl, fun _ => rfl⟩

theorem onPinChanged_other {r i : Nat} {s : State} (hi : i < 8) (q j : Nat) (hne : q ≠ r ∨ j ≠ i) :
    ((onPinChanged r i s).port q).driven.getLsbD j = (s.port q).driven.getLsbD j := by
  unfold onPinChanged
  split
  · next v hv =>
    rcases setPort_port_cases s r q { s.port r with driven := setBit (s.port r).driven i v } with h' | ⟨rfl, h'⟩
    · rw [h']
    · rw [h', setBit_getLsbD _ _ _ _ hi, if_neg (hne.resolve_left fun h => h rfl)]
  · rfl

/-- Telling a port register of every enabled bit bound to a pin puts the pair in order. -/
theorem notifyPort_good {p r : Nat} {s : State}
    (h : Good U (fun q f => P q f ∨ (q = p ∧ f = r)) L s) : Good U P L (notifyPort p r s) := by
  unfold notifyPort
  have key : ∀ (is : List Nat) (u : State), (∀ i ∈ is, i ∈ enabledBits s r) → u.cfg = s.cfg →
      Good U (fun q f => P q f ∨ (q = p ∧ f = r)) L u →
      (∀ i ∈ enabledBits s r, boundPin s r i = p → i ∉ is → r < s.cfg.numPorts →
        ∀ b, logic (u.pin (boundPin s r i)).driven = some b → (u.port r).driven.getLsbD i = b) →
      Good U P L (is.foldl (fun s i => onPinChanged r i s) u) := by
    intro is
    induction is with
    | nil =>
        intro u _ hc hu hdone
        change Good U P L u
        refine ⟨hu.shaped, hu.node, hu.pin, hu.settle, ?_, hu.scl, hu.sda⟩
        intro f hf i hi hP b hb
        by_cases hpr : boundPin u f i = p ∧ f = r
        · obtain ⟨h1, rfl⟩ := hpr
          rw [boundPin_congr hc] at h1 hb
          rw [enabledBits_congr hc] at hi
          exact hdone i hi h1 (by simp) (by rwa [hc] at hf) b hb
        · exact hu.port f hf i hi (fun h' => h'.elim hP hpr) b hb
    | cons i is ih =>
        intro u hmem hc hu hdone
        have hi : i ∈ enabledBits u r := by rw [enabledBits_congr hc]; exact hmem i (by simp)
        obtain ⟨hcfg, hpins⟩ := onPinChanged_fields r i u
        rw [List.foldl_cons]
        refine ih _ (fun j hj => hmem j (by simp [hj])) (hcfg.trans hc) (onPinChanged_good hi hu) ?_
        intro j hj hjp hjn hr b hb
        rw [hpins] at hb
        by_cases hji : j = i
        · subst hji
          refine onPinChanged_bit hu.shaped (by rwa [hc]) (enabledBits_lt hi) b ?_
          rw [boundPin_congr hc]; exact hb
        · rw [onPinChanged_other (enabledBits_lt hi) r j (.inr hji)]
          exact hdone j hj hjp (by simp [hji, hjn]) hr b hb
  refine key _ s (fun i hi => (List.mem_filter.mp hi).1) rfl h ?_
  intro i hi hp hn
  exact absurd (List.mem_filter.mpr ⟨hi, by simpa using hp⟩) hn

theorem notifyVia_good (hres : Puts res) (hcasc : ∀ j s, NodesIn AnyNode s → JobIn AnyNode j → CascRes AnyNode s (res j s))
    {p : Nat} {s t : State} (h : Good U (fun q f => P q f ∨ q = p) (fun q f k => L q f k ∨ q = p) s)
    (ht : notifyVia res p s = .ok t) : Good U P L t := by
  unfold notifyVia at ht
  have ports : ∀ (rs : List Nat) (u : State), Good U (fun q f => P q f ∨ (q = p ∧ f ∈ rs)) (fun q f k => L q f k ∨ q = p) u →
      Good U P (fun q f k => L q f k ∨ q = p) (rs.foldl (fun s r => notifyPort p r s) u) := by
    intro rs
    induction rs with
    | nil => intro u hu; exact hu.mono (fun _ h' => h') (fun _ _ h' => h'.resolve_right (by simp)) fun _ _ _ h' => h'
    | cons r rs ih =>
        intro u hu
        refine ih _ (notifyPort_good (hu.mono (fun _ h' => h') (fun q f h' => ?_) fun _ _ _ h' => h'))
        rcases h' with h' | ⟨h1, h2⟩
        · exact .inl (.inl h')
        · rcases List.mem_cons.mp h2 with rfl | h2
          · exact .inr ⟨h1, rfl⟩
          · exact .inl (.inr ⟨h1, h2⟩)
  have engines : ∀ (es : List Nat) (u v : State), (∀ e ∈ es, e < u.cfg.numEngines) →
      Good U P (fun q f k => L q f k ∨ (q = p ∧ f ∈ es)) u → forEach (notifyEngineVia res p) es u = .ok v →
      Good U P L v := by
    intro es
    induction es with
    | nil =>
        intro u v _ hu hv
        cases hv
        exact hu.mono (fun _ h' => h') (fun _ _ h' => h') fun _ _ _ h' => h'.resolve_right (by simp)
    | cons e es ih =>
        intro u v hlt hu hv
        obtain ⟨w, hw, hv⟩ := andThen_eq_ok hv
        have he := hlt e (by simp)
        have hcw := ((notifyEngineVia_casc hcasc p e u (nodesIn_any u) he).ok hw).globals.1
        refine ih w v (fun f hf => by rw [hcw]; exact hlt f (by simp [hf])) ?_ hv
        refine notifyEngineVia_good hres he (hu.mono (fun _ h' => h') (fun _ _ h' => h') fun q f k h' => ?_) hw
        rcases h' with h' | ⟨h1, h2⟩
        · exact .inl (.inl h')
        · rcases List.mem_cons.mp h2 with rfl | h2
          · exact .inr ⟨h1, rfl⟩
          · exact .inl (.inr ⟨h1, h2⟩)
  have hcfg : ((List.range s.cfg.numPorts).foldl (fun s r => notifyPort p r s) s).cfg = s.cfg :=
    (foldl_casc (A := AnyNode) _ fun r _ u _ => notifyPort_casc p r u).globals.1
  have restP : Good U (fun q f => P q f ∨ (q = p ∧ f ∈ List.range s.cfg.numPorts)) (fun q f k => L q f k ∨ q = p) s := by
    refine ⟨h.shaped, h.node, h.pin, h.settle, fun r hr i hi hP b hb => ?_, h.scl, h.sda⟩
    exact h.port r hr i hi (fun h' => hP (h'.imp id fun hq => ⟨hq, List.mem_range.mpr hr⟩)) b hb
  have h1 := ports _ s restP
  refine engines _ _ t (fun e he => by rw [hcfg]; exact List.mem_range.mp he) ?_ ht
  refine ⟨h1.shaped, h1.node, h1.pin, h1.settle, h1.port, fun e he ha hL b hb => ?_, fun e he ha hL b hb => ?_⟩
  · exact h1.scl e he ha (fun h' => hL (h'.imp id fun hq => ⟨hq, List.mem_range.mpr (by rwa [hcfg] at he)⟩)) b hb
  · exact h1.sda e he ha (fun h' => hL (h'.imp id fun hq => ⟨hq, List.mem_range.mpr (by rwa [hcfg] at he)⟩)) b hb

/-- A publication puts its node in order, and out of order only what observes a member it changes. -/
theorem publishWrites_good {n : Nat} {l : Level} {s : State} (h : Good (fun j => U j ∨ j = .node n) P L s)
    (hlev : n < s.cfg.numNodes → l = if analogMode s n then levelOf s.cfg (s.node n).voltage else digitalLevel s n)
    (hcont : n < s.cfg.numNodes → (s.node n).contended = if analogMode s n then false
      else (resolveDigital ((members s n).map fun p => contribution (s.pin p)) (pullup s n)).2)
    (hset : n < s.cfg.numNodes → (s.node n).settling = true → analogMode s n = true)
    (hana : n < s.cfg.numNodes → analogMode s n = true → AnalogSet s n (s.node n)) :
    Good U (fun q f => P q f ∨ q ∈ changedBy n l s) (fun q f k => L q f k ∨ q ∈ changedBy n l s) (publishWrites n l s) := by
  obtain ⟨f1, f2, f3, f4, -, -, -, -⟩ := publishWrites_fields n l s
  have hc := publishWrites_casc (A := AnyNode) n l s
  have hm : ∀ m, members (publishWrites n l s) m = members s m := fun m => hc.members m
  have hpin := publishWrites_pin h.shaped n l
  have hother : ∀ q, q ∉ members s n → (publishWrites n l s).pin q = s.pin q := fun q hq => by rw [hpin, if_neg hq]
  have hdr : ∀ q, q ∉ changedBy n l s → ((publishWrites n l s).pin q).driven = (s.pin q).driven := by
    intro q hq
    rw [hpin]
    split
    · next hmem =>
      by_contra hne
      exact hq (List.mem_filter.mpr ⟨hmem, by simpa using fun h' => hne h'.symm⟩)
    · rfl
  have hnode : ∀ m, m ≠ n → (publishWrites n l s).node m = s.node m := fun m hmn => by
    rw [publishWrites_node, setNode_node, if_neg fun h' => hmn h'.1.symm]
  have hself : n < s.cfg.numNodes → (publishWrites n l s).node n = { s.node n with level := l } := fun hn => by
    rw [publishWrites_node, setNode_node_self _ _ _ (by rw [h.shaped.nodes]; exact hn)]
  have heng : ∀ e, (publishWrites n l s).eng e = s.eng e := fun e => by simp only [State.eng, f4]
  have hport : ∀ r, (publishWrites n l s).port r = s.port r := fun r => by simp only [State.port, f3]
  refine ⟨h.shaped.casc hc, fun m hlt hu => ?_, fun q hlt hu hnone => ?_, fun m hlt hu => ?_, fun r hr i hi hP b hb => ?_,
    fun e he ha hL b hb => ?_, fun e he ha hL b hb => ?_⟩
  · rw [f1] at hlt
    by_cases hmn : m = n
    · subst hmn
      have hq : ∀ q ∈ members s m, ((publishWrites m l s).pin q).drive = (s.pin q).drive ∧
          ((publishWrites m l s).pin q).dir = (s.pin q).dir ∧ ((publishWrites m l s).pin q).oc = (s.pin q).oc ∧
          ((publishWrites m l s).pin q).pu = (s.pin q).pu := fun q _ => by
        rw [hpin]; split <;> exact ⟨rfl, rfl, rfl, rfl⟩
      obtain ⟨v1, v2, v3⟩ := nodeView_congr (hm m) hq
      refine ⟨?_, ?_, fun p hp hpn => ?_, ?_, ?_⟩
      · rw [hself hlt, v1, f1]
        simp only [digitalLevel, v2, v3]
        exact hlev hlt
      · rw [hself hlt, v1, v2, v3]; exact hcont hlt
      · rw [hself hlt, hpin, if_pos]
        rw [← hm]; exact mem_members.mpr ⟨hp, hpn⟩
      · rw [hself hlt, v1]; exact hset hlt
      · rw [hself hlt, v1]
        intro ha
        have hx := (hana hlt ha).congr f1 (hm m) hq
        exact ⟨hx.cth, hx.vt, hx.zth, hx.settling, hx.settled⟩
    · refine (h.node m hlt fun h' => ?_).congr f1 (hm m) (fun q hq => hother q fun hq' => hmn ?_) (hnode m hmn)
      · rcases h' with h' | h'
        · exact hu h'
        · exact hmn (by simpa using h')
      · have := (mem_members.mp hq).2.symm.trans (mem_members.mp hq').2
        simpa using this
  · have hq : q ∉ members s n := fun hq => by
      have := (hc.pin_fixed q).1
      rw [hnone, (mem_members.mp hq).2] at this
      cases this
    rw [f1] at hlt
    exact ((h.pin q hlt fun h' => by rcases h' with h' | h' <;> first | exact hu h' | cases h').congr f1 (hother q hq)) hnone
  · rw [f1] at hlt
    have hs := h.settle m hlt fun h' => by rcases h' with h' | h' <;> first | exact hu h' | cases h'
    have hse : (publishWrites n l s).node m = s.node m ∨ (publishWrites n l s).node m = { s.node m with level := l } := by
      by_cases hmn : m = n
      · subst hmn; exact .inr (hself hlt)
      · exact .inl (hnode m hmn)
    rw [show hasEntry (publishWrites n l s) (.node m) ↔ hasEntry s (.node m) by simp only [hasEntry, f2], hs]
    rcases hse with h' | h' <;> rw [h']
  · rw [boundPin_congr f1] at hP hb
    rw [enabledBits_congr f1] at hi
    rw [f1] at hr
    rw [hdr _ fun h' => hP (.inr h')] at hb
    rw [hport]
    exact h.port r hr i hi (fun h' => hP (.inl h')) b hb
  · rw [heng] at ha hL hb ⊢
    rw [f1] at he
    rw [hdr _ fun h' => hL (.inr h')] at hb
    exact h.scl e he ha (fun h' => hL (.inl h')) b hb
  · rw [heng] at ha hL hb ⊢
    rw [f1] at he
    rw [hdr _ fun h' => hL (.inr h')] at hb
    exact h.sda e he ha (fun h' => hL (.inl h')) b hb

theorem publishVia_good (hres : Puts res) (hcasc : ∀ j s, NodesIn AnyNode s → JobIn AnyNode j → CascRes AnyNode s (res j s))
    {n : Nat} {l : Level} {s t : State} (h : Good (fun j => U j ∨ j = .node n) P L s)
    (hlev : n < s.cfg.numNodes → l = if analogMode s n then levelOf s.cfg (s.node n).voltage else digitalLevel s n)
    (hcont : n < s.cfg.numNodes → (s.node n).contended = if analogMode s n then false
      else (resolveDigital ((members s n).map fun p => contribution (s.pin p)) (pullup s n)).2)
    (hset : n < s.cfg.numNodes → (s.node n).settling = true → analogMode s n = true)
    (hana : n < s.cfg.numNodes → analogMode s n = true → AnalogSet s n (s.node n))
    (ht : publishVia res n l s = .ok t) : Good U P L t := by
  have h1 := publishWrites_good h hlev hcont hset hana
  unfold publishVia at ht
  generalize changedBy n l s = ps at h1 ht
  generalize publishWrites n l s = u at h1 ht
  induction ps generalizing u with
  | nil => cases ht; exact h1.mono (fun _ h' => h') (fun _ _ h' => h'.resolve_right (by simp)) fun _ _ _ h' => h'.resolve_right (by simp)
  | cons p ps ih =>
      obtain ⟨w, hw, ht⟩ := andThen_eq_ok ht
      refine ih w (notifyVia_good hres hcasc (h1.mono (fun _ h' => h') (fun q f h' => ?_) fun q f k h' => ?_) hw) ht
      · rcases h' with h' | h'
        · exact .inl (.inl h')
        · rcases List.mem_cons.mp h' with h' | h'
          · exact .inr h'
          · exact .inl (.inr h')
      · rcases h' with h' | h'
        · exact .inl (.inl h')
        · rcases List.mem_cons.mp h' with h' | h'
          · exact .inr h'
          · exact .inl (.inr h')

/-- Writing a node's record when its callback stays as its flag says. -/
theorem Good.setNode {s : State} (h : Good U P L s) (n : Nat) (x : Node) (hx : x.settling = (s.node n).settling) :
    Good (fun j => U j ∨ j = .node n) P L (s.setNode n x) := by
  have hne : ∀ m, m ≠ n → (s.setNode n x).node m = s.node m := fun m hm => by
    rw [setNode_node, if_neg fun h' => hm h'.1.symm]
  refine ⟨h.shaped.of_same rfl (by simp) (fun _ => rfl) fun _ => ⟨rfl, rfl, rfl⟩, fun m hlt hu => ?_,
    fun p hp hu => (h.pin p hp fun h' => hu (.inl h')).congr rfl rfl, fun m hlt hu => ?_, h.port, h.scl, h.sda⟩
  · have hmn : m ≠ n := fun h' => hu (.inr (by rw [h']))
    exact (h.node m hlt fun h' => hu (.inl h')).congr rfl
      (members_congr (s := s) (t := s.setNode n x) rfl m fun _ => Iff.rfl) (fun _ _ => rfl) (hne m hmn)
  · have := h.settle m hlt fun h' => hu (.inl h')
    rw [show hasEntry (s.setNode n x) (.node m) ↔ hasEntry s (.node m) from Iff.rfl, this]
    rcases setNode_node_cases s n m x with h' | ⟨rfl, h'⟩ <;> rw [h']
    rw [hx]

/-- A node that stops settling, its callback cancelled, is in order about its callback. -/
theorem Good.unsettle {s : State} (h : Good (fun j => U j ∨ j = .settle n) P L s) (x : Node) (hx : x.settling = false) :
    Good (fun j => U j ∨ j = .node n) P L (cancel (.node n) (s.setNode n x)) := by
  have hne : ∀ m, m ≠ n → (s.setNode n x).node m = s.node m := fun m hm => by
    rw [setNode_node, if_neg fun h' => hm h'.1.symm]
  refine ⟨h.shaped.of_same rfl (by simp) (fun _ => rfl) fun _ => ⟨rfl, rfl, rfl⟩, fun m hlt hu => ?_,
    fun p hp hu => (h.pin p hp fun h' => ?_).congr rfl rfl, fun m hlt hu => ?_, h.port, h.scl, h.sda⟩
  · have hmn : m ≠ n := fun h' => hu (.inr (by rw [h']))
    refine (h.node m hlt fun h' => ?_).congr rfl
      (members_congr (s := s) (t := cancel (.node n) (s.setNode n x)) rfl m fun _ => Iff.rfl) (fun _ _ => rfl) (hne m hmn)
    rcases h' with h' | h'
    · exact hu (.inl h')
    · cases h'
  · rcases h' with h' | h'
    · exact hu (.inl h')
    · cases h'
  · rw [hasEntry_cancel, show hasEntry (s.setNode n x) (.node m) ↔ hasEntry s (.node m) from Iff.rfl]
    by_cases hmn : m = n
    · subst hmn
      have : (cancel (.node m) (s.setNode m x)).node m = x :=
        setNode_node_self _ _ _ (by rw [h.shaped.nodes]; exact hlt)
      simp [this, hx]
    · have hs := h.settle m hlt fun h' => by
        rcases h' with h' | h'
        · exact hu (.inl h')
        · simp at h'; exact hmn h'
      have : (cancel (.node n) (s.setNode n x)).node m = s.node m := hne m hmn
      rw [this, ← hs]
      simp [hmn]

/-- A node that goes on settling, its callback scheduled, is in order about its callback. -/
theorem Good.resettle {s : State} (h : Good (fun j => U j ∨ j = .settle n) P L s) (x : Node) (hx : x.settling = true)
    (due : Nat) : Good (fun j => U j ∨ j = .node n) P L (scheduled (.node n) due (s.setNode n x)) := by
  have hne : ∀ m, m ≠ n → (s.setNode n x).node m = s.node m := fun m hm => by
    rw [setNode_node, if_neg fun h' => hm h'.1.symm]
  refine ⟨h.shaped.of_same rfl (by simp [scheduled]) (fun _ => rfl) fun _ => ⟨rfl, rfl, rfl⟩, fun m hlt hu => ?_,
    fun p hp hu => (h.pin p hp fun h' => ?_).congr rfl rfl, fun m hlt hu => ?_, h.port, h.scl, h.sda⟩
  · have hmn : m ≠ n := fun h' => hu (.inr (by rw [h']))
    refine (h.node m hlt fun h' => ?_).congr rfl
      (members_congr (s := s) (t := scheduled (.node n) due (s.setNode n x)) rfl m fun _ => Iff.rfl) (fun _ _ => rfl)
      (hne m hmn)
    rcases h' with h' | h'
    · exact hu (.inl h')
    · cases h'
  · rcases h' with h' | h'
    · exact hu (.inl h')
    · cases h'
  · rw [hasEntry_scheduled, show hasEntry (s.setNode n x) (.node m) ↔ hasEntry s (.node m) from Iff.rfl]
    by_cases hmn : m = n
    · subst hmn
      have : (scheduled (.node m) due (s.setNode m x)).node m = x :=
        setNode_node_self _ _ _ (by rw [h.shaped.nodes]; exact hlt)
      simp [this, hx]
    · have hs := h.settle m hlt fun h' => by
        rcases h' with h' | h'
        · exact hu (.inl h')
        · simp at h'; exact hmn h'
      have : (scheduled (.node n) due (s.setNode n x)).node m = s.node m := hne m hmn
      rw [this, ← hs]
      simp [hmn]

theorem leaveAnalog_good {n : Nat} {s : State} (h : Good (fun j => U j ∨ j = .node n) P L s) :
    Good (fun j => U j ∨ j = .node n) P L (leaveAnalog n s) ∧
      (n < s.cfg.numNodes → ((leaveAnalog n s).node n).settling = false) ∧ (leaveAnalog n s).cfg = s.cfg ∧
      ∀ p, (leaveAnalog n s).pin p = s.pin p := by
  unfold leaveAnalog
  split
  · refine ⟨(Good.unsettle (U := fun j => U j ∨ j = .node n) (h.mono (fun _ h' => .inl h') (fun _ _ h' => h')
      fun _ _ _ h' => h') _ rfl).mono (fun _ h' => h'.elim id .inr) (fun _ _ h' => h') fun _ _ _ h' => h', fun hn => ?_, rfl,
      fun _ => rfl⟩
    have : (cancel (.node n) (s.setNode n { s.node n with settling := false })).node n
        = { s.node n with settling := false } := setNode_node_self _ _ _ (by rw [h.shaped.nodes]; exact hn)
    rw [this]
  · next hs => exact ⟨h, fun _ => by simpa using hs, rfl, fun _ => rfl⟩

/-- The digital branch up to its publication: the flag and the callback are in order, the level is what it publishes. -/
theorem digitalUpdate_good {n : Nat} {s : State} (h : Good (fun j => U j ∨ j = .node n) P L s) :
    Good (fun j => U j ∨ j = .node n) P L (digitalUpdate n s) ∧
      (n < s.cfg.numNodes → ((digitalUpdate n s).node n).settling = false ∧ ((digitalUpdate n s).node n).contended
        = (resolveDigital ((members s n).map fun p => contribution (s.pin p)) (pullup s n)).2) ∧
      (digitalUpdate n s).cfg = s.cfg ∧ ∀ p, (digitalUpdate n s).pin p = s.pin p := by
  obtain ⟨h1, h2, h3, h4⟩ := leaveAnalog_good h
  have hm : members (leaveAnalog n s) n = members s n := members_congr h3 n fun p => by rw [h4]
  obtain ⟨-, v2, v3⟩ := nodeView_congr hm fun q _ => by rw [h4]; exact ⟨rfl, rfl, rfl, rfl⟩
  unfold digitalUpdate
  dsimp only
  rw [v2, v3]
  generalize hk : (resolveDigital ((members s n).map fun p => contribution (s.pin p)) (pullup s n)).2 = k
  have hg := (h1.setNode n { (leaveAnalog n s).node n with contended := k } rfl).mono
    (fun _ h' => h'.elim id .inr) (fun _ _ h' => h') fun _ _ _ h' => h'
  have hself : n < s.cfg.numNodes → ((leaveAnalog n s).setNode n { (leaveAnalog n s).node n with contended := k }).node n
      = { (leaveAnalog n s).node n with contended := k } :=
    fun hn => setNode_node_self _ _ _ (by rw [h1.shaped.nodes, h3]; exact hn)
  split
  · refine ⟨hg.diag _ _ _, fun hn => ?_, h3, h4⟩
    rw [diag_node, hself hn]
    exact ⟨h2 hn, rfl⟩
  · refine ⟨hg, fun hn => ?_, h3, h4⟩
    rw [hself hn]
    exact ⟨h2 hn, rfl⟩

theorem settleNode_good {n : Nat} {v : Num} {s : State} (h : Good (fun j => U j ∨ j = .settle n) P L s) :
    Good (fun j => U j ∨ j = .node n) P L (settleNode n v s) ∧
      (n < s.cfg.numNodes → (settleNode n v s).node n = { s.node n with voltage := v, settling := false }) :=
  ⟨h.unsettle _ rfl, fun hn => setNode_node_self _ _ _ (by rw [h.shaped.nodes]; exact hn)⟩

theorem Good.draws {s : State} (h : Good U P L s) (d : Nat) : Good U P L { s with draws := d } :=
  h.transfer rfl ⟨rfl, rfl, rfl, rfl⟩ (fun _ => rfl) (fun _ => rfl) (fun _ => Iff.rfl) (fun _ => rfl)
    fun _ => ⟨rfl, rfl, rfl, rfl, rfl⟩

/-- Writing a node's record twice is writing it once. -/
theorem setNode_setNode (s : State) (n : Nat) (x y : Node) : (s.setNode n x).setNode n y = s.setNode n y := by
  simp [State.setNode]

/-- How the update of a node's voltage ends: the node's record written with what its members offer, and it is settled, its
callback cancelled, or settling, its callback scheduled. -/
def VoltageSet (n : Nat) (s t : State) : Prop :=
  ∃ x : Node, x.contended = false ∧ AnalogSet s n x ∧
    ((x.settling = false ∧ ∃ d, t = { cancel (.node n) (s.setNode n x) with draws := d }) ∨
      (x.settling = true ∧ ∃ due, t = scheduled (.node n) due (s.setNode n x)))

theorem settleNode_setNode (n : Nat) (v : Num) (s : State) (x : Node) :
    settleNode n v (s.setNode n x)
      = cancel (.node n) (s.setNode n { (s.setNode n x).node n with voltage := v, settling := false }) := by
  unfold settleNode
  rw [setNode_setNode]

theorem analogUpdate_ok {n : Nat} {s t : State} (hn : n < s.nodes.length) (ht : analogUpdate n s = .ok t) :
    VoltageSet n s t := by
  unfold analogUpdate at ht
  dsimp only at ht
  split at ht
  · next hx =>
    cases ht
    have hx : nodeSources s n = [] := List.isEmpty_iff.mp hx
    have h := settleNode_setNode n (voltageAt s n s.cycle) s
      { s.node n with voltage := voltageAt s n s.cycle, v0 := voltageAt s n s.cycle, t0 := s.cycle,
                      vt := voltageAt s n s.cycle, zth := Config.freeZth s.draws, cth := nodeC s n, contended := false }
    rw [setNode_node_self _ _ _ hn] at h
    exact ⟨{ s.node n with voltage := voltageAt s n s.cycle, v0 := voltageAt s n s.cycle, t0 := s.cycle,
                           vt := voltageAt s n s.cycle, zth := Config.freeZth s.draws, cth := nodeC s n, contended := false,
                           settling := false },
      rfl, ⟨rfl, fun h' => absurd hx h', fun h' => absurd hx h', fun h' => (by cases h'), fun _ => rfl⟩, .inl ⟨rfl, s.draws + 1, congrArg (fun u : State => { u with draws := s.draws + 1 }) h⟩⟩
  · next hx =>
    have hx : nodeSources s n ≠ [] := fun h' => hx (List.isEmpty_iff.mpr h')
    split at ht
    · cases ht
      refine ⟨_, ?_, ?_, .inl ⟨rfl, s.draws, settleNode_setNode n _ s _⟩⟩ <;> rw [setNode_node_self _ _ _ hn]
      exact ⟨rfl, fun _ => rfl, fun _ => rfl, fun h' => (by cases h'), fun _ => rfl⟩
    · next hfar =>
      simp only [Bool.or_eq_true, decide_eq_true_eq, withinEps, not_or, not_le] at hfar
      rw [setNode_setNode] at ht
      have hs := one_le_stepCycles s.cfg (voltageAt s n s.cycle) (theveninV (nodeSources s n))
        (theveninZ (nodeSources s n) * nodeC s n) 0
      simp only [setNode_cycle, setNode_cfg] at ht
      rw [schedule_later _ _ _ (by simp only [setNode_cycle]; omega)] at ht
      split at ht
      · cases ht
        refine ⟨_, ?_, ?_, .inr ⟨rfl, _, rfl⟩⟩ <;> rw [setNode_node_self _ _ _ hn]
        exact ⟨rfl, fun _ => rfl, fun _ => rfl, fun _ => ⟨hx, hfar.1, hfar.2⟩, fun h' => by cases h'⟩
      · cases ht

theorem settleUpdate_ok {n : Nat} {s t : State} (hn : n < s.nodes.length) (hs : (s.node n).settling = true)
    (hk : (s.node n).contended = false) (ha : AnalogSet s n (s.node n)) (ht : settleUpdate n s = .ok t) :
    VoltageSet n s t := by
  unfold settleUpdate at ht
  dsimp only at ht
  split at ht
  · cases ht
    refine ⟨_, ?_, ?_, .inl ⟨rfl, s.draws, settleNode_setNode n _ s _⟩⟩ <;> rw [setNode_node_self _ _ _ hn]
    · exact hk
    · exact ⟨ha.cth, ha.vt, ha.zth, fun h' => (by cases h'), fun _ => rfl⟩
  · next hfar =>
    simp only [withinEps, decide_eq_true_eq, not_le] at hfar
    have h1 := one_le_stepCycles s.cfg (voltageAt s n s.cycle) (s.node n).vt ((s.node n).zth * (s.node n).cth)
      (s.cycle.toNat - (s.node n).t0.toNat)
    simp only [setNode_cycle, setNode_cfg] at ht
    rw [schedule_later _ _ _ (by simp only [setNode_cycle]; omega)] at ht
    split at ht
    · cases ht
      exact ⟨{ s.node n with voltage := voltageAt s n s.cycle }, hk,
        ⟨ha.cth, ha.vt, ha.zth, fun _ => ⟨(ha.settling hs).1, (ha.settling hs).2.1, hfar⟩, fun h' => by rw [hs] at h'; cases h'⟩,
        .inr ⟨hs, _, rfl⟩⟩
    · cases ht

/-- Setting a node's voltage puts in order whether it has a callback pending, and the node's record. -/
theorem VoltageSet.good {n : Nat} {s t : State} (hv : VoltageSet n s t) (hn : n < s.nodes.length)
    (h : Good (fun j => U j ∨ j = .settle n) P L s) :
    Good (fun j => U j ∨ j = .node n) P L t ∧ (t.node n).contended = false ∧ AnalogSet t n (t.node n) ∧ t.cfg = s.cfg ∧
      ∀ p, t.pin p = s.pin p := by
  obtain ⟨x, hx, hset, ht⟩ := hv
  have hself : (s.setNode n x).node n = x := setNode_node_self _ _ _ hn
  have key : ∀ u : State, u.cfg = s.cfg → (∀ p, u.pin p = s.pin p) → u.node n = x →
      (u.node n).contended = false ∧ AnalogSet u n (u.node n) ∧ u.cfg = s.cfg ∧ ∀ p, u.pin p = s.pin p := by
    intro u h1 h2 h3
    rw [h3]
    exact ⟨hx, hset.congr h1 (members_congr h1 n fun p => by rw [h2]) fun q _ => by rw [h2]; exact ⟨rfl, rfl, rfl, rfl⟩,
      h1, h2⟩
  rcases ht with ⟨h1, d, rfl⟩ | ⟨h1, due, rfl⟩
  · exact ⟨(h.unsettle x h1).draws d, key _ rfl (fun _ => rfl) hself⟩
  · exact ⟨h.resettle x h1 due, key _ rfl (fun _ => rfl) hself⟩

/-- A node in analog mode has members, so it is a node of the block. -/
theorem analogMode_lt {n : Nat} {s : State} (hs : Shaped s) (h : analogMode s n = true) : n < s.cfg.numNodes := by
  obtain ⟨p, hp, -⟩ := List.any_eq_true.mp h
  exact hs.nodeOf p n (mem_members.mp hp).2

theorem analogMode_congr {s t : State} (hc : t.cfg = s.cfg) (hp : ∀ p, t.pin p = s.pin p) (n : Nat) :
    members t n = members s n ∧ analogMode t n = analogMode s n ∧ pullup t n = pullup s n ∧
      ((members t n).map fun p => contribution (t.pin p)) = (members s n).map fun p => contribution (s.pin p) := by
  have hm : members t n = members s n := members_congr hc n fun p => by rw [hp]
  exact ⟨hm, nodeView_congr hm fun q _ => by rw [hp]; exact ⟨rfl, rfl, rfl, rfl⟩⟩

theorem runJobVia_good (hres : Puts res) (hcasc : ∀ j s, NodesIn AnyNode s → JobIn AnyNode j → CascRes AnyNode s (res j s))
    {j : Job} {s t : State} (hj : Fits s j) (h : Good (fun k => U k ∨ k = j) P L s)
    (ht : runJobVia res j s = .ok t) : Good U P L t := by
  cases j with
  | settle n => exact hj.elim
  | node n =>
      change resolveNodeVia res n s = .ok t at ht
      unfold resolveNodeVia at ht
      split at ht
      · next ha =>
        obtain ⟨u, hu, ht⟩ := andThen_eq_ok ht
        have hn : n < s.nodes.length := by rw [h.shaped.nodes]; exact analogMode_lt h.shaped ha
        obtain ⟨h1, h2, hset, h3, h4⟩ := (analogUpdate_ok hn hu).good (U := fun j => U j ∨ j = .node n) hn
          (h.mono (fun _ h' => .inl h') (fun _ _ h' => h') fun _ _ _ h' => h')
        obtain ⟨-, v1, -, -⟩ := analogMode_congr h3 h4 n
        rw [ha] at v1
        exact publishVia_good hres hcasc
          (h1.mono (fun _ h' => h'.elim id .inr) (fun _ _ h' => h') fun _ _ _ h' => h') (fun _ => by rw [if_pos v1])
          (fun _ => by rw [if_pos v1]; exact h2) (fun _ _ => v1) (fun _ _ => hset) ht
      · next ha =>
        obtain ⟨h1, h2, h3, h4⟩ := digitalUpdate_good h
        obtain ⟨-, v1, v2, v3⟩ := analogMode_congr h3 h4 n
        have v1' : ¬ analogMode (digitalUpdate n s) n = true := by rw [v1]; exact ha
        refine publishVia_good hres hcasc h1 (fun _ => ?_) (fun hn => ?_) (fun hn hset => ?_) (fun _ h' => absurd h' v1') ht
        · rw [if_neg v1']; simp only [digitalLevel, v2, v3]
        · rw [if_neg v1', v2, v3]; exact (h2 (by rwa [h3] at hn)).2
        · rw [(h2 (by rwa [h3] at hn)).1] at hset; cases hset
  | pin p =>
      change resolveAloneVia res p s = .ok t at ht
      unfold resolveAloneVia at ht
      dsimp only at ht
      split at ht
      · next hsame =>
        cases ht
        refine ⟨h.shaped, fun n hn hu => h.node n hn (by simpa using hu), fun q hq hu => ?_,
          fun n hn hu => h.settle n hn (by simpa using hu), h.port, h.scl, h.sda⟩
        by_cases hqp : q = p
        · subst hqp; exact fun _ => hsame
        · exact h.pin q hq (by simpa [hqp] using hu)
      · refine notifyVia_good hres hcasc ?_ ht
        have hne : ∀ q, q ≠ p → (s.setPin p { s.pin p with driven := aloneLevel s p }).pin q = s.pin q := fun q hq => by
          rw [setPin_pin, if_neg fun h' => hq h'.1.symm]
        have hc : Cascs AnyNode s (s.setPin p { s.pin p with driven := aloneLevel s p }) := .single (.driven _ _)
        refine ⟨h.shaped.casc hc, fun n hn hu => ?_, fun q hq hu => ?_,
          fun n hn hu => h.settle n hn (by simpa using hu), fun r hr i hi hP b hb => ?_, fun e he ha hL b hb => ?_,
          fun e he ha hL b hb => ?_⟩
        · refine (h.node n hn (by simpa using hu)).congr rfl (hc.members n) (fun q hq => hne q fun hqp => ?_) rfl
          have h1 := (mem_members.mp hq).2
          rw [hqp, show (s.pin p).node = none from hj] at h1
          cases h1
        · by_cases hqp : q = p
          · subst hqp
            intro _
            refine (congrArg Pin.driven (setPin_pin_self s q _ (by rw [h.shaped.pins]; exact hq))).trans
              (aloneLevel_congr (s := s) (t := s.setPin q { s.pin q with driven := aloneLevel s q }) rfl ?_).symm
            rcases setPin_pin_cases s q q { s.pin q with driven := aloneLevel s q } with h' | ⟨-, h'⟩ <;> rw [h'] <;>
              exact ⟨rfl, rfl, rfl, rfl⟩
          · exact (h.pin q hq (by simpa [hqp] using hu)).congr rfl (hne q hqp)
        · rw [not_or] at hP
          rw [hne _ hP.2] at hb
          exact h.port r hr i hi hP.1 b hb
        · rw [not_or] at hL
          rw [hne _ hL.2] at hb
          exact h.scl e he ha hL.1 b hb
        · rw [not_or] at hL
          rw [hne _ hL.2] at hb
          exact h.sda e he ha hL.1 b hb

end

/-- Every resolution that meets no fault puts its job in order, and nothing else out of order. -/
theorem resolveJob_puts (room : Nat) : Puts (resolveJob room) := by
  induction room with
  | zero => intro j U P L s t _ _ ht; cases ht
  | succ room ih =>
      intro j U P L s t hj h ht
      rw [resolveJob] at ht
      obtain ⟨u, hu, ht⟩ := andThen_eq_ok ht
      have hd : Good (fun k => U k ∨ k = j) P L { s with depth := s.depth + 1 } := h.depth _
      have hj' : Fits { s with depth := s.depth + 1 } j := by cases j <;> exact hj
      have hu' : Good U P L u := runJobVia_good ih (fun j s h1 h2 => resolveJob_casc room j s h1 h2) hj' hd hu
      injection ht with ht
      rw [← ht]
      exact hu'.depth _

theorem resolve_puts : Puts resolve :=
  fun j U P L s t hj h ht => resolveJob_puts _ j U P L s t hj h ht

section
variable {U : Job → Prop} {P : Nat → Nat → Prop} {L : Nat → Nat → Bool → Prop}

/-- The callback of a settling node puts the node and its callback in order. -/
theorem resolve_settle_good {n : Nat} {s t : State} (h : Good (fun j => U j ∨ j = .settle n) P L s)
    (hU : ¬ U (.node n)) (hn : n < s.cfg.numNodes) (hs : (s.node n).settling = true)
    (ht : resolve (.settle n) s = .ok t) : Good U P L t := by
  have hr := h.node n hn (by simpa using hU)
  unfold resolve at ht
  cases hroom : s.cfg.maxNotifyDepth - s.depth with
  | zero => rw [hroom] at ht; cases ht
  | succ room =>
      rw [hroom] at ht
      obtain ⟨u, hu, ht⟩ := andThen_eq_ok ht
      cases ht
      obtain ⟨v, hv, hu⟩ := andThen_eq_ok hu
      have hl : n < s.nodes.length := by rw [h.shaped.nodes]; exact hn
      have hc := hr.contended
      rw [hr.settling hs, if_pos rfl] at hc
      have hd : AnalogSet { s with depth := s.depth + 1 } n (s.node n) :=
        (hr.analog (hr.settling hs)).congr rfl (members_congr rfl n fun _ => Iff.rfl) fun _ _ => ⟨rfl, rfl, rfl, rfl⟩
      obtain ⟨h1, h2, hset, h3, h4⟩ :=
        (settleUpdate_ok (s := { s with depth := s.depth + 1 }) hl hs hc hd hv).good hl (h.depth _)
      obtain ⟨-, v1, -, -⟩ := analogMode_congr (s := { s with depth := s.depth + 1 }) h3 h4 n
      have ha : analogMode v n = true := v1.trans (hr.settling hs)
      exact (publishVia_good (resolveJob_puts room) (fun j s h1 h2 => resolveJob_casc room j s h1 h2) h1
        (fun _ => by rw [if_pos ha]) (fun _ => by rw [if_pos ha]; exact h2) (fun _ _ => ha) (fun _ _ => hset) hu).depth _

theorem setDriving_good {p : Nat} {d : Drive} {s t : State} (h : Good U P L s) (ht : setDriving p d s = .ok t) :
    Good U P L t :=
  setDrivingVia_good resolve_puts h ht

theorem driveSda_good {e : Nat} {bit : Bool} {s t : State} (h : Good U P L s) (ht : driveSda e bit s = .ok t) :
    Good U P L t :=
  driveSdaVia_good resolve_puts h ht

theorem configurePin_good {p : Nat} {dir : Dir} {oc pu : Bool} {s t : State} (h : Good U P L s)
    (ht : configurePin p dir oc pu s = .ok t) : Good U P L t := by
  unfold configurePin at ht
  dsimp only at ht
  split at ht
  · cases ht; exact h
  · exact resolve_puts _ U P L _ t (fits_jobOf _ _)
      (h.setPin_same p { s.pin p with dir := dir, oc := oc, pu := pu } rfl rfl) ht

end

end Sys2Proof.Machine
end

