-- ==== Sys2Proof/Laws/Commands.lean ====
section
/-! SUPPORT. The bodies of the commands and the callbacks leave everything in order when they meet no fault. -/

namespace Sys2Proof.Machine

/-- With nothing else out of order, a resolution that fits leaves everything in order. -/
theorem resolve_allGood {j : Job} {s t : State} (hj : Fits s j) (h : Good (fun k => k = j) (fun _ _ => False) (fun _ _ _ => False) s)
    (ht : resolve j s = .ok t) : AllGood t :=
  resolve_puts j _ _ _ s t hj (h.mono (fun _ h' => .inr h') (fun _ _ h' => h') fun _ _ _ h' => h') ht

/-- Taking a pin out of order that is on a node is taking nothing out of order. -/
theorem Good.drop_pin {U U' : Job → Prop} {P : Nat → Nat → Prop} {L : Nat → Nat → Bool → Prop} {s : State}
    (h : Good U P L s) (p : Nat) (hp : (s.pin p).node ≠ none) (hU : ∀ j, U j → U' j ∨ j = .pin p) : Good U' P L s where
  shaped := h.shaped
  node := fun n hn hu => h.node n hn fun h' => (hU _ h').elim hu fun h'' => by cases h''
  pin := fun q hq hu => by
    by_cases hqp : q = p
    · subst hqp; exact fun h' => absurd h' hp
    · exact h.pin q hq fun h' => (hU _ h').elim hu fun h'' => hqp (by simpa using h'')
  settle := fun n hn hu => h.settle n hn fun h' => (hU _ h').elim hu fun h'' => by cases h''
  port := h.port
  scl := h.scl
  sda := h.sda

/-- A pin of the block holds what is written to it. -/
theorem Good.pin_self {U : Job → Prop} {P : Nat → Nat → Prop} {L : Nat → Nat → Bool → Prop} {s : State}
    (h : Good U P L s) (p : Nat) (hp : p < s.cfg.numPins) (x : Pin) : (s.setPin p x).pin p = x :=
  setPin_pin_self _ _ _ (by rw [h.shaped.pins]; exact hp)

theorem attachPin_good {p n : Nat} {s t : State} (h : AllGood s) (hp : p < s.cfg.numPins) (hn : n < s.cfg.numNodes)
    (ht : attachPin p n s = .ok t) : AllGood t := by
  unfold attachPin at ht
  dsimp only at ht
  split at ht
  · cases ht; exact h
  · have h1 := h.setPin p { s.pin p with node := some n } rfl fun m hm => by cases hm; exact hn
    have hself := h.pin_self p hp { s.pin p with node := some n }
    generalize s.setPin p { s.pin p with node := some n } = u at h1 hself ht
    obtain ⟨v, hv, ht⟩ := andThen_eq_ok ht
    cases hold : (s.pin p).node with
    | none =>
        rw [hold] at hv
        cases hv
        have h2 : Good (fun k => k = .node n) (fun _ _ => False) (fun _ _ _ => False) u :=
          h1.drop_pin p (by rw [hself]; simp) fun j hj => by
            rcases hj with hj | hj | hj
            · exact hj.elim
            · exact .inr (by simpa [jobOf, hold] using hj)
            · exact .inl hj
        exact resolve_allGood (j := .node n) trivial h2 ht
    | some m =>
        rw [hold] at hv
        have h2 : Good (fun k => k = .node n ∨ k = .node m) (fun _ _ => False) (fun _ _ _ => False) u :=
          h1.mono (fun j hj => by
            rcases hj with hj | hj | hj
            · exact hj.elim
            · exact .inr (by simpa [jobOf, hold] using hj)
            · exact .inl hj) (fun _ _ h' => h') fun _ _ _ h' => h'
        exact resolve_allGood (j := .node n) trivial (resolve_puts (.node m) _ _ _ _ _ trivial h2 hv) ht

theorem detachPin_good {p : Nat} {s t : State} (h : AllGood s) (hp : p < s.cfg.numPins) (ht : detachPin p s = .ok t) :
    AllGood t := by
  unfold detachPin at ht
  split at ht
  · cases ht; exact h
  · next m hm =>
    have h1 := h.setPin p { s.pin p with node := none } rfl fun m hm => by cases hm
    have hself := h.pin_self p hp { s.pin p with node := none }
    generalize s.setPin p { s.pin p with node := none } = u at h1 hself ht
    obtain ⟨v, hv, ht⟩ := andThen_eq_ok ht
    have h2 : Good (fun k => k = .pin p ∨ k = .node m) (fun _ _ => False) (fun _ _ _ => False) u :=
      h1.mono (fun j hj => by
        rcases hj with hj | hj | hj
        · exact hj.elim
        · exact .inr (by simpa [jobOf, hm] using hj)
        · exact .inl hj) (fun _ _ h' => h') fun _ _ _ h' => h'
    refine resolve_allGood (j := .pin p) ?_ (resolve_puts (.node m) _ _ _ _ _ trivial h2 hv) ht
    have hc := (resolve_casc (A := AnyNode) (.node m) u (nodesIn_any u) trivial).ok hv
    exact ((hc.pin_fixed p).1).trans (by rw [hself])

section
variable {U : Job → Prop} {P : Nat → Nat → Prop} {L : Nat → Nat → Bool → Prop}

theorem Good.setPort {s : State} (h : Good U P L s) (r : Nat) (x : Port) (hx : x.driven = (s.port r).driven) :
    Good U P L (s.setPort r x) :=
  h.transfer rfl (by simp) (fun _ => rfl) (fun _ => rfl) (fun _ => Iff.rfl)
    (fun q => by rcases setPort_port_cases s r q x with h' | ⟨rfl, h'⟩ <;> rw [h']; exact hx)
    fun _ => ⟨rfl, rfl, rfl, rfl, rfl⟩

theorem Good.onPins {α : Type} {f : State → α → State} (xs : List α) {s : State} (h : Good U P L s)
    (hf : ∀ x ∈ xs, ∀ u, u.cfg = s.cfg → Good U P L u → Good U P L (f u x) ∧ (f u x).cfg = s.cfg) :
    Good U P L (xs.foldl f s) ∧ (xs.foldl f s).cfg = s.cfg := by
  have key : ∀ (xs : List α) (u : State), u.cfg = s.cfg → Good U P L u →
      (∀ x ∈ xs, ∀ u, u.cfg = s.cfg → Good U P L u → Good U P L (f u x) ∧ (f u x).cfg = s.cfg) →
      Good U P L (xs.foldl f u) ∧ (xs.foldl f u).cfg = s.cfg := by
    intro xs
    induction xs with
    | nil => intro u hc hu _; exact ⟨hu, hc⟩
    | cons x xs ih =>
        intro u hc hu hf
        obtain ⟨h1, h2⟩ := hf x (by simp) u hc hu
        exact ih _ h2 h1 fun y hy => hf y (by simp [hy])
  exact key xs s rfl h hf

theorem reconcile_good {r : Nat} {s : State} (h : Good U P L s) : Good U P L (reconcile r s) :=
  (h.onPins (enabledBits s r) fun i hi u hc hu =>
    ⟨onPinChanged_good (by rw [enabledBits_congr hc]; exact hi) hu, (onPinChanged_fields r i u).1.trans hc⟩).1

theorem forEach_good {α : Type} {f : α → State → Res} (xs : List α) {s t : State} (h : Good U P L s)
    (hf : ∀ x ∈ xs, ∀ u v, Good U P L u → f x u = .ok v → Good U P L v) (ht : forEach f xs s = .ok t) : Good U P L t := by
  induction xs generalizing s with
  | nil => cases ht; exact h
  | cons x xs ih =>
      obtain ⟨u, hu, ht⟩ := andThen_eq_ok ht
      exact ih (hf x (by simp) s u h hu) (fun y hy => hf y (by simp [hy])) ht

theorem writePort_good {r : Nat} {v : Byte} {s t : State} (h : Good U P L s) (ht : writePort r v s = .ok t) :
    Good U P L t := by
  obtain ⟨u, hu, ht⟩ := andThen_eq_ok ht
  cases ht
  exact reconcile_good (forEach_good _ (h.setPort r { s.port r with driving := v } rfl)
    (fun i _ a b ha hb => setDriving_good ha hb) hu)

theorem twReset_good {e : Nat} {s t : State} (h : Good U P L s) (ht : twReset e s = .ok t) : Good U P L t := by
  unfold twReset at ht
  have h1 := (h.setEng e { s.eng e with state := .idle, bits := 0, shift := 0x00, ack := false, pend := none }
    ⟨rfl, rfl, rfl, rfl, rfl⟩).cancelEng e
  dsimp only at ht
  split at ht
  · exact driveSda_good h1 ht
  · cases ht; exact h1

/-- An engine that takes its present line values is in order; one that is not attached always is. -/
theorem latchLines_good {e : Nat} {s : State} (he : e < s.cfg.numEngines)
    (hp : (s.eng e).sclPin.toNat < s.cfg.numPins ∧ (s.eng e).sdaPin.toNat < s.cfg.numPins) (h : Good U P L s) :
    Good U P L (latchLines e (s.eng e).sclPin.toNat (s.eng e).sdaPin.toNat s) := by
  have hel : e < s.engines.length := by rw [h.shaped.engines]; exact he
  unfold latchLines
  generalize hg : ({ s.eng e with
    sclSeen := latchOf (s.pin (s.eng e).sclPin.toNat).driven, sdaSeen := latchOf (s.pin (s.eng e).sdaPin.toNat).driven,
    attached := true } : Engine) = g
  have hother : ∀ f, f ≠ e → (s.setEng e g).eng f = s.eng f := fun f hf => by
    rw [setEng_eng, if_neg fun h' => hf h'.1.symm]
  have hself : (s.setEng e g).eng e = g := setEng_eng_self _ _ _ hel
  have hl : ∀ (l : Level) (b : Bool), logic l = some b → latchOf l = b := fun l b hb => by simp [latchOf, hb]
  refine ⟨⟨h.shaped.pins, h.shaped.nodes, h.shaped.ports, ?_, h.shaped.nodeOf, fun f ha => ?_⟩,
    fun n hn hu => (h.node n hn hu).congr rfl (members_congr (s := s) (t := s.setEng e g) rfl n fun _ => Iff.rfl)
      (fun _ _ => rfl) rfl,
    fun p hp hu => (h.pin p hp hu).congr rfl rfl, h.settle, h.port, fun f hf ha hL b hb => ?_, fun f hf ha hL b hb => ?_⟩
  · rw [setEng_engines_length]; exact h.shaped.engines
  · by_cases hfe : f = e
    · subst hfe; rw [hself, ← hg]; exact hp
    · rw [hother f hfe] at ha ⊢; exact h.shaped.enginePins f ha
  · by_cases hfe : f = e
    · subst hfe
      rw [hself, ← hg] at hb ⊢
      exact hl _ _ hb
    · rw [hother f hfe] at ha hL hb ⊢
      exact h.scl f hf ha hL b hb
  · by_cases hfe : f = e
    · subst hfe
      rw [hself, ← hg] at hb ⊢
      exact hl _ _ hb
    · rw [hother f hfe] at ha hL hb ⊢
      exact h.sda f hf ha hL b hb

/-- Detaching an engine leaves nothing of it to hold. -/
theorem Good.unattach {s : State} (h : Good U P L s) (e : Nat) (g : Engine) (hg : g.attached = false) :
    Good U P L (s.setEng e g) := by
  have hcase := setEng_eng_cases s e
  refine ⟨⟨h.shaped.pins, h.shaped.nodes, h.shaped.ports, ?_, h.shaped.nodeOf, fun f ha => ?_⟩,
    fun n hn hu => (h.node n hn hu).congr rfl (members_congr (s := s) (t := s.setEng e g) rfl n fun _ => Iff.rfl)
      (fun _ _ => rfl) rfl,
    fun p hp hu => (h.pin p hp hu).congr rfl rfl, h.settle, h.port, fun f hf ha hL b hb => ?_, fun f hf ha hL b hb => ?_⟩
  · rw [setEng_engines_length]; exact h.shaped.engines
  · rcases hcase f g with h' | ⟨rfl, h'⟩ <;> rw [h'] at ha ⊢
    · exact h.shaped.enginePins f ha
    · rw [hg] at ha; cases ha
  · rcases hcase f g with h' | ⟨rfl, h'⟩ <;> rw [h'] at ha hL hb ⊢
    · exact h.scl f hf ha hL b hb
    · rw [hg] at ha; cases ha
  · rcases hcase f g with h' | ⟨rfl, h'⟩ <;> rw [h'] at ha hL hb ⊢
    · exact h.sda f hf ha hL b hb
    · rw [hg] at ha; cases ha

/-- The body of `TW_ATTACH`. -/
theorem attachEngine_good {e : Nat} {scl sda : Byte} {s t : State} (he : e < s.cfg.numEngines)
    (hscl : scl.toNat < s.cfg.numPins) (hsda : sda.toNat < s.cfg.numPins) (h : Good U P L s)
    (hcasc : ∀ u, twReset e s = .ok u → u.cfg = s.cfg)
    (ht : attachEngine e scl sda s = .ok t) : Good U P L t := by
  obtain ⟨u, hu, ht⟩ := andThen_eq_ok ht
  have hcfg := hcasc u hu
  have hg := twReset_good h hu
  have h1 := hg.unattach e { u.eng e with attached := false, sclPin := scl, sdaPin := sda } rfl
  have hself : (u.setEng e { u.eng e with attached := false, sclPin := scl, sdaPin := sda }).eng e
      = { u.eng e with attached := false, sclPin := scl, sdaPin := sda } :=
    setEng_eng_self _ _ _ (by rw [hg.shaped.engines, hcfg]; exact he)
  dsimp only at ht
  have hc1 : (u.setEng e { u.eng e with attached := false, sclPin := scl, sdaPin := sda }).cfg = s.cfg := hcfg
  have hs1 : ((u.setEng e { u.eng e with attached := false, sclPin := scl, sdaPin := sda }).eng e).sclPin = scl ∧
      ((u.setEng e { u.eng e with attached := false, sclPin := scl, sdaPin := sda }).eng e).sdaPin = sda := by
    rw [hself]; exact ⟨rfl, rfl⟩
  generalize u.setEng e { u.eng e with attached := false, sclPin := scl, sdaPin := sda } = v at h1 hc1 hs1 ht
  obtain ⟨w, hw, ht⟩ := andThen_eq_ok ht
  have h2 := configurePin_good h1 hw
  obtain ⟨z, hz, ht⟩ := andThen_eq_ok ht
  have h3 := configurePin_good h2 hz
  obtain ⟨y, hy, ht⟩ := andThen_eq_ok ht
  have h4 := (setDriving_good h3 hy).setEng e { y.eng e with sdaDrive := false } ⟨rfl, rfl, rfl, rfl, rfl⟩
  have hfix : ∀ {a b : State} {p : Nat} {d : Dir} {oc pu : Bool}, configurePin p d oc pu a = .ok b →
      b.cfg = a.cfg ∧ (b.eng e).sclPin = (a.eng e).sclPin ∧ (b.eng e).sdaPin = (a.eng e).sdaPin := by
    intro a b p d oc pu hab
    unfold configurePin at hab
    dsimp only at hab
    split at hab
    · cases hab; exact ⟨rfl, rfl, rfl⟩
    · have hc := (resolve_casc (A := AnyNode) _ (a.setPin p { a.pin p with dir := d, oc := oc, pu := pu }) (nodesIn_any _)
        (jobIn_any _)).ok hab
      obtain ⟨c1, -, c2, c3, -⟩ := Cascs.eng_fixed hc e
      exact ⟨c1, c2, c3⟩
  have hfixd : y.cfg = z.cfg ∧ (y.eng e).sclPin = (z.eng e).sclPin ∧ (y.eng e).sdaPin = (z.eng e).sdaPin := by
    unfold setDriving setDrivingVia at hy
    split at hy
    · cases hy; exact ⟨rfl, rfl, rfl⟩
    · have hc := (resolve_casc (A := AnyNode) _ (z.setPin sda.toNat { z.pin sda.toNat with drive := .digital .floating })
        (nodesIn_any _) (jobIn_any _)).ok hy
      obtain ⟨c1, -, c2, c3, -⟩ := Cascs.eng_fixed hc e
      exact ⟨c1, c2, c3⟩
  obtain ⟨a1, a2, a3⟩ := hfix hw
  obtain ⟨b1, b2, b3⟩ := hfix hz
  obtain ⟨c1, c2, c3⟩ := hfixd
  have hcy : y.cfg = s.cfg := c1.trans (b1.trans (a1.trans hc1))
  have hey : e < (y.setEng e { y.eng e with sdaDrive := false }).cfg.numEngines := by
    rw [setEng_cfg, hcy]; exact he
  have hself4 : (y.setEng e { y.eng e with sdaDrive := false }).eng e = { y.eng e with sdaDrive := false } :=
    setEng_eng_self _ _ _ (by
      have := h4.shaped.engines
      rw [setEng_engines_length] at this
      rw [this]; exact hey)
  have hp1 : ((y.setEng e { y.eng e with sdaDrive := false }).eng e).sclPin = scl := by
    rw [hself4]; exact c2.trans (b2.trans (a2.trans hs1.1))
  have hp2 : ((y.setEng e { y.eng e with sdaDrive := false }).eng e).sdaPin = sda := by
    rw [hself4]; exact c3.trans (b3.trans (a3.trans hs1.2))
  have := latchLines_good hey (by rw [hp1, hp2, setEng_cfg, hcy]; exact ⟨hscl, hsda⟩) h4
  rw [hp1, hp2] at this
  injection ht with ht
  rw [← ht]
  exact this

/-! ### Callbacks -/

theorem loadTx_good {e : Nat} {s t : State} (h : Good U P L s) (ht : loadTx e s = .ok t) : Good U P L t := by
  obtain ⟨u, hu, ht⟩ := andThen_eq_ok ht
  cases ht
  refine Good.setEng (driveSda_good (h.setEng e
    { s.eng e with periph := (s.eng e).periph ++ [.tx], shift := Config.txByte e (s.eng e).periph, bits := 0 } ?_) hu) e _ ?_
  all_goals exact ⟨rfl, rfl, rfl, rfl, rfl⟩

/-- Every row of the transition table leaves in order what was. -/
theorem edgeRow_good {e : Nat} {edge : Edge} {sda : Bool} {s t : State} (h : Good U P L s)
    (ht : edgeRow e edge sda s = .ok t) : Good U P L t := by
  have put : ∀ {u : State} (g : Engine), Good U P L u → g.attached = (u.eng e).attached ∧ g.sclPin = (u.eng e).sclPin ∧
      g.sdaPin = (u.eng e).sdaPin ∧ g.sclSeen = (u.eng e).sclSeen ∧ g.sdaSeen = (u.eng e).sdaSeen →
      Good U P L (u.setEng e g) := fun g hu hg => hu.setEng e g hg
  unfold edgeRow at ht
  split at ht
  · cases ht; exact h.diag _ _ _
  · cases ht; exact h
  · cases ht; exact h
  · unfold rowRxAddressRise at ht
    dsimp only at ht
    repeat' split at ht
    all_goals cases ht
    all_goals first
      | exact h
      | exact h.setEng e _ ⟨rfl, rfl, rfl, rfl, rfl⟩
      | (refine Good.diag (h.setEng e _ ?_) _ _ _; exact ⟨rfl, rfl, rfl, rfl, rfl⟩)
  · cases ht; exact h
  · cases ht; exact h
  · unfold rowAckAddressFall at ht
    dsimp only at ht
    split at ht
    · obtain ⟨u, hu, ht⟩ := andThen_eq_ok ht
      cases ht
      exact (driveSda_good h hu).setEng e _ ⟨rfl, rfl, rfl, rfl, rfl⟩
    · split at ht
      · split at ht
        · exact loadTx_good h ht
        · obtain ⟨u, hu, ht⟩ := andThen_eq_ok ht
          cases ht
          exact (driveSda_good h hu).setEng e _ ⟨rfl, rfl, rfl, rfl, rfl⟩
      · cases ht; exact h
  · unfold rowRxDataRise at ht
    dsimp only at ht
    repeat' split at ht
    all_goals cases ht
    all_goals first
      | exact h
      | exact h.setEng e _ ⟨rfl, rfl, rfl, rfl, rfl⟩
  · cases ht; exact h
  · cases ht; exact h
  · obtain ⟨u, hu, ht⟩ := andThen_eq_ok ht
    cases ht
    exact (driveSda_good h hu).setEng e _ ⟨rfl, rfl, rfl, rfl, rfl⟩
  · cases ht; exact h
  · obtain ⟨u, hu, ht⟩ := andThen_eq_ok ht
    split at ht <;> cases ht
    all_goals exact (driveSda_good h hu).setEng e _ ⟨rfl, rfl, rfl, rfl, rfl⟩
  · cases ht; exact h
  · unfold rowAckReadRise at ht
    dsimp only at ht
    repeat' split at ht
    all_goals cases ht
    all_goals first
      | exact h
      | exact h.setEng e _ ⟨rfl, rfl, rfl, rfl, rfl⟩
  · unfold rowAckReadFall at ht
    split at ht
    · exact loadTx_good h ht
    · cases ht; exact h
  · unfold rowTxDataRise at ht
    dsimp only at ht
    split at ht <;> cases ht
    · refine Good.draws (h.setEng e _ ?_) _; exact ⟨rfl, rfl, rfl, rfl, rfl⟩
    · exact h.setEng e _ ⟨rfl, rfl, rfl, rfl, rfl⟩
  · unfold rowTxDataFall at ht
    dsimp only at ht
    split at ht
    · obtain ⟨u, hu, ht⟩ := andThen_eq_ok ht
      cases ht
      exact (driveSda_good h hu).setEng e _ ⟨rfl, rfl, rfl, rfl, rfl⟩
    · split at ht
      · exact driveSda_good h ht
      · cases ht; exact h

end

/-- Firing an entry of the block leaves everything in order. -/
theorem fire_good {x : Entry} {s t : State} (h : AllGood s) (hx : x ∈ s.pending) (hin : x.owner.inBlock s.cfg)
    (ht : fire x s = .ok t) : AllGood t := by
  have htime : ∀ {U : Job → Prop} {P : Nat → Nat → Prop} {L : Nat → Nat → Bool → Prop} {u : State} (c : Cycle),
      Good U P L u → Good U P L { u with cycle := c } := fun c hu =>
    hu.transfer rfl ⟨rfl, rfl, rfl, rfl⟩ (fun _ => rfl) (fun _ => rfl) (fun _ => Iff.rfl) (fun _ => rfl)
      fun _ => ⟨rfl, rfl, rfl, rfl, rfl⟩
  unfold fire callback at ht
  split at ht
  · next e he =>
    have h1 : AllGood (startFiring x s) := by
      unfold startFiring
      rw [he]
      exact htime _ (h.cancelEng e)
    unfold engCallback at ht
    dsimp only at ht
    have h2 := h1.setEng e { (startFiring x s).eng e with pend := none } ⟨rfl, rfl, rfl, rfl, rfl⟩
    split at ht
    · cases ht; exact h2
    · exact edgeRow_good h2 ht
  · next n hn =>
    rw [hn] at hin
    have hsync : ((startFiring x s).node n).settling = true := (h.settle n hin id).mp ⟨x, hx, hn⟩
    refine resolve_settle_good (s := startFiring x s) (U := fun _ => False) ?_ id hin hsync ht
    have h0 : Good (fun j => False ∨ j = .settle n) (fun _ _ => False) (fun _ _ _ => False) (cancel (.node n) s) := by
      refine ⟨h.shaped.of_same rfl ⟨rfl, rfl, rfl, rfl⟩ (fun _ => rfl) fun _ => ⟨rfl, rfl, rfl⟩,
        fun m hm _ => (h.node m hm id).congr rfl (members_congr (s := s) (t := cancel (.node n) s) rfl m fun _ => Iff.rfl)
          (fun _ _ => rfl) rfl,
        fun p hp _ => (h.pin p hp id).congr rfl rfl, fun m hm hu => ?_, fun r hr i hi _ => h.port r hr i hi id,
        fun e he ha _ => h.scl e he ha id, fun e he ha _ => h.sda e he ha id⟩
      have hmn : m ≠ n := fun h' => hu (.inr (by rw [h']))
      rw [hasEntry_cancel]
      have := h.settle m hm id
      simp [hmn, this]
    unfold startFiring
    rw [hn]
    exact htime _ h0

end Sys2Proof.Machine
end

