-- ==== Sys2Proof/Laws/Pending.lean ====
section
/-! SUPPORT. The pending callbacks through cascades and callbacks: one entry per owner, in the order of scheduling, none in the
past; an engine's edge waits exactly while its entry does; and how many entries there can be. -/

namespace Sys2Proof.Machine

theorem PendingOk.base {s : State} (h : PendingOk s) : PendingBase s :=
  ⟨h.owners, h.seqs, h.below, h.inBlock, fun hf x hx => (h.later hf x hx).le⟩

/-- The nodes of a block. -/
abbrev InNodes (c : Config) : Nat → Prop := fun n => n < c.numNodes

theorem Shaped.nodesIn {s : State} (h : Shaped s) : NodesIn (InNodes s.cfg) s := h.nodeOf

theorem PendingBase.of_same {s t : State} (h : PendingBase s) (hc : t.cfg = s.cfg) (hp : t.pending = s.pending)
    (hn : t.nextSeq = s.nextSeq) (hy : t.cycle = s.cycle) (hf : t.faultCode = s.faultCode) : PendingBase t := by
  refine ⟨?_, ?_, ?_, ?_, ?_⟩
  · rw [hp]; exact h.owners
  · rw [hp]; exact h.seqs
  · rw [hp, hn]; exact h.below
  · rw [hp, hc]; exact h.inBlock
  · rw [hp, hy, hf]; exact h.notPast

theorem PendingBase.cancel {s : State} (h : PendingBase s) (o : Owner) : PendingBase (cancel o s) where
  owners := h.owners.filter _
  seqs := h.seqs.filter _
  below := fun x hx => h.below x (List.mem_filter.mp hx).1
  inBlock := fun x hx => h.inBlock x (List.mem_filter.mp hx).1
  notPast := fun hf x hx => h.notPast hf x (List.mem_filter.mp hx).1

theorem toNat_ofNat_due {due : Nat} (h : due ≤ maxCycle) : (BitVec.ofNat 64 due).toNat = due := by
  rw [BitVec.toNat_ofNat]
  exact Nat.mod_eq_of_lt (by unfold maxCycle at h; omega)

theorem PendingBase.scheduled {s : State} (h : PendingBase s) (o : Owner) (due : Nat) (ho : o.inBlock s.cfg)
    (lo : s.cycle.toNat < due) (hi : due ≤ maxCycle) : PendingBase (scheduled o due s) where
  owners := by
    refine List.pairwise_append.mpr ⟨(h.cancel o).owners, by simp, fun x hx y hy => ?_⟩
    rw [List.mem_singleton] at hy
    subst hy
    simpa using (List.mem_filter.mp hx).2
  seqs := by
    refine List.pairwise_append.mpr ⟨(h.cancel o).seqs, by simp, fun x hx y hy => ?_⟩
    rw [List.mem_singleton] at hy
    subst hy
    exact (h.cancel o).below x hx
  below := fun x hx => by
    change x.seq < s.nextSeq + 1
    rcases List.mem_append.mp hx with hx | hx
    · exact Nat.lt_succ_of_lt ((h.cancel o).below x hx)
    · rw [List.mem_singleton] at hx; subst hx; exact Nat.lt_succ_self _
  inBlock := fun x hx => by
    rcases List.mem_append.mp hx with hx | hx
    · exact (h.cancel o).inBlock x hx
    · rw [List.mem_singleton] at hx; subst hx; exact ho
  notPast := fun hf x hx => by
    change s.cycle.toNat ≤ x.due.toNat
    rcases List.mem_append.mp hx with hx | hx
    · exact (h.cancel o).notPast hf x hx
    · rw [List.mem_singleton] at hx; subst hx
      rw [toNat_ofNat_due hi]
      omega

theorem PendingBase.casc {s t : State} (h : PendingBase s) (hc : Casc (InNodes s.cfg) s t) : PendingBase t := by
  cases hc with
  | settleAt n due hn lo hi => exact h.scheduled _ _ hn lo hi
  | cancelNode n => exact h.cancel _
  | edge e b he ha hi =>
      refine PendingBase.scheduled (s := edgeLatch e b s) (h.of_same rfl rfl rfl rfl rfl) _ _ he (Nat.lt_succ_self _) hi
  | drop e he ha => exact (h.cancel _).of_same rfl rfl rfl rfl rfl
  | _ => exact h.of_same rfl rfl rfl rfl rfl

theorem PendingBase.act {E : Nat → Prop} {s t : State} (h : PendingBase s) (hc : Act (InNodes s.cfg) E s t) : PendingBase t := by
  cases hc with
  | casc hc => exact h.casc hc
  | _ => exact h.of_same rfl rfl rfl rfl rfl

theorem PendingBase.cascs {c : Config} {s t : State} (h : PendingBase s) (hs : s.cfg = c) (hc : Cascs (InNodes c) s t) :
    PendingBase t := by
  subst hs
  have : PendingBase t ∧ t.cfg = s.cfg := by
    induction hc with
    | refl => exact ⟨h, rfl⟩
    | tail _ hc ih => exact ⟨ih.1.casc (by rw [ih.2]; exact hc), hc.globals.1.trans ih.2⟩
  exact this.1

theorem Act.globals {A E : Nat → Prop} {s t : State} (h : Act A E s t) :
    t.cfg = s.cfg ∧ t.stream = s.stream ∧ t.cycle = s.cycle ∧ t.outLog = s.outLog ∧ t.cp = s.cp ∧
      t.faultCode = s.faultCode ∧ t.faultWord = s.faultWord ∧ t.faultCycle = s.faultCycle := by
  cases h with
  | casc h => exact h.globals
  | _ => exact ⟨rfl, rfl, rfl, rfl, rfl, rfl, rfl, rfl⟩

theorem Acts.globals {A E : Nat → Prop} {s t : State} (h : Acts A E s t) :
    t.cfg = s.cfg ∧ t.stream = s.stream ∧ t.cycle = s.cycle ∧ t.outLog = s.outLog ∧ t.cp = s.cp ∧
      t.faultCode = s.faultCode ∧ t.faultWord = s.faultWord ∧ t.faultCycle = s.faultCycle := by
  induction h with
  | refl => simp
  | tail _ hc ih =>
      obtain ⟨a1, a2, a3, a4, a5, a6, a7, a8⟩ := hc.globals
      obtain ⟨b1, b2, b3, b4, b5, b6, b7, b8⟩ := ih
      exact ⟨a1.trans b1, a2.trans b2, a3.trans b3, a4.trans b4, a5.trans b5, a6.trans b6, a7.trans b7, a8.trans b8⟩

theorem PendingBase.acts {E : Nat → Prop} {c : Config} {s t : State} (h : PendingBase s) (hs : s.cfg = c) (hc : Acts (InNodes c) E s t) :
    PendingBase t := by
  subst hs
  have : PendingBase t ∧ t.cfg = s.cfg := by
    induction hc with
    | refl => exact ⟨h, rfl⟩
    | tail _ hc ih => exact ⟨ih.1.act (by rw [ih.2]; exact hc), hc.globals.1.trans ih.2⟩
  exact this.1

/-- What a fault leaves beside its record: the pending callbacks, the parameters, the counter and the logs. -/
theorem HaltOf.fields {u t : State} (h : HaltOf u t) :
    t.cfg = u.cfg ∧ t.stream = u.stream ∧ t.cycle = u.cycle ∧ t.outLog = u.outLog ∧ t.cp = u.cp ∧ t.pending = u.pending ∧
      t.nextSeq = u.nextSeq ∧ t.faultWord = wordAtCp u ∧ t.faultCycle = u.cycle ∧ t.depth = 0 ∧ t.diagLog = u.diagLog ∧
      (t.faultCode = FaultCode.notifyDepth.code ∨ t.faultCode = FaultCode.cycleOverflow.code) := by
  rcases h with rfl | rfl | ⟨e, b, -, -, rfl⟩
  · exact ⟨rfl, rfl, rfl, rfl, rfl, rfl, rfl, rfl, rfl, rfl, rfl, .inl rfl⟩
  · exact ⟨rfl, rfl, rfl, rfl, rfl, rfl, rfl, rfl, rfl, rfl, rfl, .inr rfl⟩
  · exact ⟨rfl, rfl, rfl, rfl, rfl, rfl, rfl, rfl, rfl, rfl, rfl, .inr rfl⟩

theorem HaltOf.faulted {u t : State} (h : HaltOf u t) : t.faultCode ≠ 0 := by
  rcases h.fields.2.2.2.2.2.2.2.2.2.2.2 with h | h <;> rw [h] <;> decide

theorem PendingBase.halt {u t : State} (h : PendingBase u) (ht : HaltOf u t) : PendingBase t := by
  obtain ⟨h1, -, -, -, -, h6, h7, -⟩ := ht.fields
  refine ⟨?_, ?_, ?_, ?_, fun hf => absurd hf ht.faulted⟩
  · rw [h6]; exact h.owners
  · rw [h6]; exact h.seqs
  · rw [h6, h7]; exact h.below
  · rw [h6, h1]; exact h.inBlock

/-- A halted block has nothing to say of when its entries are due. -/
theorem PendingBase.ok_of_fault {s : State} (h : PendingBase s) (hf : s.faultCode ≠ 0) : PendingOk s :=
  ⟨h.owners, h.seqs, h.below, h.inBlock, fun h' => absurd h' hf⟩

/-! ### When entries are due -/

/-- An entry of a state after some small writes is an old one or due later than the counter. -/
theorem Casc.due {A : Nat → Prop} {s t : State} (hc : Casc A s t) : ∀ x ∈ t.pending, x ∈ s.pending ∨ s.cycle.toNat < x.due.toNat := by
  have sched : ∀ (u : State) (o : Owner) (due : Nat), u.pending = s.pending → s.cycle.toNat < due → due ≤ maxCycle →
      ∀ x ∈ (scheduled o due u).pending, x ∈ s.pending ∨ s.cycle.toNat < x.due.toNat := by
    intro u o due hu lo hi x hx
    rcases List.mem_append.mp hx with hx | hx
    · exact .inl (hu ▸ (List.mem_filter.mp hx).1)
    · rw [List.mem_singleton] at hx; subst hx
      right
      rw [toNat_ofNat_due hi]
      exact lo
  cases hc with
  | settleAt n due hn lo hi => exact sched s _ _ rfl lo hi
  | edge e b he ha hi => exact sched (edgeLatch e b s) _ _ rfl (Nat.lt_succ_self _) hi
  | cancelNode n => exact fun x hx => .inl (List.mem_filter.mp hx).1
  | drop e he ha => exact fun x hx => .inl (List.mem_filter.mp hx).1
  | _ => exact fun x hx => .inl hx

theorem Acts.due {A E : Nat → Prop} {s t : State} (hc : Acts A E s t) :
    ∀ x ∈ t.pending, x ∈ s.pending ∨ s.cycle.toNat < x.due.toNat := by
  induction hc with
  | refl => exact fun x hx => .inl hx
  | @tail v w hb hc ih =>
      intro x hx
      have hstep : x ∈ v.pending ∨ v.cycle.toNat < x.due.toNat := by
        cases hc with
        | casc hc => exact hc.due x hx
        | row e g h => exact .inl hx
        | drive e bit => exact .inl hx
      rcases hstep with h | h
      · exact ih x h
      · rw [(Acts.globals hb).2.2.1] at h; exact .inr h

/-- There are at most as many entries as owners. -/
theorem PendingBase.length_le {s : State} (h : PendingBase s) : s.pending.length ≤ s.cfg.numEngines + s.cfg.numNodes := by
  have hnd : (s.pending.map Entry.owner).Nodup := List.pairwise_map.mpr h.owners
  have hsub : s.pending.map Entry.owner ⊆ (List.range s.cfg.numEngines).map Owner.eng ++ (List.range s.cfg.numNodes).map Owner.node := by
    intro o ho
    obtain ⟨x, hx, rfl⟩ := List.mem_map.mp ho
    have := h.inBlock x hx
    cases hxo : x.owner with
    | eng e => rw [hxo] at this; simpa [Owner.inBlock] using this
    | node n => rw [hxo] at this; simpa [Owner.inBlock] using this
  have := (List.subperm_of_subset hnd hsub).length_le
  simpa using this

/-! ### Edges and bus states -/

/-- An engine's edge waits exactly while its entry does. -/
def EdgesHeld (s : State) : Prop :=
  ∀ e, e < s.cfg.numEngines → ((s.eng e).pend ≠ none ↔ hasEntry s (.eng e))

theorem EdgesHeld.of_same {s t : State} (h : EdgesHeld s) (hc : t.cfg = s.cfg)
    (hp : ∀ e, (t.eng e).pend = (s.eng e).pend) (he : ∀ e, hasEntry t (.eng e) ↔ hasEntry s (.eng e)) : EdgesHeld t := by
  intro e hlt
  rw [hp, he]
  exact h e (by rwa [hc] at hlt)

theorem EdgesHeld.casc {A : Nat → Prop} {s t : State} (hl : s.engines.length = s.cfg.numEngines) (h : EdgesHeld s)
    (hc : Casc A s t) : EdgesHeld t := by
  cases hc with
  | settleAt n due hn lo hi => exact h.of_same rfl (fun _ => rfl) fun e => by simp [hasEntry_scheduled]
  | cancelNode n => exact h.of_same rfl (fun _ => rfl) fun e => by simp [hasEntry_cancel]
  | eng e he ha g hg =>
      refine h.of_same rfl (fun f => ?_) fun _ => Iff.rfl
      rcases setEng_eng_cases s e f g with h' | ⟨rfl, h'⟩ <;> rw [h']
      exact hg.pend
  | edge e b he ha hi =>
      intro f hf
      rw [hasEntry_scheduled]
      have heq : (scheduled (.eng e) (s.cycle.toNat + 1) (edgeLatch e b s)).eng f = (edgeLatch e b s).eng f := rfl
      rw [heq, show hasEntry (edgeLatch e b s) (.eng f) ↔ hasEntry s (.eng f) from Iff.rfl, edgeLatch, setEng_eng]
      by_cases hef : e = f
      · subst hef
        rw [if_pos ⟨rfl, by rw [hl]; exact he⟩]
        simp
      · rw [if_neg fun h' => hef h'.1]
        have := h f hf
        simp [this, Ne.symm hef]
  | drop e he ha =>
      intro f hf
      have heq : (dropEdge e s).eng f = (s.setEng e { s.eng e with pend := none }).eng f := rfl
      rw [heq, show hasEntry (dropEdge e s) (.eng f) ↔ hasEntry (cancel (.eng e) s) (.eng f) from Iff.rfl, hasEntry_cancel,
        setEng_eng]
      by_cases hef : e = f
      · subst hef
        rw [if_pos ⟨rfl, by rw [hl]; exact he⟩]
        simp
      · rw [if_neg fun h' => hef h'.1]
        have := h f hf
        simp [this, Ne.symm hef]
  | _ => exact h.of_same rfl (fun _ => rfl) fun _ => Iff.rfl

theorem EdgesHeld.act {A E : Nat → Prop} {s t : State} (hl : s.engines.length = s.cfg.numEngines) (h : EdgesHeld s)
    (hc : Act A E s t) : EdgesHeld t := by
  cases hc with
  | casc hc => exact h.casc hl hc
  | row e g hg =>
      refine h.of_same rfl (fun f => ?_) fun _ => Iff.rfl
      rcases setEng_eng_cases s e f g with h' | ⟨rfl, h'⟩ <;> rw [h']
      exact hg.pend
  | drive e bit => exact h.of_same rfl (fun _ => rfl) fun _ => Iff.rfl

theorem Act.engines_length {A E : Nat → Prop} {s t : State} (hc : Act A E s t) : t.engines.length = s.engines.length := by
  cases hc with
  | casc hc => exact hc.lengths.2.2.2
  | row e g h => simp
  | drive e bit => rfl

theorem EdgesHeld.acts {A E : Nat → Prop} {s t : State} (hl : s.engines.length = s.cfg.numEngines) (h : EdgesHeld s)
    (hc : Acts A E s t) : EdgesHeld t := by
  have : EdgesHeld t ∧ t.engines.length = t.cfg.numEngines := by
    induction hc with
    | refl => exact ⟨h, hl⟩
    | tail _ hc ih => exact ⟨ih.1.act ih.2 hc, by rw [hc.engines_length, ih.2, hc.globals.1]⟩
  exact this.1

theorem EdgesHeld.cascs {A : Nat → Prop} {s t : State} (hl : s.engines.length = s.cfg.numEngines) (h : EdgesHeld s)
    (hc : Cascs A s t) : EdgesHeld t :=
  h.acts (E := fun _ => False) hl (Relation.ReflTransGen.mono (fun _ _ => Act.casc) _ _ hc)

theorem StatesEntered.act {A E : Nat → Prop} {s t : State} (h : StatesEntered s) (hc : Act A E s t) : StatesEntered t := by
  intro f
  have put : ∀ (u : State) (e : Nat) (g : Engine), (∀ f, u.eng f = s.eng f) →
      (g.state = (s.eng e).state ∨ (g.state ≠ .start ∧ g.state ≠ .writePending)) →
      ((u.setEng e g).eng f).state ≠ .start ∧ ((u.setEng e g).eng f).state ≠ .writePending := by
    intro u e g hu hg
    rcases setEng_eng_cases u e f g with h' | ⟨rfl, h'⟩ <;> rw [h']
    · rw [hu]; exact h f
    · rcases hg with hg | hg
      · rw [hg]; exact h e
      · exact hg
  cases hc with
  | row e g hg => exact put s e g (fun _ => rfl) hg.state
  | drive e bit => exact h f
  | casc hc =>
      cases hc with
      | eng e he ha g hg =>
          refine put s e g (fun _ => rfl) (hg.state.imp id ?_)
          rintro (h' | h') <;> rw [h'] <;> decide
      | edge e b he ha hi => exact put s e _ (fun _ => rfl) (.inl rfl)
      | drop e he ha => exact put (cancel (.eng e) s) e _ (fun _ => rfl) (.inl rfl)
      | _ => exact h f

theorem DisabledBitsDefault.act {A E : Nat → Prop} {s t : State} (h : DisabledBitsDefault s) (hc : Act A E s t) :
    DisabledBitsDefault t := by
  have keep : t.cfg = s.cfg → (∀ r i, i < 8 → (s.portCfg r).enable.getLsbD i = false →
      (t.port r).driven.getLsbD i = (s.port r).driven.getLsbD i) → DisabledBitsDefault t := by
    intro hcfg hp r hr i hi hen
    have hpc : t.portCfg r = s.portCfg r := by simp only [State.portCfg, hcfg]
    rw [hpc] at hen ⊢
    rw [hp r i hi hen]
    exact h r (by rwa [hcfg] at hr) i hi hen
  refine keep hc.globals.1 fun r i hi hen => ?_
  cases hc with
  | row e g hg => rfl
  | drive e bit => rfl
  | casc hc =>
      cases hc with
      | port q j b hj =>
          rcases setPort_port_cases s q r { s.port q with driven := setBit (s.port q).driven j b } with h' | ⟨rfl, h'⟩
          · rw [h']
          · rw [h', setBit_getLsbD _ _ _ _ (enabledBits_lt hj), if_neg]
            rintro rfl
            rw [(mem_enabledBits.mp hj).2] at hen
            cases hen
      | _ => rfl

end Sys2Proof.Machine
end

