-- ==== Sys2Proof/Laws/Advance.lean ====
section
/-! SUPPORT. Everything `AdvanceTo` can do, said once: it fires the due entries in order, each from the state the one before left,
until none is due, or until one faults; and its fuel is never used up. -/

namespace Sys2Proof.Machine

/-- One firing of `AdvanceTo(target)` that meets no fault. -/
def Fires (target : Cycle) (s t : State) : Prop :=
  ∃ x, nextDue target s = some x ∧ fire x s = .ok t

theorem Shaped.act {A E : Nat → Prop} {s t : State} (hs : Shaped s) (hc : Act A E s t) : Shaped t := by
  refine hs.of_same hc.globals.1 ?_ (fun p => (hc.pin_fixed p).2.1) fun e => ?_
  · cases hc with
    | casc hc => exact hc.lengths
    | row e g h => simp
    | drive e bit => simp
  · cases hc with
    | casc hc => exact ⟨(hc.eng_fixed e).2.1, (hc.eng_fixed e).2.2.1, (hc.eng_fixed e).2.2.2.1⟩
    | row f g h =>
        rcases setEng_eng_cases s f e g with h' | ⟨rfl, h'⟩ <;> rw [h']
        · exact ⟨rfl, rfl, rfl⟩
        · exact ⟨h.attached, h.sclPin, h.sdaPin⟩
    | drive f bit => exact ⟨rfl, rfl, rfl⟩

theorem Shaped.acts {A E : Nat → Prop} {s t : State} (hs : Shaped s) (hc : Acts A E s t) : Shaped t :=
  Acts.keeps (fun _ _ h hs => hs.act h) hc hs

/-- The state a firing starts from, field by field. -/
theorem beginFiring_fields (x : Entry) (s : State) :
    (beginFiring x s).cfg = s.cfg ∧ (beginFiring x s).stream = s.stream ∧ (beginFiring x s).cycle = x.due ∧
      (beginFiring x s).outLog = s.outLog ∧ (beginFiring x s).cp = s.cp ∧ (beginFiring x s).faultCode = s.faultCode ∧
      (beginFiring x s).faultWord = s.faultWord ∧ (beginFiring x s).faultCycle = s.faultCycle ∧
      (beginFiring x s).pending = (cancel x.owner s).pending ∧ (beginFiring x s).nextSeq = s.nextSeq ∧
      (beginFiring x s).pins = s.pins ∧ (beginFiring x s).nodes = s.nodes ∧ (beginFiring x s).ports = s.ports ∧
      (beginFiring x s).diagLog = s.diagLog ∧ (beginFiring x s).depth = s.depth := by
  unfold beginFiring
  split <;> exact ⟨rfl, rfl, rfl, rfl, rfl, rfl, rfl, rfl, rfl, rfl, rfl, rfl, rfl, rfl, rfl⟩

theorem beginFiring_eng (x : Entry) (s : State) (e : Nat) :
    (beginFiring x s).eng e = s.eng e ∨ (beginFiring x s).eng e = { s.eng e with pend := none } := by
  unfold beginFiring
  split
  · next f hf =>
    rcases setEng_eng_cases (startFiring x s) f e { s.eng f with pend := none } with h | ⟨rfl, h⟩
    · exact .inl h
    · exact .inr h
  · exact .inl rfl

theorem Shaped.begin {s : State} (hs : Shaped s) (x : Entry) : Shaped (beginFiring x s) := by
  obtain ⟨h1, -, -, -, -, -, -, -, -, -, h11, h12, h13, -⟩ := beginFiring_fields x s
  refine hs.of_same h1 ⟨by rw [h11], by rw [h12], by rw [h13], ?_⟩ (fun p => by simp only [State.pin, h11]) fun e => ?_
  · unfold beginFiring
    split
    · simp [startFiring]
    · rfl
  · rcases beginFiring_eng x s e with h | h <;> rw [h] <;> exact ⟨rfl, rfl, rfl⟩

theorem PendingBase.begin {s : State} (h : PendingBase s) (x : Entry)
    (hx : ∀ y ∈ s.pending, x.due.toNat ≤ y.due.toNat) : PendingBase (beginFiring x s) := by
  obtain ⟨h1, -, h3, -, -, h6, -, -, h9, h10, -⟩ := beginFiring_fields x s
  have hc := h.cancel x.owner
  refine ⟨?_, ?_, ?_, ?_, ?_⟩
  · rw [h9]; exact hc.owners
  · rw [h9]; exact hc.seqs
  · rw [h9, h10]; exact hc.below
  · rw [h9, h1]; exact hc.inBlock
  · rw [h9, h3]
    exact fun _ y hy => hx y (List.mem_filter.mp hy).1

theorem nextDue_le {target : Cycle} {s : State} {x : Entry} (h : nextDue target s = some x) :
    ∀ y ∈ s.pending, x.due.toNat ≤ y.due.toNat := fun y hy => by
  rcases (nextDue_some h).2.2 y hy with h' | h' <;> omega

/-- A firing that meets no fault: the block goes on, the counter at the entry's due cycle, and what is pending was pending,
but for the entry, or is due later. -/
theorem Ready.fired {target : Cycle} {s t : State} {x : Entry} (hs : Ready s) (hx : nextDue target s = some x)
    (ht : fire x s = .ok t) :
    Ready t ∧ t.cfg = s.cfg ∧ t.stream = s.stream ∧ t.outLog = s.outLog ∧ t.cp = s.cp ∧ t.faultWord = s.faultWord ∧
      t.faultCycle = s.faultCycle ∧ t.cycle = x.due ∧
      ∀ y ∈ t.pending, (y ∈ s.pending ∧ y.owner ≠ x.owner) ∨ x.due.toNat < y.due.toNat := by
  obtain ⟨hmem, -, -⟩ := nextDue_some hx
  obtain ⟨h1, h2, h3, h4, h5, h6, h7, h8, h9, h10, -⟩ := beginFiring_fields x s
  have hin := hs.pending.inBlock x hmem
  have hact : Acts (InNodes s.cfg) (FiredBy x) (beginFiring x s) t := by
    have := fire_act (A := InNodes s.cfg) x s hs.shaped.nodesIn (by
      cases ho : x.owner with
      | eng e => rw [ho] at hin; exact hin
      | node n => rw [ho] at hin; exact hin)
    rw [ht] at this
    exact this
  obtain ⟨g1, g2, g3, g4, g5, g6, g7, g8⟩ := Acts.globals hact
  have hp := (hs.pending.begin x (nextDue_le hx)).acts h1 hact
  refine ⟨⟨(hs.shaped.begin x).acts hact, hp, by rw [g6, h6]; exact hs.running⟩, g1.trans h1, g2.trans h2, g4.trans h4,
    g5.trans h5, g7.trans h7, g8.trans h8, g3.trans h3, fun y hy => ?_⟩
  rcases Acts.due hact y hy with h | h
  · rw [h9] at h
    obtain ⟨ha, hb⟩ := List.mem_filter.mp h
    exact .inl ⟨ha, by simpa using hb⟩
  · rw [h3] at h; exact .inr h

/-- A firing that faults: the record is written from wherever the callback stood, at the entry's due cycle, and no entry of
another owner is lost to it. -/
theorem Ready.fire_halt {target : Cycle} {s t : State} {x : Entry} (hs : Ready s) (hx : nextDue target s = some x)
    (ht : fire x s = .halt t) :
    ∃ u, Acts (InNodes s.cfg) (FiredBy x) (beginFiring x s) u ∧ HaltOf u t ∧ Shaped u ∧ PendingBase u := by
  obtain ⟨hmem, -, -⟩ := nextDue_some hx
  have hin := hs.pending.inBlock x hmem
  have := fire_act (A := InNodes s.cfg) x s hs.shaped.nodesIn (by
    cases ho : x.owner with
    | eng e => rw [ho] at hin; exact hin
    | node n => rw [ho] at hin; exact hin)
  rw [ht] at this
  obtain ⟨u, hu, hut⟩ := this
  exact ⟨u, hu, hut, (hs.shaped.begin x).acts hu,
    (hs.pending.begin x (nextDue_le hx)).acts (beginFiring_fields x s).1 hu⟩

/-- The entries due at or before the counter. -/
def dueNow (s : State) : List Entry :=
  s.pending.filter fun y => decide (y.due.toNat ≤ s.cycle.toNat)

/-- What the firings of `AdvanceTo(target)` count down. -/
def toFire (target : Cycle) (s : State) : Nat :=
  (s.cfg.numEngines + s.cfg.numNodes) * (target.toNat - s.cycle.toNat) + (dueNow s).length

theorem PendingBase.nodup {s : State} (h : PendingBase s) : s.pending.Nodup :=
  h.owners.imp fun hne heq => hne (congrArg Entry.owner heq)

theorem toFire_lt {target : Cycle} {s t : State} {x : Entry} (hs : Ready s) (hx : nextDue target s = some x)
    (ht : fire x s = .ok t) : toFire target t < toFire target s := by
  obtain ⟨hr, hcfg, -, -, -, -, -, hcyc, hp⟩ := hs.fired hx ht
  obtain ⟨hmem, hdue, -⟩ := nextDue_some hx
  have hge := hs.pending.notPast hs.running x hmem
  have hsub : ∀ y ∈ dueNow t, y ∈ s.pending ∧ y ≠ x ∧ y.due.toNat ≤ x.due.toNat := by
    intro y hy
    obtain ⟨hy1, hy2⟩ := List.mem_filter.mp hy
    have hy2 : y.due.toNat ≤ x.due.toNat := by rw [← hcyc]; simpa using hy2
    rcases hp y hy1 with ⟨h1, h2⟩ | h1
    · exact ⟨h1, fun h => h2 (by rw [h]), hy2⟩
    · omega
  have hnd : (dueNow t).Nodup := hr.pending.nodup.filter _
  unfold toFire
  rw [hcfg, hcyc]
  have hK := hs.pending.length_le
  by_cases heq : x.due.toNat = s.cycle.toNat
  · have hx' : x ∈ dueNow s := List.mem_filter.mpr ⟨hmem, by simp [heq]⟩
    have hl : (dueNow t).length ≤ ((dueNow s).erase x).length :=
      (List.subperm_of_subset hnd fun y hy => by
        obtain ⟨h1, h2, h3⟩ := hsub y hy
        exact (List.mem_erase_of_ne h2).mpr (List.mem_filter.mpr ⟨h1, by simpa [← heq] using h3⟩)).length_le
    rw [List.length_erase_of_mem hx'] at hl
    have : 0 < (dueNow s).length := List.length_pos_of_mem hx'
    rw [heq]
    omega
  · have hl : (dueNow t).length ≤ (s.pending.erase x).length :=
      (List.subperm_of_subset hnd fun y hy => by
        obtain ⟨h1, h2, -⟩ := hsub y hy
        exact (List.mem_erase_of_ne h2).mpr h1).length_le
    rw [List.length_erase_of_mem hmem] at hl
    have hpos : 0 < s.pending.length := List.length_pos_of_mem hmem
    have hmul : (s.cfg.numEngines + s.cfg.numNodes) * (target.toNat - x.due.toNat)
        + (s.cfg.numEngines + s.cfg.numNodes) ≤ (s.cfg.numEngines + s.cfg.numNodes) * (target.toNat - s.cycle.toNat) := by
      rw [← Nat.mul_succ]
      exact Nat.mul_le_mul_left _ (by omega)
    omega

/-- With fuel enough, `AdvanceTo` ends with nothing left to fire, or at the first fault. -/
theorem advanceLoop_fires {target : Cycle} (fuel : Nat) {s : State} (hs : Ready s) (hf : toFire target s < fuel) :
    (∃ u, Relation.ReflTransGen (Fires target) s u ∧ Ready u ∧ nextDue target u = none ∧
      advanceLoop target fuel s = .ok { u with cycle := target }) ∨
    ∃ u x t, Relation.ReflTransGen (Fires target) s u ∧ Ready u ∧ nextDue target u = some x ∧ fire x u = .halt t ∧
      advanceLoop target fuel s = .halt t := by
  induction fuel generalizing s with
  | zero => omega
  | succ fuel ih =>
      cases hx : nextDue target s with
      | none => exact .inl ⟨s, .refl, hs, hx, by simp [advanceLoop, hx]⟩
      | some x =>
          cases ht : fire x s with
          | halt t => exact .inr ⟨s, x, t, .refl, hs, hx, ht, by simp [advanceLoop, hx, ht]⟩
          | ok t =>
              have hlt := toFire_lt hs hx ht
              have heq : advanceLoop target (fuel + 1) s = advanceLoop target fuel t := by simp [advanceLoop, hx, ht]
              rw [heq]
              rcases ih (hs.fired hx ht).1 (by omega) with ⟨u, h1, h2, h3, h4⟩ | ⟨u, y, v, h1, h2, h3, h4, h5⟩
              · exact .inl ⟨u, .head ⟨x, hx, ht⟩ h1, h2, h3, h4⟩
              · exact .inr ⟨u, y, v, .head ⟨x, hx, ht⟩ h1, h2, h3, h4, h5⟩

theorem toFire_lt_fuel (target : Cycle) (s : State) : toFire target s < advanceFuel target s := by
  unfold toFire advanceFuel
  have h1 : (dueNow s).length ≤ s.pending.length := List.length_filter_le _ _
  have h2 : (s.cfg.numEngines + s.cfg.numNodes) * (target.toNat - s.cycle.toNat)
      ≤ (s.cfg.numEngines + s.cfg.numNodes) * (target.toNat + 1) := Nat.mul_le_mul_left _ (by omega)
  have h3 : s.pending.length * 1 ≤ s.pending.length * (target.toNat + 1) := Nat.mul_le_mul_left _ (by omega)
  rw [Nat.add_mul (s.cfg.numEngines + s.cfg.numNodes) s.pending.length]
  generalize (s.cfg.numEngines + s.cfg.numNodes) * (target.toNat + 1) = a at *
  generalize (s.cfg.numEngines + s.cfg.numNodes) * (target.toNat - s.cycle.toNat) = b at *
  generalize s.pending.length * (target.toNat + 1) = c at *
  omega

/-- `AdvanceTo(target)`: the due entries are fired in order until none is left, or until one faults (R118). -/
theorem advanceTo_fires (target : Cycle) {s : State} (hs : Ready s) :
    (∃ u, Relation.ReflTransGen (Fires target) s u ∧ Ready u ∧ nextDue target u = none ∧
      advanceTo target s = .ok { u with cycle := target }) ∨
    ∃ u x t, Relation.ReflTransGen (Fires target) s u ∧ Ready u ∧ nextDue target u = some x ∧ fire x u = .halt t ∧
      advanceTo target s = .halt t :=
  advanceLoop_fires _ hs (toFire_lt_fuel target s)

/-- What a run of firings leaves of the host's side, and that time never goes back. -/
theorem fires_globals {target : Cycle} {s t : State} (hs : Ready s) (h : Relation.ReflTransGen (Fires target) s t) :
    Ready t ∧ t.cfg = s.cfg ∧ t.stream = s.stream ∧ t.outLog = s.outLog ∧ t.cp = s.cp ∧ t.faultWord = s.faultWord ∧
      t.faultCycle = s.faultCycle ∧ s.cycle.toNat ≤ t.cycle.toNat ∧ (t.cycle = s.cycle ∨ t.cycle.toNat ≤ target.toNat) := by
  induction h with
  | refl => exact ⟨hs, rfl, rfl, rfl, rfl, rfl, rfl, le_refl _, .inl rfl⟩
  | tail hb hc ih =>
      obtain ⟨x, hx, ht⟩ := hc
      obtain ⟨h0, h1, h2, h3, h4, h5, h6, h7, -⟩ := ih
      obtain ⟨g0, g1, g2, g3, g4, g5, g6, g7, -⟩ := h0.fired hx ht
      obtain ⟨hm, hd, -⟩ := nextDue_some hx
      have := h0.pending.notPast h0.running x hm
      exact ⟨g0, g1.trans h1, g2.trans h2, g3.trans h3, g4.trans h4, g5.trans h5, g6.trans h6, by rw [g7]; omega,
        .inr (by rw [g7]; exact hd)⟩

/-- A property that every firing keeps holds after a run of them. -/
theorem fires_keep {target : Cycle} {P : State → Prop}
    (hP : ∀ s t x, Ready s → nextDue target s = some x → fire x s = .ok t → P s → P t) {s t : State} (hs : Ready s)
    (h : Relation.ReflTransGen (Fires target) s t) (p : P s) : P t := by
  induction h with
  | refl => exact p
  | tail hb hc ih =>
      obtain ⟨x, hx, ht⟩ := hc
      exact hP _ _ x (fires_globals hs hb).1 hx ht ih

/-- Everything is in order between two firings if it is at the first. -/
theorem fires_allGood {target : Cycle} {s t : State} (hs : Ready s) (h : Relation.ReflTransGen (Fires target) s t)
    (hg : AllGood s) : AllGood t :=
  fires_keep (fun u v x hr hx ht hg => by
    have hm := (nextDue_some hx).1
    exact fire_good hg hm (hr.pending.inBlock x hm) ht) hs h hg

end Sys2Proof.Machine
end

