-- ==== Sys2Proof/Laws/Depth.lean ====
section
/-! SUPPORT. `depth` counts the resolutions under way and nothing else: whatever ends without a fault leaves it as it was (R28,
R150). -/

namespace Sys2Proof.Machine

/-- If it ends without a fault, `depth` is `d`. -/
def DepthIs (d : Nat) (r : Res) : Prop := ∀ t, r = .ok t → t.depth = d

theorem DepthIs.ok {s : State} : DepthIs s.depth (.ok s) := fun t h => by cases h; rfl

theorem DepthIs.halt {d : Nat} {s : State} : DepthIs d (.halt s) := fun t h => by cases h

theorem DepthIs.andThen {d : Nat} {r : Res} {f : State → Res} (hr : DepthIs d r)
    (hf : ∀ u, u.depth = d → DepthIs d (f u)) : DepthIs d (r.andThen f) := fun t h => by
  obtain ⟨u, hu, ht⟩ := andThen_eq_ok h
  exact hf u (hr u hu) t ht

theorem DepthIs.forEach {α : Type} {f : α → State → Res} (hf : ∀ x s, DepthIs s.depth (f x s)) (xs : List α) (s : State) :
    DepthIs s.depth (forEach f xs s) := by
  induction xs generalizing s with
  | nil => exact .ok
  | cons x xs ih => exact (hf x s).andThen fun u hu => hu ▸ ih u

theorem schedule_depth (o : Owner) (due : Nat) (s : State) : DepthIs s.depth (schedule o due s) := by
  unfold schedule
  split
  · exact .halt
  · split
    · exact .halt
    · exact fun t h => by cases h; rfl

theorem onScl_depth (e : Nat) (s : State) : DepthIs s.depth (onScl e s) := by
  unfold onScl
  split
  · exact .ok
  · split
    · exact .ok
    · exact schedule_depth _ _ _

section
variable {res : Job → State → Res} (hres : ∀ j s, DepthIs s.depth (res j s))
include hres

theorem setDrivingVia_depth (p : Nat) (d : Drive) (s : State) : DepthIs s.depth (setDrivingVia res p d s) := by
  unfold setDrivingVia
  split
  · exact .ok
  · exact hres _ (s.setPin p { s.pin p with drive := d })

theorem driveSdaVia_depth (e : Nat) (bit : Bool) (s : State) : DepthIs s.depth (driveSdaVia res e bit s) :=
  setDrivingVia_depth hres _ _ (s.setEng e { s.eng e with sdaDrive := !bit })

theorem onSdaVia_depth (e : Nat) (s : State) : DepthIs s.depth (onSdaVia res e s) := by
  unfold onSdaVia
  split
  · exact .ok
  · split
    · exact .ok
    · dsimp only
      split
      · split
        · exact driveSdaVia_depth hres e true _
        · exact driveSdaVia_depth hres e true _
      · exact .ok

theorem notifyEngineVia_depth (p e : Nat) (s : State) : DepthIs s.depth (notifyEngineVia res p e s) := by
  unfold notifyEngineVia
  split
  · refine DepthIs.andThen ?_ fun u hu => ?_
    · split
      · exact onScl_depth e s
      · exact .ok
    · rw [← hu]
      split
      · exact onSdaVia_depth hres e u
      · exact .ok
  · exact .ok

omit hres in
theorem notifyPort_depth (p r : Nat) (s : State) : (notifyPort p r s).depth = s.depth := by
  unfold notifyPort
  generalize List.filter _ _ = is
  induction is generalizing s with
  | nil => rfl
  | cons i is ih =>
      rw [List.foldl_cons, ih]
      unfold onPinChanged
      split <;> rfl

theorem notifyVia_depth (p : Nat) (s : State) : DepthIs s.depth (notifyVia res p s) := by
  unfold notifyVia
  have h : ∀ (rs : List Nat) (u : State), (rs.foldl (fun s r => notifyPort p r s) u).depth = u.depth := by
    intro rs
    induction rs with
    | nil => intro u; rfl
    | cons r rs ih => intro u; rw [List.foldl_cons, ih, notifyPort_depth]
  have := DepthIs.forEach (fun e s => notifyEngineVia_depth hres p e s) (List.range s.cfg.numEngines)
    ((List.range s.cfg.numPorts).foldl (fun s r => notifyPort p r s) s)
  rwa [h] at this

theorem publishVia_depth (n : Nat) (l : Level) (s : State) : DepthIs s.depth (publishVia res n l s) := by
  have := DepthIs.forEach (fun p s => notifyVia_depth hres p s) (changedBy n l s) (publishWrites n l s)
  rwa [(publishWrites_fields n l s).2.2.2.2.2.2.1] at this

omit hres in
theorem analogUpdate_depth (n : Nat) (s : State) : DepthIs s.depth (analogUpdate n s) := by
  unfold analogUpdate
  dsimp only
  split
  · exact fun t h => by cases h; rfl
  · split
    · exact fun t h => by cases h; rfl
    · exact schedule_depth _ _ _

omit hres in
theorem settleUpdate_depth (n : Nat) (s : State) : DepthIs s.depth (settleUpdate n s) := by
  unfold settleUpdate
  dsimp only
  split
  · exact fun t h => by cases h; rfl
  · exact schedule_depth _ _ _

omit hres in
theorem digitalUpdate_depth (n : Nat) (s : State) : (digitalUpdate n s).depth = s.depth := by
  unfold digitalUpdate leaveAnalog
  dsimp only
  split <;> split <;> rfl

theorem runJobVia_depth (j : Job) (s : State) : DepthIs s.depth (runJobVia res j s) := by
  cases j with
  | node n =>
      change DepthIs s.depth (resolveNodeVia res n s)
      unfold resolveNodeVia
      split
      · exact (analogUpdate_depth n s).andThen fun u hu => hu ▸ publishVia_depth hres n _ u
      · have := publishVia_depth hres n (digitalLevel s n) (digitalUpdate n s)
        rwa [digitalUpdate_depth] at this
  | pin p =>
      change DepthIs s.depth (resolveAloneVia res p s)
      unfold resolveAloneVia
      dsimp only
      split
      · exact .ok
      · exact notifyVia_depth hres p (s.setPin p { s.pin p with driven := aloneLevel s p })
  | settle n =>
      exact (settleUpdate_depth n s).andThen fun u hu => hu ▸ publishVia_depth hres n _ u

end

theorem resolveJob_depth (room : Nat) (j : Job) (s : State) : DepthIs s.depth (resolveJob room j s) := by
  induction room generalizing j s with
  | zero => exact .halt
  | succ room ih =>
      intro t ht
      rw [resolveJob] at ht
      obtain ⟨u, hu, ht⟩ := andThen_eq_ok ht
      have := runJobVia_depth ih j _ u hu
      injection ht with ht
      rw [← ht]
      change u.depth - 1 = s.depth
      rw [this]
      rfl

theorem resolve_depth (j : Job) (s : State) : DepthIs s.depth (resolve j s) := resolveJob_depth _ j s

theorem setDriving_depth (p : Nat) (d : Drive) (s : State) : DepthIs s.depth (setDriving p d s) :=
  setDrivingVia_depth resolve_depth p d s

theorem driveSda_depth (e : Nat) (bit : Bool) (s : State) : DepthIs s.depth (driveSda e bit s) :=
  driveSdaVia_depth resolve_depth e bit s

theorem configurePin_depth (p : Nat) (dir : Dir) (oc pu : Bool) (s : State) :
    DepthIs s.depth (configurePin p dir oc pu s) := by
  unfold configurePin
  dsimp only
  split
  · exact .ok
  · exact resolve_depth _ (s.setPin p { s.pin p with dir := dir, oc := oc, pu := pu })

theorem loadTx_depth (e : Nat) (s : State) : DepthIs s.depth (loadTx e s) :=
  (driveSda_depth e _ (s.setEng e _)).andThen fun u hu => hu ▸ fun t h => by cases h; rfl

theorem edgeRow_depth (e : Nat) (edge : Edge) (sda : Bool) (s : State) : DepthIs s.depth (edgeRow e edge sda s) := by
  have put : ∀ (u : State) (g : Engine), DepthIs u.depth (.ok (u.setEng e g)) := fun u g t h => by cases h; rfl
  unfold edgeRow
  split
  all_goals first
    | exact .ok
    | skip
  · unfold rowRxAddressRise
    dsimp only
    repeat' split
    all_goals exact fun t h => by cases h; rfl
  · unfold rowAckAddressFall
    dsimp only
    repeat' split
    · exact (driveSda_depth e _ s).andThen fun u hu => hu ▸ put u _
    · exact loadTx_depth e s
    · exact (driveSda_depth e _ s).andThen fun u hu => hu ▸ put u _
    · exact .ok
  · unfold rowRxDataRise
    dsimp only
    repeat' split
    all_goals exact fun t h => by cases h; rfl
  · exact (driveSda_depth e _ s).andThen fun u hu => hu ▸ put u _
  · refine (driveSda_depth e _ s).andThen fun u hu => ?_
    rw [← hu]
    split <;> exact put u _
  · unfold rowAckReadRise
    dsimp only
    repeat' split
    all_goals exact fun t h => by cases h; rfl
  · unfold rowAckReadFall
    split
    · exact loadTx_depth e s
    · exact .ok
  · unfold rowTxDataRise
    dsimp only
    split <;> exact fun t h => by cases h; rfl
  · unfold rowTxDataFall
    dsimp only
    repeat' split
    · exact (driveSda_depth e _ s).andThen fun u hu => hu ▸ put u _
    · exact driveSda_depth e _ s
    · exact .ok

theorem fire_depth (x : Entry) (s : State) : DepthIs s.depth (fire x s) := by
  unfold fire callback
  split
  · next e he =>
    unfold engCallback
    dsimp only
    split
    · exact fun t h => by cases h; rfl
    · exact edgeRow_depth e _ _ ((startFiring x s).setEng e _)
  · exact resolve_depth _ (startFiring x s)

theorem twReset_depth (e : Nat) (s : State) : DepthIs s.depth (twReset e s) := by
  unfold twReset
  dsimp only
  split
  · exact driveSda_depth e true (cancel (.eng e) (s.setEng e _))
  · exact fun t h => by cases h; rfl

theorem attachPin_depth (p n : Nat) (s : State) : DepthIs s.depth (attachPin p n s) := by
  unfold attachPin
  dsimp only
  split
  · exact .ok
  · refine DepthIs.andThen (d := s.depth) ?_ fun u hu => hu ▸ resolve_depth _ u
    split
    · exact resolve_depth _ (s.setPin p _)
    · exact fun t h => by cases h; rfl

theorem detachPin_depth (p : Nat) (s : State) : DepthIs s.depth (detachPin p s) := by
  unfold detachPin
  split
  · exact .ok
  · exact DepthIs.andThen (resolve_depth _ (s.setPin p _)) fun u hu => hu ▸ resolve_depth _ u

theorem reconcile_depth (r : Nat) (s : State) : (reconcile r s).depth = s.depth := by
  unfold reconcile
  generalize enabledBits s r = is
  induction is generalizing s with
  | nil => rfl
  | cons i is ih =>
      rw [List.foldl_cons, ih]
      unfold onPinChanged
      split <;> rfl

theorem writePort_depth (r : Nat) (v : Byte) (s : State) : DepthIs s.depth (writePort r v s) := by
  unfold writePort
  exact DepthIs.andThen (DepthIs.forEach (fun i s => setDriving_depth _ _ s) _ (s.setPort r { s.port r with driving := v }))
    fun u hu t h => by cases h; rw [reconcile_depth]; exact hu

theorem attachEngine_depth (e : Nat) (scl sda : Byte) (s : State) : DepthIs s.depth (attachEngine e scl sda s) := by
  unfold attachEngine
  refine (twReset_depth e s).andThen fun u hu => ?_
  dsimp only
  refine DepthIs.andThen (hu ▸ configurePin_depth _ _ _ _ (u.setEng e _)) fun v hv => ?_
  refine DepthIs.andThen (hv ▸ configurePin_depth _ _ _ _ v) fun w hw => ?_
  exact DepthIs.andThen (hw ▸ setDriving_depth _ _ w) fun z hz t h => by cases h; exact hz

end Sys2Proof.Machine
end

