-- ==== Sys2Proof/Laws/Completes.lean ====
section
/-! SUPPORT. Where the bodies of the commands and the callbacks meet no fault: a calm block (`Calm`) stays calm through each. -/

namespace Sys2Proof.Machine

theorem Calm.quiet {s : State} (h : Calm s) : Quiet s := ⟨h.digital, h.cycle⟩

/-- Whatever keeps the parameters, the counter, `depth` and the absence of analog nodes keeps a block calm. -/
theorem Calm.of_same {s t : State} (h : Calm s) (hc : t.cfg = s.cfg) (hy : t.cycle = s.cycle) (hd : t.depth = s.depth)
    (ha : NoAnalogNode t) : Calm t :=
  ⟨hd.trans h.depth, by rw [hc]; exact h.room, by rw [hy]; exact h.cycle, ha⟩

theorem Calm.casc {A : Nat → Prop} {s t : State} (h : Calm s) (hc : Cascs A s t) (hd : t.depth = s.depth) : Calm t :=
  h.of_same hc.globals.1 hc.globals.2.2.1 hd (h.digital.casc hc)

/-- A calm block's resolution of a node or a lone pin meets no fault. -/
theorem Calm.resolve {j : Job} {s : State} (h : Calm s) (hj : ∀ n, j ≠ .settle n) :
    ∃ t, resolve j s = .ok t ∧ Calm t ∧ Cascs AnyNode s t := by
  have hb : (busyEngines s).card < s.cfg.maxNotifyDepth - s.depth := by
    have h1 := busyEngines_le s
    have h2 := h.room
    have h3 := h.depth
    omega
  obtain ⟨t, ht⟩ := resolveJob_calm _ j hj s h.quiet hb
  have hc := (resolve_casc (A := AnyNode) j s (nodesIn_any s) (jobIn_any j)).ok ht
  exact ⟨t, ht, h.casc hc (resolve_depth j s t ht), hc⟩

theorem jobOf_ne_settle (s : State) (p n : Nat) : jobOf s p ≠ .settle n := by
  unfold jobOf
  split <;> simp

/-- Writing a pin's record keeps every node digital if the record, where it is on a node, is. -/
theorem NoAnalogNode.setPin {s : State} (h : NoAnalogNode s) (p : Nat) (x : Pin)
    (hx : x.drive.isAnalog = true → x.node = none ∨ (x.drive = (s.pin p).drive ∧ x.node = (s.pin p).node)) :
    NoAnalogNode (s.setPin p x) := by
  intro n
  rw [analogMode, List.any_eq_false]
  intro q hq
  obtain ⟨h1, h2⟩ := mem_members.mp hq
  have old := h n
  rw [analogMode, List.any_eq_false] at old
  rcases setPin_pin_cases s p q x with h' | ⟨rfl, h'⟩
  · rw [h'] at h2 ⊢
    exact old q (mem_members.mpr ⟨h1, h2⟩)
  · rw [h'] at h2 ⊢
    intro ha
    rcases hx ha with hn | ⟨hd, hn⟩
    · rw [hn] at h2; cases h2
    · rw [hd] at ha
      exact old p (mem_members.mpr ⟨h1, hn ▸ h2⟩) ha

theorem Calm.setPin {s : State} (h : Calm s) (p : Nat) (x : Pin)
    (hx : x.drive.isAnalog = true → x.node = none ∨ (x.drive = (s.pin p).drive ∧ x.node = (s.pin p).node)) :
    Calm (s.setPin p x) :=
  h.of_same rfl rfl rfl (h.digital.setPin p x hx)

/-- A calm block's digital drive meets no fault; nor does an analog drive of a lone pin. -/
theorem Calm.setDriving {s : State} (h : Calm s) (p : Nat) (d : Drive)
    (hd : d.isAnalog = true → (s.pin p).node = none) : ∃ t, setDriving p d s = .ok t ∧ Calm t := by
  unfold Machine.setDriving setDrivingVia
  split
  · exact ⟨s, rfl, h⟩
  · obtain ⟨t, h1, h2, -⟩ := (h.setPin p { s.pin p with drive := d } fun ha => .inl (hd ha)).resolve
      (jobOf_ne_settle _ p)
    exact ⟨t, h1, h2⟩

theorem Calm.setEng {s : State} (h : Calm s) (e : Nat) (g : Engine) : Calm (s.setEng e g) :=
  h.of_same rfl rfl rfl h.digital

theorem Calm.cancel {s : State} (h : Calm s) (o : Owner) : Calm (cancel o s) := h.of_same rfl rfl rfl h.digital

theorem Calm.setPort {s : State} (h : Calm s) (r : Nat) (x : Port) : Calm (s.setPort r x) := h.of_same rfl rfl rfl h.digital

theorem Calm.diag {s : State} (h : Calm s) (k : DiagKind) (o : Nat) (d : Byte) : Calm (diag k o d s) :=
  h.of_same rfl rfl rfl h.digital

theorem Calm.driveSda {s : State} (h : Calm s) (e : Nat) (bit : Bool) : ∃ t, driveSda e bit s = .ok t ∧ Calm t :=
  (h.setEng e { s.eng e with sdaDrive := !bit }).setDriving _ _ fun ha => by cases ha

theorem Calm.configurePin {s : State} (h : Calm s) (p : Nat) (dir : Dir) (oc pu : Bool) :
    ∃ t, configurePin p dir oc pu s = .ok t ∧ Calm t := by
  unfold Machine.configurePin
  dsimp only
  split
  · exact ⟨s, rfl, h⟩
  · obtain ⟨t, h1, h2, -⟩ := (h.setPin p { s.pin p with dir := dir, oc := oc, pu := pu } fun _ => .inr ⟨rfl, rfl⟩).resolve
      (jobOf_ne_settle _ p)
    exact ⟨t, h1, h2⟩

theorem Calm.attachPin {s : State} (h : Calm s) (p n : Nat) (hp : (s.pin p).drive.isAnalog = false) :
    ∃ t, attachPin p n s = .ok t ∧ Calm t := by
  unfold Machine.attachPin
  dsimp only
  split
  · exact ⟨s, rfl, h⟩
  · have h1 := h.setPin p { s.pin p with node := some n } fun ha => by rw [hp] at ha; cases ha
    have last : ∀ u, Calm u → ∃ t, (Res.ok u).andThen (Machine.resolve (.node n)) = .ok t ∧ Calm t := fun u hu => by
      obtain ⟨t, ht, hct, -⟩ := hu.resolve (j := .node n) (by simp)
      exact ⟨t, ht, hct⟩
    split
    · next m hm =>
      obtain ⟨u, hu, hc, -⟩ := h1.resolve (j := .node m) (by simp)
      rw [hu]
      exact last u hc
    · exact last _ h1

theorem Calm.detachPin {s : State} (h : Calm s) (p : Nat) : ∃ t, detachPin p s = .ok t ∧ Calm t := by
  unfold Machine.detachPin
  split
  · exact ⟨s, rfl, h⟩
  · next m hm =>
    obtain ⟨u, hu, hc, -⟩ := (h.setPin p { s.pin p with node := none } fun _ => .inl rfl).resolve (j := .node m) (by simp)
    obtain ⟨t, ht, hct, -⟩ := hc.resolve (j := .pin p) (by simp)
    rw [hu]
    exact ⟨t, ht, hct⟩

theorem Calm.twReset {s : State} (h : Calm s) (e : Nat) : ∃ t, twReset e s = .ok t ∧ Calm t := by
  unfold Machine.twReset
  have h1 := (h.setEng e { s.eng e with state := .idle, bits := 0, shift := 0x00, ack := false, pend := none }).cancel (.eng e)
  dsimp only
  split
  · exact h1.driveSda e true
  · exact ⟨_, rfl, h1⟩

theorem Calm.attachEngine {s : State} (h : Calm s) (e : Nat) (scl sda : Byte) :
    ∃ t, attachEngine e scl sda s = .ok t ∧ Calm t := by
  unfold Machine.attachEngine
  obtain ⟨u, hu, h1⟩ := h.twReset e
  rw [hu]
  obtain ⟨v, hv, h2⟩ := (h1.setEng e { u.eng e with attached := false, sclPin := scl, sdaPin := sda }).configurePin
    scl.toNat .input ((u.setEng e { u.eng e with attached := false, sclPin := scl, sdaPin := sda }).pin scl.toNat).oc
    ((u.setEng e { u.eng e with attached := false, sclPin := scl, sdaPin := sda }).pin scl.toNat).pu
  obtain ⟨w, hw, h3⟩ := h2.configurePin sda.toNat .biDirectional true (v.pin sda.toNat).pu
  obtain ⟨z, hz, h4⟩ := h3.setDriving sda.toNat (.digital .floating) fun ha => by cases ha
  refine ⟨latchLines e scl.toNat sda.toNat (z.setEng e { z.eng e with sdaDrive := false }), ?_,
    (h4.setEng e { z.eng e with sdaDrive := false }).setEng e _⟩
  simp only [andThen_ok, hv, hw, hz]

theorem onPinChanged_calm {s : State} (h : Calm s) (r i : Nat) : Calm (onPinChanged r i s) := by
  unfold onPinChanged
  split
  · exact h.setPort r _
  · exact h

theorem Calm.reconcile {s : State} (h : Calm s) (r : Nat) : Calm (reconcile r s) := by
  unfold Machine.reconcile
  generalize enabledBits s r = is
  induction is generalizing s with
  | nil => exact h
  | cons i is ih => exact ih (onPinChanged_calm h r i)

theorem Calm.forEach {α : Type} {f : α → State → Res} (hf : ∀ x s, Calm s → ∃ t, f x s = .ok t ∧ Calm t) (xs : List α)
    {s : State} (h : Calm s) : ∃ t, forEach f xs s = .ok t ∧ Calm t := by
  induction xs generalizing s with
  | nil => exact ⟨s, rfl, h⟩
  | cons x xs ih =>
      obtain ⟨u, hu, h1⟩ := hf x s h
      obtain ⟨t, ht, h2⟩ := ih h1
      exact ⟨t, by rw [forEach_cons, hu]; exact ht, h2⟩

theorem Calm.writePort {s : State} (h : Calm s) (r : Nat) (v : Byte) : ∃ t, writePort r v s = .ok t ∧ Calm t := by
  unfold Machine.writePort
  obtain ⟨u, hu, h1⟩ := Calm.forEach
    (f := fun i s => Machine.setDriving (boundPin s r i) (bitDrive (v.getLsbD i)) s)
    (fun i s hs => hs.setDriving (boundPin s r i) (bitDrive (v.getLsbD i)) fun ha => by
      unfold bitDrive at ha; cases ha)
    (enabledBits (s.setPort r { s.port r with driving := v }) r) (h.setPort r { s.port r with driving := v })
  exact ⟨Machine.reconcile r u, by simp only [hu, andThen_ok], h1.reconcile r⟩

/-! ### Callbacks -/

theorem Calm.loadTx {s : State} (h : Calm s) (e : Nat) : ∃ t, loadTx e s = .ok t ∧ Calm t := by
  unfold Machine.loadTx
  dsimp only
  obtain ⟨u, hu, h1⟩ := (h.setEng e
    { s.eng e with periph := (s.eng e).periph ++ [.tx], shift := Config.txByte e (s.eng e).periph, bits := 0 }).driveSda e
    ((Config.txByte e (s.eng e).periph).getLsbD 7)
  rw [hu]
  exact ⟨_, rfl, h1.setEng e _⟩

/-- A calm block's clock edge meets no fault. -/
theorem Calm.edgeRow {s : State} (h : Calm s) (e : Nat) (edge : Edge) (sda : Bool) :
    ∃ t, edgeRow e edge sda s = .ok t ∧ Calm t := by
  have here : ∃ t, Res.ok s = .ok t ∧ Calm t := ⟨s, rfl, h⟩
  have put : ∀ (bit : Bool) (g : State → Engine),
      ∃ t, ((Machine.driveSda e bit s).andThen fun s => Res.ok (s.setEng e (g s))) = Res.ok t ∧ Calm t := fun bit g => by
    obtain ⟨u, hu, h1⟩ := h.driveSda e bit
    rw [hu]
    exact ⟨_, rfl, h1.setEng e _⟩
  unfold Machine.edgeRow
  split
  · exact ⟨_, rfl, h.diag _ _ _⟩
  · exact here
  · exact here
  · unfold rowRxAddressRise
    dsimp only
    repeat' split
    · exact ⟨_, rfl, h.setEng e _⟩
    · exact ⟨_, rfl, h.setEng e _⟩
    · exact ⟨_, rfl, (h.setEng e _).diag _ _ _⟩
    · exact here
  · exact here
  · exact here
  · unfold rowAckAddressFall
    dsimp only
    repeat' split
    · exact put _ _
    · exact h.loadTx e
    · exact put _ _
    · exact here
  · unfold rowRxDataRise
    dsimp only
    repeat' split
    · exact ⟨_, rfl, h.setEng e _⟩
    · exact ⟨_, rfl, h.setEng e _⟩
    · exact here
  · exact here
  · exact here
  · exact put _ _
  · exact here
  · unfold rowAckAfterWriteFall
    obtain ⟨u, hu, h1⟩ := h.driveSda e true
    rw [hu]
    simp only [andThen_ok]
    split <;> exact ⟨_, rfl, h1.setEng e _⟩
  · exact here
  · unfold rowAckReadRise
    dsimp only
    repeat' split
    · exact ⟨_, rfl, h.setEng e _⟩
    · exact ⟨_, rfl, h.setEng e _⟩
    · exact here
  · unfold rowAckReadFall
    split
    · exact h.loadTx e
    · exact here
  · unfold rowTxDataRise
    dsimp only
    split
    · exact ⟨_, rfl, h.of_same rfl rfl rfl h.digital⟩
    · exact ⟨_, rfl, h.setEng e _⟩
  · unfold rowTxDataFall
    dsimp only
    repeat' split
    · exact put _ _
    · exact h.driveSda e _
    · exact here

/-- Firing an engine's entry of a calm block meets no fault. -/
theorem Calm.fire {s : State} (h : Calm s) (x : Entry) (hx : ∃ e, x.owner = .eng e) (hd : x.due.toNat + 1 ≤ maxCycle) :
    ∃ t, fire x s = .ok t ∧ Calm t := by
  obtain ⟨e, he⟩ := hx
  unfold Machine.fire callback
  rw [he]
  have h1 : Calm (startFiring x s) := ⟨h.depth, h.room, hd, h.digital⟩
  dsimp only
  unfold engCallback
  dsimp only
  have h2 := h1.setEng e { (startFiring x s).eng e with pend := none }
  split
  · exact ⟨_, rfl, h2⟩
  · exact h2.edgeRow e _ _

/-- A calm block in order advances to any target below the last cycle without a fault. -/
theorem Calm.advanceTo {s : State} (h : Calm s) (hr : Ready s) (hg : AllGood s) (target : Cycle)
    (ht : target.toNat + 1 ≤ maxCycle) :
    ∃ u, advanceTo target s = .ok { u with cycle := target } ∧ Relation.ReflTransGen (Fires target) s u ∧ Ready u ∧
      nextDue target u = none ∧ Calm u ∧ AllGood u := by
  have key : ∀ u, Relation.ReflTransGen (Fires target) s u → Calm u ∧ AllGood u ∧ Ready u := by
    intro u hu
    have h1 : Calm u ∧ AllGood u := fires_keep (P := fun s => Calm s ∧ AllGood s) (fun a b x hra hx hab hP => by
      obtain ⟨hm, hd, -⟩ := nextDue_some hx
      have hgood := fire_good hP.2 hm (hra.pending.inBlock x hm) hab
      have hown : ∃ e, x.owner = .eng e := by
        cases ho : x.owner with
        | eng e => exact ⟨e, rfl⟩
        | node n =>
            exfalso
            have hn := hra.pending.inBlock x hm
            rw [ho] at hn
            have hset := (hP.2.settle n hn id).mp ⟨x, hm, ho⟩
            have := (hP.2.node n hn id).settling hset
            rw [hP.1.digital n] at this
            cases this
      obtain ⟨t, ht1, ht2⟩ := hP.1.fire x hown (by omega)
      rw [hab] at ht1
      cases ht1
      exact ⟨ht2, hgood⟩) hr hu ⟨h, hg⟩
    exact ⟨h1.1, h1.2, (fires_globals hr hu).1⟩
  rcases advanceTo_fires target hr with ⟨u, h1, h2, h3, h4⟩ | ⟨u, x, t, h1, h2, h3, h4, -⟩
  · exact ⟨u, h4, h1, h2, h3, (key u h1).1, (key u h1).2.1⟩
  · exfalso
    obtain ⟨hm, hd, -⟩ := nextDue_some h3
    obtain ⟨hc, hgu, -⟩ := key u h1
    have hown : ∃ e, x.owner = .eng e := by
      cases ho : x.owner with
      | eng e => exact ⟨e, rfl⟩
      | node n =>
          exfalso
          have hn := h2.pending.inBlock x hm
          rw [ho] at hn
          have hset := (hgu.settle n hn id).mp ⟨x, hm, ho⟩
          have := (hgu.node n hn id).settling hset
          rw [hc.digital n] at this
          cases this
    obtain ⟨t', ht1, -⟩ := hc.fire x hown (by omega)
    rw [h4] at ht1
    cases ht1

end Sys2Proof.Machine
end

