-- ==== Sys2Proof/Laws/Exec.lean ====
section
/-! SUPPORT. Everything a command other than `ADVANCE` can do, said once: the small writes it is made of, beside those of a cascade,
and what those writes keep. -/

namespace Sys2Proof.Machine

/-- One small write of a command other than `ADVANCE`. `A` says which node numbers may be scheduled, `B` which engine the command
may attach. -/
inductive CmdW (A B : Nat → Prop) (s : State) : State → Prop where
  | casc {t : State} (h : Casc A s t) : CmdW A B s t
  | setup (p : Nat) (x : Pin) (hd : x.driven = (s.pin p).driven) (hn : ∀ n, x.node = some n → A n) : CmdW A B s (s.setPin p x)
  | driving (r : Nat) (v : Byte) : CmdW A B s (s.setPort r { s.port r with driving := v })
  | idle (e : Nat) :
      CmdW A B s (cancel (.eng e) (s.setEng e { s.eng e with state := .idle, bits := 0, shift := 0x00, ack := false, pend := none }))
  | engine (e : Nat) (g : Engine) (hp : g.pend = (s.eng e).pend) (hs : g.state = (s.eng e).state)
      (hq : g.periph = (s.eng e).periph)
      (ha : (g.attached = (s.eng e).attached ∧ g.sclPin = (s.eng e).sclPin ∧ g.sdaPin = (s.eng e).sdaPin) ∨
        (B e ∧ (g.attached = true → g.sclPin.toNat < s.cfg.numPins ∧ g.sdaPin.toNat < s.cfg.numPins))) : CmdW A B s (s.setEng e g)
  | out (v : BitVec 64) : CmdW A B s (out v s)

/-- A sequence of them. -/
abbrev CmdWs (A B : Nat → Prop) : State → State → Prop := Relation.ReflTransGen (CmdW A B)

theorem CmdWs.keeps {A B : Nat → Prop} {P : State → Prop} (h : ∀ s t, CmdW A B s t → P s → P t) {s t : State}
    (hs : CmdWs A B s t) (p : P s) : P t := by
  induction hs with
  | refl => exact p
  | tail _ hc ih => exact h _ _ hc ih

theorem CmdWs.of_casc {A B : Nat → Prop} {s t : State} (h : Cascs A s t) : CmdWs A B s t :=
  Relation.ReflTransGen.mono (fun _ _ => CmdW.casc) _ _ h

section
variable {A B : Nat → Prop}

/-- What they leave of the state as a whole. -/
theorem CmdW.globals {s t : State} (h : CmdW A B s t) :
    t.cfg = s.cfg ∧ t.stream = s.stream ∧ t.cycle = s.cycle ∧ t.cp = s.cp ∧
      t.faultCode = s.faultCode ∧ t.faultWord = s.faultWord ∧ t.faultCycle = s.faultCycle := by
  cases h with
  | casc h =>
      obtain ⟨a, b, c, -, e, f, g, i⟩ := h.globals
      exact ⟨a, b, c, e, f, g, i⟩
  | _ => exact ⟨rfl, rfl, rfl, rfl, rfl, rfl, rfl⟩

theorem CmdWs.globals {s t : State} (h : CmdWs A B s t) :
    t.cfg = s.cfg ∧ t.stream = s.stream ∧ t.cycle = s.cycle ∧ t.cp = s.cp ∧
      t.faultCode = s.faultCode ∧ t.faultWord = s.faultWord ∧ t.faultCycle = s.faultCycle := by
  induction h with
  | refl => simp
  | tail _ hc ih =>
      obtain ⟨a1, a2, a3, a4, a5, a6, a7⟩ := hc.globals
      obtain ⟨b1, b2, b3, b4, b5, b6, b7⟩ := ih
      exact ⟨a1.trans b1, a2.trans b2, a3.trans b3, a4.trans b4, a5.trans b5, a6.trans b6, a7.trans b7⟩

/-- The nodes stay allowed. -/
theorem NodesIn.cmd {s t : State} (hn : NodesIn A s) (h : CmdW A B s t) : NodesIn A t := by
  cases h with
  | casc h => exact hn.casc (.single h)
  | setup p x hd hx =>
      intro q n hq
      rcases setPin_pin_cases s p q x with h | ⟨rfl, h⟩
      · rw [h] at hq; exact hn q n hq
      · rw [h] at hq; exact hx n hq
  | _ => exact hn

theorem NodesIn.cmds {s t : State} (hn : NodesIn A s) (h : CmdWs A B s t) : NodesIn A t :=
  CmdWs.keeps (fun _ _ h hn => NodesIn.cmd hn h) h hn

/-! ### The logs and the sequence numbers only grow -/

/-- Nothing is taken from a log, and sequence numbers only increase. -/
def Grows (s t : State) : Prop :=
  s.outLog <+: t.outLog ∧ s.diagLog <+: t.diagLog ∧ s.nextSeq ≤ t.nextSeq

theorem Grows.refl (s : State) : Grows s s := ⟨List.prefix_refl _, List.prefix_refl _, le_refl _⟩

theorem Grows.trans {s t u : State} (h : Grows s t) (k : Grows t u) : Grows s u :=
  ⟨h.1.trans k.1, h.2.1.trans k.2.1, h.2.2.trans k.2.2⟩

theorem Casc.grows {s t : State} (h : Casc A s t) : Grows s t := by
  cases h with
  | diag k o d => exact ⟨List.prefix_refl _, List.prefix_append _ _, le_refl _⟩
  | settleAt n due => exact ⟨List.prefix_refl _, List.prefix_refl _, Nat.le_succ _⟩
  | edge e b => exact ⟨List.prefix_refl _, List.prefix_refl _, Nat.le_succ _⟩
  | _ => exact Grows.refl s

theorem Act.grows {E : Nat → Prop} {s t : State} (h : Act A E s t) : Grows s t := by
  cases h with
  | casc h => exact h.grows
  | _ => exact Grows.refl s

theorem Acts.grows {E : Nat → Prop} {s t : State} (h : Acts A E s t) : Grows s t := by
  induction h with
  | refl => exact Grows.refl s
  | tail _ hc ih => exact ih.trans hc.grows

theorem CmdW.grows {s t : State} (h : CmdW A B s t) : Grows s t := by
  cases h with
  | casc h => exact h.grows
  | out v => exact ⟨List.prefix_append _ _, List.prefix_refl _, le_refl _⟩
  | _ => exact Grows.refl s

theorem CmdWs.grows {s t : State} (h : CmdWs A B s t) : Grows s t := by
  induction h with
  | refl => exact Grows.refl s
  | tail _ hc ih => exact ih.trans hc.grows

theorem HaltOf.grows {u t : State} (h : HaltOf u t) : Grows u t := by
  obtain ⟨-, -, -, h4, -, -, h7, -, -, -, h11, -⟩ := h.fields
  exact ⟨by rw [h4], by rw [h11], by rw [h7]⟩

/-! ### What they keep -/

theorem CmdW.periph {s t : State} (h : CmdW A B s t) (e : Nat) : (t.eng e).periph = (s.eng e).periph := by
  cases h with
  | casc h => exact (h.eng_fixed e).2.2.2.2.2.2.2.2.2.2
  | idle f =>
      have : (cancel (.eng f) (s.setEng f { s.eng f with state := .idle, bits := 0, shift := 0x00, ack := false, pend := none })).eng e
        = (s.setEng f { s.eng f with state := .idle, bits := 0, shift := 0x00, ack := false, pend := none }).eng e := rfl
      rw [this]
      rcases setEng_eng_cases s f e { s.eng f with state := .idle, bits := 0, shift := 0x00, ack := false, pend := none }
        with h | ⟨rfl, h⟩ <;> rw [h]
  | engine f g hp hs hq ha => rcases setEng_eng_cases s f e g with h | ⟨rfl, h⟩ <;> rw [h]; exact hq
  | _ => rfl

theorem CmdWs.periph {s t : State} (h : CmdWs A B s t) (e : Nat) : (t.eng e).periph = (s.eng e).periph := by
  induction h with
  | refl => rfl
  | tail _ hc ih => exact (hc.periph e).trans ih

theorem Shaped.cmd {s t : State} (hs : Shaped s) (h : CmdW (InNodes s.cfg) B s t) : Shaped t := by
  cases h with
  | casc h => exact hs.act (E := fun _ => False) (Act.casc h)
  | setup p x hd hn =>
      refine ⟨by simpa using hs.pins, hs.nodes, hs.ports, hs.engines, fun q n hq => ?_, hs.enginePins⟩
      rcases setPin_pin_cases s p q x with h | ⟨rfl, h⟩ <;> rw [h] at hq
      · exact hs.nodeOf q n hq
      · exact hn n hq
  | driving r v => exact ⟨hs.pins, hs.nodes, by simpa using hs.ports, hs.engines, hs.nodeOf, hs.enginePins⟩
  | idle e =>
      refine hs.of_same rfl (by simp) (fun _ => rfl) fun f => ?_
      have : (cancel (.eng e) (s.setEng e { s.eng e with state := .idle, bits := 0, shift := 0x00, ack := false, pend := none })).eng f
        = (s.setEng e { s.eng e with state := .idle, bits := 0, shift := 0x00, ack := false, pend := none }).eng f := rfl
      rw [this]
      rcases setEng_eng_cases s e f { s.eng e with state := .idle, bits := 0, shift := 0x00, ack := false, pend := none }
        with h | ⟨rfl, h⟩ <;> rw [h] <;> exact ⟨rfl, rfl, rfl⟩
  | engine e g hp hst hq ha =>
      refine ⟨hs.pins, hs.nodes, hs.ports, by simpa using hs.engines, hs.nodeOf, fun f hf => ?_⟩
      rcases setEng_eng_cases s e f g with h | ⟨rfl, h⟩ <;> rw [h] at hf ⊢
      · exact hs.enginePins f hf
      · rcases ha with ⟨h1, h2, h3⟩ | ⟨-, ha⟩
        · rw [h2, h3]
          exact hs.enginePins e (h1 ▸ hf)
        · exact ha hf
  | out v => exact ⟨hs.pins, hs.nodes, hs.ports, hs.engines, hs.nodeOf, hs.enginePins⟩

theorem PendingBase.cmd {s t : State} (h : PendingBase s) (hc : CmdW (InNodes s.cfg) B s t) : PendingBase t := by
  cases hc with
  | casc hc => exact h.casc hc
  | idle e => exact (h.of_same (t := s.setEng e _) rfl rfl rfl rfl rfl).cancel (.eng e)
  | _ => exact h.of_same rfl rfl rfl rfl rfl

/-- The entries due: none but those there before, or later than the counter. -/
theorem CmdW.due {s t : State} (h : CmdW A B s t) : ∀ x ∈ t.pending, x ∈ s.pending ∨ s.cycle.toNat < x.due.toNat := by
  cases h with
  | casc h => exact h.due
  | idle e => exact fun x hx => .inl (List.mem_filter.mp hx).1
  | _ => exact fun x hx => .inl hx

theorem StatesEntered.cmd {s t : State} (h : StatesEntered s) (hc : CmdW A B s t) : StatesEntered t := by
  intro f
  cases hc with
  | casc hc => exact h.act (E := fun _ => False) (Act.casc hc) f
  | idle e =>
      have : (cancel (.eng e) (s.setEng e { s.eng e with state := .idle, bits := 0, shift := 0x00, ack := false, pend := none })).eng f
        = (s.setEng e { s.eng e with state := .idle, bits := 0, shift := 0x00, ack := false, pend := none }).eng f := rfl
      rw [this]
      rcases setEng_eng_cases s e f { s.eng e with state := .idle, bits := 0, shift := 0x00, ack := false, pend := none }
        with h' | ⟨rfl, h'⟩ <;> rw [h']
      · exact h f
      · exact ⟨by simp, by simp⟩
  | engine e g hp hs hq ha =>
      rcases setEng_eng_cases s e f g with h' | ⟨rfl, h'⟩ <;> rw [h']
      · exact h f
      · rw [hs]; exact h e
  | _ => exact h f

theorem DisabledBitsDefault.cmd {s t : State} (h : DisabledBitsDefault s) (hc : CmdW A B s t) : DisabledBitsDefault t := by
  cases hc with
  | casc hc => exact h.act (E := fun _ => False) (Act.casc hc)
  | driving r v =>
      intro q hq i hi hen
      rcases setPort_port_cases s r q { s.port r with driving := v } with h' | ⟨rfl, h'⟩ <;> rw [h'] <;> exact h _ hq i hi hen
  | _ => exact h

theorem EdgesHeld.cmd {s t : State} (hl : s.engines.length = s.cfg.numEngines) (h : EdgesHeld s) (hc : CmdW A B s t) :
    EdgesHeld t := by
  cases hc with
  | casc hc => exact h.casc hl hc
  | idle e =>
      intro f hf
      have heq : (cancel (.eng e) (s.setEng e { s.eng e with state := .idle, bits := 0, shift := 0x00, ack := false, pend := none })).eng f
        = (s.setEng e { s.eng e with state := .idle, bits := 0, shift := 0x00, ack := false, pend := none }).eng f := rfl
      rw [heq, hasEntry_cancel, setEng_eng]
      by_cases hef : e = f
      · subst hef
        rw [if_pos ⟨rfl, by rw [hl]; exact hf⟩]
        simp
      · rw [if_neg fun h' => hef h'.1]
        have := h f hf
        rw [this]
        exact ⟨fun k => ⟨fun hk => hef (by injection hk with hk; exact hk.symm), k⟩, fun k => k.2⟩
  | engine e g hp hs hq ha =>
      refine h.of_same rfl (fun f => ?_) fun _ => Iff.rfl
      rcases setEng_eng_cases s e f g with h' | ⟨rfl, h'⟩ <;> rw [h']
      exact hp
  | _ => exact h.of_same rfl (fun _ => rfl) fun _ => Iff.rfl

/-! ### One lemma per command body -/

/-- How a command's body may end. -/
abbrev CmdRes (A B : Nat → Prop) : State → Res → Prop := RunRes (CmdW A B)

theorem resolve_cmd (j : Job) (s : State) (hs : NodesIn A s) (hj : JobIn A j) : CmdRes A B s (resolve j s) :=
  RunRes.mono (fun _ _ => CmdW.casc) (resolve_casc j s hs hj)

theorem setDriving_cmd (p : Nat) (d : Drive) (s : State) (hs : NodesIn A s) : CmdRes A B s (setDriving p d s) := by
  unfold setDriving setDrivingVia
  split
  · exact RunRes.of_ok .refl
  · have h : CmdW A B s (s.setPin p { s.pin p with drive := d }) := .setup p _ rfl fun n hn => hs p n hn
    have hs' := hs.cmd h
    exact RunRes.step h (resolve_cmd _ _ hs' (jobOf_in hs' p))

theorem configurePin_cmd (p : Nat) (dir : Dir) (oc pu : Bool) (s : State) (hs : NodesIn A s) :
    CmdRes A B s (configurePin p dir oc pu s) := by
  unfold configurePin
  dsimp only
  split
  · exact RunRes.of_ok .refl
  · have h : CmdW A B s (s.setPin p { s.pin p with dir := dir, oc := oc, pu := pu }) := .setup p _ rfl fun n hn => hs p n hn
    have hs' := hs.cmd h
    exact RunRes.step h (resolve_cmd _ _ hs' (jobOf_in hs' p))

theorem attachPin_cmd (p n : Nat) (s : State) (hs : NodesIn A s) (hn : A n) : CmdRes A B s (attachPin p n s) := by
  unfold attachPin
  dsimp only
  split
  · exact RunRes.of_ok .refl
  · have h : CmdW A B s (s.setPin p { s.pin p with node := some n }) := .setup p _ rfl fun m hm => by cases hm; exact hn
    have hs' := hs.cmd h
    refine RunRes.step h (RunRes.andThen ?_ fun u _ hu => resolve_cmd _ u (hs'.cmds hu) hn)
    split
    · next m hm => exact resolve_cmd _ _ hs' (hs p m hm)
    · exact RunRes.of_ok .refl

theorem detachPin_cmd (p : Nat) (s : State) (hs : NodesIn A s) : CmdRes A B s (detachPin p s) := by
  unfold detachPin
  split
  · exact RunRes.of_ok .refl
  · next m hm =>
    have h : CmdW A B s (s.setPin p { s.pin p with node := none }) := .setup p _ rfl fun m hm => by cases hm
    have hs' := hs.cmd h
    exact RunRes.step h (RunRes.andThen (resolve_cmd _ _ hs' (hs p m hm)) fun u _ hu => resolve_cmd _ u (hs'.cmds hu) trivial)

theorem forEach_cmd {α : Type} {f : α → State → Res} (hf : ∀ x s, NodesIn A s → CmdRes A B s (f x s)) (xs : List α) (s : State)
    (hs : NodesIn A s) : CmdRes A B s (forEach f xs s) := by
  induction xs generalizing s with
  | nil => exact RunRes.of_ok .refl
  | cons x xs ih => exact RunRes.andThen (hf x s hs) fun u _ hu => ih u (hs.cmds hu)

theorem writePort_cmd (r : Nat) (v : Byte) (s : State) (hs : NodesIn A s) : CmdRes A B s (writePort r v s) := by
  unfold writePort
  have h : CmdW A B s (s.setPort r { s.port r with driving := v }) := .driving r v
  refine RunRes.step h (RunRes.andThen (forEach_cmd (fun i s hs => setDriving_cmd _ _ s hs) _ _ (hs.cmd h)) fun u _ hu => ?_)
  refine RunRes.of_ok (CmdWs.of_casc ?_)
  unfold reconcile
  refine foldl_casc _ fun i hi w hw => onPinChanged_casc r i w ?_
  rw [hw.enabledBits]
  exact hi

theorem driveSda_cmd (e : Nat) (bit : Bool) (s : State) (hs : NodesIn A s) : CmdRes A B s (driveSda e bit s) := by
  have h : CmdW A B s (s.setEng e { s.eng e with sdaDrive := !bit }) := .engine e _ rfl rfl rfl (.inl ⟨rfl, rfl, rfl⟩)
  exact RunRes.step h (setDriving_cmd _ _ _ (hs.cmd h))

theorem twReset_cmd (e : Nat) (s : State) (hs : NodesIn A s) : CmdRes A B s (twReset e s) := by
  unfold twReset
  have h : CmdW A B s _ := .idle e
  refine RunRes.step h ?_
  dsimp only
  split
  · exact driveSda_cmd e true _ (hs.cmd h)
  · exact RunRes.of_ok .refl

/-- A change of a driving state that meets no fault: the pin written, then a cascade; or nothing. -/
theorem setDriving_ok {p : Nat} {d : Drive} {s t : State} (h : setDriving p d s = .ok t) :
    (t = s ∧ (s.pin p).drive = d) ∨ Cascs AnyNode (s.setPin p { s.pin p with drive := d }) t := by
  unfold setDriving setDrivingVia at h
  split at h
  · next hd => cases h; exact .inl ⟨rfl, hd⟩
  · exact .inr ((resolve_casc (A := AnyNode) _ _ (nodesIn_any _) (jobIn_any _)).ok h)

/-- A change of a pin's configuration that meets no fault. -/
theorem configurePin_ok {p : Nat} {dir : Dir} {oc pu : Bool} {s t : State} (h : configurePin p dir oc pu s = .ok t) :
    (t = s ∧ (s.pin p).dir = dir ∧ (s.pin p).oc = oc ∧ (s.pin p).pu = pu) ∨
      Cascs AnyNode (s.setPin p { s.pin p with dir := dir, oc := oc, pu := pu }) t := by
  unfold configurePin at h
  dsimp only at h
  split at h
  · next hd => cases h; exact .inl ⟨rfl, hd⟩
  · exact .inr ((resolve_casc (A := AnyNode) _ _ (nodesIn_any _) (jobIn_any _)).ok h)

/-- What neither changes of an engine. -/
theorem setDriving_eng {p : Nat} {d : Drive} {s t : State} (h : setDriving p d s = .ok t) (e : Nat) :
    t.cfg = s.cfg ∧ SameEngineSetup s t e := by
  rcases setDriving_ok h with ⟨rfl, -⟩ | h
  · exact ⟨rfl, rfl, rfl, rfl, rfl, rfl, rfl, rfl, rfl, rfl, rfl⟩
  · obtain ⟨h0, h⟩ := Cascs.eng_fixed h e
    exact ⟨h0, h⟩

theorem configurePin_eng {p : Nat} {dir : Dir} {oc pu : Bool} {s t : State} (h : configurePin p dir oc pu s = .ok t) (e : Nat) :
    t.cfg = s.cfg ∧ SameEngineSetup s t e := by
  rcases configurePin_ok h with ⟨rfl, -⟩ | h
  · exact ⟨rfl, rfl, rfl, rfl, rfl, rfl, rfl, rfl, rfl, rfl, rfl⟩
  · obtain ⟨h0, h⟩ := Cascs.eng_fixed h e
    exact ⟨h0, h⟩

end

/-- The engine a command attaches. -/
def attaches : Instr → Nat → Prop
  | .twAttach a _ _, e => e = a.toNat
  | _, _ => False

/-- The body of `TW_ATTACH` is a sequence of small writes of a command that may attach the engine. -/
theorem attachEngine_cmd {B : Nat → Prop} {e : Nat} {scl sda : Byte} {s : State} (hs : Shaped s) (hB : B e)
    (he : e < s.cfg.numEngines) (hscl : scl.toNat < s.cfg.numPins) (hsda : sda.toNat < s.cfg.numPins) :
    CmdRes (InNodes s.cfg) B s (attachEngine e scl sda s) := by
  have hn := hs.nodesIn
  unfold attachEngine
  refine RunRes.andThen (twReset_cmd _ s hn) fun u _ hu => ?_
  have hnu := hn.cmds hu
  have hcu := (CmdWs.globals hu).1
  dsimp only
  have h1 : CmdW (InNodes s.cfg) B u (u.setEng e { u.eng e with attached := false, sclPin := scl, sdaPin := sda }) :=
    .engine _ _ rfl rfl rfl (.inr ⟨hB, fun ha => by cases ha⟩)
  have hlen : (u.setEng e { u.eng e with attached := false, sclPin := scl, sdaPin := sda }).engines.length
      = s.cfg.numEngines := by
    have : ∀ x, CmdWs (InNodes s.cfg) B s x → Shaped x ∧ x.cfg = s.cfg := by
      intro x hx
      induction hx with
      | refl => exact ⟨hs, rfl⟩
      | tail _ hc ih => exact ⟨ih.1.cmd (by rw [ih.2]; exact hc), hc.globals.1.trans ih.2⟩
    obtain ⟨a, b⟩ := this _ (hu.tail h1)
    rw [a.engines, b]
  have hpins : ((u.setEng e { u.eng e with attached := false, sclPin := scl, sdaPin := sda }).eng e).sclPin = scl ∧
      ((u.setEng e { u.eng e with attached := false, sclPin := scl, sdaPin := sda }).eng e).sdaPin = sda := by
    rw [setEng_eng_self _ _ _ (by rw [setEng_engines_length] at hlen; rw [hlen]; exact he)]
    exact ⟨rfl, rfl⟩
  have hcv : (u.setEng e { u.eng e with attached := false, sclPin := scl, sdaPin := sda }).cfg = s.cfg := hcu
  generalize u.setEng e { u.eng e with attached := false, sclPin := scl, sdaPin := sda } = u' at h1 hpins hcv ⊢
  refine RunRes.step h1 (RunRes.andThen (configurePin_cmd _ _ _ _ _ (hnu.cmd h1)) fun v hv' hv => ?_)
  have hnv := (hnu.cmd h1).cmds hv
  refine RunRes.andThen (configurePin_cmd _ _ _ _ v hnv) fun w hw' hw => ?_
  refine RunRes.andThen (setDriving_cmd _ _ w (hnv.cmds hw)) fun z hz' hz => ?_
  obtain ⟨c1, k1⟩ := configurePin_eng hv' e
  obtain ⟨c2, k2⟩ := configurePin_eng hw' e
  obtain ⟨c3, k3⟩ := setDriving_eng hz' e
  have hzc : z.cfg = s.cfg := c3.trans (c2.trans (c1.trans hcv))
  have hz1 : (z.eng e).sclPin = scl := k3.2.1.trans (k2.2.1.trans (k1.2.1.trans hpins.1))
  have hz2 : (z.eng e).sdaPin = sda := k3.2.2.1.trans (k2.2.2.1.trans (k1.2.2.1.trans hpins.2))
  have h5 : CmdW (InNodes s.cfg) B z (z.setEng e { z.eng e with sdaDrive := false }) :=
    .engine _ _ rfl rfl rfl (.inl ⟨rfl, rfl, rfl⟩)
  refine RunRes.of_ok ((Relation.ReflTransGen.single h5).tail (.engine _ _ rfl rfl rfl (.inr ⟨hB, fun _ => ?_⟩)))
  dsimp only
  rcases setEng_eng_cases z e e { z.eng e with sdaDrive := false } with h | ⟨-, h⟩ <;>
    rw [h] <;> rw [hz1, hz2, setEng_cfg, hzc] <;> exact ⟨hscl, hsda⟩

/-- Every command other than `ADVANCE` is a sequence of its small writes, or one and then a fault, or a fault before any. -/
theorem exec_cmd (i : Instr) (s : State) (hs : Shaped s) (hi : ∀ imm, i ≠ .advance imm) :
    ∃ r, exec i s = commit r ∧ (CmdRes (InNodes s.cfg) (attaches i) s r ∨ r = .halt (faulted .badIndex s) ∨ r = .halt (faulted .pinConflict s)) := by
  have chk : ∀ (b : Bool) (f : State → Res),
      (b = true → CmdRes (InNodes s.cfg) (attaches i) s (f s) ∨ f s = .halt (faulted .badIndex s) ∨ f s = .halt (faulted .pinConflict s)) →
      CmdRes (InNodes s.cfg) (attaches i) s (checked b s f) ∨ checked b s f = .halt (faulted .badIndex s) ∨
        checked b s f = .halt (faulted .pinConflict s) := by
    intro b f hf
    unfold checked
    cases b
    · exact .inr (.inl rfl)
    · exact hf rfl
  have hn := hs.nodesIn
  cases i with
  | now => exact ⟨_, rfl, .inl (RunRes.of_ok (.single (.out _)))⟩
  | advance imm => exact absurd rfl (hi imm)
  | pinDrive p l => exact ⟨_, rfl, chk _ _ fun _ => .inl (setDriving_cmd _ _ s hn)⟩
  | pinRead p => exact ⟨_, rfl, chk _ _ fun _ => .inl (RunRes.of_ok (.single (.out _)))⟩
  | pinConfig p d oc pu => exact ⟨_, rfl, chk _ _ fun _ => .inl (configurePin_cmd _ _ _ _ s hn)⟩
  | pinAnalog p mv => exact ⟨_, rfl, chk _ _ fun _ => .inl (setDriving_cmd _ _ s hn)⟩
  | nodeAttach p n =>
      refine ⟨_, rfl, chk _ _ fun hb => .inl (attachPin_cmd _ _ s hn ?_)⟩
      simp only [pinOk, nodeOk, Bool.and_eq_true, decide_eq_true_eq] at hb
      exact hb.2
  | nodeDetach p => exact ⟨_, rfl, chk _ _ fun _ => .inl (detachPin_cmd _ s hn)⟩
  | nodeRead n => exact ⟨_, rfl, chk _ _ fun _ => .inl (RunRes.of_ok (.single (.out _)))⟩
  | portWrite r v => exact ⟨_, rfl, chk _ _ fun _ => .inl (writePort_cmd _ _ s hn)⟩
  | portRead r =>
      refine ⟨_, rfl, chk _ _ fun _ => .inl ?_⟩
      dsimp only
      split
      · exact RunRes.of_ok (.single (.out _))
      · exact RunRes.of_ok ((Relation.ReflTransGen.single (CmdW.casc (.diag _ _ _))).tail (.out _))
  | twConfigure e a m =>
      exact ⟨_, rfl, chk _ _ fun _ => .inl (RunRes.of_ok (.single (.engine _ _ rfl rfl rfl (.inl ⟨rfl, rfl, rfl⟩))))⟩
  | twAttach e scl sda =>
      refine ⟨_, rfl, chk _ _ fun hb => ?_⟩
      simp only [engOk, pinOk, Bool.and_eq_true, decide_eq_true_eq] at hb
      obtain ⟨⟨he, hscl⟩, hsda⟩ := hb
      split
      · exact .inr (.inr rfl)
      · left
        exact attachEngine_cmd hs rfl he hscl hsda
  | twReset e => exact ⟨_, rfl, chk _ _ fun _ => .inl (twReset_cmd _ s hn)⟩
  | twStatus e => exact ⟨_, rfl, chk _ _ fun _ => .inl (RunRes.of_ok (.single (.out _)))⟩

/-! ### `ADVANCE` -/

/-- A firing that meets no fault is made of a callback's small writes. -/
theorem Ready.fire_acts {target : Cycle} {s t : State} {x : Entry} (hs : Ready s) (hx : nextDue target s = some x)
    (ht : fire x s = .ok t) : Acts (InNodes s.cfg) (FiredBy x) (beginFiring x s) t := by
  obtain ⟨hmem, -, -⟩ := nextDue_some hx
  have hin := hs.pending.inBlock x hmem
  have := fire_act (A := InNodes s.cfg) x s hs.shaped.nodesIn (by
    cases ho : x.owner with
    | eng e => rw [ho] at hin; exact hin
    | node n => rw [ho] at hin; exact hin)
  rw [ht] at this
  exact this

/-- What every firing keeps, where it goes on as where it faults, holds where `AdvanceTo` ends, but for the last write of the
counter or the fault record. `P` is kept from the start of a firing through the small writes of that entry's callback. -/
theorem advanceTo_keeps_of {P : State → Prop}
    (hf : ∀ s x t, x ∈ s.pending → Ready s → P s → Acts (InNodes s.cfg) (FiredBy x) (beginFiring x s) t → P t)
    (target : Cycle) {s : State} (hs : Ready s) (hp : P s) :
    (∃ u, P u ∧ Ready u ∧ nextDue target u = none ∧ advanceTo target s = .ok { u with cycle := target }) ∨
    ∃ u t, P u ∧ HaltOf u t ∧ advanceTo target s = .halt t := by
  have key : ∀ u, Relation.ReflTransGen (Fires target) s u → P u := fun u hu =>
    fires_keep (fun a b x hr hx hab hp => hf a x b (nextDue_some hx).1 hr hp (hr.fire_acts hx hab)) hs hu hp
  rcases advanceTo_fires target hs with ⟨u, h1, h2, h3, h4⟩ | ⟨u, x, t, h1, h2, h3, h4, h5⟩
  · exact .inl ⟨u, key u h1, h2, h3, h4⟩
  · obtain ⟨v, hv, hvt, -⟩ := h2.fire_halt h3 h4
    exact .inr ⟨v, t, hf u x v (nextDue_some h3).1 h2 (key u h1) hv, hvt, h5⟩

/-- The same for what every firing starts with and every small write of a callback keeps. -/
theorem advanceTo_keeps {P : State → Prop} (hb : ∀ s x, x ∈ s.pending → Ready s → P s → P (beginFiring x s))
    (ha : ∀ (A E : Nat → Prop) s t, Act A E s t → P s → P t) (target : Cycle) {s : State} (hs : Ready s) (hp : P s) :
    (∃ u, P u ∧ Ready u ∧ nextDue target u = none ∧ advanceTo target s = .ok { u with cycle := target }) ∨
    ∃ u t, P u ∧ HaltOf u t ∧ advanceTo target s = .halt t :=
  advanceTo_keeps_of (fun s x _ hx hr hp h => Acts.keeps (fun a b hc => ha _ _ a b hc) h (hb s x hx hr hp)) target hs hp

/-! ### A step -/

/-- A step that answers a next state runs a command, or raises a fault on a word that decodes to none. -/
theorem step_cases {s t : State} (ht : step s = .next t) :
    s.faultCode = 0 ∧ ((∃ i, exec i s = .next t) ∨ ∃ c, t = faulted c s) := by
  unfold step at ht
  split at ht
  · cases ht
  · next h =>
    refine ⟨by simpa using h, ?_⟩
    split at ht
    · cases ht
    · split at ht
      · exact .inl ⟨_, ht⟩
      · cases ht; exact .inr ⟨_, rfl⟩

/-- Every fault has a code. -/
theorem faulted_ne_zero (c : FaultCode) (s : State) : (faulted c s).faultCode ≠ 0 := by
  rw [faulted_faultCode]
  cases c <;> decide

/-- A block in order is in order everywhere. -/
theorem InOrder.allGood {s : State} (h : InOrder s) : AllGood s :=
  allGood_of h.shaped h.resolved h.settle h.ports h.latches

/-- A running block in order can advance. -/
theorem InOrder.ready {s : State} (h : InOrder s) (hf : s.faultCode = 0) : Ready s :=
  ⟨h.shaped, h.pending.base, hf⟩

/-! ### An engine that is not attached has no entry -/

/-- One engine of `UnattachedNoEntry`. -/
def NoStray (f : Nat) (s : State) : Prop :=
  (s.eng f).attached = false → ¬ hasEntry s (.eng f)

theorem NoStray.of_same {f : Nat} {s t : State} (h : NoStray f s) (ha : (t.eng f).attached = (s.eng f).attached)
    (hp : t.pending = s.pending) : NoStray f t := by
  unfold NoStray hasEntry at h ⊢
  rw [ha, hp]
  exact h

theorem NoStray.cancel {f : Nat} {s : State} (h : NoStray f s) (o : Owner) : NoStray f (cancel o s) := by
  intro ha
  rw [hasEntry_cancel]
  exact fun hc => h ha hc.2

theorem NoStray.casc {A : Nat → Prop} {f : Nat} {s t : State} (h : NoStray f s) (hc : Casc A s t) : NoStray f t := by
  intro ha
  rw [(hc.eng_fixed f).2.1] at ha
  have := h ha
  cases hc with
  | settleAt n due hn lo hi => rw [hasEntry_scheduled]; simp [this]
  | cancelNode n => exact h.cancel _ ha
  | edge e b he hae hi =>
      rw [hasEntry_scheduled]
      rintro (hf | hf)
      · injection hf with hf
        subst hf
        rw [ha] at hae
        cases hae
      · exact this hf
  | drop e he hae => exact h.cancel (.eng e) ha
  | _ => exact this

theorem NoStray.act {A E : Nat → Prop} {f : Nat} {s t : State} (h : NoStray f s) (hc : Act A E s t) : NoStray f t := by
  cases hc with
  | casc hc => exact h.casc hc
  | row e g hg =>
      refine h.of_same ?_ rfl
      rcases setEng_eng_cases s e f g with h' | ⟨rfl, h'⟩ <;> rw [h']
      exact hg.attached
  | drive e bit he => exact h

theorem NoStray.begin {f : Nat} {s : State} (h : NoStray f s) (x : Entry) : NoStray f (beginFiring x s) := by
  refine (h.cancel x.owner).of_same ?_ (beginFiring_fields x s).2.2.2.2.2.2.2.2.1
  rcases beginFiring_eng x s f with h' | h' <;> rw [h'] <;> rfl

/-- A command keeps it for every engine it does not attach. -/
theorem NoStray.cmd {A B : Nat → Prop} {f : Nat} {s t : State} (h : NoStray f s) (hf : ¬ B f) (hc : CmdW A B s t) : NoStray f t := by
  cases hc with
  | casc hc => exact h.casc hc
  | idle e =>
      refine (NoStray.of_same (t := s.setEng e _) h ?_ rfl).cancel (.eng e)
      rcases setEng_eng_cases s e f { s.eng e with state := .idle, bits := 0, shift := 0x00, ack := false, pend := none }
        with h' | ⟨rfl, h'⟩ <;> rw [h']
  | engine e g hp hst hq ha =>
      refine h.of_same ?_ rfl
      rcases setEng_eng_cases s e f g with h' | ⟨rfl, h'⟩ <;> rw [h']
      rcases ha with ha | ha
      · exact ha.1
      · exact absurd ha.1 hf
  | _ => exact h

/-- An engine that `TW_ATTACH` has attached is attached. -/
theorem attachEngine_attached {e : Nat} {scl sda : Byte} {s t : State} (hs : Shaped s) (he : e < s.cfg.numEngines)
    (h : attachEngine e scl sda s = .ok t) : (t.eng e).attached = true := by
  have hlen : ∀ {r : Res} {u v : State}, r = .ok v → CmdRes (InNodes u.cfg) (fun _ => False) u r → Shaped u →
      e < u.cfg.numEngines → Shaped v ∧ e < v.cfg.numEngines := by
    intro r u v hr hc hu hlt
    subst hr
    have key : ∀ w, CmdWs (InNodes u.cfg) (fun _ => False) u w → Shaped w ∧ w.cfg = u.cfg := by
      intro w hw
      induction hw with
      | refl => exact ⟨hu, rfl⟩
      | tail _ hc ih => exact ⟨ih.1.cmd (by rw [ih.2]; exact hc), hc.globals.1.trans ih.2⟩
    obtain ⟨a, b⟩ := key v hc
    exact ⟨a, by rw [b]; exact hlt⟩
  unfold attachEngine at h
  obtain ⟨u, hu, h⟩ := andThen_eq_ok h
  obtain ⟨su, lu⟩ := hlen hu (twReset_cmd e s hs.nodesIn) hs he
  dsimp only at h
  obtain ⟨v, hv, h⟩ := andThen_eq_ok h
  obtain ⟨w, hw, h⟩ := andThen_eq_ok h
  obtain ⟨z, hz, h⟩ := andThen_eq_ok h
  have su' : Shaped (u.setEng e { u.eng e with attached := false, sclPin := scl, sdaPin := sda }) := by
    refine ⟨su.pins, su.nodes, su.ports, by simpa using su.engines, su.nodeOf, fun f hf => ?_⟩
    rcases setEng_eng_cases u e f { u.eng e with attached := false, sclPin := scl, sdaPin := sda } with h' | ⟨rfl, h'⟩ <;>
      rw [h'] at hf ⊢
    · exact su.enginePins f hf
    · cases hf
  obtain ⟨sv, lv⟩ := hlen hv (configurePin_cmd _ _ _ _ _ su'.nodesIn) su' lu
  obtain ⟨sw, lw⟩ := hlen hw (configurePin_cmd _ _ _ _ _ sv.nodesIn) sv lv
  obtain ⟨sz, lz⟩ := hlen hz (setDriving_cmd _ _ _ sw.nodesIn) sw lw
  cases h
  unfold latchLines
  rw [setEng_eng_self _ _ _ (by simpa [sz.engines] using lz)]

end Sys2Proof.Machine
end

