-- ==== Sys2Proof/Laws/Check.lean ====
section
/-! SUPPORT. The conditions statements use as plain computations over a concrete state, each with the lemma that it answers `true`
only where the condition holds: with them a witness is one evaluation. -/

namespace Sys2Proof.Machine

/-- `Shaped`, computed. -/
def checkShaped (s : State) : Bool :=
  decide (s.pins.length = s.cfg.numPins) && decide (s.nodes.length = s.cfg.numNodes)
    && decide (s.ports.length = s.cfg.numPorts) && decide (s.engines.length = s.cfg.numEngines)
    && (s.pins.all fun x => match x.node with | some n => decide (n < s.cfg.numNodes) | none => true)
    && s.engines.all fun g => !g.attached || (decide (g.sclPin.toNat < s.cfg.numPins) && decide (g.sdaPin.toNat < s.cfg.numPins))

theorem getD_mem_or {α : Type} (xs : List α) (i : Nat) (d : α) : xs.getD i d ∈ xs ∨ xs.getD i d = d := by
  by_cases h : i < xs.length
  · left
    rw [List.getD_eq_getElem _ _ h]
    exact List.getElem_mem h
  · right
    exact List.getD_eq_default _ _ (by omega)

theorem checkShaped_sound {s : State} (h : checkShaped s = true) : Shaped s := by
  simp only [checkShaped, Bool.and_eq_true, decide_eq_true_eq, List.all_eq_true] at h
  obtain ⟨⟨⟨⟨⟨h1, h2⟩, h3⟩, h4⟩, h5⟩, h6⟩ := h
  refine ⟨h1, h2, h3, h4, fun p n hn => ?_, fun e he => ?_⟩
  · rcases getD_mem_or s.pins p Pin.reset with h | h
    · have := h5 _ h
      rw [show s.pins.getD p Pin.reset = s.pin p from rfl, hn] at this
      simpa using this
    · rw [show s.pin p = s.pins.getD p Pin.reset from rfl, h] at hn
      cases hn
  · rcases getD_mem_or s.engines e Engine.reset with h | h
    · have := h6 _ h
      rw [show s.engines.getD e Engine.reset = s.eng e from rfl, he] at this
      simpa using this
    · rw [show s.eng e = s.engines.getD e Engine.reset from rfl, h] at he
      cases he

/-- `Owner.inBlock`, computed. -/
def checkOwner (c : Config) : Owner → Bool
  | .eng e => decide (e < c.numEngines)
  | .node n => decide (n < c.numNodes)

theorem checkOwner_sound {c : Config} {o : Owner} (h : checkOwner c o = true) : o.inBlock c := by
  cases o <;> simpa [checkOwner, Owner.inBlock] using h

/-- `List.Pairwise` of a computed relation, computed. -/
def checkPairs {α : Type} (r : α → α → Bool) : List α → Bool
  | [] => true
  | x :: xs => xs.all (r x) && checkPairs r xs

theorem checkPairs_sound {α : Type} {r : α → α → Bool} {xs : List α} (h : checkPairs r xs = true) :
    xs.Pairwise fun x y => r x y = true := by
  induction xs with
  | nil => exact .nil
  | cons x xs ih =>
      simp only [checkPairs, Bool.and_eq_true, List.all_eq_true] at h
      exact .cons h.1 (ih h.2)

/-- `PendingOk` of a running block, computed. -/
def checkPending (s : State) : Bool :=
  checkPairs (fun x y => decide (x.owner ≠ y.owner) && decide (x.seq < y.seq)) s.pending
    && s.pending.all fun x => decide (x.seq < s.nextSeq) && checkOwner s.cfg x.owner && decide (s.cycle.toNat < x.due.toNat)

theorem checkPending_sound {s : State} (h : checkPending s = true) : PendingOk s := by
  simp only [checkPending, Bool.and_eq_true, List.all_eq_true, decide_eq_true_eq] at h
  have h1 := checkPairs_sound h.1
  simp only [Bool.and_eq_true, decide_eq_true_eq] at h1
  exact ⟨h1.imp fun h => h.1, h1.imp fun h => h.2, fun x hx => (h.2 x hx).1.1, fun x hx => checkOwner_sound (h.2 x hx).1.2,
    fun _ x hx => (h.2 x hx).2⟩

/-- A property of every number below a bound, computed. -/
def checkBelow (k : Nat) (f : Nat → Bool) : Bool := (List.range k).all f

theorem checkBelow_sound {k : Nat} {f : Nat → Bool} (h : checkBelow k f = true) (i : Nat) (hi : i < k) : f i = true :=
  List.all_eq_true.mp h i (List.mem_range.mpr hi)

/-- `AnalogSet`, computed. -/
def checkAnalog (s : State) (n : Nat) (x : Node) : Bool :=
  let xs := nodeSources s n
  decide (x.cth = nodeC s n) && (xs.isEmpty || (decide (x.vt = theveninV xs) && decide (x.zth = theveninZ xs)))
    && if x.settling then !xs.isEmpty && decide (x.cth ≠ 0) && decide (s.cfg.settleEps < |x.voltage - x.vt|)
       else decide (x.voltage = x.vt)

theorem checkAnalog_sound {s : State} {n : Nat} {x : Node} (h : checkAnalog s n x = true) : AnalogSet s n x := by
  simp only [checkAnalog, Bool.and_eq_true, Bool.or_eq_true, decide_eq_true_eq, List.isEmpty_iff] at h
  obtain ⟨⟨h1, h2⟩, h3⟩ := h
  refine ⟨h1, fun hx => (h2.resolve_left hx).1, fun hx => (h2.resolve_left hx).2, fun hs => ?_, fun hs => ?_⟩
  · simpa [hs, and_assoc] using h3
  · simpa [hs] using h3

/-- `Resolved`, computed. -/
def checkResolved (s : State) : Bool :=
  checkBelow s.cfg.numNodes (fun n =>
      decide ((s.node n).level = if analogMode s n then levelOf s.cfg (s.node n).voltage else digitalLevel s n)
      && decide ((s.node n).contended = if analogMode s n then false
          else (resolveDigital ((members s n).map fun p => contribution (s.pin p)) (pullup s n)).2)
      && (members s n).all (fun p => decide ((s.pin p).driven = (s.node n).level))
      && (!(s.node n).settling || analogMode s n)
      && (!analogMode s n || checkAnalog s n (s.node n)))
    && checkBelow s.cfg.numPins fun p => (s.pin p).node.isSome || decide ((s.pin p).driven = aloneLevel s p)

theorem checkResolved_sound {s : State} (h : checkResolved s = true) : Resolved s := by
  simp only [checkResolved, Bool.and_eq_true] at h
  refine ⟨fun n hn => ?_, fun p hp hno => ?_⟩
  · have := checkBelow_sound h.1 n hn
    simp only [Bool.and_eq_true, decide_eq_true_eq, List.all_eq_true] at this
    obtain ⟨⟨⟨⟨h1, h2⟩, h3⟩, h4⟩, h5⟩ := this
    refine ⟨h1, h2, fun p hp hpn => h3 p (mem_members.mpr ⟨hp, hpn⟩), fun hs => ?_, fun ha => checkAnalog_sound ?_⟩
    · rw [hs] at h4
      simpa using h4
    · rw [ha] at h5
      simpa using h5
  · have := checkBelow_sound h.2 p hp
    rw [hno] at this
    simpa using this

/-- `hasEntry`, computed. -/
def checkEntry (s : State) (o : Owner) : Bool := s.pending.any fun x => decide (x.owner = o)

theorem checkEntry_iff {s : State} {o : Owner} : checkEntry s o = true ↔ hasEntry s o := by
  simp [checkEntry, hasEntry]

/-- `logic l = some b → x = b`, computed. -/
def checkHolds (l : Level) (x : Bool) : Bool :=
  match logic l with
  | some b => x == b
  | none => true

theorem checkHolds_sound {l : Level} {x : Bool} (h : checkHolds l x = true) (b : Bool) (hb : logic l = some b) : x = b := by
  simpa [checkHolds, hb] using h

/-- `InOrder` of a running block, computed. -/
def checkInOrder (s : State) : Bool :=
  checkShaped s && checkPending s && checkResolved s
    && checkBelow s.cfg.numNodes (fun n => checkEntry s (.node n) == (s.node n).settling)
    && checkBelow s.cfg.numPorts (fun r =>
        (enabledBits s r).all fun i => checkHolds (s.pin (boundPin s r i)).driven ((s.port r).driven.getLsbD i))
    && checkBelow s.cfg.numEngines (fun e => !(s.eng e).attached ||
        (checkHolds (s.pin (s.eng e).sclPin.toNat).driven (s.eng e).sclSeen
          && checkHolds (s.pin (s.eng e).sdaPin.toNat).driven (s.eng e).sdaSeen))
    && checkBelow s.cfg.numEngines (fun e => (s.eng e).pend.isSome == checkEntry s (.eng e))
    && decide (s.depth = 0)

theorem checkInOrder_sound {s : State} (h : checkInOrder s = true) : InOrder s := by
  simp only [checkInOrder, Bool.and_eq_true, decide_eq_true_eq] at h
  obtain ⟨⟨⟨⟨⟨⟨⟨h1, h2⟩, h3⟩, h4⟩, h5⟩, h6⟩, h7⟩, h8⟩ := h
  refine ⟨checkShaped_sound h1, checkPending_sound h2, checkResolved_sound h3, fun n hn => ?_, fun r hr i hi b hb => ?_,
    fun e he ha => ?_, fun _ e he => ?_, h8⟩
  · have := checkBelow_sound h4 n hn
    rw [← checkEntry_iff, eq_of_beq this]
  · exact checkHolds_sound (List.all_eq_true.mp (checkBelow_sound h5 r hr) i hi) b hb
  · have := checkBelow_sound h6 e he
    rw [ha] at this
    simp only [Bool.not_true, Bool.false_or, Bool.and_eq_true] at this
    exact ⟨checkHolds_sound this.1, checkHolds_sound this.2⟩
  · have := checkBelow_sound h7 e he
    rw [← checkEntry_iff, ← eq_of_beq this]
    cases (s.eng e).pend <;> simp

/-- `Calm`, computed. -/
def checkCalm (s : State) : Bool :=
  decide (s.depth = 0) && decide (s.cfg.numEngines < s.cfg.maxNotifyDepth) && decide (s.cycle.toNat + 1 ≤ maxCycle)
    && checkBelow s.cfg.numPins fun p => (s.pin p).node.isNone || !(s.pin p).drive.isAnalog

theorem checkCalm_sound {s : State} (h : checkCalm s = true) : Calm s := by
  simp only [checkCalm, Bool.and_eq_true, decide_eq_true_eq] at h
  obtain ⟨⟨⟨h1, h2⟩, h3⟩, h4⟩ := h
  refine ⟨h1, h2, h3, fun n => ?_⟩
  unfold analogMode
  rw [List.any_eq_false]
  intro p hp
  obtain ⟨hlt, hn⟩ := mem_members.mp hp
  have := checkBelow_sound h4 p hlt
  rw [hn] at this
  simpa using this

/-- `NoEngineAttached`, computed. -/
def checkNoEngine (s : State) : Bool := checkBelow s.cfg.numEngines fun e => !(s.eng e).attached

theorem checkNoEngine_sound {s : State} (h : checkNoEngine s = true) : NoEngineAttached s := fun e he => by
  simpa using checkBelow_sound h e he

end Sys2Proof.Machine
end

