-- ==== Sys2Proof/Laws/Notify.lean ====
section
/-! SUPPORT. A chain of notifications, and what telling the port registers of a pin writes (42_pin_node.md R152; 44_port_register.md
R216). -/

namespace Sys2Proof.Machine

/-- A row of resolutions or notifications is a chain, the first one's fault ending it. -/
theorem forEach_eq_foldl {α : Type} (f : α → State → Res) (xs : List α) (s : State) :
    forEach f xs s = xs.foldl (fun r a => r.andThen (f a)) (.ok s) := by
  have key : ∀ (ys : List α) (r : Res), r.andThen (forEach f ys) = ys.foldl (fun r a => r.andThen (f a)) r := by
    intro ys
    induction ys with
    | nil => intro r; cases r <;> rfl
    | cons a ys ih => intro r; rw [List.foldl_cons, ← ih]; cases r <;> rfl
  exact key xs (.ok s)

/-- `u` is `s` but for the bits named by `P`, which hold pin `p`'s value where it has one (R216). -/
structure Told (p : Nat) (P : Nat → Nat → Prop) (s u : State) : Prop where
  rest : { u with ports := s.ports } = s
  length : u.ports.length = s.ports.length
  driving : ∀ r, (u.port r).driving = (s.port r).driving
  told : ∀ r i, i < 8 → P r i → (u.port r).driven.getLsbD i = (logic (s.pin p).driven).getD ((s.port r).driven.getLsbD i)
  other : ∀ r i, i < 8 → ¬ P r i → (u.port r).driven.getLsbD i = (s.port r).driven.getLsbD i

theorem Told.same {p : Nat} {P : Nat → Nat → Prop} {s u : State} (h : Told p P s u) :
    u.cfg = s.cfg ∧ u.pins = s.pins :=
  ⟨congrArg (·.cfg) h.rest, congrArg (·.pins) h.rest⟩

theorem told_refl (p : Nat) (s : State) : Told p (fun _ _ => False) s s :=
  ⟨rfl, rfl, fun _ => rfl, fun _ _ _ h => h.elim, fun _ _ _ _ => rfl⟩

theorem Told.mono {p : Nat} {P Q : Nat → Nat → Prop} {s u : State} (h : Told p P s u) (hPQ : ∀ r i, i < 8 → (P r i ↔ Q r i)) :
    Told p Q s u :=
  ⟨h.rest, h.length, h.driving, fun r i hi hq => h.told r i hi ((hPQ r i hi).mpr hq),
    fun r i hi hq => h.other r i hi fun hp => hq ((hPQ r i hi).mp hp)⟩

theorem Told.trans {p : Nat} {P Q : Nat → Nat → Prop} {s u v : State} (h : Told p P s u) (k : Told p Q u v) :
    Told p (fun r i => P r i ∨ Q r i) s v := by
  have hp : u.pin p = s.pin p := by unfold State.pin; rw [h.same.2]
  refine ⟨?_, k.length.trans h.length, fun r => (k.driving r).trans (h.driving r), fun r i hi hpq => ?_, fun r i hi hpq => ?_⟩
  · have := h.rest
    rw [← k.rest] at this
    exact this
  · by_cases hq : Q r i
    · rw [k.told r i hi hq, hp]
      by_cases hP : P r i
      · rw [h.told r i hi hP]; cases logic (s.pin p).driven <;> rfl
      · rw [h.other r i hi hP]
    · rw [k.other r i hi hq, h.told r i hi (hpq.resolve_right hq)]
  · rw [k.other r i hi fun hq => hpq (.inr hq), h.other r i hi fun hP => hpq (.inl hP)]

theorem onPinChanged_told {r i : Nat} {s : State} (hr : r < s.ports.length) (hi : i < 8) :
    Told (boundPin s r i) (fun q j => q = r ∧ j = i) s (onPinChanged r i s) := by
  unfold onPinChanged
  split
  · next b hb =>
    refine ⟨rfl, by simp, fun q => ?_, ?_, fun q j hj hn => ?_⟩
    · rcases setPort_port_cases s r q { s.port r with driven := setBit (s.port r).driven i b } with h | ⟨rfl, h⟩ <;> rw [h]
    · rintro q j hj ⟨rfl, rfl⟩
      rw [setPort_port_self _ _ _ hr, setBit_getLsbD _ _ _ _ hi, if_pos rfl, hb]; rfl
    · rcases setPort_port_cases s r q { s.port r with driven := setBit (s.port r).driven i b } with h | ⟨rfl, h⟩
      · rw [h]
      · rw [h, setBit_getLsbD _ _ _ _ hi, if_neg fun h' => hn ⟨rfl, h'⟩]
  · next hb =>
    exact ⟨rfl, rfl, fun _ => rfl, fun q j _ _ => by rw [hb]; rfl, fun _ _ _ _ => rfl⟩

theorem foldl_told {α : Type} {p : Nat} {f : State → α → State} {P : α → Nat → Nat → Prop} (xs : List α) (s : State)
    (hf : ∀ x ∈ xs, ∀ u, u.cfg = s.cfg → u.ports.length = s.ports.length → Told p (P x) u (f u x)) :
    Told p (fun r i => ∃ x ∈ xs, P x r i) s (xs.foldl f s) := by
  induction xs generalizing s with
  | nil => exact (told_refl p s).mono (by simp)
  | cons x xs ih =>
    have h := hf x (by simp) s rfl rfl
    refine (h.trans (ih (f s x) fun y hy u hc hl => hf y (by simp [hy]) u (hc.trans h.same.1) (hl.trans h.length))).mono ?_
    simp

/-- `Notify(p)` tells the port registers first: every enabled bit bound to the pin holds its definite value, and nothing else
has changed (R152, R216). -/
theorem notifyPorts_told (p : Nat) {s : State} (hs : Shaped s) :
    Told p (fun r i => (s.portCfg r).enable.getLsbD i = true ∧ (s.portCfg r).base + i = p) s
      ((List.range s.cfg.numPorts).foldl (fun s r => notifyPort p r s) s) := by
  refine (foldl_told (P := fun r q i => q = r ∧ i ∈ enabledBits s r ∧ boundPin s r i = p) _ s fun r hr u hc hl => ?_).mono
    fun r i hi => ?_
  · have hr' : r < u.ports.length := by rw [hl, hs.ports]; exact List.mem_range.mp hr
    unfold notifyPort
    refine (foldl_told (P := fun i q j => q = r ∧ j = i) _ u fun i hi v hcv hlv => ?_).mono fun q j hj => ?_
    · obtain ⟨hi1, hi2⟩ := List.mem_filter.mp hi
      have h := onPinChanged_told (r := r) (i := i) (s := v) (by rwa [hlv]) (enabledBits_lt hi1)
      rwa [boundPin_congr hcv, of_decide_eq_true hi2] at h
    · simp only [List.mem_filter, decide_eq_true_eq, enabledBits_congr hc, boundPin_congr hc]
      grind
  · simp only [List.mem_range, mem_enabledBits, boundPin]
    constructor
    · rintro ⟨r, -, rfl, ⟨-, he⟩, hb⟩; exact ⟨he, hb⟩
    · rintro ⟨he, hb⟩
      refine ⟨r, ?_, rfl, ⟨hi, he⟩, hb⟩
      by_contra h
      have h' : s.cfg.ports.length ≤ r := by simpa [Config.numPorts] using h
      simp [State.portCfg, h'] at he

end Sys2Proof.Machine
end

