-- ==== Sys2Proof/Laws/PerInstr.lean ====
section
/-! SUPPORT. One lemma per command about its syntax: the word the encoder writes is a word of the command's own row of the opcode
map, every bit the row's mask names as the row's match has it (R83, R89, R90). -/

namespace Sys2Proof.Laws.RowMatch

/-- The command's word agrees with its row's `match` under its row's `mask` (R90). -/
def Statement (i : Instr) : Prop := encode i &&& i.op.mask = i.op.rowMatch

theorem and_append4 (a b c d e f g h : Byte) :
    ((a ++ b ++ c ++ d : BitVec (8 + 8 + 8 + 8)) &&& (e ++ f ++ g ++ h : BitVec (8 + 8 + 8 + 8)))
      = (a &&& e) ++ (b &&& f) ++ (c &&& g) ++ (d &&& h) := by
  rw [BitVec.and_append, BitVec.and_append, BitVec.and_append]

/-- A word whose index and operand bytes are clear where the row's mask is set agrees with the row. -/
theorem of_word4 {o : Op} {a b c ma mb mc : Byte} (hm : o.mask = word4 0xFF ma mb mc) (ha : a &&& ma = 0)
    (hb : b &&& mb = 0) (hc : c &&& mc = 0) : word4 o.code a b c &&& o.mask = o.rowMatch := by
  rw [hm]
  refine (and_append4 _ _ _ _ _ _ _ _).trans ?_
  rw [ha, hb, hc, show (0xFF : Byte) = BitVec.allOnes 8 from rfl, BitVec.and_allOnes]
  cases o <;> rfl

/-- The same of a word with a 16-bit operand that fills its field. -/
theorem of_word16 {o : Op} {a ma : Byte} (x : BitVec 16) (hm : o.mask = word16 0xFF ma 0) (ha : a &&& ma = 0) :
    word16 o.code a x &&& o.mask = o.rowMatch := by
  rw [hm]
  have h : ((o.code ++ a ++ x : BitVec (8 + 8 + 16)) &&& ((0xFF : Byte) ++ ma ++ (0 : BitVec 16) : BitVec (8 + 8 + 16)))
      = (o.code &&& 0xFF) ++ (a &&& ma) ++ (x &&& 0) := by
    rw [BitVec.and_append, BitVec.and_append]
  refine Eq.trans h ?_
  have hx : x &&& 0 = 0 := BitVec.and_zero
  rw [ha, hx, show (0xFF : Byte) = BitVec.allOnes 8 from rfl, BitVec.and_allOnes]
  cases o <;> rfl

/-- A level code stands in bits 2 to 0 of its byte (R83). -/
theorem level_reserved (l : Level) : ((0 : BitVec 5) ++ l.code) &&& 0xF8#8 = 0 := by
  cases l <;> rfl

/-- The direction, open-collector and pull-up codes stand in bits 3 to 0 of their byte (R83). -/
theorem config_reserved (d : Dir) (oc pu : Bool) :
    ((0 : BitVec 4) ++ BitVec.ofBool pu ++ BitVec.ofBool oc ++ d.code) &&& 0xF0#8 = 0 := by
  cases d <;> cases oc <;> cases pu <;> rfl

theorem now : Statement (.now) :=
  of_word4 (o := .now) (ma := 0xFF) (mb := 0xFF) (mc := 0xFF) rfl (by decide) (by decide) (by decide)

theorem advance (imm16 : BitVec 16) : Statement (.advance imm16) :=
  of_word16 (o := .advance) (ma := 0xFF) imm16 rfl (by decide)

theorem pinDrive (p : Byte) (lvl : Level) : Statement (.pinDrive p lvl) :=
  of_word4 (o := .pinDrive) (ma := 0) (mb := 0xFF) (mc := 0xF8) rfl BitVec.and_zero (by decide) (level_reserved lvl)

theorem pinRead (p : Byte) : Statement (.pinRead p) :=
  of_word4 (o := .pinRead) (ma := 0) (mb := 0xFF) (mc := 0xFF) rfl BitVec.and_zero (by decide) (by decide)

theorem pinConfig (p : Byte) (dir : Dir) (oc pu : Bool) : Statement (.pinConfig p dir oc pu) :=
  of_word4 (o := .pinConfig) (ma := 0) (mb := 0xFF) (mc := 0xF0) rfl BitVec.and_zero (by decide) (config_reserved dir oc pu)

theorem pinAnalog (p : Byte) (mv : BitVec 16) : Statement (.pinAnalog p mv) :=
  of_word16 (o := .pinAnalog) (ma := 0) mv rfl BitVec.and_zero

theorem nodeAttach (p n : Byte) : Statement (.nodeAttach p n) :=
  of_word4 (o := .nodeAttach) (ma := 0) (mb := 0) (mc := 0xFF) rfl BitVec.and_zero BitVec.and_zero (by decide)

theorem nodeDetach (p : Byte) : Statement (.nodeDetach p) :=
  of_word4 (o := .nodeDetach) (ma := 0) (mb := 0xFF) (mc := 0xFF) rfl BitVec.and_zero (by decide) (by decide)

theorem nodeRead (n : Byte) : Statement (.nodeRead n) :=
  of_word4 (o := .nodeRead) (ma := 0) (mb := 0xFF) (mc := 0xFF) rfl BitVec.and_zero (by decide) (by decide)

theorem portWrite (r v : Byte) : Statement (.portWrite r v) :=
  of_word4 (o := .portWrite) (ma := 0) (mb := 0xFF) (mc := 0) rfl BitVec.and_zero (by decide) BitVec.and_zero

theorem portRead (r : Byte) : Statement (.portRead r) :=
  of_word4 (o := .portRead) (ma := 0) (mb := 0xFF) (mc := 0xFF) rfl BitVec.and_zero (by decide) (by decide)

theorem twConfigure (e addr csmask : Byte) : Statement (.twConfigure e addr csmask) :=
  of_word4 (o := .twConfigure) (ma := 0) (mb := 0) (mc := 0) rfl BitVec.and_zero BitVec.and_zero BitVec.and_zero

theorem twAttach (e scl sda : Byte) : Statement (.twAttach e scl sda) :=
  of_word4 (o := .twAttach) (ma := 0) (mb := 0) (mc := 0) rfl BitVec.and_zero BitVec.and_zero BitVec.and_zero

theorem twReset (e : Byte) : Statement (.twReset e) :=
  of_word4 (o := .twReset) (ma := 0) (mb := 0xFF) (mc := 0xFF) rfl BitVec.and_zero (by decide) (by decide)

theorem twStatus (e : Byte) : Statement (.twStatus e) :=
  of_word4 (o := .twStatus) (ma := 0) (mb := 0xFF) (mc := 0xFF) rfl BitVec.and_zero (by decide) (by decide)

end Sys2Proof.Laws.RowMatch
end

