-- ==== Sys2Proof/Laws/Quiet.lean ====
section
/-! SUPPORT. What a resolution does: when it has no level left and what it runs otherwise (42_pin_node.md R150, R151), what its digital
branch writes (R148, R199), and, with no engine attached, the state it leaves. -/

namespace Sys2Proof.Machine

/-- With no engine attached a notification writes port registers only, and meets no fault (R152). -/
theorem notifyVia_quiet (res : Job → State → Res) (p : Nat) {s : State} (hs : Shaped s) (hn : NoEngineAttached s) :
    ∃ ports, notifyVia res p s = .ok { s with ports := ports } ∧ ports.length = s.ports.length := by
  have h := notifyPorts_told p hs
  unfold notifyVia
  generalize (List.range s.cfg.numPorts).foldl (fun s r => notifyPort p r s) s = u at h
  have hu : u = { s with ports := u.ports } := congrArg (fun v : State => { v with ports := u.ports }) h.rest
  refine ⟨u.ports, ?_, h.length⟩
  rw [← hu]
  have he : ∀ e, u.eng e = s.eng e := fun e => by rw [hu]; rfl
  have key : ∀ es : List Nat, (∀ e ∈ es, e < s.cfg.numEngines) → forEach (notifyEngineVia res p) es u = .ok u := by
    intro es
    induction es with
    | nil => exact fun _ => rfl
    | cons e es ih =>
      intro h'
      simp only [forEach, notifyEngineVia, he, hn e (h' e (by simp)), Bool.false_eq_true, if_false]
      exact ih fun f hf => h' f (by simp [hf])
  exact key _ fun e h' => List.mem_range.mp h'

theorem Shaped.withPorts {s : State} (hs : Shaped s) {ports : List Port} (hl : ports.length = s.ports.length) :
    Shaped { s with ports := ports } :=
  ⟨hs.pins, hs.nodes, hl.trans hs.ports, hs.engines, hs.nodeOf, hs.enginePins⟩

/-- The same of a row of notifications. -/
theorem notifyAll_quiet (res : Job → State → Res) (ps : List Nat) {s : State} (hs : Shaped s) (hn : NoEngineAttached s) :
    ∃ ports, forEach (notifyVia res) ps s = .ok { s with ports := ports } ∧ ports.length = s.ports.length := by
  induction ps generalizing s with
  | nil => exact ⟨s.ports, rfl, rfl⟩
  | cons p ps ih =>
    obtain ⟨ports, hu, hl⟩ := notifyVia_quiet res p hs hn
    obtain ⟨ports', hv, hl'⟩ := ih (s := { s with ports := ports }) (hs.withPorts hl) hn
    exact ⟨ports', by simp only [forEach, hu, Res.andThen]; exact hv, hl'.trans hl⟩

/-- The digital branch of a resolution writes the flag, records contention and ends the node's settling (R148, R150, R199). -/
theorem digitalUpdate_eq {n : Nat} {s : State} {d : Level × Bool} (hn : n < s.nodes.length)
    (hd : d = resolveDigital ((members s n).map fun p => contribution (s.pin p)) (pullup s n)) :
    digitalUpdate n s = { s.setNode n { s.node n with settling := false, contended := d.2 } with
      pending := if (s.node n).settling then s.pending.filter fun y => decide (y.owner ≠ .node n) else s.pending
      diagLog := if d.2 then s.diagLog ++ [⟨1, s.cycle, BitVec.ofNat 8 n, 0⟩] else s.diagLog } := by
  have hv : (leaveAnalog n s).cfg = s.cfg ∧ (leaveAnalog n s).pins = s.pins := by
    unfold leaveAnalog; split <;> exact ⟨rfl, rfl⟩
  have hd' : resolveDigital ((members (leaveAnalog n s) n).map fun p => contribution ((leaveAnalog n s).pin p))
      (pullup (leaveAnalog n s) n) = d := by
    rw [hd]; simp only [members, pullup, State.pin, hv.1, hv.2]; rfl
  unfold digitalUpdate
  dsimp only
  rw [hd']
  clear hd hd' hv
  unfold leaveAnalog
  by_cases hset : (s.node n).settling = true
  · have h1 : ∀ x, (cancel (.node n) (s.setNode n x)).node n = x := fun x => setNode_node_self _ _ _ hn
    rw [if_pos hset, if_pos hset]
    simp only [h1]
    cases d.2 <;> simp [cancel, diag, State.setNode, List.set_set, DiagKind.code]
  · rw [if_neg hset, if_neg hset]
    simp only [Bool.not_eq_true] at hset
    cases d.2 <;> simp [diag, State.setNode, DiagKind.code, hset]

/-- A publication with no engine attached (R150, R152). -/
theorem publishVia_quiet (res : Job → State → Res) {n : Nat} (l : Level) {s : State} (hs : Shaped s) (hn : NoEngineAttached s) :
    ∃ ports, publishVia res n l s = .ok { publishWrites n l s with ports := ports } ∧ ports.length = s.ports.length := by
  have hc : Cascs AnyNode s (publishWrites n l s) := publishWrites_casc n l s
  have hf := publishWrites_fields n l s
  obtain ⟨ports, h1, h2⟩ := notifyAll_quiet res (changedBy n l s) (hs.casc hc) (s := publishWrites n l s) (fun e he => by
    have : (publishWrites n l s).eng e = s.eng e := by unfold State.eng; rw [hf.2.2.2.1]
    rw [this]; exact hn e (by rwa [hf.1] at he))
  exact ⟨ports, h1, by rw [h2, hf.2.2.1]⟩

/-- A resolution raises `NOTIFY_DEPTH` where no level is left; otherwise it is its job, one level deeper (R150, R151, R195). -/
theorem resolve_full {j : Job} {s : State} (h : s.cfg.maxNotifyDepth ≤ s.depth) : resolve j s = .halt (faulted .notifyDepth s) := by
  unfold resolve
  rw [Nat.sub_eq_zero_of_le h]
  rfl

theorem resolve_run {j : Job} {s : State} (h : s.depth < s.cfg.maxNotifyDepth) :
    ∃ res : Job → State → Res, (∀ k u, u.cfg = s.cfg → u.depth = s.depth + 1 → res k u = resolve k u) ∧
      resolve j s = (runJobVia res j { s with depth := s.depth + 1 }).andThen fun t => .ok { t with depth := t.depth - 1 } := by
  obtain ⟨m, hm⟩ : ∃ m, s.cfg.maxNotifyDepth - s.depth = m + 1 := ⟨s.cfg.maxNotifyDepth - s.depth - 1, by omega⟩
  refine ⟨resolveJob m, fun k u hc hd => ?_, ?_⟩
  · unfold resolve
    rw [hc, hd, show s.cfg.maxNotifyDepth - (s.depth + 1) = m by omega]
  · unfold resolve
    rw [hm]; rfl

/-- A digital resolution with no engine attached (R150, R199). -/
theorem resolve_node_quiet {n : Nat} {s : State} {d : Level × Bool} (hs : Shaped s) (hn : n < s.cfg.numNodes)
    (hq : NoEngineAttached s) (hd : s.depth < s.cfg.maxNotifyDepth) (ha : analogMode s n = false)
    (h : d = resolveDigital ((members s n).map fun p => contribution (s.pin p)) (pullup s n)) :
    ∃ t, resolve (.node n) s = .ok t ∧ t.engines = s.engines ∧ t.cfg = s.cfg ∧ t.depth = s.depth ∧
      t.node n = { s.node n with level := d.1, contended := d.2, settling := false } ∧
      (∀ p, t.pin p = if p ∈ members s n then { s.pin p with driven := d.1 } else s.pin p) := by
  obtain ⟨res, -, hr⟩ := resolve_run (j := .node n) hd
  have hn' : n < s.nodes.length := by rwa [hs.nodes]
  set u : State := { s with depth := s.depth + 1 } with hu
  have hsu : Shaped u := ⟨hs.pins, hs.nodes, hs.ports, hs.engines, hs.nodeOf, hs.enginePins⟩
  have hdu := digitalUpdate_eq (n := n) (s := u) (d := d) hn' h
  have hsd : Shaped (digitalUpdate n u) := hsu.casc (A := AnyNode) (digitalUpdate_casc n u)
  obtain ⟨ports, hp, hl⟩ := publishVia_quiet res (n := n) d.1 hsd (by rw [hdu]; exact hq)
  have hrun : runJobVia res (.node n) u = .ok { publishWrites n d.1 (digitalUpdate n u) with ports := ports } := by
    show resolveNodeVia res n u = _
    unfold resolveNodeVia
    rw [if_neg (by rw [show analogMode u n = false from ha]; exact Bool.false_ne_true)]
    have hl : digitalLevel u n = d.1 := (congrArg Prod.fst h).symm
    rw [hl, hp]
  rw [hrun] at hr
  clear hrun hp
  have h1 : ∀ p, (digitalUpdate n u).pin p = s.pin p := fun p => by rw [hdu]; rfl
  have h2 : members (digitalUpdate n u) n = members s n := by rw [hdu]; rfl
  have h3 : (digitalUpdate n u).node n = { s.node n with settling := false, contended := d.2 } := by
    rw [hdu]; exact setNode_node_self _ _ _ hn'
  have h4 : (digitalUpdate n u).engines = s.engines ∧ (digitalUpdate n u).cfg = s.cfg ∧
      (digitalUpdate n u).depth = s.depth + 1 := by rw [hdu]; exact ⟨rfl, rfl, rfl⟩
  clear hdu hsu
  generalize digitalUpdate n u = w at hsd hr h1 h2 h3 h4
  have hf := publishWrites_fields n d.1 w
  refine ⟨_, hr, hf.2.2.2.1.trans h4.1, hf.1.trans h4.2.1, ?_, ?_, fun p => ?_⟩
  · exact (congrArg (· - 1) (hf.2.2.2.2.2.2.1.trans h4.2.2)).trans (Nat.add_sub_cancel _ 1)
  · refine (publishWrites_node n d.1 n).trans ?_
    rw [setNode_node_self _ _ _ (by rw [hsd.nodes, h4.2.1]; exact hn), h3]
  · refine (publishWrites_pin hsd n d.1 p).trans ?_
    rw [h1, h2]

/-- A lone pin's resolution with no engine attached (R151). -/
theorem resolve_pin_quiet {p : Nat} {s : State} (hs : Shaped s) (hp : p < s.cfg.numPins)
    (hq : NoEngineAttached s) (hd : s.depth < s.cfg.maxNotifyDepth) :
    ∃ t, resolve (.pin p) s = .ok t ∧ t.engines = s.engines ∧ t.cfg = s.cfg ∧ t.depth = s.depth ∧ (∀ m, t.node m = s.node m) ∧
      (∀ q, t.pin q = if q = p then { s.pin p with driven := aloneLevel s p } else s.pin q) := by
  obtain ⟨res, -, hr⟩ := resolve_run (j := .pin p) hd
  have hsu : ∀ d, Shaped { s with depth := d } := fun d => ⟨hs.pins, hs.nodes, hs.ports, hs.engines, hs.nodeOf, hs.enginePins⟩
  by_cases hsame : (s.pin p).driven = aloneLevel s p
  · refine ⟨s, ?_, rfl, rfl, rfl, fun _ => rfl, fun q => ?_⟩
    · rw [hr]
      show (resolveAloneVia res p { s with depth := s.depth + 1 }).andThen _ = _
      unfold resolveAloneVia
      rw [if_pos (show (State.pin { s with depth := s.depth + 1 } p).driven = aloneLevel { s with depth := s.depth + 1 } p from hsame)]
      simp [Res.andThen]
    · split
      · next h => subst h; rw [← hsame]
      · rfl
  · set v : State := { s with depth := s.depth + 1 }.setPin p { s.pin p with driven := aloneLevel s p } with hv
    have hc : Cascs AnyNode { s with depth := s.depth + 1 } v := .single (.driven _ _)
    obtain ⟨ports, hn, hl⟩ := notifyVia_quiet res p (s := v) ((hsu _).casc hc) hq
    refine ⟨{ v with ports := ports, depth := s.depth }, ?_, rfl, rfl, rfl, fun _ => rfl, fun q => ?_⟩
    · rw [hr]
      show (resolveAloneVia res p { s with depth := s.depth + 1 }).andThen _ = _
      unfold resolveAloneVia
      rw [if_neg (show ¬ (State.pin { s with depth := s.depth + 1 } p).driven = aloneLevel { s with depth := s.depth + 1 } p from hsame)]
      show (notifyVia res p v).andThen _ = _
      rw [hn]; rfl
    · show v.pin q = _
      rcases setPin_pin_cases { s with depth := s.depth + 1 } p q { s.pin p with driven := aloneLevel s p } with h | ⟨rfl, h⟩
      · rw [hv, h]
        split
        · next hqp =>
          subst hqp
          rw [setPin_pin_self _ _ _ (by rw [show (State.pins { s with depth := s.depth + 1 }).length = s.pins.length from rfl, hs.pins]; exact hp)] at h
          rw [← h]
        · rfl
      · rw [hv, h]; simp

end Sys2Proof.Machine
end

