-- ==== Sys2Proof/Laws/Results.lean ====
section
/-! SUPPORT. What the body of each command on pins, nodes, port registers and engines leaves when it meets no fault, analog nodes or
not: one lemma per body, in the terms of Sys2Proof/Safety.lean. -/

namespace Sys2Proof.Machine

/-! ### The frame terms compose -/

theorem SamePinSetup.trans {s u t : State} {p : Nat} (h : SamePinSetup s u p) (k : SamePinSetup u t p) : SamePinSetup s t p :=
  ⟨k.1.trans h.1, k.2.1.trans h.2.1, k.2.2.1.trans h.2.2.1, k.2.2.2.trans h.2.2.2⟩

theorem SameEngineSetup.trans {s u t : State} {e : Nat} (h : SameEngineSetup s u e) (k : SameEngineSetup u t e) :
    SameEngineSetup s t e := by
  obtain ⟨a1, a2, a3, a4, a5, a6, a7, a8, a9, a10⟩ := h
  obtain ⟨b1, b2, b3, b4, b5, b6, b7, b8, b9, b10⟩ := k
  exact ⟨b1.trans a1, b2.trans a2, b3.trans a3, b4.trans a4, b5.trans a5, b6.trans a6, b7.trans a7, b8.trans a8, b9.trans a9,
    b10.trans a10⟩

theorem SameEngineSetup.of_eq {s t : State} {e : Nat} (h : t.eng e = s.eng e) : SameEngineSetup s t e := by
  unfold SameEngineSetup
  rw [h]
  exact ⟨rfl, rfl, rfl, rfl, rfl, rfl, rfl, rfl, rfl, rfl⟩

theorem EngineKept.of_same {s t : State} {e : Nat} (h : SameEngineSetup s t e) : EngineKept s t e :=
  ⟨h.2.2.2.1, h.2.2.2.2.1, h.2.2.2.2.2.1, h.2.2.2.2.2.2.1, h.2.2.2.2.2.2.2.1, h.2.2.2.2.2.2.2.2.2⟩

theorem EngineKept.trans {s u t : State} {e : Nat} (h : EngineKept s u e) (k : EngineKept u t e) : EngineKept s t e :=
  ⟨k.1.trans h.1, k.2.trans h.2, k.3.trans h.3, k.4.trans h.4, k.5.trans h.5, k.6.trans h.6⟩

/-- A data pin of an engine that is set up as before was one before. -/
theorem isEngineSda_of_same {s u : State} (hc : u.cfg = s.cfg) (he : ∀ e, SameEngineSetup s u e) {p : Nat}
    (h : isEngineSda u p) : isEngineSda s p := by
  obtain ⟨e, hlt, ha, hp⟩ := h
  obtain ⟨h1, -, h3, -⟩ := he e
  exact ⟨e, by rwa [hc] at hlt, h1 ▸ ha, h3 ▸ hp⟩

theorem DriveKeptOrReleased.trans {s u t : State} {p : Nat} (h : DriveKeptOrReleased s u p) (k : DriveKeptOrReleased u t p)
    (hi : isEngineSda u p → isEngineSda s p) : DriveKeptOrReleased s t p := by
  rcases k with k | ⟨k1, k2⟩
  · rcases h with h | ⟨h1, h2⟩
    · exact .inl (k.trans h)
    · exact .inr ⟨k.trans h1, h2⟩
  · exact .inr ⟨k1, hi k2⟩

theorem DrivenTo.trans {s u t : State} {p : Nat} {d : Drive} (h : DrivenTo s u p d) (k : DriveKeptOrReleased u t p)
    (hi : isEngineSda u p → isEngineSda s p) : DrivenTo s t p d := by
  rcases k with k | ⟨k1, k2⟩
  · rcases h with h | ⟨h1, h2⟩
    · exact .inl (k.trans h)
    · exact .inr ⟨k.trans h1, h2⟩
  · exact .inr ⟨k1, hi k2⟩

theorem RestKept.refl (s : State) (p : Nat) : RestKept s s p :=
  ⟨fun _ _ => ⟨rfl, rfl, rfl, rfl⟩, fun _ _ => .inl rfl, fun _ => rfl, fun _ => SameEngineSetup.of_eq rfl⟩

/-! ### One pin -/

/-- No cascade writes a driving-value: only `PORT_WRITE` does (R40). -/
theorem Cascs.driving {A : Nat → Prop} {s t : State} (h : Cascs A s t) (r : Nat) : (t.port r).driving = (s.port r).driving :=
  Cascs.keeps (P := fun u => (u.port r).driving = (s.port r).driving) (fun a b hc ih => by
    refine Eq.trans ?_ ih
    cases hc with
    | port q i v =>
        rcases setPort_port_cases a q r { a.port q with driven := setBit (a.port q).driven i v } with h | ⟨rfl, h⟩ <;> rw [h]
    | _ => rfl) h rfl

/-- What a change at pin `p` and all that follows from it leave beside that pin. -/
structure Beside (s t : State) (p : Nat) : Prop where
  cfg : t.cfg = s.cfg
  pins : t.pins.length = s.pins.length
  engs : t.engines.length = s.engines.length
  outLog : t.outLog = s.outLog
  rest : RestKept s t p

theorem Beside.refl (s : State) (p : Nat) : Beside s s p := ⟨rfl, rfl, rfl, rfl, RestKept.refl s p⟩

theorem Beside.sda {s t : State} {p q : Nat} (h : Beside s t p) : isEngineSda t q → isEngineSda s q :=
  isEngineSda_of_same h.cfg h.rest.engines

/-- A pin's record written, and a cascade after that: the pin's setup is as written, its driving state too, unless released. -/
theorem beside_of {s t : State} {p : Nat} {x : Pin} (hp : p < s.pins.length) (h : Cascs AnyNode (s.setPin p x) t) :
    Beside s t p ∧ (t.pin p).node = x.node ∧ (t.pin p).dir = x.dir ∧ (t.pin p).oc = x.oc ∧ (t.pin p).pu = x.pu ∧
      DrivenTo s t p x.drive := by
  have other : ∀ q, q ≠ p → (s.setPin p x).pin q = s.pin q := fun q hq =>
    (setPin_pin_cases s p q x).elim id fun h => absurd h.1.symm hq
  have hself := setPin_pin_self s p x hp
  have hc := h.globals
  have hl := h.lengths
  have he : ∀ e, SameEngineSetup s t e := fun e => (Cascs.eng_fixed h e).2
  have hpin := h.pin_fixed p
  have hdr := h.drive p
  unfold DriveKeptOrReleased at hdr
  rw [hself] at hpin hdr
  refine ⟨⟨hc.1, hl.1.trans (by simp), hl.2.2.2.trans rfl, hc.2.2.2.1, fun q hq => ?_, fun q hq => ?_, fun r => h.driving r, he⟩,
    hpin.1, hpin.2.1, hpin.2.2.1, hpin.2.2.2, hdr⟩
  · have := h.pin_fixed q
    rw [other q hq] at this
    exact this
  · have := h.drive q
    unfold DriveKeptOrReleased at this ⊢
    rw [other q hq] at this
    exact this

theorem setDriving_to {p : Nat} {d : Drive} {s t : State} (hp : p < s.pins.length) (h : setDriving p d s = .ok t) :
    Beside s t p ∧ SamePinSetup s t p ∧ DrivenTo s t p d := by
  rcases setDriving_ok h with ⟨rfl, hd⟩ | h
  · exact ⟨Beside.refl _ _, ⟨rfl, rfl, rfl, rfl⟩, .inl hd⟩
  · obtain ⟨h1, h2, h3, h4, h5, h6⟩ := beside_of hp h
    exact ⟨h1, ⟨h2, h3, h4, h5⟩, h6⟩

theorem configurePin_to {p : Nat} {dir : Dir} {oc pu : Bool} {s t : State} (hp : p < s.pins.length)
    (h : configurePin p dir oc pu s = .ok t) :
    Beside s t p ∧ (t.pin p).node = (s.pin p).node ∧ (t.pin p).dir = dir ∧ (t.pin p).oc = oc ∧ (t.pin p).pu = pu ∧
      DriveKeptOrReleased s t p := by
  rcases configurePin_ok h with ⟨rfl, h1, h2, h3⟩ | h
  · exact ⟨Beside.refl _ _, rfl, h1, h2, h3, .inl rfl⟩
  · exact beside_of hp h

theorem attachPin_to {p n : Nat} {s t : State} (hp : p < s.pins.length) (h : attachPin p n s = .ok t) :
    Beside s t p ∧ (t.pin p).node = some n ∧ (t.pin p).dir = (s.pin p).dir ∧ (t.pin p).oc = (s.pin p).oc ∧
      (t.pin p).pu = (s.pin p).pu ∧ DriveKeptOrReleased s t p := by
  unfold attachPin at h
  dsimp only at h
  split at h
  · next hd => cases h; exact ⟨Beside.refl _ _, hd, rfl, rfl, rfl, .inl rfl⟩
  · obtain ⟨v, hv, ht⟩ := andThen_eq_ok h
    have h2 := (resolve_casc (A := AnyNode) _ v (nodesIn_any _) (jobIn_any _)).ok ht
    refine beside_of (x := { s.pin p with node := some n }) hp (Relation.ReflTransGen.trans ?_ h2)
    split at hv
    · exact (resolve_casc (A := AnyNode) _ _ (nodesIn_any _) (jobIn_any _)).ok hv
    · cases hv; exact .refl

theorem detachPin_to {p : Nat} {s t : State} (hp : p < s.pins.length) (h : detachPin p s = .ok t) :
    Beside s t p ∧ (t.pin p).node = none ∧ (t.pin p).dir = (s.pin p).dir ∧ (t.pin p).oc = (s.pin p).oc ∧
      (t.pin p).pu = (s.pin p).pu ∧ DriveKeptOrReleased s t p := by
  unfold detachPin at h
  split at h
  · next hd => cases h; exact ⟨Beside.refl _ _, hd, rfl, rfl, rfl, .inl rfl⟩
  · obtain ⟨v, hv, ht⟩ := andThen_eq_ok h
    exact beside_of hp (((resolve_casc (A := AnyNode) _ _ (nodesIn_any _) (jobIn_any _)).ok hv).trans
      ((resolve_casc (A := AnyNode) _ v (nodesIn_any _) (jobIn_any _)).ok ht))

/-! ### A port register -/

/-- What driving the pins `qs` in turn leaves: each driven to its own state, every other's driving state kept but for releases. -/
structure Driven (s t : State) (qs : List Nat) (d : Nat → Drive) : Prop where
  cfg : t.cfg = s.cfg
  pins : t.pins.length = s.pins.length
  outLog : t.outLog = s.outLog
  setup : ∀ q, SamePinSetup s t q
  driving : ∀ r, (t.port r).driving = (s.port r).driving
  engines : ∀ e, SameEngineSetup s t e
  driven : ∀ q ∈ qs, DrivenTo s t q (d q)
  drives : ∀ q, q ∉ qs → DriveKeptOrReleased s t q

theorem driven_nil (s : State) (d : Nat → Drive) : Driven s s [] d :=
  ⟨rfl, rfl, rfl, fun _ => ⟨rfl, rfl, rfl, rfl⟩, fun _ => rfl, fun _ => SameEngineSetup.of_eq rfl, fun _ h => by simp at h,
    fun _ _ => .inl rfl⟩

theorem Driven.snoc {s u t : State} {qs : List Nat} {d : Nat → Drive} {p : Nat} (h : Driven s u qs d) (hp : p < s.pins.length)
    (hn : p ∉ qs) (ht : setDriving p (d p) u = .ok t) : Driven s t (qs ++ [p]) d := by
  obtain ⟨h1, h2, h3⟩ := setDriving_to (by rw [h.pins]; exact hp) ht
  have hi : ∀ q, isEngineSda u q → isEngineSda s q := fun q => isEngineSda_of_same h.cfg h.engines
  refine ⟨h1.cfg.trans h.cfg, h1.pins.trans h.pins, h1.outLog.trans h.outLog, fun q => (h.setup q).trans ?_,
    fun r => (h1.rest.driving r).trans (h.driving r), fun e => (h.engines e).trans (h1.rest.engines e), fun q hq => ?_,
    fun q hq => ?_⟩
  · by_cases hqp : q = p
    · exact hqp ▸ h2
    · exact h1.rest.setup q hqp
  · rcases List.mem_append.mp hq with hq | hq
    · exact (h.driven q hq).trans (h1.rest.drives q fun h' => hn (h' ▸ hq)) (hi q)
    · obtain rfl : q = p := by simpa using hq
      exact h3.imp id fun h' => ⟨h'.1, hi q h'.2⟩
  · simp only [List.mem_append, List.mem_singleton, not_or] at hq
    exact (h.drives q hq.1).trans (h1.rest.drives q hq.2) (hi q)

theorem reconcile_casc {A : Nat → Prop} (r : Nat) (s : State) : Cascs A s (reconcile r s) :=
  foldl_casc _ fun i hi u hu => onPinChanged_casc r i u (by rw [hu.enabledBits]; exact hi)

theorem writePort_to {r : Nat} {v : Byte} {s t : State} (hs : Shaped s) (hr : r < s.cfg.numPorts)
    (hw : ∀ i ∈ enabledBits s r, boundPin s r i < s.cfg.numPins) (h : writePort r v s = .ok t) :
    t.outLog = s.outLog ∧ PortWritten s t r v := by
  obtain ⟨u, hu, ht⟩ := andThen_eq_ok h
  cases ht
  generalize hw0 : s.setPort r { s.port r with driving := v } = w at hu
  have hbits : enabledBits w r = enabledBits s r := by rw [← hw0]; rfl
  have hpin : ∀ x : State, x.cfg = w.cfg → ∀ i, boundPin x r i = boundPin s r i := fun x hx i => by
    rw [boundPin_congr hx, ← hw0]; rfl
  have hlen : w.pins.length = s.cfg.numPins := by rw [← hw0]; exact hs.pins
  let d : Nat → Drive := fun q => bitDrive (v.getLsbD (q - (s.portCfg r).base))
  have key : ∀ (is done : List Nat) (x : State), Driven w x (done.map (boundPin s r)) d → (done ++ is).Nodup →
      (∀ i ∈ is, i ∈ enabledBits s r) →
      forEach (fun i s => setDriving (boundPin s r i) (bitDrive (v.getLsbD i)) s) is x = .ok u →
      Driven w u ((done ++ is).map (boundPin s r)) d := by
    intro is
    induction is with
    | nil => intro done x hx _ _ hu; cases hu; simpa using hx
    | cons i is ih =>
        intro done x hx hnd hmem hu
        obtain ⟨y, hy, hu⟩ := andThen_eq_ok hu
        have hdi : d (boundPin s r i) = bitDrive (v.getLsbD i) := by simp [d, boundPin]
        dsimp only at hy
        rw [hpin x hx.cfg, ← hdi] at hy
        have hne : i ∉ done := fun h' => (List.nodup_append.mp hnd).2.2 i h' i (by simp) rfl
        have h1 := hx.snoc (by rw [hlen]; exact hw i (hmem i (by simp))) (fun h' => by
          obtain ⟨j, hj, hji⟩ := List.mem_map.mp h'
          simp only [boundPin, Nat.add_left_cancel_iff] at hji
          exact hne (hji ▸ hj)) hy
        have := ih (done ++ [i]) y (by simpa using h1) (by simpa using hnd) (fun j hj => hmem j (by simp [hj])) hu
        simpa using this
  have hnd : (enabledBits s r).Nodup := List.nodup_range.filter _
  have h1 := key (enabledBits s r) [] w (driven_nil w d) (by simpa using hnd) (fun _ h => h) (hbits ▸ hu)
  rw [List.nil_append] at h1
  have h2 := reconcile_casc (A := AnyNode) r u
  have hsda : ∀ q, isEngineSda u q → isEngineSda s q := fun q h' => by
    have := isEngineSda_of_same h1.cfg h1.engines h'
    rw [← hw0] at this
    exact this
  have hpins : ∀ q, w.pin q = s.pin q := fun q => by rw [← hw0]; rfl
  have hto : ∀ q x, DrivenTo w u q x → DrivenTo s (reconcile r u) q x := fun q x h' =>
    DrivenTo.trans (s := s) (u := u) (h'.imp id fun h'' => ⟨h''.1, by rw [← hw0] at h''; exact h''.2⟩) (h2.drive q) (hsda q)
  refine ⟨h2.globals.2.2.2.1.trans (h1.outLog.trans (by rw [← hw0]; rfl)), ?_, fun i hi hen => ?_, fun q hq => ?_, fun q => ?_,
    fun f hf => ?_, fun e => ?_⟩
  · rw [h2.driving, h1.driving, ← hw0, setPort_port_self _ _ _ (by rw [hs.ports]; exact hr)]
  · have := h1.driven ((s.portCfg r).base + i) (List.mem_map.mpr ⟨i, mem_enabledBits.mpr ⟨hi, hen⟩, rfl⟩)
    simp only [d, Nat.add_sub_cancel_left] at this
    exact hto _ _ this
  · have := h1.drives q fun h' => by
      obtain ⟨i, hi, rfl⟩ := List.mem_map.mp h'
      obtain ⟨a, b⟩ := mem_enabledBits.mp hi
      exact hq i a b rfl
    unfold DriveKeptOrReleased at this
    rw [hpins] at this
    exact hto q _ this
  · have := (h1.setup q).trans (h2.pin_fixed q)
    unfold SamePinSetup at this
    rw [hpins] at this
    exact this
  · rw [h2.driving, h1.driving, ← hw0]
    rcases setPort_port_cases s r f { s.port r with driving := v } with h' | ⟨h', -⟩
    · rw [h']
    · exact absurd h'.symm hf
  · have := (h1.engines e).trans (Cascs.eng_fixed h2 e).2
    rw [← hw0] at this
    exact this

/-! ### An engine -/

/-- A cascade sets none of what a START or STOP clears. -/
theorem Cascs.cleared {A : Nat → Prop} {s t : State} (h : Cascs A s t) (e : Nat)
    (hs : (s.eng e).sdaDrive = false ∧ (s.eng e).bits = 0 ∧ (s.eng e).shift = 0) :
    (t.eng e).sdaDrive = false ∧ (t.eng e).bits = 0 ∧ (t.eng e).shift = 0 := by
  refine Cascs.keeps (P := fun u => (u.eng e).sdaDrive = false ∧ (u.eng e).bits = 0 ∧ (u.eng e).shift = 0)
    (fun a b hc ih => ?_) h hs
  cases hc with
  | eng f hf ha g hg =>
      rcases setEng_eng_cases a f e g with h' | ⟨rfl, h'⟩ <;> rw [h']
      · exact ih
      · exact ⟨hg.sdaDrive.elim (·.trans ih.1) id, hg.bits.elim (·.trans ih.2.1) id, hg.shift.elim (·.trans ih.2.2) id⟩
  | edge f v =>
      change ((edgeLatch f v a).eng e).sdaDrive = false ∧ ((edgeLatch f v a).eng e).bits = 0 ∧ ((edgeLatch f v a).eng e).shift = 0
      unfold edgeLatch
      rcases setEng_eng_cases a f e { a.eng f with sclSeen := v, pend := some (if v then .rise else .fall) } with h' | ⟨rfl, h'⟩ <;>
        rw [h'] <;> exact ih
  | drop f =>
      change ((a.setEng f { a.eng f with pend := none }).eng e).sdaDrive = false ∧
        ((a.setEng f { a.eng f with pend := none }).eng e).bits = 0 ∧ ((a.setEng f { a.eng f with pend := none }).eng e).shift = 0
      rcases setEng_eng_cases a f e { a.eng f with pend := none } with h' | ⟨rfl, h'⟩ <;> rw [h'] <;> exact ih
  | _ => exact ih

/-- A cascade leaves an engine that is not attached alone (R152, R253). -/
theorem Cascs.unattached {A : Nat → Prop} {s t : State} (h : Cascs A s t) (e : Nat) (ha : (s.eng e).attached = false) :
    t.eng e = s.eng e ∧ (¬ hasEntry s (.eng e) → ¬ hasEntry t (.eng e)) := by
  have key : t.eng e = s.eng e ∧ (¬ hasEntry s (.eng e) → NoStray e t) := by
    refine Cascs.keeps (P := fun u => u.eng e = s.eng e ∧ (¬ hasEntry s (.eng e) → NoStray e u)) (fun a b hc ih => ?_) h
      ⟨rfl, fun h' _ => h'⟩
    refine ⟨Eq.trans ?_ ih.1, fun h' => (ih.2 h').casc hc⟩
    have hf : ∀ f, (a.eng f).attached = true → f ≠ e := fun f hf' hfe => by rw [hfe, ih.1, ha] at hf'; cases hf'
    cases hc with
    | eng f _ hf' g => exact (setEng_eng_cases a f e g).elim id fun h' => absurd h'.1 (hf f hf')
    | edge f v _ hf' =>
        exact (setEng_eng_cases a f e { a.eng f with sclSeen := v, pend := some (if v then .rise else .fall) }).elim id
          fun h' => absurd h'.1 (hf f hf')
    | drop f _ hf' => exact (setEng_eng_cases a f e { a.eng f with pend := none }).elim id fun h' => absurd h'.1 (hf f hf')
    | _ => rfl
  exact ⟨key.1, fun h' => key.2 h' (by rw [key.1]; exact ha)⟩

/-- An engine's record with its protocol fields cleared (R244). -/
abbrev Engine.cleared (g : Engine) : Engine := { g with state := .idle, bits := 0, shift := 0x00, ack := false, pend := none }

/-- `TwReset` of an engine that is not pulling its data pin clears it; of one that is, it then drives SDA to `Floating`. -/
theorem twReset_eq {e : Nat} {s : State} (he : e < s.engines.length) : twReset e s =
    if (s.eng e).attached && (s.eng e).sdaDrive then
      setDriving (s.eng e).sdaPin.toNat (.digital .floating)
        (cancel (.eng e) (s.setEng e { (s.eng e).cleared with sdaDrive := false }))
    else .ok (cancel (.eng e) (s.setEng e (s.eng e).cleared)) := by
  have hself : ∀ x, (cancel (.eng e) (s.setEng e x)).eng e = x := fun x => setEng_eng_self s e x he
  have hset : ∀ x y, (cancel (.eng e) (s.setEng e x)).setEng e y = cancel (.eng e) (s.setEng e y) := fun x y => by
    simp [cancel, State.setEng]
  unfold twReset driveSda driveSdaVia
  dsimp only
  rw [hself, hset, hself]
  rfl

/-- What `TwReset` leaves whether the engine was pulling its data pin or not. -/
structure WasReset (s t : State) (e : Nat) : Prop where
  cfg : t.cfg = s.cfg
  pins : t.pins.length = s.pins.length
  engs : t.engines.length = s.engines.length
  outLog : t.outLog = s.outLog
  kept : EngineKept s t e
  engines : ∀ f, f ≠ e → SameEngineSetup s t f
  setup : ∀ q, SamePinSetup s t q
  drives : ∀ q, DriveKeptOrReleased s t q
  driving : ∀ r, (t.port r).driving = (s.port r).driving
  idle : ((s.eng e).attached = false ∨ (s.eng e).sdaDrive = false) →
    t.eng e = (s.eng e).cleared ∧ ¬ hasEntry t (.eng e)

theorem twReset_to {e : Nat} {s t : State} (hs : Shaped s) (he : e < s.cfg.numEngines) (h : twReset e s = .ok t) :
    WasReset s t e ∧ ((s.eng e).attached = true → (s.eng e).sdaDrive = true → PullReleased s t e) := by
  have hel : e < s.engines.length := by rw [hs.engines]; exact he
  rw [twReset_eq hel] at h
  split at h
  · next hpull =>
    rw [Bool.and_eq_true] at hpull
    have hnot : ¬ ((s.eng e).attached = false ∨ (s.eng e).sdaDrive = false) := by rw [hpull.1, hpull.2]; simp
    have hpin := (hs.enginePins e hpull.1).2
    have hself : ∀ x, (cancel (.eng e) (s.setEng e x)).eng e = x := fun x => setEng_eng_self s e x hel
    have hother : ∀ x f, f ≠ e → (cancel (.eng e) (s.setEng e x)).eng f = s.eng f := fun x f hf =>
      (setEng_eng_cases s e f x).elim id fun h' => absurd h'.1.symm hf
    generalize hx : ({ (s.eng e).cleared with sdaDrive := false } : Engine) = x at h
    have hxe := hself x
    have hclear : (t.eng e).sdaDrive = false ∧ (t.eng e).bits = 0 ∧ (t.eng e).shift = 0 := by
      have h0 : ((cancel (.eng e) (s.setEng e x)).eng e).sdaDrive = false ∧ ((cancel (.eng e) (s.setEng e x)).eng e).bits = 0 ∧
          ((cancel (.eng e) (s.setEng e x)).eng e).shift = 0 := by rw [hxe, ← hx]; exact ⟨rfl, rfl, rfl⟩
      rcases setDriving_ok h with ⟨rfl, -⟩ | hc
      · exact h0
      · exact Cascs.cleared hc e h0
    obtain ⟨h1, h2, h3⟩ := setDriving_to (s := cancel (.eng e) (s.setEng e x)) (by rw [← hs.pins] at hpin; exact hpin) h
    have hsame := h1.rest.engines e
    have hack : (t.eng e).ack = false := hsame.2.2.2.2.2.2.2.2.1.trans (by rw [hxe, ← hx])
    have hatt : (t.eng e).attached = true := hsame.1.trans (by rw [hxe, ← hx]; exact hpull.1)
    have hscl : (t.eng e).sclPin = (s.eng e).sclPin := hsame.2.1.trans (by rw [hxe, ← hx])
    have hsda : (t.eng e).sdaPin = (s.eng e).sdaPin := hsame.2.2.1.trans (by rw [hxe, ← hx])
    have hkept : EngineKept s t e := EngineKept.trans (u := cancel (.eng e) (s.setEng e x))
      (by refine ⟨?_, ?_, ?_, ?_, ?_, ?_⟩ <;> rw [hxe, ← hx]) (EngineKept.of_same hsame)
    have hfloat : (t.pin (s.eng e).sdaPin.toNat).drive = .digital .floating := h3.elim id And.left
    have hback : ∀ q, isEngineSda (cancel (.eng e) (s.setEng e x)) q → isEngineSda s q := by
      rintro q ⟨f, hf, ha, hq⟩
      by_cases hfe : f = e
      · subst hfe
        rw [hxe, ← hx] at hq
        exact ⟨f, hf, hpull.1, hq⟩
      · rw [hother x f hfe] at ha hq
        exact ⟨f, hf, ha, hq⟩
    have hd : ∀ q, q ≠ (s.eng e).sdaPin.toNat → DriveKeptOrReleased s t q := fun q hq =>
      (h1.rest.drives q hq).imp id fun h' => ⟨h'.1, hback q h'.2⟩
    have hset : ∀ q, SamePinSetup s t q := fun q => by
      by_cases hq : q = (s.eng e).sdaPin.toNat
      · exact hq ▸ h2
      · exact h1.rest.setup q hq
    have heng : ∀ f, f ≠ e → SameEngineSetup s t f := fun f hf =>
      (SameEngineSetup.of_eq (hother x f hf)).trans (h1.rest.engines f)
    refine ⟨⟨h1.cfg, h1.pins, h1.engs.trans (by simp [cancel]), h1.outLog, hkept, heng, hset, fun q => ?_, h1.rest.driving,
      fun h' => absurd h' hnot⟩, fun _ _ => ⟨hclear.1, hclear.2.1, hclear.2.2, hack, hfloat, hatt, hscl, hsda, hkept, heng, hset, hd,
        h1.rest.driving⟩⟩
    by_cases hq : q = (s.eng e).sdaPin.toNat
    · subst hq
      exact .inr ⟨hfloat, e, he, hpull.1, rfl⟩
    · exact hd q hq
  · next hpull =>
    cases h
    have hself : (cancel (.eng e) (s.setEng e (s.eng e).cleared)).eng e = (s.eng e).cleared := setEng_eng_self s e _ hel
    refine ⟨⟨rfl, rfl, by simp [cancel], rfl, by constructor <;> rw [hself], fun f hf => SameEngineSetup.of_eq ?_,
      fun _ => ⟨rfl, rfl, rfl, rfl⟩, fun _ => .inl rfl, fun _ => rfl, fun _ => ⟨hself, ?_⟩⟩,
      fun h1 h2 => absurd (by rw [h1, h2]; rfl) hpull⟩
    · exact (setEng_eng_cases s e f (s.eng e).cleared).elim id fun h' => absurd h'.1.symm hf
    · rw [hasEntry_cancel]
      exact fun h' => h'.1 rfl

/-- A pin's change leaves an engine that is not attached as it was. -/
theorem setDriving_unattached {p e : Nat} {d : Drive} {s t : State} (h : setDriving p d s = .ok t)
    (ha : (s.eng e).attached = false) : t.eng e = s.eng e ∧ (¬ hasEntry s (.eng e) → ¬ hasEntry t (.eng e)) := by
  rcases setDriving_ok h with ⟨rfl, -⟩ | h
  · exact ⟨rfl, id⟩
  · exact Cascs.unattached h e ha

theorem configurePin_unattached {p e : Nat} {dir : Dir} {oc pu : Bool} {s t : State} (h : configurePin p dir oc pu s = .ok t)
    (ha : (s.eng e).attached = false) : t.eng e = s.eng e ∧ (¬ hasEntry s (.eng e) → ¬ hasEntry t (.eng e)) := by
  rcases configurePin_ok h with ⟨rfl, -⟩ | h
  · exact ⟨rfl, id⟩
  · exact Cascs.unattached h e ha

theorem latchOf_eq_false (l : Level) : latchOf l = false ↔ logic l = some false := by
  cases l <;> simp [latchOf, logic]

/-- The body of `TW_ATTACH` with two different pins. -/
theorem attachEngine_to {e scl sda : Byte} {s t : State} (hs : Shaped s) (he : e.toNat < s.cfg.numEngines)
    (hscl : scl.toNat < s.cfg.numPins) (hsda : sda.toNat < s.cfg.numPins) (hne : scl ≠ sda)
    (h : attachEngine e.toNat scl sda s = .ok t) : t.outLog = s.outLog ∧ AttachedTo s t e scl sda := by
  have hel : e.toNat < s.engines.length := by rw [hs.engines]; exact he
  have hneN : scl.toNat ≠ sda.toNat := fun h' => hne (BitVec.eq_of_toNat_eq h')
  unfold attachEngine at h
  obtain ⟨a, ha, h⟩ := andThen_eq_ok h
  obtain ⟨r, -⟩ := twReset_to hs he ha
  dsimp only at h
  -- the engine taken off its pins
  have hue : ∀ x, (a.setEng e.toNat x).eng e.toNat = x := fun x => setEng_eng_self a _ x (by rw [r.engs]; exact hel)
  have huo : ∀ x f, f ≠ e.toNat → (a.setEng e.toNat x).eng f = a.eng f := fun x f hf =>
    (setEng_eng_cases a e.toNat f x).elim id fun h' => absurd h'.1.symm hf
  generalize hx : ({ a.eng e.toNat with attached := false, sclPin := scl, sdaPin := sda } : Engine) = x at h
  have hxe := hue x
  have hua : ((a.setEng e.toNat x).eng e.toNat).attached = false := by rw [hxe, ← hx]
  have hul : (a.setEng e.toNat x).pins.length = s.pins.length := r.pins
  have hups : ∀ q, (a.setEng e.toNat x).pin q = a.pin q := fun _ => rfl
  have husda : ∀ q, isEngineSda (a.setEng e.toNat x) q → isEngineSda s q := by
    rintro q ⟨f, hf, hfa, hq⟩
    by_cases hfe : f = e.toNat
    · subst hfe; rw [hua] at hfa; cases hfa
    · rw [huo x f hfe] at hfa hq
      obtain ⟨k1, -, k3, -⟩ := r.engines f hfe
      exact ⟨f, by rw [← r.cfg]; exact hf, k1 ▸ hfa, k3 ▸ hq⟩
  have huox := huo x
  have huent : ¬ hasEntry a (.eng e.toNat) → ¬ hasEntry (a.setEng e.toNat x) (.eng e.toNat) := id
  have hucfg : (a.setEng e.toNat x).cfg = s.cfg := r.cfg
  have hulog : (a.setEng e.toNat x).outLog = s.outLog := r.outLog
  have hudr : ∀ q, ((a.setEng e.toNat x).port q).driving = (s.port q).driving := r.driving
  have huengs : (a.setEng e.toNat x).engines.length = s.engines.length := by rw [setEng_engines_length]; exact r.engs
  generalize a.setEng e.toNat x = u at *
  -- the three changes of the pins
  obtain ⟨b, hb, h⟩ := andThen_eq_ok h
  obtain ⟨c, hc, h⟩ := andThen_eq_ok h
  obtain ⟨d, hd, h⟩ := andThen_eq_ok h
  obtain ⟨b1, b2, b3, b4, b5, b6⟩ := configurePin_to (by rw [hul, hs.pins]; exact hscl) hb
  obtain ⟨c1, c2, c3, c4, c5, c6⟩ := configurePin_to (by rw [b1.pins, hul, hs.pins]; exact hsda) hc
  obtain ⟨d1, d2, d3⟩ := setDriving_to (by rw [c1.pins, b1.pins, hul, hs.pins]; exact hsda) hd
  obtain ⟨bu, bn⟩ := configurePin_unattached (e := e.toNat) hb hua
  obtain ⟨cu, cn⟩ := configurePin_unattached (e := e.toNat) hc (by rw [bu]; exact hua)
  obtain ⟨du, dn⟩ := setDriving_unattached (e := e.toNat) hd (by rw [cu, bu]; exact hua)
  have hde : d.eng e.toNat = x := du.trans (cu.trans (bu.trans hxe))
  have hb0 : ∀ q, isEngineSda b q → isEngineSda s q := fun q h' => husda q (b1.sda h')
  have hc0 : ∀ q, isEngineSda c q → isEngineSda s q := fun q h' => hb0 q (c1.sda h')
  have hsetup : ∀ q, q ≠ scl.toNat → q ≠ sda.toNat → SamePinSetup s d q := fun q h1 h2 => by
    have h0 := r.setup q
    unfold SamePinSetup at h0
    rw [← hups q] at h0
    exact ((SamePinSetup.trans h0 (b1.rest.setup q h1)).trans (c1.rest.setup q h2)).trans (d1.rest.setup q h2)
  have hnode : ∀ q, (d.pin q).node = (s.pin q).node := fun q => by
    have h0 : (u.pin q).node = (s.pin q).node := by rw [hups]; exact (r.setup q).1
    have k1 : (b.pin q).node = (u.pin q).node := by
      by_cases hq : q = scl.toNat
      · exact hq ▸ b2
      · exact (b1.rest.setup q hq).1
    have k2 : (c.pin q).node = (b.pin q).node := by
      by_cases hq : q = sda.toNat
      · exact hq ▸ c2
      · exact (c1.rest.setup q hq).1
    have k3 : (d.pin q).node = (c.pin q).node := by
      by_cases hq : q = sda.toNat
      · exact hq ▸ d2.1
      · exact (d1.rest.setup q hq).1
    exact k3.trans (k2.trans (k1.trans h0))
  have hdrives : ∀ q, q ≠ sda.toNat → DriveKeptOrReleased s d q := fun q hq => by
    have h0 := r.drives q
    unfold DriveKeptOrReleased at h0
    rw [← hups q] at h0
    have k1 : DriveKeptOrReleased u b q := by
      by_cases hqs : q = scl.toNat
      · exact hqs ▸ b6
      · exact b1.rest.drives q hqs
    exact ((DriveKeptOrReleased.trans h0 k1 (husda q)).trans (c1.rest.drives q hq) (hb0 q)).trans (d1.rest.drives q hq) (hc0 q)
  have hdl : e.toNat < d.engines.length := by rw [d1.engs, c1.engs, b1.engs, huengs]; exact hel
  have hdriving : ∀ q, (d.port q).driving = (s.port q).driving := fun q =>
    (d1.rest.driving q).trans ((c1.rest.driving q).trans ((b1.rest.driving q).trans (hudr q)))
  have hengs : ∀ f, f ≠ e.toNat → SameEngineSetup s d f := fun f hf => by
    have h0 : SameEngineSetup a u f := SameEngineSetup.of_eq (huox f hf)
    exact (((r.engines f hf).trans h0).trans (b1.rest.engines f)).trans ((c1.rest.engines f).trans (d1.rest.engines f))
  -- the sda pin
  have hsdaB := b1.rest.setup sda.toNat (Ne.symm hneN)
  have hsclC := c1.rest.setup scl.toNat hneN
  have hsclD := d1.rest.setup scl.toNat hneN
  have hsclR := r.setup scl.toNat
  have hsdaR := r.setup sda.toNat
  unfold SamePinSetup at hsclR hsdaR
  rw [← hups] at hsclR hsdaR
  injection h with h
  have hself : t.eng e.toNat = { x with sclSeen := latchOf (d.pin scl.toNat).driven, sdaSeen := latchOf (d.pin sda.toNat).driven,
                                        attached := true, sdaDrive := false } := by
    rw [← h]
    unfold latchLines
    rw [setEng_eng_self _ _ _ (by simpa using hdl), setEng_eng_self _ _ _ hdl, hde]
    rfl
  have hother : ∀ f, f ≠ e.toNat → t.eng f = d.eng f := fun f hf => by
    rw [← h]
    unfold latchLines
    refine ((setEng_eng_cases _ _ _ _).elim id fun h' => absurd h'.1.symm hf).trans ?_
    exact (setEng_eng_cases _ _ _ _).elim id fun h' => absurd h'.1.symm hf
  have htp : ∀ q, t.pin q = d.pin q := fun q => by rw [← h]; rfl
  have htr : ∀ q, t.port q = d.port q := fun q => by rw [← h]; rfl
  have hte : hasEntry t (.eng e.toNat) ↔ hasEntry d (.eng e.toNat) := by rw [← h]; exact Iff.rfl
  have htl : t.outLog = d.outLog := by rw [← h]; rfl
  clear h
  refine ⟨htl.trans (d1.outLog.trans (c1.outLog.trans (b1.outLog.trans hulog))), ?_⟩
  refine ⟨by rw [hself], by rw [hself, ← hx], by rw [hself, ← hx], by rw [hself], ?_, ?_, ?_, ?_, ?_, ?_, ?_, ?_, ?_, ?_,
    fun hnp => ?_, fun f hf => ?_, fun q => ?_, fun q h1 h2 => ?_, fun q hq => ?_, fun q => ?_⟩
  · rw [hself, htp]; exact latchOf_eq_false _
  · rw [hself, htp]; exact latchOf_eq_false _
  · rw [htp]; exact hsclD.2.1.trans (hsclC.2.1.trans b3)
  · rw [htp]; exact hsclD.2.2.1.trans (hsclC.2.2.1.trans (b4.trans hsclR.2.2.1))
  · rw [htp]; exact hsclD.2.2.2.trans (hsclC.2.2.2.trans (b5.trans hsclR.2.2.2))
  · rw [htp]; exact d2.2.1.trans c3
  · rw [htp]; exact d2.2.2.1.trans c4
  · rw [htp]; exact d2.2.2.2.trans (c5.trans (hsdaB.2.2.2.trans hsdaR.2.2.2))
  · rw [htp]; exact d3.elim id And.left
  · have hk := r.kept
    constructor
    · rw [hself, ← hx]; exact hk.configured
    · rw [hself, ← hx]; exact hk.cfgAddress
    · rw [hself, ← hx]; exact hk.cfgCsmask
    · rw [hself, ← hx]; exact hk.matched
    · rw [hself, ← hx]; exact hk.rw
    · rw [hself, ← hx]; exact hk.periph
  · obtain ⟨k1, k2⟩ := r.idle hnp
    rw [hself, ← hx, k1]
    exact ⟨rfl, rfl, rfl, rfl, rfl, fun h' => dn (cn (bn (huent k2))) (hte.mp h')⟩
  · exact (hengs f hf).trans (SameEngineSetup.of_eq (hother f hf))
  · rw [htp]; exact hnode q
  · have := hsetup q h1 h2
    unfold SamePinSetup at this ⊢
    rw [htp]; exact this
  · have := hdrives q hq
    unfold DriveKeptOrReleased at this ⊢
    rw [htp]; exact this
  · rw [htr]; exact hdriving q

/-! ### A command that goes on -/

theorem CmdWs.shaped {B : Nat → Prop} {s u : State} (hs : Shaped s) (h : CmdWs (InNodes s.cfg) B s u) : Shaped u := by
  have key : Shaped u ∧ u.cfg = s.cfg := by
    induction h with
    | refl => exact ⟨hs, rfl⟩
    | tail _ hc ih => exact ⟨ih.1.cmd (by rw [ih.2]; exact hc), hc.globals.1.trans ih.2⟩
  exact key.1

/-- A command that goes on passed its checks, and its body met no fault. -/
theorem checked_ok {A B : Nat → Prop} {b : Bool} {f : State → Res} {s t : State} (h : commit (checked b s f) = .next t)
    (hcp : t.cp = s.cp + 1) (hf : b = true → CmdRes A B s (f s)) :
    b = true ∧ ∃ u, f s = .ok u ∧ CmdWs A B s u ∧ t = { u with cp := u.cp + 1 } := by
  unfold checked at h
  cases b with
  | false => cases h; simp [faulted] at hcp
  | true =>
      rw [if_pos rfl] at h
      have hr := hf rfl
      cases hfs : f s with
      | ok u =>
          rw [hfs] at h hr
          cases h
          exact ⟨rfl, u, rfl, hr, rfl⟩
      | halt v =>
          rw [hfs] at h hr
          cases h
          obtain ⟨u, hu, hut⟩ := hr
          have h1 := hut.fields
          have h2 := (CmdWs.globals hu).2.2.2.1
          omega

/-- It is done: nothing of the state as a whole has changed but `cp`. -/
theorem CmdWs.done {A B : Nat → Prop} {s u : State} (h : CmdWs A B s u) (ho : u.outLog = s.outLog) (hd : u.depth = s.depth) :
    Done s { u with cp := u.cp + 1 } := by
  obtain ⟨a1, a2, a3, a4, a5, a6, a7⟩ := CmdWs.globals h
  exact ⟨by show u.cp + 1 = _; rw [a4], ⟨a5, a6, a7⟩, ⟨a1, a2, ho⟩, a3, hd⟩

/-- And a block in order is in order again, if the body leaves its network so. -/
theorem CmdWs.inOrder {B : Nat → Prop} {s u : State} (hs : InOrder s) (h0 : s.faultCode = 0) (h : CmdWs (InNodes s.cfg) B s u)
    (hg : AllGood u) (hd : u.depth = s.depth) : InOrder { u with cp := u.cp + 1 } := by
  have key : u.cfg = s.cfg ∧ u.cycle = s.cycle ∧ PendingBase u ∧ EdgesHeld u ∧ Shaped u ∧
      ∀ x ∈ u.pending, x ∈ s.pending ∨ s.cycle.toNat < x.due.toNat := by
    clear hg hd
    induction h with
    | refl => exact ⟨rfl, rfl, hs.pending.base, hs.edges h0, hs.shaped, fun _ h => .inl h⟩
    | @tail a b _ hc ih =>
        obtain ⟨k1, k2, k3, k4, k5, k6⟩ := ih
        obtain ⟨g1, -, g3, -⟩ := hc.globals
        refine ⟨g1.trans k1, g3.trans k2, k3.cmd (by rw [k1]; exact hc), k4.cmd k5.engines hc, k5.cmd (by rw [k1]; exact hc),
          fun x hx => ?_⟩
        rcases hc.due x hx with h' | h'
        · exact k6 x h'
        · exact .inr (by rw [← k2]; exact h')
  obtain ⟨k1, k2, k3, k4, k5, k6⟩ := key
  have hg' : AllGood { u with cp := u.cp + 1 } :=
    hg.transfer rfl ⟨rfl, rfl, rfl, rfl⟩ (fun _ => rfl) (fun _ => rfl) (fun _ => Iff.rfl) (fun _ => rfl) fun _ => ⟨rfl, rfl, rfl, rfl, rfl⟩
  refine ⟨hg'.shaped, ⟨k3.owners, k3.seqs, k3.below, k3.inBlock, fun _ x hx => ?_⟩, hg'.resolved, hg'.settleSync, hg'.portsSynced,
    hg'.latchesSynced, fun _ => k4, hd.trans hs.depth⟩
  show u.cycle.toNat < _
  rw [k2]
  exact (k6 x hx).elim (hs.pending.later h0 x) id

/-- The update of an analog node starts its settling again from its present voltage at this cycle (R194). -/
theorem analogUpdate_start {n : Nat} {s t : State} (hn : n < s.nodes.length) (ht : analogUpdate n s = .ok t) :
    (t.node n).v0 = voltageAt s n s.cycle ∧ (t.node n).t0 = s.cycle := by
  have settle : ∀ (v : Num) (u : State), n < u.nodes.length →
      ((settleNode n v u).node n).v0 = (u.node n).v0 ∧ ((settleNode n v u).node n).t0 = (u.node n).t0 := fun v u hu => by
    have : (settleNode n v u).node n = { u.node n with voltage := v, settling := false } := setNode_node_self _ _ _ hu
    rw [this]
    exact ⟨rfl, rfl⟩
  unfold analogUpdate at ht
  dsimp only at ht
  split at ht
  · cases ht
    obtain ⟨h1, h2⟩ := settle (voltageAt s n s.cycle)
      { s.setNode n
          { s.node n with voltage := voltageAt s n s.cycle, v0 := voltageAt s n s.cycle, t0 := s.cycle,
                          vt := voltageAt s n s.cycle, zth := Config.freeZth s.draws, cth := nodeC s n, contended := false } with
        draws := s.draws + 1 } (by simpa using hn)
    refine ⟨h1.trans ?_, h2.trans ?_⟩ <;> exact congrArg _ (setNode_node_self s n _ hn)
  · split at ht
    · cases ht
      obtain ⟨h1, h2⟩ := settle (theveninV (nodeSources s n))
        (s.setNode n
          { s.node n with voltage := voltageAt s n s.cycle, v0 := voltageAt s n s.cycle, t0 := s.cycle,
                          vt := theveninV (nodeSources s n), zth := theveninZ (nodeSources s n), cth := nodeC s n,
                          contended := false }) (by simpa using hn)
      refine ⟨h1.trans ?_, h2.trans ?_⟩ <;> rw [setNode_node_self _ _ _ hn]
    · rw [setNode_setNode] at ht
      have hs := one_le_stepCycles s.cfg (voltageAt s n s.cycle) (theveninV (nodeSources s n))
        (theveninZ (nodeSources s n) * nodeC s n) 0
      simp only [setNode_cycle, setNode_cfg] at ht
      rw [schedule_later _ _ _ (by simp only [setNode_cycle]; omega)] at ht
      split at ht
      · cases ht
        rw [show ∀ (due : Nat) (x : Node), (scheduled (.node n) due (s.setNode n x)).node n = x from
          fun _ _ => setNode_node_self _ _ _ hn, setNode_node_self _ _ _ hn]
        exact ⟨rfl, rfl⟩
      · cases ht

/-- So does the resolution of an analog node, with no engine attached to start another. -/
theorem resolve_start {n : Nat} {s t : State} (hs : Shaped s) (hn : n < s.cfg.numNodes) (hq : NoEngineAttached s)
    (ha : analogMode s n = true) (h : resolve (.node n) s = .ok t) :
    (t.node n).v0 = voltageAt s n s.cycle ∧ (t.node n).t0 = s.cycle := by
  have hd : s.depth < s.cfg.maxNotifyDepth := by
    by_contra hh
    rw [resolve_full (by omega)] at h; cases h
  obtain ⟨res, -, hr⟩ := resolve_run (j := .node n) hd
  rw [hr] at h
  obtain ⟨w, hw, h⟩ := andThen_eq_ok h
  cases h
  change resolveNodeVia res n _ = _ at hw
  unfold resolveNodeVia at hw
  rw [if_pos (show analogMode { s with depth := s.depth + 1 } n = true from ha)] at hw
  obtain ⟨v, hv, hw⟩ := andThen_eq_ok hw
  have hsu : Shaped { s with depth := s.depth + 1 } := ⟨hs.pins, hs.nodes, hs.ports, hs.engines, hs.nodeOf, hs.enginePins⟩
  have hcv := (analogUpdate_casc (A := AnyNode) n trivial { s with depth := s.depth + 1 }).ok hv
  obtain ⟨a, b⟩ := analogUpdate_start (by rw [hsu.nodes]; exact hn) hv
  have hsv := hsu.casc hcv
  have hcf : v.cfg = s.cfg := hcv.globals.1
  have hqv : NoEngineAttached v := fun e he => ((Cascs.eng_fixed hcv e).2.1).trans (hq e (by rwa [hcf] at he))
  obtain ⟨ports, h1, h2⟩ := publishVia_quiet res (levelOf v.cfg (v.node n).voltage) hsv hqv (n := n)
  rw [h1] at hw
  cases hw
  have : (publishWrites n (levelOf v.cfg (v.node n).voltage) v).node n = { v.node n with level := levelOf v.cfg (v.node n).voltage } := by
    rw [publishWrites_node, setNode_node_self _ _ _ (by rw [hsv.nodes, hcf]; exact hn)]
  change ((publishWrites n (levelOf v.cfg (v.node n).voltage) v).node n).v0 = _ ∧ ((publishWrites n (levelOf v.cfg (v.node n).voltage) v).node n).t0 = _
  rw [this]
  exact ⟨a, b⟩

end Sys2Proof.Machine
end

