-- ==== Sys2Proof/Laws/Settling.lean ====
section
/-! SUPPORT. The exponential of a settling voltage (43_node_analog.md R201, R202): the model's rational one is the exponential to
within `(x + 1) · 10^-36` of it, is 1 at 0 and falls as its argument grows. -/

namespace Sys2Proof.Machine

theorem sum_map_range {M : Type} [AddCommMonoid M] (f : Nat → M) (n : Nat) :
    ((List.range n).map f).sum = ∑ k ∈ Finset.range n, f k := by
  induction n with
  | zero => rfl
  | succ n ih => rw [List.range_succ, Finset.sum_range_succ]; simp [ih]

/-- The model's series is the partial sum of the exponential. -/
theorem expSeries_cast (x : Num) : ((expSeries x : Num) : ℝ) = ∑ k ∈ Finset.range 33, (x : ℝ) ^ k / (k.factorial : ℝ) := by
  unfold expSeries
  rw [sum_map_range]
  push_cast
  rfl

theorem one_le_expSeries {x : Num} (hx : 0 ≤ x) : 1 ≤ expSeries x := by
  unfold expSeries
  rw [sum_map_range, Finset.sum_range_succ']
  have : 0 ≤ ∑ k ∈ Finset.range 32, x ^ (k + 1) / ((k + 1).factorial : Num) :=
    Finset.sum_nonneg fun k _ => by positivity
  simpa using this

theorem expSeries_mono {x y : Num} (hx : 0 ≤ x) (h : x ≤ y) : expSeries x ≤ expSeries y := by
  unfold expSeries
  rw [sum_map_range, sum_map_range]
  exact Finset.sum_le_sum fun k _ => by gcongr

theorem factorial_bound (k : Nat) : Nat.factorial 33 * 34 ^ k ≤ (k + 33).factorial := by
  have := Nat.factorial_mul_pow_le_factorial (m := 33) (n := k)
  simpa [Nat.add_comm] using this

/-- `expUnit` is the exponential on the unit interval, from above and to within `10^-36` of it. -/
theorem expUnit_mem {r : Num} (h0 : 0 ≤ r) (h1 : r ≤ 1) :
    Real.exp r ≤ (expUnit r : ℝ) ∧ (expUnit r : ℝ) ≤ Real.exp r * (1 + 1 / 10 ^ 36) := by
  have hr0 : (0 : ℝ) ≤ r := by exact_mod_cast h0
  have hr1 : (r : ℝ) ≤ 1 := by exact_mod_cast h1
  have hsum := Real.summable_pow_div_factorial (r : ℝ)
  have he : Real.exp r = ∑' k : Nat, (r : ℝ) ^ k / (k.factorial : ℝ) := by
    rw [Real.exp_eq_exp_ℝ, NormedSpace.exp_eq_tsum_div]
  have hS : ((expSeries r : Num) : ℝ) ≤ Real.exp r := by
    rw [expSeries_cast]; exact Real.sum_le_exp_of_nonneg hr0 33
  unfold expUnit
  push_cast
  constructor
  · rw [he, ← hsum.sum_add_tsum_nat_add 33, expSeries_cast]
    gcongr
    have hg : HasSum (fun k : Nat => (r : ℝ) ^ 33 / (Nat.factorial 33 : ℝ) * ((r : ℝ) / 34) ^ k)
        ((r : ℝ) ^ 33 / (Nat.factorial 33 : ℝ) * (1 - (r : ℝ) / 34)⁻¹) :=
      (hasSum_geometric_of_lt_one (by positivity) (by linarith)).mul_left _
    rw [div_eq_mul_inv _ (1 - (r : ℝ) / 34), ← hg.tsum_eq]
    refine Summable.tsum_le_tsum (fun k => ?_) ((summable_nat_add_iff 33).mpr hsum) hg.summable
    rw [div_pow, div_mul_div_comm, ← pow_add, Nat.add_comm 33 k]
    gcongr
    exact_mod_cast factorial_bound k
  · have htail : (r : ℝ) ^ 33 / (Nat.factorial 33 : ℝ) / (1 - (r : ℝ) / 34) ≤ 1 / (Nat.factorial 33 : ℝ) / (1 - 1 / 34) := by
      have : (r : ℝ) ^ 33 ≤ 1 := pow_le_one₀ hr0 hr1
      gcongr
    have hnum : 1 / (Nat.factorial 33 : ℝ) / (1 - 1 / 34) ≤ 1 / 10 ^ 36 := by
      norm_num [Nat.factorial]
    have hone : (1 : ℝ) ≤ Real.exp r := Real.one_le_exp hr0
    have : (1 : ℝ) / 10 ^ 36 ≤ Real.exp r * (1 / 10 ^ 36) := le_mul_of_one_le_left (by positivity) hone
    linarith

theorem one_le_expUnit {r : Num} (h0 : 0 ≤ r) (h1 : r ≤ 1) : 1 ≤ expUnit r := by
  have := (Real.one_le_exp (x := (r : ℝ)) (by exact_mod_cast h0)).trans (expUnit_mem h0 h1).1
  exact_mod_cast this

theorem expUnit_mono {r t : Num} (h0 : 0 ≤ r) (h : r ≤ t) (h1 : t ≤ 1) : expUnit r ≤ expUnit t := by
  unfold expUnit
  have hs := expSeries_mono h0 h
  have ht : 0 < 1 - t / 34 := by linarith
  have hrt : 1 - t / 34 ≤ 1 - r / 34 := by linarith
  have ht0 : 0 ≤ t := h0.trans h
  gcongr

/-- The whole part of an argument and the rest. -/
theorem floor_parts {x : Num} (hx : 0 ≤ x) :
    ((Rat.floor x).toNat : Num) ≤ x ∧ x < ((Rat.floor x).toNat : Num) + 1 := by
  have h0 : 0 ≤ Rat.floor x := Rat.le_floor_iff.mpr (by simpa using hx)
  have hc : (((Rat.floor x).toNat : Nat) : Num) = ((Rat.floor x : Int) : Num) := by
    exact_mod_cast Int.toNat_of_nonneg h0
  rw [hc]
  exact ⟨Rat.floor_le x, by exact_mod_cast Rat.lt_floor_add_one x⟩

/-- The model's exponential is the exponential, from below and to within `(x + 1) · 10^-36` of it (R201). -/
theorem expNeg_mem {x : Num} (hx : 0 ≤ x) :
    Real.exp (-(x : ℝ)) * (1 - ((x : ℝ) + 1) / 10 ^ 36) ≤ (expNeg x : ℝ) ∧ (expNeg x : ℝ) ≤ Real.exp (-(x : ℝ)) := by
  obtain ⟨hn, hn'⟩ := floor_parts hx
  unfold expNeg
  generalize (Rat.floor x).toNat = n at hn hn'
  obtain ⟨a1, a2⟩ := expUnit_mem (r := 1) (by norm_num) le_rfl
  obtain ⟨b1, b2⟩ := expUnit_mem (r := x - n) (by linarith) (by linarith)
  have hprod : Real.exp (x : ℝ) = Real.exp ((1 : Num) : ℝ) ^ n * Real.exp ((x - n : Num) : ℝ) := by
    rw [← Real.exp_nat_mul, ← Real.exp_add]; congr 1; push_cast; ring
  have hlow : Real.exp (x : ℝ) ≤ (expUnit 1 : ℝ) ^ n * (expUnit (x - n) : ℝ) := by
    have : (0 : ℝ) ≤ expUnit 1 := (Real.exp_pos _).le.trans a1
    rw [hprod]; gcongr
  have hup : (expUnit 1 : ℝ) ^ n * (expUnit (x - n) : ℝ) ≤ Real.exp (x : ℝ) * (1 + 1 / 10 ^ 36) ^ (n + 1) := by
    calc (expUnit 1 : ℝ) ^ n * (expUnit (x - n) : ℝ)
        ≤ (Real.exp ((1 : Num) : ℝ) * (1 + 1 / 10 ^ 36)) ^ n * (Real.exp ((x - n : Num) : ℝ) * (1 + 1 / 10 ^ 36)) := by
          have : (0 : ℝ) ≤ expUnit 1 := (Real.exp_pos _).le.trans a1
          have : (0 : ℝ) ≤ expUnit (x - n) := (Real.exp_pos _).le.trans b1
          gcongr
      _ = _ := by rw [hprod, mul_pow, pow_succ]; ring
  have hpos : 0 < (expUnit 1 : ℝ) ^ n * (expUnit (x - n) : ℝ) := (Real.exp_pos _).trans_le hlow
  push_cast
  constructor
  · have hd : (1 + 1 / 10 ^ 36 : ℝ) ^ (n + 1) * (1 - ((x : ℝ) + 1) / 10 ^ 36) ≤ 1 := by
      have hnx : ((n : ℝ)) ≤ x := by exact_mod_cast hn
      have h1 : (1 + 1 / 10 ^ 36 : ℝ) ^ (n + 1) ≤ Real.exp (((x : ℝ) + 1) / 10 ^ 36) := by
        calc (1 + 1 / 10 ^ 36 : ℝ) ^ (n + 1) ≤ Real.exp (1 / 10 ^ 36) ^ (n + 1) := by
              gcongr; linarith [Real.add_one_le_exp (1 / 10 ^ 36 : ℝ)]
          _ = Real.exp (((n + 1 : Nat) : ℝ) * (1 / 10 ^ 36)) := (Real.exp_nat_mul _ _).symm
          _ ≤ _ := by
              apply Real.exp_le_exp.mpr
              rw [mul_one_div]
              push_cast
              gcongr
      have h2 : 1 - ((x : ℝ) + 1) / 10 ^ 36 ≤ Real.exp (-(((x : ℝ) + 1) / 10 ^ 36)) := by
        linarith [Real.add_one_le_exp (-(((x : ℝ) + 1) / 10 ^ 36))]
      calc _ ≤ (1 + 1 / 10 ^ 36 : ℝ) ^ (n + 1) * Real.exp (-(((x : ℝ) + 1) / 10 ^ 36)) := by gcongr
        _ ≤ Real.exp (((x : ℝ) + 1) / 10 ^ 36) * Real.exp (-(((x : ℝ) + 1) / 10 ^ 36)) := by gcongr
        _ = 1 := by rw [← Real.exp_add]; simp
    rw [le_div_iff₀ hpos]
    by_cases hneg : 1 - ((x : ℝ) + 1) / 10 ^ 36 ≤ 0
    · have : Real.exp (-(x : ℝ)) * (1 - ((x : ℝ) + 1) / 10 ^ 36) ≤ 0 := mul_nonpos_of_nonneg_of_nonpos (Real.exp_pos _).le hneg
      exact (mul_nonpos_of_nonpos_of_nonneg this hpos.le).trans zero_le_one
    · rw [not_le] at hneg
      calc _ ≤ Real.exp (-(x : ℝ)) * (1 - ((x : ℝ) + 1) / 10 ^ 36) * (Real.exp (x : ℝ) * (1 + 1 / 10 ^ 36) ^ (n + 1)) := by
            have := mul_nonneg (Real.exp_pos (-(x : ℝ))).le hneg.le
            gcongr
        _ = (Real.exp (-(x : ℝ)) * Real.exp (x : ℝ)) * ((1 + 1 / 10 ^ 36) ^ (n + 1) * (1 - ((x : ℝ) + 1) / 10 ^ 36)) := by ring
        _ = (1 + 1 / 10 ^ 36) ^ (n + 1) * (1 - ((x : ℝ) + 1) / 10 ^ 36) := by rw [← Real.exp_add]; simp
        _ ≤ 1 := hd
  · rw [Real.exp_neg, one_div]
    exact inv_anti₀ (Real.exp_pos _) hlow

theorem expNeg_pos {x : Num} (hx : 0 ≤ x) : 0 < expNeg x := by
  obtain ⟨hn, hn'⟩ := floor_parts hx
  unfold expNeg
  generalize (Rat.floor x).toNat = n at hn hn'
  have h1 := one_le_expUnit (r := 1) (by norm_num) le_rfl
  have h2 := one_le_expUnit (r := x - n) (by linarith) (by linarith)
  positivity

/-- The model's exponential falls as its argument grows (R202). -/
theorem expNeg_anti {x y : Num} (hx : 0 ≤ x) (h : x ≤ y) : expNeg y ≤ expNeg x := by
  obtain ⟨hn, hn'⟩ := floor_parts hx
  obtain ⟨hm, hm'⟩ := floor_parts (hx.trans h)
  unfold expNeg
  generalize (Rat.floor x).toNat = n at hn hn'
  generalize (Rat.floor y).toNat = m at hm hm'
  have e1 := one_le_expUnit (r := 1) (by norm_num) le_rfl
  have ex := one_le_expUnit (r := x - n) (by linarith) (by linarith)
  have ey := one_le_expUnit (r := y - m) (by linarith) (by linarith)
  have hnm : n ≤ m := by
    have : (n : Num) < (m : Num) + 1 := by linarith
    exact Nat.lt_succ_iff.mp (by exact_mod_cast this)
  refine one_div_le_one_div_of_le (by positivity) ?_
  rcases hnm.eq_or_lt with rfl | hlt
  · have := expUnit_mono (r := x - n) (t := y - n) (by linarith) (by linarith) (by linarith)
    gcongr
  · calc expUnit 1 ^ n * expUnit (x - n) ≤ expUnit 1 ^ n * expUnit 1 := by
          have := expUnit_mono (r := x - n) (t := 1) (by linarith) (by linarith) le_rfl
          gcongr
      _ = expUnit 1 ^ (n + 1) := (pow_succ _ _).symm
      _ ≤ expUnit 1 ^ m := pow_le_pow_right₀ e1 hlt
      _ ≤ expUnit 1 ^ m * expUnit (y - m) := le_mul_of_one_le_right (by positivity) ey

/-- Nothing is left out of a step at no elapsed time (R201). -/
theorem expNeg_zero : expNeg 0 = 1 := by decide +kernel

end Sys2Proof.Machine
end

