-- ==== Sys2Proof/Tests/Slice0.lean ====
section
/-! SUPPORT. Tests on fixed values: ill-formed commands refused, words written out from the spec's formats, one step of each command
on a small state with the result the spec's text gives, and for every statement with hypotheses a state that meets them. -/

namespace Sys2Proof.Tests

-- One theorem after the other: each `decide +kernel` waits for the kernel, and dozens of waiting threads outgrow the memory limit.
set_option Elab.async false

open Sys2Proof.Machine

/-! ### Small states -/

/-- Four pins, two nodes, one port register on pins 0 and 1, one engine. -/
def small : Config :=
  { Config.test with
    pins := ⟨10000, 1 / 1000000000⟩ :: List.replicate 3 ⟨10000, 0⟩, numNodes := 2, ports := [⟨0, 0x03, 0x0F, 0x84⟩]
    maxNotifyDepth := 2 }

/-- The small block after reset. -/
def quiet : State := State.resetWith small

/-- A released open-collector line pin with a pull-up, on node `n`. -/
def line (dir : Dir) (pu : Bool) (n : Nat) : Pin := ⟨dir, true, pu, .digital .floating, some n, .weakHigh⟩

/-- Engine 0 of `bus`. -/
def busEngine : Engine :=
  { Engine.reset with attached := true, sclPin := 0, sdaPin := 1, configured := true, cfgAddress := 0xA0 }

/-- Engine 0 after a matched address byte, SCL just fallen. -/
def waitingEngine : Engine :=
  { busEngine with state := .ackAddress, bits := 8, sclSeen := false, pend := some .fall }

/-- Engine 0 pulling SDA low in an acknowledge slot, SCL high. -/
def pullingEngine : Engine :=
  { busEngine with state := .ackAddress, bits := 9, matched := 0xA1, rw := true, sdaDrive := true, sdaSeen := false }

/-- Engine 0 attached to pins 0 (SCL) and 1 (SDA), a master's pins 2 and 3 beside them, both lines released. -/
def bus : State :=
  { quiet with
    pins := [line .input true 0, line .biDirectional true 1, line .biDirectional false 0, line .biDirectional false 1]
    nodes := [{ Node.reset with level := .weakHigh }, { Node.reset with level := .weakHigh }]
    ports := [⟨0x00, 0x87⟩]
    engines := [busEngine] }

/-- The bus with SCL pulled low by the master after a matched address byte: the engine's `Fall` waits for cycle 1. -/
def waiting : State :=
  { bus with
    pins := [{ line .input true 0 with driven := .drivenLow }, line .biDirectional true 1,
      { line .biDirectional false 0 with drive := .digital .drivenLow, driven := .drivenLow }, line .biDirectional false 1]
    nodes := [{ Node.reset with level := .drivenLow }, { Node.reset with level := .weakHigh }]
    ports := [⟨0x00, 0x86⟩]
    engines := [waitingEngine]
    pending := [⟨.eng 0, 1, 0⟩]
    nextSeq := 1 }

/-- The bus with SCL high and the engine pulling SDA low in an acknowledge slot. -/
def pulling : State :=
  { bus with
    pins := [line .input true 0, { line .biDirectional true 1 with drive := .digital .drivenLow, driven := .drivenLow },
      line .biDirectional false 0, { line .biDirectional false 1 with driven := .drivenLow }]
    nodes := [{ Node.reset with level := .weakHigh }, { Node.reset with level := .drivenLow }]
    ports := [⟨0x00, 0x85⟩]
    engines := [pullingEngine] }

/-- Pin 0, an `Output` driving `Floating`, alone on node 0 at 0 V: the block of R198's example before its command. -/
def plain : State :=
  { quiet with pins := { Pin.reset with dir := .output, node := some 0 } :: List.replicate 3 Pin.reset }

/-- The same with the pin an `Input`, which offers no source. -/
def unsourced : State :=
  { quiet with pins := { Pin.reset with node := some 0 } :: List.replicate 3 Pin.reset }

/-- Node 0 settling from 0 V toward 5 V with `τ = 10 µs`, its callback at cycle 25 (R202). -/
def charging : State :=
  { quiet with
    pins := ⟨.output, false, false, .analog 5000, some 0, .drivenLow⟩ :: List.replicate 3 Pin.reset
    nodes := [⟨.drivenLow, false, 0, 0, 0, 5, 10000, 1 / 1000000000, true⟩, Node.reset]
    pending := [⟨.node 0, 25, 0⟩]
    nextSeq := 1 }

/-- Pin 1 alone holds node 1 at 5 V, with no capacitance. -/
def held : State :=
  { quiet with
    pins := [Pin.reset, ⟨.output, false, false, .analog 5000, some 1, .drivenHigh⟩, Pin.reset, Pin.reset]
    nodes := [Node.reset, ⟨.drivenHigh, false, 5, 0, 0, 5, 10000, 0, false⟩]
    ports := [⟨0x00, 0x86⟩] }

/-- The engine of `pulling` pulls its data line low against 0 V at pin 3 and its own pull-up: 5/102 V behind 5000/51 ohms. -/
def mixed : State :=
  { pulling with
    pins := [line .input true 0, { line .biDirectional true 1 with drive := .digital .drivenLow, driven := .drivenLow },
      line .biDirectional false 0, { line .biDirectional false 1 with drive := .analog 0, driven := .drivenLow }]
    nodes := [{ Node.reset with level := .weakHigh }, ⟨.drivenLow, false, 5 / 102, 0, 0, 5 / 102, 5000 / 51, 0, false⟩] }

/-- Pins 0 and 1 drive node 0 against each other, not yet resolved. -/
def clashing : State :=
  { quiet with
    pins := [⟨.output, false, false, .digital .drivenHigh, some 0, .drivenHigh⟩,
      ⟨.output, false, false, .digital .drivenLow, some 0, .drivenLow⟩, Pin.reset, Pin.reset] }

/-- Two engines with one level of nesting: engine 1 sees engine 0's acknowledge as a START, and its release nests too deep. -/
def deep : State :=
  { waiting with
    cfg := { small with pins := List.replicate 5 ⟨10000, 0⟩, numEngines := 2, maxNotifyDepth := 1 }
    pins := [{ line .input true 0 with driven := .drivenLow }, line .biDirectional true 1,
      { line .biDirectional false 0 with drive := .digital .drivenLow, driven := .drivenLow },
      { line .biDirectional false 1 with drive := .digital .drivenHigh },
      ⟨.input, false, true, .digital .floating, none, .weakHigh⟩]
    engines := [waitingEngine, { Engine.reset with attached := true, sclPin := 4, sdaPin := 3 }] }

/-- The state an outcome goes on to. -/
def goesOn : Host.Outcome State Fault Refusal → Option State
  | .next s => some s
  | .fault _ => none
  | .refused _ => none

/-- The state after a command; a state that is no one's result if it answers none. -/
def after (i : Instr) (s : State) : State :=
  match exec i s with
  | .next t => t
  | .fault _ => quiet
  | .refused _ => quiet

theorem next_of_goesOn {o : Host.Outcome State Fault Refusal} {f : State → Bool} (h : (goesOn o).any f = true) :
    ∃ t, o = .next t ∧ f t = true := by
  cases o with
  | next t => exact ⟨t, rfl, h⟩
  | fault r => cases h
  | refused r => cases h

/-! ### Well-formedness: each check refuses a command (R61) -/

theorem test_wf_pin : (Instr.pinDrive 3 .floating).wellFormed small = true ∧ (Instr.pinDrive 4 .floating).wellFormed small = false
    ∧ (Instr.pinRead 4).wellFormed small = false ∧ (Instr.pinConfig 4 .input false false).wellFormed small = false
    ∧ (Instr.pinAnalog 4 0).wellFormed small = false ∧ (Instr.nodeDetach 4).wellFormed small = false := by decide

theorem test_wf_node : (Instr.nodeAttach 3 1).wellFormed small = true ∧ (Instr.nodeAttach 3 2).wellFormed small = false
    ∧ (Instr.nodeAttach 4 1).wellFormed small = false ∧ (Instr.nodeRead 2).wellFormed small = false := by decide

theorem test_wf_port : (Instr.portWrite 0 0xFF).wellFormed small = true ∧ (Instr.portWrite 1 0xFF).wellFormed small = false
    ∧ (Instr.portRead 1).wellFormed small = false := by decide

theorem test_wf_engine : (Instr.twStatus 0).wellFormed small = true ∧ (Instr.twStatus 1).wellFormed small = false
    ∧ (Instr.twReset 1).wellFormed small = false ∧ (Instr.twConfigure 1 0 0).wellFormed small = false
    ∧ (Instr.twAttach 1 0 1).wellFormed small = false ∧ (Instr.twAttach 0 4 1).wellFormed small = false
    ∧ (Instr.twAttach 0 1 4).wellFormed small = false := by decide

/-! ### Words written out from the formats of R83, every row of R90 -/

theorem test_decode_now : decode (0b00000001_00000000_00000000_00000000 : Word) = .ok .now := by decide

theorem test_decode_advance : decode (0b00000010_00000000_00000001_00000010 : Word) = .ok (.advance 0x0102) := by decide

theorem test_decode_pinDrive : decode (0b00010000_00000101_00000000_00000011 : Word) = .ok (.pinDrive 5 .weakHigh) := by decide

theorem test_decode_pinRead : decode (0b00010001_11111111_00000000_00000000 : Word) = .ok (.pinRead 255) := by decide

theorem test_decode_pinConfig :
    decode (0b00010010_00000001_00000000_00001001 : Word) = .ok (.pinConfig 1 .output false true) ∧
      decode (0b00010010_00000001_00000000_00000110 : Word) = .ok (.pinConfig 1 .biDirectional true false) := by decide

theorem test_decode_pinAnalog : decode (0b00010011_00000111_10000000_00000001 : Word) = .ok (.pinAnalog 7 0x8001) := by decide

theorem test_decode_nodeAttach : decode (0b00011000_00000010_00000001_00000000 : Word) = .ok (.nodeAttach 2 1) := by decide

theorem test_decode_nodeDetach : decode (0b00011001_00000010_00000000_00000000 : Word) = .ok (.nodeDetach 2) := by decide

theorem test_decode_nodeRead : decode (0b00011010_00000011_00000000_00000000 : Word) = .ok (.nodeRead 3) := by decide

theorem test_decode_portWrite : decode (0b00100000_00000001_00000000_10100101 : Word) = .ok (.portWrite 1 0xA5) := by decide

theorem test_decode_portRead : decode (0b00100001_00000001_00000000_00000000 : Word) = .ok (.portRead 1) := by decide

theorem test_decode_twConfigure :
    decode (0b00110000_00000001_10100000_11111110 : Word) = .ok (.twConfigure 1 0xA0 0xFE) := by decide

theorem test_decode_twAttach : decode (0b00110001_00000001_00000010_00000011 : Word) = .ok (.twAttach 1 2 3) := by decide

theorem test_decode_twReset : decode (0b00110010_00000001_00000000_00000000 : Word) = .ok (.twReset 1) := by decide

theorem test_decode_twStatus : decode (0b00110011_00000001_00000000_00000000 : Word) = .ok (.twStatus 1) := by decide

/-- R88, R303: the decode checks, and that the first that fails is the one answered. -/
theorem test_decode_refuses :
    decode 0x00000000 = .error .illegalOpcode ∧ decode 0xFFFFFFFF = .error .illegalOpcode ∧
      decode 0x01000001 = .error .reservedField ∧ decode 0x12000010 = .error .reservedField ∧
      decode 0x10000006 = .error .badCode ∧ decode 0x10000007 = .error .badCode ∧ decode 0x12000003 = .error .badCode ∧
      decode 0x1000000E = .error .reservedField := by decide

/-- R65: the byte image, its lowest byte first; an image that ends inside a word holds no command. -/
theorem test_byte_image :
    decodeBytes [0x03, 0x00, 0x05, 0x10, 0xAA] = .ok (.pinDrive 5 .weakHigh, [0xAA]) ∧
      decodeBytes [0x00, 0x00, 0x00] = .error .truncated := by decide

/-- The table's numbering: bit 0 the least significant bit of the one word. -/
theorem test_table_word : decodeTableWord 32 0x31000203 = some (.twAttach 0 2 3) ∧ decodeTableWord 32 0 = none := by decide

/-! ### One step of each command, on the spec's examples -/

/-- R111's example: after reset, `NOW` appends `(0, 0)`. -/
theorem test_now : (after .now quiet).outLog = [⟨0, 0⟩] ∧ (after .now quiet).cp = 1 := by decide

/-- R117: `ADVANCE 0` fires nothing; `ADVANCE 1` fires the engine's `Fall` at cycle 1, which pulls SDA low (R259). -/
theorem test_advance : (after (.advance 0) waiting).pending = waiting.pending ∧ (after (.advance 1) waiting).cycle = 1 ∧
    (after (.advance 1) waiting).pending = [] ∧ ((after (.advance 1) waiting).pin 3).driven = .drivenLow ∧
    ((after (.advance 1) waiting).eng 0).bits = 9 ∧ ((after (.advance 1) waiting).eng 0).sdaDrive = true := by decide

/-- R117: past the end of the counter. -/
theorem test_advance_overflow :
    (after (.advance 1) { quiet with cycle := 0xFFFFFFFFFFFFFFFF }).faultCode = 6 ∧
      (after (.advance 1) { quiet with cycle := 0xFFFFFFFFFFFFFFFE }).cycle = 0xFFFFFFFFFFFFFFFF := by decide

/-- R161 and R246: the master pulls SCL low; the engine schedules its `Fall` for the next cycle. -/
theorem test_pinDrive : ((after (.pinDrive 2 .drivenLow) bus).node 0).level = .drivenLow ∧
    (after (.pinDrive 2 .drivenLow) bus).pending = [⟨.eng 0, 1, 0⟩] ∧
    ((after (.pinDrive 2 .drivenLow) bus).eng 0).pend = some .fall ∧
    ((after (.pinDrive 2 .drivenLow) bus).port 0).driven = 0x86 := by decide

/-- R148, R150, R161: two pins drive a node against each other: one `CONTENTION` record. -/
theorem test_contention : (after (.pinDrive 1 .drivenLow) (clashing.setPin 1 { clashing.pin 1 with drive := .digital .floating })).diagLog =
    [⟨1, 0, 0, 0⟩] ∧ ((after (.pinDrive 0 .drivenLow) clashing).node 0).contended = false := by decide +kernel

/-- R248: the master pulls SDA low while SCL is high. -/
theorem test_pinDrive_start : ((after (.pinDrive 3 .drivenLow) bus).eng 0).state = .rxAddress ∧
    (after (.pinDrive 3 .drivenLow) bus).pending = [] := by decide

/-- R162: what a pin reads is its node's level. -/
theorem test_pinRead : (after (.pinRead 1) pulling).outLog = [⟨0, 0⟩] ∧ (after (.pinRead 4) pulling).faultCode = 4 := by decide

/-- R163's example: a lone released pin with a pull-up reads `WeakHigh`. -/
theorem test_pinConfig : ((after (.pinConfig 1 .biDirectional true true) quiet).pin 1).driven = .weakHigh ∧
    ((after (.pinConfig 1 .biDirectional true true) quiet).port 0).driven = 0x86 := by decide

/-- R198, R200: a lone `Output` settles at once; an `Input` offers nothing. -/
theorem test_pinAnalog_alone : ((after (.pinAnalog 2 5000) { quiet with
      pins := [Pin.reset, Pin.reset, { Pin.reset with dir := .output }, Pin.reset] }).pin 2).driven = .drivenHigh ∧
    ((after (.pinAnalog 2 5000) quiet).pin 2).driven = .floating := by decide +kernel

/-- R198's no-source corner: the node is in analog mode and keeps its voltage. -/
theorem test_pinAnalog_unsourced : analogMode (after (.pinAnalog 0 5000) unsourced) 0 = true ∧
    ((after (.pinAnalog 0 5000) unsourced).node 0).voltage = 0 ∧
    ((after (.pinAnalog 0 5000) unsourced).node 0).level = .drivenLow := by decide +kernel

/-- R193, R194: a pull-up set on a pin of an analog node halves its resistance; `Input` takes its source away. -/
theorem test_pinConfig_analog : ((after (.pinConfig 1 .output false true) held).node 1).zth = 5000 ∧
    ((after (.pinConfig 1 .output false true) held).node 1).vt = 5 ∧
    ((after (.pinConfig 1 .input false false) held).node 1).voltage = 5 := by decide +kernel

/-- R164's corner: an analog-driving pin that joins a node puts it in analog mode; the node it left is digital again (R199). -/
theorem test_nodeAttach_analog : analogMode (after (.nodeAttach 1 0) held) 0 = true ∧
    ((after (.nodeAttach 1 0) held).node 0).voltage = 5 ∧ ((after (.nodeAttach 1 0) held).node 1).level = .floating := by
  decide +kernel

/-- R201, R202: a step from 0 V to 5 V with `τ` = 10 cycles: `5 · (1 - e^-1)` = 3.160602794... V after 10 cycles,
`5 · (1 - e^-5)` = 4.966310265... V after 50. -/
theorem test_voltageAt : voltageAt charging 0 0 = 0 ∧
    |voltageAt charging 0 10 - 3160602794 / 1000000000| ≤ 1 / 1000000000 ∧
    |voltageAt charging 0 50 - 4966310265 / 1000000000| ≤ 1 / 1000000000 := by decide +kernel

/-- R199: the one analog pin of a settling node becomes digital: no callback is left, the voltage fields keep their values. -/
theorem test_leaveAnalog : (after (.pinDrive 0 .drivenHigh) charging).pending = [] ∧
    (after (.pinDrive 0 .drivenHigh) charging).node 0 = { charging.node 0 with level := .drivenHigh, settling := false } := by
  decide +kernel

/-- R164: a pin driving low joins a node that was released. -/
theorem test_nodeAttach : ((after (.nodeAttach 1 0) bus).pin 1).node = some 0 ∧
    ((after (.nodeAttach 1 0) bus).node 1).level = .floating ∧
    ((after (.nodeAttach 1 0) pulling).node 0).level = .drivenLow := by decide

/-- R165's example: the node keeps the other pin's pull-up, the pin reads what it drives alone. -/
theorem test_nodeDetach : ((after (.nodeDetach 3) bus).pin 3).driven = .floating ∧
    ((after (.nodeDetach 3) bus).node 1).level = .weakHigh ∧ ((after (.nodeDetach 1) pulling).pin 1).driven = .drivenLow := by
  decide

/-- R166's example: after reset `NODE_READ n0` appends 4. -/
theorem test_nodeRead : (after (.nodeRead 0) quiet).outLog = [⟨0, 4⟩] ∧ (after (.nodeRead 2) quiet).faultCode = 4 := by decide

/-- R213: all bits stored, the enabled pins driven; an `Input` offers nothing (R144), a disabled bit reads its default (R218). -/
theorem test_portWrite : ((after (.portWrite 0 0xFF) quiet).port 0).driving = 0xFF ∧
    ((after (.portWrite 0 0xFF) quiet).pin 1).drive = .digital .drivenHigh ∧
    ((after (.portWrite 0 0xFF) quiet).pin 2).drive = .digital .floating ∧
    ((after (.portWrite 0 0xFF) quiet).port 0).driven = 0x84 := by decide

/-- R215: the value under the output mask, and the bits with no definite level reported. -/
theorem test_portRead : (after (.portRead 0) quiet).outLog = [⟨0, 0x04⟩] ∧ (after (.portRead 0) quiet).diagLog = [⟨2, 0, 0, 0x03⟩] ∧
    (after (.portRead 0) bus).outLog = [⟨0, 0x07⟩] ∧ (after (.portRead 0) bus).diagLog = [] := by decide

/-- R242's example. -/
theorem test_twConfigure : ((after (.twConfigure 0 0xA0 0xFE) quiet).eng 0).cfgAddress = 0xA0 ∧
    addressMatch ((after (.twConfigure 0 0xA0 0xFE) quiet).eng 0) 0xA1 = true ∧
    addressMatch ((after (.twConfigure 0 0xA0 0xFE) quiet).eng 0) 0xB2 = false := by decide

/-- R243's example, and its conflict. -/
theorem test_twAttach : ((after (.twAttach 0 2 3) quiet).eng 0).attached = true ∧ ((after (.twAttach 0 2 3) quiet).eng 0).sdaSeen = true ∧
    ((after (.twAttach 0 2 3) quiet).pin 3).dir = .biDirectional ∧ ((after (.twAttach 0 2 3) quiet).pin 3).oc = true ∧
    (after (.twAttach 0 2 2) quiet).faultCode = 8 ∧ ((after (.twAttach 0 2 2) quiet).eng 0).attached = false := by decide

/-- R244's example, SCL high: the release is seen as a STOP that changes nothing. -/
theorem test_twReset : ((after (.twReset 0) pulling).eng 0).state = .idle ∧ ((after (.twReset 0) pulling).node 1).level = .weakHigh ∧
    ((after (.twReset 0) pulling).eng 0).sdaSeen = true ∧ ((after (.twReset 0) pulling).eng 0).matched = 0xA1 := by decide

/-- R245: after reset 0; in the acknowledge slot the state, the bits, the last match and four flags. -/
theorem test_twStatus : (after (.twStatus 0) quiet).outLog = [⟨0, 0⟩] ∧ (after (.twStatus 0) pulling).outLog = [⟨0, 0x1BA10093⟩] := by
  decide

/-- R301, R302: the record of an unknown opcode, and that nothing runs after it. -/
theorem test_illegal_opcode : (goesOn (step { quiet with stream := [0] })).any (fun t => t.faultCode == 1 && t.cp == 0) = true ∧
    goesOn (step { quiet with stream := [0x01000000], faultCode := 1 }) = none := by decide

/-- R304: `NOTIFY_DEPTH` from a callback, at its due cycle. -/
theorem test_notify_depth : (after (.advance 5) deep).faultCode = 7 ∧ (after (.advance 5) deep).faultCycle = 1 ∧
    (after (.advance 5) deep).cycle = 1 ∧ (after (.advance 5) deep).cp = 0 := by decide +kernel

/-! ### Witnesses: for every statement with hypotheses, a state and operands that meet them all -/

theorem quiet_inOrder : InOrder quiet := checkInOrder_sound (by decide +kernel)
theorem quiet_calm : Calm quiet := checkCalm_sound (by decide +kernel)
theorem bus_inOrder : InOrder bus := checkInOrder_sound (by decide +kernel)
theorem waiting_unattached : UnattachedNoEntry waiting := fun e he ha => by
  obtain rfl : e = 0 := Nat.lt_one_iff.mp he
  exact absurd ha (by decide)
theorem bus_calm : Calm bus := checkCalm_sound (by decide +kernel)
theorem waiting_inOrder : InOrder waiting := checkInOrder_sound (by decide +kernel)
theorem waiting_calm : Calm waiting := checkCalm_sound (by decide +kernel)
theorem pulling_inOrder : InOrder pulling := checkInOrder_sound (by decide +kernel)
theorem pulling_calm : Calm pulling := checkCalm_sound (by decide +kernel)
theorem plain_inOrder : InOrder plain := checkInOrder_sound (by decide +kernel)
theorem unsourced_inOrder : InOrder unsourced := checkInOrder_sound (by decide +kernel)
theorem charging_inOrder : InOrder charging := checkInOrder_sound (by decide +kernel)

theorem held_inOrder : InOrder held := checkInOrder_sound (by decide +kernel)

theorem mixed_inOrder : InOrder mixed := checkInOrder_sound (by decide +kernel)
theorem deep_inOrder : InOrder deep := checkInOrder_sound (by decide +kernel)

/-- `EncodeInvertsDecode`. -/
theorem witness_EncodeInvertsDecode : decode 0x13FFFFFF = .ok (.pinAnalog 0xFF 0xFFFF) := by decide

/-- `OpcodeMapRows`, its three clauses: no row, a row and a reserved bit, a running block at a word of no row. -/
theorem witness_OpcodeMapRows : decode 0x14000000 = .error .illegalOpcode ∧
    (0x10000008 : Word) &&& 0xFF000000 = (0x10000000 : Word) &&& 0xFF000000 ∧
    (0x10000008 : Word) &&& 0xFF00FFF8 ≠ 0x10000000 ∧ decode 0x10000008 = .error .reservedField ∧
    decode 0x10000005 = .ok (.pinDrive 0 .unknown) ∧
    ({ quiet with stream := [0] } : State).faultCode = 0 ∧ fetch { quiet with stream := [0] } = some 0 := by decide

/-- `CodeFieldValues`, each clause at the last good code and the first reserved one. -/
theorem witness_CodeFieldValues : (0x10FF0005 : Word) &&& 0xFF00FFF8 = 0x10000000 ∧ (0x10FF0006 : Word) &&& 0xFF00FFF8 = 0x10000000 ∧
    (0x12FF000E : Word) &&& 0xFF00FFF0 = 0x12000000 ∧ (0x12FF000F : Word) &&& 0xFF00FFF0 = 0x12000000 ∧
    fetch { quiet with stream := [0x10FF0006] } = some 0x10FF0006 ∧ decode 0x10FF0006 = .error .badCode ∧
    ({ quiet with stream := [0x10FF0006] } : State).faultCode = 0 := by decide

/-- `StepRunsDecodedCommand`. -/
theorem witness_StepRunsDecodedCommand : ({ quiet with stream := [0x01000000] } : State).faultCode = 0 ∧
    fetch { quiet with stream := [0x01000000] } = some 0x01000000 ∧ decode 0x01000000 = .ok .now := by decide

/-- `DecodeFaultHasNoOtherEffect`, each of the three decode faults. -/
theorem witness_DecodeFaultHasNoOtherEffect : fetch { quiet with stream := [0] } = some 0 ∧ decode 0 = .error .illegalOpcode ∧
    fetch { quiet with stream := [0x01000001] } = some 0x01000001 ∧ decode 0x01000001 = .error .reservedField ∧
    fetch { quiet with stream := [0x12000003] } = some 0x12000003 ∧ decode 0x12000003 = .error .badCode ∧
    quiet.faultCode = 0 := by decide

/-- `NoStepWhenHaltedOrEnded`: a halted block; a running one at the end of its stream, and one before it. -/
theorem witness_NoStepWhenHaltedOrEnded : ({ quiet with faultCode := 8 } : State).faultCode ≠ 0 ∧ quiet.faultCode = 0 ∧
    quiet.stream.length ≤ quiet.cp ∧
    ¬ ({ quiet with stream := [0] } : State).stream.length ≤ ({ quiet with stream := [0] } : State).cp := by decide

/-- `BadIndexRaisesBeforeAnyEffect`, at the first index outside each space. -/
theorem witness_BadIndexRaisesBeforeAnyEffect : (Instr.pinDrive 4 .floating).wellFormed quiet.cfg = false ∧
    (Instr.nodeRead 2).wellFormed quiet.cfg = false ∧ (Instr.portRead 1).wellFormed quiet.cfg = false ∧
    (Instr.twStatus 1).wellFormed quiet.cfg = false := by decide

/-- `EveryCommandCompletesOrFaults` and `AdvanceFiresOneAtATime`: a block that is ready, with an entry to fire. -/
theorem witness_Ready : Ready waiting ∧ nextDue 1 waiting = some ⟨.eng 0, 1, 0⟩ ∧ nextDue 0 waiting = none :=
  ⟨waiting_inOrder.ready (by decide), by decide, by decide⟩

/-- `FaultsThatCanArise`: a command that completes, one that faults, and an `ADVANCE` that a callback's fault stops. -/
theorem witness_FaultsThatCanArise : Ready bus ∧ (∃ t, exec (.twReset 0) bus = .next t ∧ (t.faultCode == 0) = true) ∧
    (∃ t, exec (.twReset 1) bus = .next t ∧ (t.faultCode == 4) = true) ∧
    Ready deep ∧ ∃ t, exec (.advance 1) deep = .next t ∧ (t.faultCode == 7) = true :=
  ⟨bus_inOrder.ready (by decide), next_of_goesOn (by decide +kernel), next_of_goesOn (by decide +kernel),
    deep_inOrder.ready (by decide), next_of_goesOn (by decide +kernel)⟩

/-- `ResetFields` and `ResetInOrder`, at the last index of each space. -/
theorem witness_ResetFields : quiet = State.resetWith small ∧ 3 < small.numPins ∧ 1 < small.numNodes ∧ 0 < small.numPorts ∧
    0 < small.numEngines ∧ bus.cfg = small := by decide +kernel

/-- `ReadsReturnValues`, `StatusWordFields`, `PortReadValue`: the last index of each space; a port bit that is read and floats, one
that has a value, one that is disabled. -/
theorem witness_reads : (3 : Byte).toNat < quiet.cfg.numPins ∧ (1 : Byte).toNat < quiet.cfg.numNodes ∧
    (0 : Byte).toNat < quiet.cfg.numEngines ∧ (0 : Byte).toNat < quiet.cfg.numPorts ∧
    (quiet.portCfg 0).enable.getLsbD 1 = true ∧ (quiet.portCfg 0).outMask.getLsbD 1 = true ∧
    logic (quiet.pin 1).driven = none ∧ logic (bus.pin 1).driven = some true ∧ (quiet.portCfg 0).enable.getLsbD 2 = false := by
  decide

/-- `TwConfigureStores`, `LineHandlers` and the first clause of `TwResetCompletes`. -/
theorem witness_shaped_engine : Shaped bus ∧ (0 : Byte).toNat < bus.cfg.numEngines ∧ (bus.eng 0).sdaDrive = false ∧
    Shaped quiet ∧ (quiet.eng 0).attached = false :=
  ⟨bus_inOrder.shaped, by decide, by decide, quiet_inOrder.shaped, by decide⟩

/-- `AdvanceOverflowsOrMovesTheCounter`, both clauses at the end of the counter, and the second with an entry due one later. -/
theorem witness_AdvanceOverflowsOrMovesTheCounter :
    2 ^ 64 - 1 < ({ quiet with cycle := 0xFFFFFFFFFFFFFFFF } : State).cycle.toNat + (1 : BitVec 16).toNat ∧
    ({ quiet with cycle := 0xFFFFFFFFFFFFFFFE } : State).cycle.toNat + (1 : BitVec 16).toNat ≤ 2 ^ 64 - 1 ∧
    ∀ x ∈ waiting.pending, waiting.cycle.toNat + (0 : BitVec 16).toNat < x.due.toNat := by decide

/-- `AdvanceFiresOneAtATime`: a ready state with an entry due and with none, an engine with an edge waiting and one with none. -/
theorem witness_AdvanceFiresOneAtATime : Ready waiting ∧ nextDue 1 waiting = some ⟨.eng 0, 1, 0⟩ ∧ nextDue 0 waiting = none ∧
    (waiting.eng 0).pend = some .fall ∧ (bus.eng 0).pend = none ∧
    ({ busEngine with pend := some .rise } : Engine).pend = some .rise :=
  ⟨waiting_inOrder.ready (by decide), by decide, by decide, by decide, by decide, by decide⟩

/-- `AdvanceFiresOneAtATime`, the callback of a settling node: far from its target, and within the threshold of it. -/
theorem witness_SettleCallback : Shaped charging ∧ 0 < charging.cfg.numNodes ∧
    charging.cfg.settleEps < |voltageAt charging 0 0 - (charging.node 0).vt| ∧ Shaped { charging with cycle := 50 } ∧
    |voltageAt { charging with cycle := 50 } 0 50 - (charging.node 0).vt| ≤ charging.cfg.settleEps ∧
    0 < horizon charging.cfg ((charging.node 0).zth * (charging.node 0).cth) :=
  ⟨charging_inOrder.shaped, by decide, by decide +kernel, checkShaped_sound (by decide +kernel), by decide +kernel,
    by decide +kernel⟩

/-- `NextDueIsLeast`: two entries at one cycle, the earlier scheduled one least. -/
theorem witness_NextDueIsLeast : ∃ s : State, PendingBase s ∧ s.pending = [⟨.node 1, 7, 0⟩, ⟨.node 0, 7, 1⟩] ∧
    nextDue 7 s = some ⟨.node 1, 7, 0⟩ :=
  ⟨{ quiet with pending := [⟨.node 1, 7, 0⟩, ⟨.node 0, 7, 1⟩], nextSeq := 2 },
    (checkPending_sound (by decide +kernel)).base, rfl, by decide⟩

/-- `AdvanceReachesTarget`, an `ADVANCE` that completes and one that a callback faults. -/
theorem witness_AdvanceReachesTarget : InOrder waiting ∧ waiting.faultCode = 0 ∧
    waiting.cycle.toNat + (1 : BitVec 16).toNat ≤ 2 ^ 64 - 1 ∧
    (∃ t, exec (.advance 1) waiting = .next t ∧ (t.faultCode == 0) = true) ∧
    InOrder deep ∧ deep.faultCode = 0 ∧ deep.cycle.toNat + (1 : BitVec 16).toNat ≤ 2 ^ 64 - 1 ∧
    ∃ t, exec (.advance 1) deep = .next t ∧ (!(t.faultCode == 0)) = true :=
  ⟨waiting_inOrder, by decide, by decide, next_of_goesOn (by decide +kernel), deep_inOrder, by decide, by decide,
    next_of_goesOn (by decide +kernel)⟩

/-- `AdvanceCompletesWhenCalm`. -/
theorem witness_AdvanceCompletesWhenCalm : InOrder waiting ∧ Calm waiting ∧ waiting.faultCode = 0 ∧
    waiting.cycle.toNat + (0xFFFF : BitVec 16).toNat + 1 ≤ 2 ^ 64 - 1 :=
  ⟨waiting_inOrder, waiting_calm, by decide, by decide⟩

/-- `ScheduleReplacesCancelRemoves`, its three clauses where they meet. -/
theorem witness_ScheduleReplacesCancelRemoves : 0 ≤ waiting.cycle.toNat ∧ waiting.cycle.toNat < 2 ^ 64 ∧ 2 ^ 64 - 1 < 2 ^ 64 ∧
    waiting.cycle.toNat < 2 ^ 64 - 1 ∧ waiting.cycle.toNat < 1 ∧ 1 ≤ 2 ^ 64 - 1 := by decide

/-- The statements about a step: a running block in order, ready, with its bus states, disabled bits and depth as the invariants have
them, whose step (an `ADVANCE` that fires an engine's edge) meets no fault. `TimeNeverGoesBack`, `StepKeepsEveryLevelResolved`,
`StepKeepsPortsSynced`, `StepKeepsLatchesSynced`, `StepKeepsEdgesPending`, `StepKeepsPendingOrdered`,
`StepNeverEntersStartOrWritePending` (both clauses), `StepKeepsDisabledBits`, `DepthIsZeroBetweenCommands`, `StepOnlyAppendsToLogs`. -/
theorem witness_steps : ∃ s : State, InOrder s ∧ Ready s ∧ Shaped s ∧ PendingOk s ∧ StatesEntered s ∧ DisabledBitsDefault s ∧
    UnattachedNoEntry s ∧ s.depth = 0 ∧ ∃ t, step s = .next t ∧ (t.faultCode == 0) = true := by
  have h : InOrder { waiting with stream := [0x02000001] } := checkInOrder_sound (by decide +kernel)
  refine ⟨{ waiting with stream := [0x02000001] }, h, h.ready (by decide), h.shaped, h.pending, fun e => ?_, fun r hr i hi _ => ?_,
    waiting_unattached, by decide, next_of_goesOn (by decide +kernel)⟩
  · rcases getD_mem_or [waitingEngine] e Engine.reset with h' | h'
    · rw [List.mem_singleton] at h'
      show ([waitingEngine].getD e Engine.reset).state ≠ _ ∧ ([waitingEngine].getD e Engine.reset).state ≠ _
      rw [h']
      exact ⟨by decide, by decide⟩
    · show ([waitingEngine].getD e Engine.reset).state ≠ _ ∧ ([waitingEngine].getD e Engine.reset).state ≠ _
      rw [h']
      exact ⟨by decide, by decide⟩
  · have : r = 0 := by
      have : r < 1 := hr
      omega
    subst this
    revert i
    decide

/-- `TimeNeverGoesBack`, second clause, and `PeripheralCalledOncePerByte`, second clause: a command that is no `ADVANCE`. -/
theorem witness_noAdvance : Shaped bus ∧ (∀ imm, Instr.twReset 0 ≠ .advance imm) ∧
    ∃ t, exec (.twReset 0) bus = .next t ∧ (t.faultCode == 0) = true :=
  ⟨bus_inOrder.shaped, fun _ => by simp, next_of_goesOn (by decide +kernel)⟩

/-- `PeripheralCalledOncePerByte`, the clauses of what `ADVANCE` fires: engines whose waiting edge makes a call and one whose does not,
and a node that settles. -/
theorem witness_firedCalls : Shaped (bus.setEng 0 { busEngine with state := .rxData, bits := 7, pend := some .rise }) ∧
    0 < bus.cfg.numEngines ∧ ({ pullingEngine with pend := some .fall } : Engine).bits.toNat = 9 ∧
    Shaped (pulling.setEng 0 { pullingEngine with pend := some .fall }) ∧ Shaped waiting ∧ (waiting.eng 0).bits.toNat = 8 ∧
    Shaped charging ∧ charging.pending = [⟨.node 0, 25, 0⟩] :=
  ⟨checkShaped_sound (by decide), by decide, by decide, checkShaped_sound (by decide), waiting_inOrder.shaped, by decide,
    charging_inOrder.shaped, by decide⟩

/-- `PeripheralCalledOncePerByte`, first clause, where `rx` is called and where `tx` is. -/
theorem witness_PeripheralCalledOncePerByte : Shaped pulling ∧ 0 < pulling.cfg.numEngines ∧ (pulling.eng 0).state = .ackAddress ∧
    (pulling.eng 0).bits.toNat = 9 ∧ (pulling.eng 0).rw = true ∧
    Shaped (bus.setEng 0 { busEngine with state := .rxData, bits := 7 }) ∧
    ((bus.setEng 0 { busEngine with state := .rxData, bits := 7 }).eng 0).bits.toNat = 7 :=
  ⟨pulling_inOrder.shaped, by decide, by decide, by decide, by decide, checkShaped_sound (by decide), by decide⟩

/-- `ResolutionTable`, a list for each clause. -/
theorem witness_ResolutionTable : Level.drivenHigh ∈ [Level.drivenHigh, .drivenLow] ∧
    ¬ (Level.drivenHigh ∈ [Level.unknown, .drivenLow] ∧ Level.drivenLow ∈ [Level.unknown, .drivenLow]) ∧
    Level.unknown ∈ [Level.unknown, .drivenLow] ∧ Level.unknown ∉ [Level.drivenHigh, .weakLow] ∧
    Level.drivenLow ∉ [Level.drivenHigh, .weakLow] ∧ Level.drivenHigh ∉ [Level.drivenLow, .weakHigh] ∧
    Level.drivenHigh ∉ [Level.weakLow, .weakHigh] ∧ Level.weakHigh ∉ [Level.weakLow, .floating] ∧
    (∀ l : Level, l ∈ [Level.weakLow, .floating] ↔ l ∈ [Level.floating, .weakLow, .weakLow]) := by
  refine ⟨by decide, by decide, by decide, by decide, by decide, by decide, by decide, by decide, fun l => ?_⟩
  cases l <;> decide

/-- `ContributionAndLogic`, a pin for each clause. -/
theorem witness_ContributionAndLogic : Pin.reset.drive = .digital .floating ∧ Pin.reset.dir = .input ∧
    (line .output false 0).oc = true ∧ ({ line .output false 0 with drive := .digital .weakHigh } : Pin).drive = .digital .weakHigh ∧
    (line .output false 0).dir ≠ .input ∧ (plain.pin 0).oc = false ∧ (plain.pin 0).dir ≠ .input := by decide

/-- `ContributionAndLogic`, its clauses on sources, thresholds and lone pins: the members of a node, its pull-up and mode; an analog
pin that offers a source; an `Input` pin with a pull-up; a pin for each digital contribution; a lone analog pin with and without a
source; sources with a conductance; the thresholds at and between their values. -/
theorem witness_Sources : members bus 1 = [1, 3] ∧ pullup bus 1 = true ∧ analogMode charging 0 = true ∧ analogMode bus 1 = false ∧
    (charging.pin 0).drive = .analog 5000 ∧ (charging.pin 0).dir ≠ .input ∧ (bus.pin 0).dir = .input ∧ (bus.pin 0).pu = true ∧
    (∀ l : Level, contribution ⟨.output, false, false, .digital l, none, l⟩ = l) ∧
    pinSources { quiet with pins := [⟨.input, false, false, .analog 5000, none, .floating⟩] } 0 = [] ∧
    pinSources charging 0 = [⟨5, 10000⟩] ∧ (([⟨5, 10000⟩] : List Source).map fun x => 1 / x.z).sum ≠ 0 ∧
    levelOf small small.vih = .drivenHigh ∧ levelOf small small.vil = .drivenLow ∧ small.vil < small.vih ∧
    levelOf small ((small.vil + small.vih) / 2) = .unknown :=
  ⟨by decide, by decide, by decide, by decide, by decide, by decide, by decide, by decide, fun l => by cases l <;> rfl,
    by decide +kernel, by decide +kernel, by decide +kernel, by decide +kernel, by decide +kernel, by decide +kernel,
    by decide +kernel⟩

/-- `WiredAndBus`: every member releases, one pulls low, one offers `Unknown`, one `WeakLow` beside the pull-up. -/
theorem witness_WiredAndBus : NodeResolved bus 1 ∧ 1 < bus.cfg.numNodes ∧ analogMode bus 1 = false ∧ pullup bus 1 = true ∧
    (∀ p ∈ members bus 1, (bus.pin p).oc = true) ∧ (∀ p ∈ members bus 1, contribution (bus.pin p) = .floating) ∧
    NodeResolved pulling 1 ∧ (∃ p ∈ members pulling 1, contribution (pulling.pin p) = .drivenLow) ∧
    (∀ p ∈ members pulling 1, contribution (pulling.pin p) ≠ .unknown) ∧
    ∃ s : State, NodeResolved s 1 ∧ pullup s 1 = true ∧ analogMode s 1 = false ∧ (s.node 1).level = .unknown ∧
      ∀ p ∈ members s 1, (s.pin p).oc = true := by
  refine ⟨bus_inOrder.resolved.1 1 (by decide), by decide, by decide, by decide, by decide, by decide,
    pulling_inOrder.resolved.1 1 (by decide), by decide, by decide, ?_⟩
  have h : InOrder { bus with
      pins := [line .input true 0, { line .biDirectional true 1 with driven := .unknown }, line .biDirectional false 0,
        { line .biDirectional false 1 with drive := .digital .weakLow, driven := .unknown }]
      nodes := [{ Node.reset with level := .weakHigh }, { Node.reset with level := .unknown }] } :=
    checkInOrder_sound (by decide +kernel)
  exact ⟨_, h.resolved.1 1 (by decide), by decide, by decide, by decide, by decide⟩

/-- `WiredAndBus`, second part: a node whose members clash, with no engine attached, and one beside an engine that is not contended. -/
theorem witness_Contention : Shaped clashing ∧ 0 < clashing.cfg.numNodes ∧ clashing.depth < clashing.cfg.maxNotifyDepth ∧
    analogMode clashing 0 = false ∧ NoEngineAttached clashing ∧
    (resolveDigital ((members clashing 0).map fun p => contribution (clashing.pin p)) (pullup clashing 0)).2 = true ∧
    Shaped bus ∧ bus.depth < bus.cfg.maxNotifyDepth ∧
    (resolveDigital ((members bus 1).map fun p => contribution (bus.pin p)) (pullup bus 1)).2 = false :=
  ⟨checkShaped_sound (by decide +kernel), by decide, by decide, by decide, checkNoEngine_sound (by decide), by decide,
    bus_inOrder.shaped, by decide, by decide⟩

/-- `WiredAndBus`, its clauses on resolutions: `depth` at its limit and one below it, a digital and an analog node, a lone pin whose
level is new and one whose is not. -/
theorem witness_Resolution : ({ bus with depth := 2 } : State).cfg.maxNotifyDepth ≤ ({ bus with depth := 2 } : State).depth ∧
    ({ bus with depth := 1 } : State).depth < ({ bus with depth := 1 } : State).cfg.maxNotifyDepth ∧ Shaped bus ∧
    1 < bus.cfg.numNodes ∧ analogMode bus 1 = false ∧ analogMode charging 0 = true ∧ Shaped charging ∧
    (quiet.pin 3).driven = aloneLevel quiet 3 ∧
    (State.pin (quiet.setPin 3 { quiet.pin 3 with pu := true }) 3).driven ≠
      aloneLevel (quiet.setPin 3 { quiet.pin 3 with pu := true }) 3 :=
  ⟨by decide, by decide, bus_inOrder.shaped, by decide, by decide, by decide, charging_inOrder.shaped, by decide, by decide⟩

/-- `PinDriveCompletes` and `NodeDetachCompletes`, second parts: the last analog member of a settling node becomes digital, or leaves. -/
theorem witness_LeaveAnalog : InOrder charging ∧ charging.faultCode = 0 ∧ charging.cfg.wf = true ∧ NoEngineAttached charging ∧
    (0 : Byte).toNat < charging.cfg.numPins ∧ (charging.pin 0).node = some 0 ∧ analogMode charging 0 = true ∧
    analogMode (charging.setPin 0 { charging.pin 0 with drive := .digital .drivenHigh }) 0 = false ∧
    analogMode (charging.setPin 0 { charging.pin 0 with node := none }) 0 = false :=
  ⟨charging_inOrder, by decide, by decide +kernel, checkNoEngine_sound (by decide), by decide, by decide, by decide, by decide,
    by decide⟩

/-- `UnchangedInputsDoNothing`, a pin for each clause. -/
theorem witness_UnchangedInputsDoNothing : (3 : Byte).toNat < bus.cfg.numPins ∧ (bus.pin 3).drive = .digital .floating ∧
    (charging.pin 0).drive = .analog 5000 ∧ (bus.pin 3).dir = .biDirectional ∧ (bus.pin 3).oc = true ∧ (bus.pin 3).pu = false ∧
    (1 : Byte).toNat < bus.cfg.numNodes ∧ (bus.pin 3).node = some 1 ∧ (quiet.pin 3).node = none := by decide

/-- `PinDriveCompletes`, `PinConfigCompletes`, `NodeAttachCompletes`, `NodeDetachCompletes`: a calm block in order, with an engine on
the bus, and the last pin and node. -/
theorem witness_network : InOrder bus ∧ Calm bus ∧ bus.faultCode = 0 ∧ (3 : Byte).toNat < bus.cfg.numPins ∧
    (1 : Byte).toNat < bus.cfg.numNodes ∧ (bus.pin 3).drive.isAnalog = false :=
  ⟨bus_inOrder, bus_calm, by decide, by decide, by decide, by decide⟩

/-- `PinAnalogAloneCompletes`. -/
theorem witness_PinAnalogAloneCompletes : InOrder quiet ∧ Calm quiet ∧ quiet.faultCode = 0 ∧ (3 : Byte).toNat < quiet.cfg.numPins ∧
    (quiet.pin 3).node = none :=
  ⟨quiet_inOrder, quiet_calm, by decide, by decide, by decide⟩

/-- `PinAnalogOnNodeCompletes`, where the node settles over time, where it is at its target at once, and where it has no source. -/
theorem witness_PinAnalogOnNodeCompletes :
    (InOrder plain ∧ plain.faultCode = 0 ∧ plain.cfg.wf = true ∧ NoEngineAttached plain ∧ (plain.pin 0).node = some 0 ∧
      (plain.pin 0).drive ≠ .analog 5000 ∧
      nodeSources (plain.setPin 0 { plain.pin 0 with drive := .analog 5000 }) 0 = [⟨5, 10000⟩] ∧
      nodeSources (plain.setPin 0 { plain.pin 0 with drive := .analog 0 }) 0 = [⟨0, 10000⟩] ∧ voltageAt plain 0 0 = 0 ∧
      nodeC plain 0 ≠ 0 ∧
      plain.cycle.toNat + max 1 (horizon plain.cfg (theveninZ [⟨5, 10000⟩] * nodeC plain 0)) ≤ 2 ^ 64 - 1) ∧
    InOrder unsourced ∧ NoEngineAttached unsourced ∧ (unsourced.pin 0).node = some 0 ∧ (unsourced.pin 0).drive ≠ .analog 5000 ∧
      nodeSources (unsourced.setPin 0 { unsourced.pin 0 with drive := .analog 5000 }) 0 = [] :=
  ⟨⟨plain_inOrder, by decide, by decide +kernel, checkNoEngine_sound (by decide), by decide, by decide, by decide +kernel,
    by decide +kernel, by decide +kernel, by decide +kernel, by decide +kernel⟩, unsourced_inOrder,
    checkNoEngine_sound (by decide), by decide, by decide, by decide +kernel⟩

/-- `PortWriteCompletes`: an enabled bit on the engine's data pin, and a pin no bit drives. -/
theorem witness_PortWriteCompletes : InOrder bus ∧ Calm bus ∧ bus.faultCode = 0 ∧ bus.cfg.wf = true ∧
    (0 : Byte).toNat < bus.cfg.numPorts ∧ (bus.portCfg 0).enable.getLsbD 1 = true ∧
    ∀ i, i < 8 → (bus.portCfg 0).enable.getLsbD i = true → 2 ≠ (bus.portCfg 0).base + i :=
  ⟨bus_inOrder, bus_calm, by decide, by decide +kernel, by decide, by decide, by decide⟩

/-- `TwResetCompletes`, second clause, and `TwResetLeavesIdle`: the only attached engine pulls its data pin low with SCL high. -/
theorem witness_TwReset : InOrder pulling ∧ Calm pulling ∧ pulling.faultCode = 0 ∧ (0 : Byte).toNat < pulling.cfg.numEngines ∧
    (pulling.eng 0).attached = true ∧ (pulling.eng 0).sdaDrive = true ∧
    (∀ f, f < pulling.cfg.numEngines → (pulling.eng f).attached = true → f = 0) ∧
    (pulling.pin (pulling.eng 0).sdaPin.toNat).drive = .digital .drivenLow ∧
    (pulling.eng 0).sclPin ≠ (pulling.eng 0).sdaPin ∧
    (pulling.pin (pulling.eng 0).sclPin.toNat).node ≠ (pulling.pin (pulling.eng 0).sdaPin.toNat).node :=
  ⟨pulling_inOrder, pulling_calm, by decide, by decide, by decide, by decide, by decide, by decide, by decide, by decide⟩

/-- `TwAttachCompletes`: the conflict clause, a first attachment, and one away from a data pin the engine is pulling low. -/
theorem witness_TwAttachCompletes : (0 : Byte).toNat < quiet.cfg.numEngines ∧ (3 : Byte).toNat < quiet.cfg.numPins ∧
    (2 : Byte).toNat < quiet.cfg.numPins ∧ (2 : Byte) ≠ 3 ∧ InOrder quiet ∧ Calm quiet ∧ quiet.faultCode = 0 ∧
    (quiet.eng 0).attached = false ∧ InOrder pulling ∧ Calm pulling ∧ pulling.faultCode = 0 ∧
    (3 : Byte).toNat < pulling.cfg.numPins ∧ (pulling.eng 0).sdaDrive = true ∧ (pulling.eng 0).attached = true ∧
    (∀ f, f < pulling.cfg.numEngines → (pulling.eng f).attached = true → f = (0 : Byte).toNat) ∧
    (pulling.pin (pulling.eng 0).sdaPin.toNat).drive = .digital .drivenLow ∧
    (pulling.eng 0).sclPin ≠ (pulling.eng 0).sdaPin ∧
    (pulling.pin (pulling.eng 0).sclPin.toNat).node ≠ (pulling.pin (pulling.eng 0).sdaPin.toNat).node :=
  ⟨by decide, by decide, by decide, by decide, quiet_inOrder, quiet_calm, by decide, by decide, pulling_inOrder, pulling_calm,
    by decide, by decide, by decide, by decide, by decide, by decide, by decide, by decide⟩

/-- `TransitionTableRows`: an engine in each state a row names, with the bit counts where the rows meet, and data pins that drive and
that do not drive what the engine wants, on a node and alone. -/
theorem witness_TransitionTableRows : (bus.eng 0).state = .idle ∧ (waiting.eng 0).state = .ackAddress ∧
    (waiting.eng 0).bits.toNat = 8 ∧ (pulling.eng 0).bits.toNat = 9 ∧
    (∀ st : BusState, ((bus.setEng 0 { busEngine with state := st }).eng 0).state = st) ∧
    (∀ b : BitVec 4, ((bus.setEng 0 { busEngine with bits := b }).eng 0).bits = b) ∧
    addressMatch busEngine 0xA0 = true ∧ addressMatch busEngine 0xA2 = false ∧
    (bus.pin (bus.eng 0).sdaPin.toNat).drive = .digital .floating ∧
    (pulling.pin (pulling.eng 0).sdaPin.toNat).drive = .digital .drivenLow ∧
    (pulling.pin (pulling.eng 0).sdaPin.toNat).node = some 1 ∧ (quiet.pin (quiet.eng 0).sdaPin.toNat).node = none :=
  ⟨by decide, by decide, by decide, by decide, fun st => by cases st <;> rfl, fun b => rfl, by decide, by decide, by decide,
    by decide, by decide, by decide⟩

/-- `AddressMatchBits`: a byte that differs in bit 0 only matches, one that differs in bit 1 does not. -/
theorem witness_AddressMatchBits : busEngine.configured = true ∧ addressMatch busEngine 0xA1 = true ∧
    addressMatch busEngine 0xA2 = false ∧ addressMatch { busEngine with configured := false } 0xA0 = false := by decide

/-- `LineHandlers`: a line with no value, one that agrees with its latch, and one that does not with the other seen high and low;
a data pin that is free, and one that the engine still pulls low when the line falls or rises under it. -/
theorem witness_LineHandlers : Shaped bus ∧ 0 < bus.cfg.numEngines ∧ logic (bus.pin 0).driven = some (bus.eng 0).sclSeen ∧
    logic (bus.pin 1).driven = some (bus.eng 0).sdaSeen ∧ logic (quiet.pin (quiet.eng 0).sclPin.toNat).driven = none ∧
    logic ((bus.setPin 1 { line .biDirectional true 1 with driven := .drivenLow }).pin 1).driven = some false ∧
    (bus.eng 0).sdaSeen = true ∧ (bus.eng 0).sclSeen = true ∧ (waiting.eng 0).sclSeen = false ∧
    (bus.pin (bus.eng 0).sdaPin.toNat).drive = .digital .floating ∧
    (∀ u : State, u = pulling.setEng 0 { pullingEngine with sdaSeen := true } → logic (u.pin 1).driven = some false ∧
      (u.eng 0).sdaSeen = true ∧ (u.eng 0).sclSeen = true ∧ (u.pin (u.eng 0).sdaPin.toNat).drive ≠ .digital .floating) ∧
    ∀ u : State, u = pulling.setPin 1 { pulling.pin 1 with driven := .weakHigh } → logic (u.pin 1).driven = some true ∧
      (u.eng 0).sdaSeen = false ∧ (u.eng 0).sclSeen = true ∧ (u.pin (u.eng 0).sdaPin.toNat).drive ≠ .digital .floating :=
  ⟨bus_inOrder.shaped, by decide, by decide, by decide, by decide, by decide, by decide, by decide, by decide, by decide,
    fun u h => by rw [h]; decide, fun u h => by rw [h]; decide⟩

/-- `LineHandlers`, a clock line whose definite value differs from its latch, both ways; a data change with the clock seen low; a
publication to two members, one of which it changes; and notifications: a pin with an enabled port bit, an engine that is not
attached, its clock pin, its data pin, another pin, and an engine with one pin for both lines. -/
theorem witness_LineChanges :
    (∀ u : State, u = bus.setPin 0 { bus.pin 0 with driven := .drivenLow } → Shaped u ∧
      logic (u.pin (u.eng 0).sclPin.toNat).driven = some false ∧ (u.eng 0).sclSeen = true) ∧
    (∀ u : State, u = waiting.setPin 0 { waiting.pin 0 with driven := .weakHigh } → Shaped u ∧
      logic (u.pin (u.eng 0).sclPin.toNat).driven = some true ∧ (u.eng 0).sclSeen = false) ∧
    (∀ u : State, u = waiting.setPin 1 { waiting.pin 1 with driven := .drivenLow } → Shaped u ∧
      logic (u.pin (u.eng 0).sdaPin.toNat).driven = some false ∧ (u.eng 0).sdaSeen = true ∧ (u.eng 0).sclSeen = false) ∧
    1 < bus.cfg.numNodes ∧ changedBy 1 .weakHigh (bus.setPin 3 { bus.pin 3 with driven := .drivenLow }) = [3] ∧
    (bus.portCfg 0).enable.getLsbD 1 = true ∧ (bus.portCfg 0).base + 1 = 1 ∧ (quiet.eng 0).attached = false ∧
    (bus.eng 0).attached = true ∧ (bus.eng 0).sclPin.toNat = 0 ∧ (bus.eng 0).sdaPin.toNat = 1 ∧
    ({ busEngine with sdaPin := 0 } : Engine).sclPin = ({ busEngine with sdaPin := 0 } : Engine).sdaPin :=
  ⟨fun u h => by rw [h]; exact ⟨checkShaped_sound (by decide), by decide, by decide⟩,
    fun u h => by rw [h]; exact ⟨checkShaped_sound (by decide), by decide, by decide⟩,
    fun u h => by rw [h]; exact ⟨checkShaped_sound (by decide), by decide, by decide, by decide⟩,
    by decide, by decide, by decide, by decide, by decide, by decide, by decide, by decide, by decide⟩

/-- `SettlingVoltageConverges`, its clause of one time constant (10 cycles) and that of the horizon (50 cycles) among it. -/
theorem witness_SettlingVoltageConverges : (charging.node 0).settling = true ∧ 0 < charging.cfg.cycleHz ∧
    0 < (charging.node 0).zth * (charging.node 0).cth ∧ (charging.node 0).t0.toNat ≤ (0 : Cycle).toNat ∧
    (0 : Cycle).toNat ≤ (25 : Cycle).toNat ∧
    (((10 : Cycle).toNat - (charging.node 0).t0.toNat : Nat) : Num) / charging.cfg.cycleHz /
      ((charging.node 0).zth * (charging.node 0).cth) = 1 ∧
    horizon charging.cfg ((charging.node 0).zth * (charging.node 0).cth) ≤ (50 : Cycle).toNat - (charging.node 0).t0.toNat := by
  decide +kernel

/-- `SettlesWithinFiveTau`: the numbers of R202, `5τ` = 50 cycles. -/
theorem witness_SettlesWithinFiveTau : InOrder charging ∧ charging.faultCode = 0 ∧ charging.cfg.wf = true ∧
    NoEngineAttached charging ∧ 0 < charging.cfg.numNodes ∧ charging.pending = [⟨.node 0, 25, 0⟩] ∧
    0 < (charging.node 0).zth * (charging.node 0).cth ∧
    50 = horizon charging.cfg ((charging.node 0).zth * (charging.node 0).cth) ∧
    (charging.node 0).t0.toNat ≤ charging.cycle.toNat ∧ (25 : Cycle).toNat ≤ (charging.node 0).t0.toNat + 50 ∧
    |(charging.node 0).v0 - (charging.node 0).vt| * (6738 / 1000000) ≤ charging.cfg.settleEps ∧
    (charging.node 0).t0.toNat + 50 ≤ charging.cycle.toNat + (50 : BitVec 16).toNat ∧
    charging.cycle.toNat + (50 : BitVec 16).toNat ≤ 2 ^ 64 - 1 :=
  ⟨charging_inOrder, by decide, by decide +kernel, checkNoEngine_sound (by decide), by decide, by decide, by decide +kernel,
    by decide +kernel, by decide, by decide, by decide +kernel, by decide, by decide⟩

/-- `FrameOfPinCommands`, `FrameOfAttachAndDetach`: each command completes on the bus. -/
theorem witness_frames : (∃ t, exec (.pinDrive 3 .drivenLow) bus = .next t ∧ (t.cp == bus.cp + 1) = true) ∧
    (∃ t, exec (.pinConfig 1 .input false false) pulling = .next t ∧ (t.cp == pulling.cp + 1) = true) ∧
    (∃ t, exec (.pinAnalog 3 0) quiet = .next t ∧ (t.cp == quiet.cp + 1) = true) ∧
    (∃ t, exec (.nodeAttach 1 0) bus = .next t ∧ (t.cp == bus.cp + 1) = true) ∧
    ∃ t, exec (.nodeDetach 1) pulling = .next t ∧ (t.cp == pulling.cp + 1) = true :=
  ⟨next_of_goesOn (by decide +kernel), next_of_goesOn (by decide +kernel), next_of_goesOn (by decide +kernel),
    next_of_goesOn (by decide +kernel), next_of_goesOn (by decide +kernel)⟩

/-- `PortWriteCompletes`, `TwResetCompletes`, `TwAttachCompletes`, `FrameOfPinCommands`, `FrameOfAttachAndDetach`, beside an analog node
and an engine that pulls it: each command completes, `NODE_ATTACH` of an analog-driving pin among them. -/
theorem witness_AnalogNode : InOrder mixed ∧ mixed.faultCode = 0 ∧ mixed.cfg.wf = true ∧ analogMode mixed 1 = true ∧
    (mixed.eng 0).attached = true ∧ (mixed.eng 0).sdaDrive = true ∧ (held.pin 1).drive.isAnalog = true ∧ ¬ isEngineSda held 1 ∧
    (∃ t, exec (.portWrite 0 0xFF) mixed = .next t ∧ (t.cp == mixed.cp + 1) = true) ∧
    (∃ t, exec (.twReset 0) mixed = .next t ∧ (t.cp == mixed.cp + 1) = true) ∧
    (∃ t, exec (.twAttach 0 2 3) mixed = .next t ∧ (t.cp == mixed.cp + 1) = true) ∧
    (∃ t, exec (.pinDrive 1 .drivenHigh) mixed = .next t ∧ (t.cp == mixed.cp + 1) = true) ∧
    (∃ t, exec (.pinAnalog 3 5000) mixed = .next t ∧ (t.cp == mixed.cp + 1) = true) ∧
    (∃ t, exec (.pinConfig 3 .output false true) mixed = .next t ∧ (t.cp == mixed.cp + 1) = true) ∧
    (∃ t, exec (.nodeAttach 1 0) held = .next t ∧ (t.cp == held.cp + 1) = true) ∧
    ∃ t, exec (.nodeDetach 3) mixed = .next t ∧ (t.cp == mixed.cp + 1) = true :=
  ⟨mixed_inOrder, by decide, by decide +kernel, by decide, by decide, by decide, by decide,
    by rintro ⟨e, he, h, -⟩; obtain rfl : e = 0 := Nat.lt_one_iff.mp he; exact absurd h (by decide),
    next_of_goesOn (by decide +kernel), next_of_goesOn (by decide +kernel), next_of_goesOn (by decide +kernel),
    next_of_goesOn (by decide +kernel), next_of_goesOn (by decide +kernel), next_of_goesOn (by decide +kernel),
    next_of_goesOn (by decide +kernel), next_of_goesOn (by decide +kernel)⟩

/-- `FrameWithNoEngineAttached`, its clause on a node in analog mode. -/
theorem witness_AnalogStart : Shaped held ∧ NoEngineAttached held ∧ (held.pin 1).node = some 1 ∧
    ∃ t, exec (.pinConfig 1 .output false true) held = .next t ∧
      (t.cp == held.cp + 1 && analogMode t 1 && (t.pin 1).pu != (held.pin 1).pu) = true :=
  ⟨held_inOrder.shaped, checkNoEngine_sound (by decide), by decide, next_of_goesOn (by decide +kernel)⟩

/-- `FrameWithNoEngineAttached`: pins on a node, another pin and another node, a port bit bound elsewhere. -/
theorem witness_FrameWithNoEngineAttached : Shaped plain ∧ NoEngineAttached plain ∧ (plain.pin 0).node = some 0 ∧
    (plain.pin 1).node ≠ (plain.pin 0).node ∧ (plain.pin 0).node ≠ some 1 ∧ (plain.portCfg 0).base + 1 ≠ 0 ∧
    ∃ t, exec (.pinDrive 0 .drivenLow) plain = .next t ∧ (t.faultCode == 0) = true :=
  ⟨plain_inOrder.shaped, checkNoEngine_sound (by decide), by decide, by decide, by decide, by decide,
    next_of_goesOn (by decide +kernel)⟩

/-- `FrameOfAdvance`: an `ADVANCE` that fires an engine's edge, a pin that is no engine's data pin, and one that only an engine that
is not attached names. -/
theorem witness_FrameOfAdvance : Ready waiting ∧ (∃ t, exec (.advance 1) waiting = .next t ∧ (t.faultCode == 0) = true) ∧
    (∀ e, e < waiting.cfg.numEngines → (waiting.eng e).sdaPin.toNat ≠ 3) ∧ UnattachedNoEntry waiting ∧
    ¬ isEngineSda waiting 3 ∧ UnattachedNoEntry quiet ∧ (quiet.eng 0).sdaPin.toNat = 0 ∧ ¬ isEngineSda quiet 0 :=
  ⟨waiting_inOrder.ready (by decide), next_of_goesOn (by decide +kernel), by decide, waiting_unattached,
    by rintro ⟨e, he, -, h⟩; obtain rfl : e = 0 := Nat.lt_one_iff.mp he; exact absurd h (by decide),
    fun _ _ _ ⟨_, h, _⟩ => absurd h List.not_mem_nil, by decide,
    by rintro ⟨e, he, ha, -⟩; obtain rfl : e = 0 := Nat.lt_one_iff.mp he; exact absurd ha (by decide)⟩

end Sys2Proof.Tests
end

section
/-! PROOF. Open-collector buses, contention and what a resolution runs. -/

namespace Sys2Proof.Machine

/-! ### A node of open-collector members -/

/-- An open-collector pin with a digital drive never offers a high level (R145). -/
theorem contribution_of_oc {x : Pin} (hoc : x.oc = true) (hd : x.drive.isAnalog = false) :
    contribution x = .floating ∨ contribution x = .drivenLow ∨ contribution x = .weakLow ∨ contribution x = .unknown := by
  obtain ⟨dir, oc, pu, drive, node, driven⟩ := x
  cases drive with
  | analog mv => cases hd
  | digital l =>
    obtain rfl : oc = true := hoc
    cases l <;> by_cases hdir : dir = .input <;> simp [contribution, contributionOf, hdir]

/-- The table on contributions of open-collector pins with a pull-up, row by row (R147): no row has a contention. -/
theorem resolveDigital_oc {c : List Level} (h : ∀ l ∈ c, l = .floating ∨ l = .drivenLow ∨ l = .weakLow ∨ l = .unknown) :
    resolveDigital c true =
      if .unknown ∈ c then (.unknown, false) else if .drivenLow ∈ c then (.drivenLow, false)
      else if .weakLow ∈ c then (.unknown, false) else (.weakHigh, false) := by
  have hdh : Level.drivenHigh ∉ c := fun hm => by simpa using h _ hm
  simp [resolveDigital, hdh]

/-- The contributions the table reads at node `n`. -/
def offers (s : State) (n : Nat) : List Level := (members s n).map fun p => contribution (s.pin p)

theorem mem_offers {s : State} {n : Nat} {l : Level} : l ∈ offers s n ↔ ∃ p ∈ members s n, contribution (s.pin p) = l :=
  List.mem_map

theorem offers_oc {s : State} {n : Nat} (ha : analogMode s n = false) (hoc : ∀ p ∈ members s n, (s.pin p).oc = true) :
    ∀ l ∈ offers s n, l = .floating ∨ l = .drivenLow ∨ l = .weakLow ∨ l = .unknown := by
  intro l hl
  obtain ⟨p, hp, rfl⟩ := mem_offers.mp hl
  exact contribution_of_oc (hoc p hp) (by simpa using List.any_eq_false.mp ha p hp)

/-- A resolved digital node reads what the table says of its contributions (R147, R148). -/
theorem NodeResolved.eq_table {s : State} {n : Nat} (h : NodeResolved s n) (ha : analogMode s n = false) :
    ((s.node n).level, (s.node n).contended) = resolveDigital (offers s n) (pullup s n) := by
  have hl := h.level
  have hc := h.contended
  rw [ha] at hl hc
  exact Prod.ext hl hc

theorem not_mem_offers {s : State} {n : Nat} {l : Level} :
    l ∉ offers s n ↔ ∀ p ∈ members s n, contribution (s.pin p) ≠ l := by
  rw [mem_offers]
  exact ⟨fun h p hp hl => h ⟨p, hp, hl⟩, fun h ⟨p, hp, hl⟩ => h p hp hl⟩

/-- A wired-AND bus (R168): the rows of `resolveDigital_oc`, read at a resolved node. -/
theorem NodeResolved.wiredAnd {s : State} {n : Nat} (h : NodeResolved s n) (ha : analogMode s n = false)
    (hpu : pullup s n = true) (hoc : ∀ p ∈ members s n, (s.pin p).oc = true) :
    (s.node n).contended = false ∧
    ((∀ p ∈ members s n, contribution (s.pin p) = .floating) → (s.node n).level = .weakHigh) ∧
    ((∃ p ∈ members s n, contribution (s.pin p) = .drivenLow) → (∀ p ∈ members s n, contribution (s.pin p) ≠ .unknown) →
      (s.node n).level = .drivenLow) ∧
    ((s.node n).level = .unknown → (∃ p ∈ members s n, contribution (s.pin p) = .unknown) ∨
      ((∃ p ∈ members s n, contribution (s.pin p) = .weakLow) ∧ ∀ p ∈ members s n, contribution (s.pin p) ≠ .drivenLow)) := by
  have htable := h.eq_table ha
  rw [hpu, resolveDigital_oc (offers_oc ha hoc)] at htable
  simp only [← mem_offers, ← not_mem_offers]
  refine ⟨?_, fun hall => ?_, fun hlow hunk => ?_, fun hl => ?_⟩
  · refine (congrArg Prod.snd htable).trans ?_
    split_ifs <;> rfl
  · have hnone : ∀ l, l ≠ .floating → l ∉ offers s n := fun l hl => not_mem_offers.mpr fun p hp h => hl (h ▸ hall p hp)
    rw [if_neg (hnone _ (by decide)), if_neg (hnone _ (by decide)), if_neg (hnone _ (by decide))] at htable
    exact congrArg Prod.fst htable
  · rw [if_neg hunk, if_pos hlow] at htable
    exact congrArg Prod.fst htable
  · by_cases hunk : .unknown ∈ offers s n
    · exact .inl hunk
    · rw [if_neg hunk, hl] at htable
      split_ifs at htable with hlow hweak
      · cases htable
      · exact .inr ⟨hweak, hlow⟩
      · cases htable

/-! ### What a resolution runs -/

section
variable (res : Job → State → Res) {s : State}

theorem runJobVia_digital {n : Nat} (ha : analogMode s n = false) :
    runJobVia res (.node n) s = publishVia res n (digitalLevel s n) (digitalUpdate n s) :=
  if_neg (by rw [ha]; exact Bool.false_ne_true)

theorem runJobVia_analog {n : Nat} (ha : analogMode s n = true) :
    runJobVia res (.node n) s =
      (analogUpdate n s).andThen fun t => publishVia res n (levelOf t.cfg (t.node n).voltage) t :=
  if_pos ha

theorem runJobVia_pin_same {p : Nat} (h : (s.pin p).driven = aloneLevel s p) : runJobVia res (.pin p) s = .ok s :=
  if_pos h

theorem runJobVia_pin_new {p : Nat} (h : (s.pin p).driven ≠ aloneLevel s p) :
    runJobVia res (.pin p) s = notifyVia res p (s.setPin p { s.pin p with driven := aloneLevel s p }) :=
  if_neg h

end

/-! ### The contention record -/

/-- However an operation made of small writes ends, the logs only grow. -/
theorem CascRes.grows {A : Nat → Prop} {s : State} {r : Res} (h : CascRes A s r) : Grows s r.state := by
  cases r with
  | ok t => exact CmdWs.grows (B := AnyNode) (CmdWs.of_casc h)
  | halt t =>
    obtain ⟨u, hu, ht⟩ := h
    exact (CmdWs.grows (B := AnyNode) (CmdWs.of_casc hu)).trans ht.grows

theorem publishVia_diagLog (room n : Nat) (l : Level) (s : State) :
    s.diagLog <+: (publishVia (resolveJob room) n l s).state.diagLog := by
  obtain ⟨-, hdiag, -⟩ := CascRes.grows (publishVia_casc (A := AnyNode) (resolveJob_casc room) n l s (nodesIn_any s))
  exact hdiag

/-- The record of `CONTENTION` a resolution of node `n` appends, if the table marks its contributions contended (R148, R311). -/
def contentionRec (s : State) (n : Nat) : List DiagRec :=
  if (resolveDigital (offers s n) (pullup s n)).2 then [⟨1, s.cycle, BitVec.ofNat 8 n, 0⟩] else []

theorem digitalUpdate_diagLog {n : Nat} {s : State} (hn : n < s.nodes.length) :
    (digitalUpdate n s).diagLog = s.diagLog ++ contentionRec s n := by
  rw [digitalUpdate_eq hn rfl]
  change (if (resolveDigital (offers s n) (pullup s n)).2 then s.diagLog ++ [⟨1, s.cycle, BitVec.ofNat 8 n, 0⟩] else s.diagLog) = _
  unfold contentionRec
  split
  · rfl
  · exact (List.append_nil _).symm

/-- Counting the nesting appends nothing. -/
theorem resolveJob_diagLog (room : Nat) (j : Job) (s : State) : (resolveJob (room + 1) j s).state.diagLog =
    (runJobVia (resolveJob room) j { s with depth := s.depth + 1 }).state.diagLog := by
  change ((runJobVia (resolveJob room) j { s with depth := s.depth + 1 }).andThen fun t =>
    .ok { t with depth := t.depth - 1 }).state.diagLog = _
  cases runJobVia (resolveJob room) j { s with depth := s.depth + 1 } <;> rfl

/-- A resolution of a digital node with a level left writes its record, and then publishes one level deeper (R150). -/
theorem resolve_node_diagLog {n : Nat} {s : State} (hd : s.depth < s.cfg.maxNotifyDepth) (ha : analogMode s n = false) :
    ∃ room l, (resolve (.node n) s).state.diagLog =
      (publishVia (resolveJob room) n l (digitalUpdate n { s with depth := s.depth + 1 })).state.diagLog := by
  obtain ⟨room, hroom⟩ : ∃ room, s.cfg.maxNotifyDepth - s.depth = room + 1 := ⟨s.cfg.maxNotifyDepth - s.depth - 1, by omega⟩
  refine ⟨room, digitalLevel { s with depth := s.depth + 1 } n, ?_⟩
  rw [← runJobVia_digital (resolveJob room) (s := { s with depth := s.depth + 1 }) ha, resolve, hroom, resolveJob_diagLog]

/-- A digital resolution records contention before anything its notifications append. -/
theorem resolve_node_diagLog_grows {n : Nat} {s : State} (hn : n < s.nodes.length) (hd : s.depth < s.cfg.maxNotifyDepth)
    (ha : analogMode s n = false) : s.diagLog ++ contentionRec s n <+: (resolve (.node n) s).state.diagLog := by
  obtain ⟨room, l, h⟩ := resolve_node_diagLog hd ha
  have hlog : (digitalUpdate n { s with depth := s.depth + 1 }).diagLog = s.diagLog ++ contentionRec s n :=
    digitalUpdate_diagLog (s := { s with depth := s.depth + 1 }) hn
  rw [h, ← hlog]
  exact publishVia_diagLog room n l _

/-- With no engine attached it appends nothing else. -/
theorem resolve_node_diagLog_quiet {n : Nat} {s : State} (hs : Shaped s) (hn : n < s.cfg.numNodes) (hq : NoEngineAttached s)
    (hd : s.depth < s.cfg.maxNotifyDepth) (ha : analogMode s n = false) :
    (resolve (.node n) s).state.diagLog = s.diagLog ++ contentionRec s n := by
  obtain ⟨room, l, h⟩ := resolve_node_diagLog hd ha
  have hn' : n < s.nodes.length := hs.nodes ▸ hn
  set u : State := { s with depth := s.depth + 1 }
  have hsu : Shaped u := hs.casc (A := AnyNode) (.single (.depth _))
  have hqu : NoEngineAttached (digitalUpdate n u) := by rw [digitalUpdate_eq (s := u) hn' rfl]; exact hq
  have hlog : (digitalUpdate n u).diagLog = s.diagLog ++ contentionRec s n := digitalUpdate_diagLog (s := u) hn'
  have hsd : Shaped (digitalUpdate n u) := hsu.casc (A := AnyNode) (digitalUpdate_casc n u)
  generalize digitalUpdate n u = v at h hqu hlog hsd
  obtain ⟨ports, hp, -⟩ := publishVia_quiet (resolveJob room) (n := n) l hsd hqu
  obtain ⟨-, -, -, -, hpub, -⟩ := publishWrites_fields n l v
  rw [h, hp, ← hlog]
  exact hpub

/-- Settles O29: the table on open-collector contributions, the record of a digital resolution, and what each resolution runs. -/
theorem wiredAndBus : Obligations.WiredAndBus := by
  unfold Obligations.WiredAndBus
  refine ⟨fun s n _ hr ha hpu hoc => hr.wiredAnd ha hpu hoc, ?_, fun j s => ⟨resolve_full, resolve_run⟩, ?_⟩
  · rintro s n k r hs hn hd ha rfl rfl
    refine ⟨resolve_node_diagLog_grows (hs.nodes ▸ hn) hd ha, fun hq => ?_⟩
    obtain ⟨t, ht, -, -, -, hnode, -⟩ := resolve_node_quiet hs hn hq hd ha rfl
    have hlog := resolve_node_diagLog_quiet hs hn hq hd ha
    rw [ht] at hlog
    exact ⟨t, ht, hlog, congrArg Node.contended hnode⟩
  · intro s res hs
    refine ⟨?_, fun n => runJobVia_analog res, fun p => ⟨runJobVia_pin_same res, runJobVia_pin_new res⟩⟩
    rintro n d hn ha rfl
    rw [runJobVia_digital res ha, digitalUpdate_eq (hs.nodes ▸ hn) rfl]
    rfl

end Sys2Proof.Machine
end

section
/-! PROOF. The peripheral behind an engine is called where the transition table calls it and nowhere else. -/

namespace Sys2Proof.Machine

/-! ### What calls nothing -/

/-- However the operation ends, no engine has called its peripheral since `s`. -/
def Silent (s : State) (r : Res) : Prop :=
  ∀ f, (r.state.eng f).periph = (s.eng f).periph

theorem setEng_periph {s : State} {e : Nat} {g : Engine} (h : g.periph = (s.eng e).periph) (f : Nat) :
    ((s.setEng e g).eng f).periph = (s.eng f).periph := by
  rcases setEng_eng_cases s e f g with h' | ⟨rfl, h'⟩
  · rw [h']
  · rw [h', h]

theorem HaltOf.periph {u t : State} (h : HaltOf u t) (f : Nat) : (t.eng f).periph = (u.eng f).periph := by
  obtain rfl | rfl | ⟨e, b, -, -, rfl⟩ := h
  · rfl
  · rfl
  · exact setEng_periph (s := u) (e := e) (g := { u.eng e with sclSeen := b, pend := some (if b then .rise else .fall) }) rfl f

/-- A body made of a command's small writes calls nothing, a fault on the way included. -/
theorem CmdRes.silent {A B : Nat → Prop} {s : State} {r : Res} (h : CmdRes A B s r) : Silent s r := by
  intro f
  cases r with
  | ok t => exact CmdWs.periph h f
  | halt t =>
    obtain ⟨u, hu, ht⟩ := h
    exact (ht.periph f).trans (CmdWs.periph hu f)

theorem resolve_silent (j : Job) (s : State) : Silent s (resolve j s) :=
  CmdRes.silent (B := AnyNode) (resolve_cmd j s (nodesIn_any s) (jobIn_any j))

theorem driveSda_silent (e : Nat) (bit : Bool) (s : State) : Silent s (driveSda e bit s) :=
  CmdRes.silent (B := AnyNode) (driveSda_cmd e bit s (nodesIn_any s))

theorem setEng_silent (e : Nat) {g : Engine} {s : State} (h : g.periph = (s.eng e).periph) : Silent s (.ok (s.setEng e g)) :=
  setEng_periph h

/-- A command other than `ADVANCE` calls nothing. -/
theorem exec_periph {i : Instr} {s t : State} (hs : Shaped s) (hi : ∀ imm, i ≠ .advance imm) (ht : exec i s = .next t) (e : Nat) :
    (t.eng e).periph = (s.eng e).periph := by
  obtain ⟨r, hr, hc⟩ := exec_cmd i s hs hi
  have hsilent : Silent s r := by
    obtain h | rfl | rfl := hc
    · exact h.silent
    · exact fun _ => rfl
    · exact fun _ => rfl
  rw [hr] at ht
  cases r <;> cases ht <;> exact hsilent e

/-! ### The rows that call nothing -/

theorem ok_silent (s : State) : Silent s (.ok s) := fun _ => rfl

theorem Silent.andThen {s : State} {r : Res} {f : State → Res} (hr : Silent s r) (hf : ∀ u, Silent u (f u)) :
    Silent s (r.andThen f) := by
  cases r with
  | halt t => exact hr
  | ok u => exact fun k => (hf u k).trans (hr k)

theorem rowRxAddressRise_silent (e : Nat) (sda : Bool) (s : State) : Silent s (rowRxAddressRise e sda s) := by
  unfold rowRxAddressRise
  dsimp only
  split
  · exact setEng_silent e rfl
  · split
    · split
      · exact setEng_silent e rfl
      · exact setEng_periph (g := { s.eng e with shift := shiftIn (s.eng e).shift sda, bits := 0, state := .idle }) rfl
    · exact ok_silent s

theorem rowAckReceivedDataFall_silent (e : Nat) (s : State) : Silent s (rowAckReceivedDataFall e s) :=
  (driveSda_silent e _ s).andThen fun _ => setEng_silent e rfl

theorem rowAckAfterWriteFall_silent (e : Nat) (s : State) : Silent s (rowAckAfterWriteFall e s) :=
  (driveSda_silent e true s).andThen fun u => by split <;> exact setEng_silent e rfl

theorem rowTxDataRise_silent (e : Nat) (s : State) : Silent s (rowTxDataRise e s) := by
  unfold rowTxDataRise
  dsimp only
  split
  · exact setEng_periph (g := { s.eng e with bits := freeCount s.draws }) rfl
  · exact setEng_silent e rfl

theorem rowTxDataFall_silent (e : Nat) (s : State) : Silent s (rowTxDataFall e s) := by
  unfold rowTxDataFall
  dsimp only
  split
  · exact (driveSda_silent e true s).andThen fun _ => setEng_silent e rfl
  · split
    · exact driveSda_silent e _ s
    · exact ok_silent s

theorem rowAckReadRise_silent (e : Nat) (sda : Bool) (s : State) : Silent s (rowAckReadRise e sda s) := by
  unfold rowAckReadRise
  dsimp only
  split
  · split <;> exact setEng_silent e rfl
  · exact ok_silent s

/-! ### The rows that call the peripheral -/

/-- However the operation ends, engine `e` has made the calls `cs` since `s`, and no other engine any. -/
def Calls (e : Nat) (cs : List PeriphCall) (s : State) (r : Res) : Prop :=
  (r.state.eng e).periph = (s.eng e).periph ++ cs ∧ ∀ f, f ≠ e → (r.state.eng f).periph = (s.eng f).periph

theorem Silent.calls {e : Nat} {cs : List PeriphCall} {s : State} {r : Res} (h : Silent s r) (hcs : cs = []) : Calls e cs s r :=
  ⟨by rw [hcs, List.append_nil]; exact h e, fun f _ => h f⟩

theorem Calls.then_silent {e : Nat} {cs : List PeriphCall} {s u : State} {r : Res} (h : Calls e cs s (.ok u)) (hr : Silent u r) :
    Calls e cs s r :=
  ⟨(hr e).trans h.1, fun f hf => (hr f).trans (h.2 f hf)⟩

theorem Calls.after_silent {e : Nat} {cs : List PeriphCall} {s u : State} {r : Res} (hu : Silent s (.ok u)) (h : Calls e cs u r) :
    Calls e cs s r :=
  ⟨h.1.trans (congrArg (· ++ cs) (hu e)), fun f hf => (h.2 f hf).trans (hu f)⟩

theorem setEng_calls {e : Nat} {cs : List PeriphCall} {g : Engine} {s : State} (he : e < s.engines.length)
    (h : g.periph = (s.eng e).periph ++ cs) : Calls e cs s (.ok (s.setEng e g)) :=
  ⟨h ▸ congrArg Engine.periph (setEng_eng_self s e g he), fun f hf =>
    congrArg Engine.periph ((setEng_eng s e f g).trans (if_neg fun h' => hf h'.1.symm))⟩

/-- `LoadTx` calls the byte source once, before it drives SDA (R266). -/
theorem loadTx_calls {e : Nat} {s : State} (he : e < s.engines.length) : Calls e [.tx] s (loadTx e s) :=
  (setEng_calls he rfl).then_silent ((driveSda_silent e _ _).andThen fun _ => setEng_silent e rfl)

/-- The calls an edge makes of the peripheral: `rx` at the rise that completes a data byte, `tx` at the fall that starts a
transmitted one (R262, R266). -/
def edgeCalls (g : Engine) (edge : Edge) (sda : Bool) : List PeriphCall :=
  if g.state = .rxData ∧ edge = .rise ∧ g.bits.toNat = 7 then [.rx (shiftIn g.shift sda)]
  else if edge = .fall ∧ g.bits.toNat = 9 ∧ ((g.state = .ackAddress ∧ g.rw = true) ∨ g.state = .ackRead) then [.tx]
  else []

theorem rowRxDataRise_calls {e : Nat} (sda : Bool) {s : State} (he : e < s.engines.length) (hst : (s.eng e).state = .rxData) :
    Calls e (edgeCalls (s.eng e) .rise sda) s (rowRxDataRise e sda s) := by
  unfold rowRxDataRise
  dsimp only
  by_cases h7 : (s.eng e).bits.toNat = 7
  · rw [if_neg (by omega), if_pos (by omega)]
    exact setEng_calls he (by simp [edgeCalls, hst, h7])
  · have hnone : edgeCalls (s.eng e) .rise sda = [] := by simp [edgeCalls, h7]
    split
    · exact Silent.calls (setEng_silent e rfl) hnone
    · rw [if_neg (by omega)]
      exact (ok_silent s).calls hnone

theorem rowAckAddressFall_calls {e : Nat} (sda : Bool) {s : State} (he : e < s.engines.length)
    (hst : (s.eng e).state = .ackAddress) : Calls e (edgeCalls (s.eng e) .fall sda) s (rowAckAddressFall e s) := by
  unfold rowAckAddressFall
  dsimp only
  split
  · next h8 => exact Silent.calls ((driveSda_silent e false s).andThen fun _ => setEng_silent e rfl) (by simp [edgeCalls, h8])
  · split
    · next h9 =>
      split
      · next hrw =>
        rw [show edgeCalls (s.eng e) .fall sda = [.tx] by simp [edgeCalls, hst, h9, hrw]]
        exact loadTx_calls he
      · next hrw =>
        exact Silent.calls ((driveSda_silent e true s).andThen fun _ => setEng_silent e rfl) (by simp [edgeCalls, hst, hrw])
    · next h9 => exact (ok_silent s).calls (by simp [edgeCalls, h9])

theorem rowAckReadFall_calls {e : Nat} (sda : Bool) {s : State} (he : e < s.engines.length) (hst : (s.eng e).state = .ackRead) :
    Calls e (edgeCalls (s.eng e) .fall sda) s (rowAckReadFall e s) := by
  unfold rowAckReadFall
  split
  · next h9 =>
    rw [show edgeCalls (s.eng e) .fall sda = [.tx] by simp [edgeCalls, hst, h9]]
    exact loadTx_calls he
  · next h9 => exact (ok_silent s).calls (by simp [edgeCalls, h9])

/-- Every row of the transition table makes its edge's calls and no others (R271). -/
theorem edgeRow_calls {e : Nat} (edge : Edge) (sda : Bool) {s : State} (he : e < s.engines.length) :
    Calls e (edgeCalls (s.eng e) edge sda) s (edgeRow e edge sda s) := by
  unfold edgeRow
  split <;> rename_i hst
  · exact Silent.calls (fun _ => rfl) (by simp [edgeCalls, hst])
  · exact (ok_silent s).calls (by simp [edgeCalls, hst])
  · exact (ok_silent s).calls (by simp [edgeCalls, hst])
  · exact (rowRxAddressRise_silent e sda s).calls (by simp [edgeCalls, hst])
  · exact (ok_silent s).calls (by simp [edgeCalls, hst])
  · exact (ok_silent s).calls (by simp [edgeCalls, hst])
  · exact rowAckAddressFall_calls sda he hst
  · exact rowRxDataRise_calls sda he hst
  · exact (ok_silent s).calls (by simp [edgeCalls, hst])
  · exact (ok_silent s).calls (by simp [edgeCalls, hst])
  · exact (rowAckReceivedDataFall_silent e s).calls (by simp [edgeCalls, hst])
  · exact (ok_silent s).calls (by simp [edgeCalls, hst])
  · exact (rowAckAfterWriteFall_silent e s).calls (by simp [edgeCalls, hst])
  · exact (ok_silent s).calls (by simp [edgeCalls, hst])
  · exact (rowAckReadRise_silent e sda s).calls (by simp [edgeCalls, hst])
  · exact rowAckReadFall_calls sda he hst
  · exact (rowTxDataRise_silent e s).calls (by simp [edgeCalls, hst])
  · exact (rowTxDataFall_silent e s).calls (by simp [edgeCalls, hst])

/-! ### Firing an entry -/

/-- The calls of an engine's callback: those of the edge it has waiting, with the data bit it has latched (R250). -/
def waitingCalls (g : Engine) : List PeriphCall :=
  match g.pend with
  | none => []
  | some edge => edgeCalls g edge g.sdaSeen

theorem engCallback_calls {e : Nat} {s : State} (he : e < s.engines.length) :
    Calls e (waitingCalls (s.eng e)) s (engCallback e s) := by
  unfold engCallback waitingCalls
  dsimp only
  have htaken : Silent s (.ok (s.setEng e { s.eng e with pend := none })) := setEng_silent e rfl
  cases (s.eng e).pend with
  | none => exact htaken.calls rfl
  | some edge =>
    have hrow := edgeRow_calls edge (s.eng e).sdaSeen (s := s.setEng e { s.eng e with pend := none })
      (by rwa [setEng_engines_length])
    rw [setEng_eng_self _ _ _ he] at hrow
    exact hrow.after_silent htaken

theorem fire_eng_calls {e : Nat} (due : Cycle) (seq : Nat) {s : State} (he : e < s.engines.length) :
    Calls e (waitingCalls (s.eng e)) s (fire ⟨.eng e, due, seq⟩ s) :=
  engCallback_calls (s := startFiring ⟨.eng e, due, seq⟩ s) he

theorem waitingCalls_eq (g : Engine) : waitingCalls g =
    if g.state = .rxData ∧ g.pend = some .rise ∧ g.bits.toNat = 7 then [PeriphCall.rx (shiftIn g.shift g.sdaSeen)]
    else if g.pend = some .fall ∧ g.bits.toNat = 9 ∧ ((g.state = .ackAddress ∧ g.rw = true) ∨ g.state = .ackRead) then
      [PeriphCall.tx]
    else [] := by
  unfold waitingCalls
  cases g.pend <;> simp [edgeCalls]

/-- Settles O53: every row of the transition table makes the calls of `edgeCalls`, and whatever is made of a command's or a cascade's
small writes makes none. -/
theorem peripheralCalledOncePerByte : Obligations.PeripheralCalledOncePerByte := by
  unfold Obligations.PeripheralCalledOncePerByte
  refine ⟨?_, ?_, ?_, ?_⟩
  · rintro e edge sda s g hs he rfl
    exact edgeRow_calls edge sda (hs.engines ▸ he)
  · rintro e due seq s g hs he rfl
    rw [← waitingCalls_eq]
    exact fire_eng_calls due seq (hs.engines ▸ he)
  · intro n due seq s _ e
    exact resolve_silent (.settle n) (startFiring ⟨.node n, due, seq⟩ s) e
  · intro i s t hs hi ht e
    exact exec_periph hs hi ht e

end Sys2Proof.Machine
end

section
/-! PROOF. Everything a step of a running block can do, said once: the writes it is made of and how it ends; what it leaves of the
state as a whole, the counter, the logs and the port registers' disabled bits. -/

namespace Sys2Proof.Machine

/-! ### The writes of a step -/

/-- One small write of a step: of a command, of a callback, or the start of a firing, whose entry is not in the past. -/
inductive StepW (s : State) : State → Prop where
  | cmd {A B : Nat → Prop} {t : State} (h : CmdW A B s t) : StepW s t
  | act {A E : Nat → Prop} {t : State} (h : Act A E s t) : StepW s t
  | begin (x : Entry) (hx : s.cycle.toNat ≤ x.due.toNat) : StepW s (beginFiring x s)

/-- A sequence of them. -/
abbrev StepWs : State → State → Prop := Relation.ReflTransGen StepW

/-- How a step ends from the state its writes leave: `cp` one further, `ADVANCE` with the counter at its target; or a fault, one
of a clock edge with its latch written (R88, R118, R300, R304). -/
inductive Ends (u : State) : State → Prop where
  | done : Ends u { u with cp := u.cp + 1 }
  | arrived (target : Cycle) (h : u.cycle.toNat ≤ target.toNat) : Ends u { u with cycle := target, cp := u.cp + 1 }
  | fault (c : FaultCode) : Ends u (faulted c u)
  | edgeFault (e : Nat) (b : Bool) : Ends u (faulted .cycleOverflow (edgeLatch e b u))

theorem HaltOf.ends {u t : State} (h : HaltOf u t) : Ends u t := by
  obtain rfl | rfl | ⟨e, b, -, -, rfl⟩ := h
  · exact .fault _
  · exact .fault _
  · exact .edgeFault e b

theorem StepWs.keeps {P : State → Prop} (h : ∀ s t, StepW s t → P s → P t) {s t : State} (hs : StepWs s t) (p : P s) : P t := by
  induction hs with
  | refl => exact p
  | tail _ hc ih => exact h _ _ hc ih

theorem Acts.writes {A E : Nat → Prop} {s t : State} (h : Acts A E s t) : StepWs s t :=
  Relation.ReflTransGen.mono (fun _ _ => StepW.act) _ _ h

theorem CmdWs.writes {A B : Nat → Prop} {s t : State} (h : CmdWs A B s t) : StepWs s t :=
  Relation.ReflTransGen.mono (fun _ _ => StepW.cmd) _ _ h

/-- A firing is its start and then its callback's writes. -/
theorem Ready.begin_writes {target : Cycle} {s t : State} {x : Entry} (hs : Ready s) (hx : nextDue target s = some x)
    (h : StepWs (beginFiring x s) t) : StepWs s t :=
  .head (.begin x (hs.pending.notPast hs.running x (nextDue_some hx).1)) h

theorem fires_writes {target : Cycle} {s t : State} (hs : Ready s) (h : Relation.ReflTransGen (Fires target) s t) :
    StepWs s t :=
  fires_keep (P := StepWs s) (fun _ _ _ hr hx hf h => h.trans (hr.begin_writes hx (hr.fire_acts hx hf).writes)) hs h .refl

theorem advance_or_not (i : Instr) : (∀ imm, i ≠ .advance imm) ∨ ∃ imm, i = .advance imm := by
  by_cases h : ∃ imm, i = .advance imm
  · exact .inr h
  · exact .inl fun imm hi => h ⟨imm, hi⟩

/-- How a command other than `ADVANCE` ends: after its small writes, or in a fault. -/
theorem exec_cmd_ends {i : Instr} {s t : State} (hs : Shaped s) (hi : ∀ imm, i ≠ .advance imm) (h : exec i s = .next t) :
    ∃ u, CmdWs (InNodes s.cfg) (attaches i) s u ∧ (t = { u with cp := u.cp + 1 } ∨ HaltOf u t ∨ ∃ c, t = faulted c u) := by
  obtain ⟨r, hr, hc⟩ := exec_cmd i s hs hi
  rw [hr] at h
  obtain hc | rfl | rfl := hc
  · cases r with
    | ok u => cases h; exact ⟨u, hc, .inl rfl⟩
    | halt v =>
      cases h
      obtain ⟨u, hu, ht⟩ := hc
      exact ⟨u, hu, .inr (.inl ht)⟩
  · cases h; exact ⟨s, .refl, .inr (.inr ⟨_, rfl⟩)⟩
  · cases h; exact ⟨s, .refl, .inr (.inr ⟨_, rfl⟩)⟩

/-- How `ADVANCE` ends: at its target with nothing due left, or in a fault while an entry fires, or before any (R117, R118). -/
theorem exec_advance_ends {imm : BitVec 16} {s t : State} (hs : Ready s) (h : exec (.advance imm) s = .next t) :
    t = faulted .cycleOverflow s ∨ ∃ target u, s.cycle.toNat ≤ target.toNat ∧ Relation.ReflTransGen (Fires target) s u ∧ Ready u ∧
      ((nextDue target u = none ∧ t = { u with cycle := target, cp := u.cp + 1 }) ∨
        ∃ x v, nextDue target u = some x ∧ Acts (InNodes u.cfg) (FiredBy x) (beginFiring x u) v ∧ HaltOf v t) := by
  change execAdvance imm s = .next t at h
  unfold execAdvance at h
  split at h
  · cases h; exact .inl rfl
  · next hlt =>
    right
    have htarget := toNat_ofNat_due (Nat.le_of_not_lt hlt)
    refine ⟨BitVec.ofNat 64 (s.cycle.toNat + imm.toNat), ?_⟩
    obtain ⟨u, hu, hr, hn, hok⟩ | ⟨u, x, v, hu, hr, hn, hv, hhalt⟩ := advanceTo_fires _ hs
    · rw [hok] at h
      cases h
      exact ⟨u, by omega, hu, hr, .inl ⟨hn, rfl⟩⟩
    · rw [hhalt] at h
      cases h
      obtain ⟨w, hw, hwv, -⟩ := hr.fire_halt hn hv
      exact ⟨u, by omega, hu, hr, .inr ⟨x, w, hn, hw, hwv⟩⟩

/-- Every command of a running block is a sequence of small writes, and then ends. -/
theorem exec_ends {i : Instr} {s t : State} (hs : Ready s) (h : exec i s = .next t) : ∃ u, StepWs s u ∧ Ends u t := by
  obtain hi | ⟨imm, rfl⟩ := advance_or_not i
  · obtain ⟨u, hu, rfl | ht | ⟨c, rfl⟩⟩ := exec_cmd_ends hs.shaped hi h
    · exact ⟨u, hu.writes, .done⟩
    · exact ⟨u, hu.writes, ht.ends⟩
    · exact ⟨u, hu.writes, .fault c⟩
  · obtain rfl | ⟨target, u, hle, hu, hr, ⟨hn, rfl⟩ | ⟨x, v, hx, hv, ht⟩⟩ := exec_advance_ends hs h
    · exact ⟨s, .refl, .fault _⟩
    · obtain ⟨-, -, -, -, -, -, -, -, hcycle⟩ := fires_globals hs hu
      exact ⟨u, fires_writes hs hu, .arrived target (hcycle.elim (fun heq => heq ▸ hle) id)⟩
    · exact ⟨v, (fires_writes hs hu).trans (hr.begin_writes hx hv.writes), ht.ends⟩

/-- So is every step. -/
theorem step_ends {s t : State} (hs : Ready s) (h : step s = .next t) : ∃ u, StepWs s u ∧ Ends u t := by
  obtain ⟨-, ⟨i, hi⟩ | ⟨c, rfl⟩⟩ := step_cases h
  · exact exec_ends hs hi
  · exact ⟨s, .refl, .fault c⟩

/-! ### What the writes keep -/

/-- They leave the parameters, the stream, `cp` and the fault record, and time does not go back. -/
theorem StepW.globals {s t : State} (h : StepW s t) :
    t.cfg = s.cfg ∧ t.stream = s.stream ∧ t.cp = s.cp ∧ SameFault s t ∧ s.cycle.toNat ≤ t.cycle.toNat := by
  cases h with
  | cmd h =>
    obtain ⟨hcfg, hstream, hcycle, hcp, hcode, hword, hat⟩ := h.globals
    exact ⟨hcfg, hstream, hcp, ⟨hcode, hword, hat⟩, by rw [hcycle]⟩
  | act h =>
    obtain ⟨hcfg, hstream, hcycle, -, hcp, hcode, hword, hat⟩ := h.globals
    exact ⟨hcfg, hstream, hcp, ⟨hcode, hword, hat⟩, by rw [hcycle]⟩
  | begin x hx =>
    obtain ⟨hcfg, hstream, hcycle, -, hcp, hcode, hword, hat, -⟩ := beginFiring_fields x s
    exact ⟨hcfg, hstream, hcp, ⟨hcode, hword, hat⟩, by rw [hcycle]; exact hx⟩

theorem StepWs.globals {s t : State} (h : StepWs s t) :
    t.cfg = s.cfg ∧ t.stream = s.stream ∧ t.cp = s.cp ∧ SameFault s t ∧ s.cycle.toNat ≤ t.cycle.toNat := by
  induction h with
  | refl => exact ⟨rfl, rfl, rfl, ⟨rfl, rfl, rfl⟩, le_refl _⟩
  | tail _ hc ih =>
    obtain ⟨hcfg, hstream, hcp, ⟨hcode, hword, hat⟩, hcycle⟩ := hc.globals
    obtain ⟨icfg, istream, icp, ⟨icode, iword, iat⟩, icycle⟩ := ih
    exact ⟨hcfg.trans icfg, hstream.trans istream, hcp.trans icp, ⟨hcode.trans icode, hword.trans iword, hat.trans iat⟩,
      icycle.trans hcycle⟩

theorem beginFiring_grows (x : Entry) (s : State) : Grows s (beginFiring x s) := by
  obtain ⟨-, -, -, hout, -, -, -, -, -, hseq, -, -, -, hdiag, -⟩ := beginFiring_fields x s
  exact ⟨by rw [hout], by rw [hdiag], by rw [hseq]⟩

theorem StepW.grows {s t : State} (h : StepW s t) : Grows s t := by
  cases h with
  | cmd h => exact h.grows
  | act h => exact h.grows
  | begin x hx => exact beginFiring_grows x s

theorem StepWs.grows {s t : State} (h : StepWs s t) : Grows s t :=
  StepWs.keeps (P := Grows s) (fun _ _ hc hg => hg.trans hc.grows) h (Grows.refl s)

theorem Ends.grows {u t : State} (h : Ends u t) : Grows u t := by
  cases h <;> exact Grows.refl u

/-- Whether disabled bits read their default depends on the parameters and the port registers alone. -/
theorem DisabledBitsDefault.of_same {s t : State} (h : DisabledBitsDefault s) (hc : t.cfg = s.cfg) (hp : t.ports = s.ports) :
    DisabledBitsDefault t := by
  unfold DisabledBitsDefault State.portCfg State.port at h ⊢
  rw [hc, hp]
  exact h

theorem DisabledBitsDefault.write {s t : State} (h : DisabledBitsDefault s) (hw : StepW s t) : DisabledBitsDefault t := by
  cases hw with
  | cmd hw => exact h.cmd hw
  | act hw => exact h.act hw
  | begin x hx =>
    obtain ⟨hcfg, -, -, -, -, -, -, -, -, -, -, -, hports, -⟩ := beginFiring_fields x s
    exact h.of_same hcfg hports

theorem DisabledBitsDefault.ends {u t : State} (h : DisabledBitsDefault u) (ht : Ends u t) : DisabledBitsDefault t := by
  cases ht <;> exact h.of_same rfl rfl

theorem Ends.cycle_le {u t : State} (h : Ends u t) : u.cycle.toNat ≤ t.cycle.toNat := by
  cases h with
  | arrived target h => exact h
  | _ => exact le_refl _

/-! ### Completion and faults -/

theorem FaultCode.code_range (c : FaultCode) : 1 ≤ c.code.toNat ∧ c.code.toNat ≤ 8 := by
  cases c <;> decide

/-- What is written at the end: `cp` one further and no fault; or its record, `cp` kept and `depth` cleared (R27, R300). -/
theorem Ends.completes_or_faults {u t : State} (h : Ends u t) : t.cfg = u.cfg ∧ t.stream = u.stream ∧
    ((t.cp = u.cp + 1 ∧ SameFault u t) ∨
      (t.cp = u.cp ∧ 1 ≤ t.faultCode.toNat ∧ t.faultCode.toNat ≤ 8 ∧ t.faultWord = wordAtCp u ∧ t.faultCycle = t.cycle ∧
        t.depth = 0)) := by
  cases h with
  | done => exact ⟨rfl, rfl, .inl ⟨rfl, rfl, rfl, rfl⟩⟩
  | arrived target h => exact ⟨rfl, rfl, .inl ⟨rfl, rfl, rfl, rfl⟩⟩
  | fault c => exact ⟨rfl, rfl, .inr ⟨rfl, c.code_range.1, c.code_range.2, rfl, rfl, rfl⟩⟩
  | edgeFault e b =>
    exact ⟨rfl, rfl, .inr ⟨rfl, FaultCode.cycleOverflow.code_range.1, FaultCode.cycleOverflow.code_range.2, rfl, rfl, rfl⟩⟩

/-- Every command commits the result of its body. -/
theorem exec_commits (i : Instr) {s : State} (hs : Shaped s) : ∃ r, exec i s = commit r := by
  obtain hi | ⟨imm, rfl⟩ := advance_or_not i
  · obtain ⟨r, hr, -⟩ := exec_cmd i s hs hi
    exact ⟨r, hr⟩
  · unfold exec execAdvance
    exact ⟨_, rfl⟩

theorem commit_next (r : Res) : ∃ t, commit r = .next t := by
  cases r with
  | ok u => exact ⟨_, rfl⟩
  | halt u => exact ⟨u, rfl⟩

/-- Settles O12: a command is small writes, which touch neither `cp` nor the fault record, and one of the ends of `Ends`. -/
theorem everyCommandCompletesOrFaults : Obligations.EveryCommandCompletesOrFaults := by
  unfold Obligations.EveryCommandCompletesOrFaults
  intro i s hs
  obtain ⟨r, hr⟩ := exec_commits i hs.shaped
  obtain ⟨t, ht⟩ := commit_next r
  rw [← hr] at ht
  obtain ⟨u, hu, hend⟩ := exec_ends hs ht
  obtain ⟨hcfg, hstream, hcp, ⟨hcode, hword, hat⟩, -⟩ := hu.globals
  obtain ⟨ecfg, estream, hcase⟩ := hend.completes_or_faults
  refine ⟨t, ht, ecfg.trans hcfg, estream.trans hstream, ?_⟩
  obtain ⟨ecp, ecode, eword, eat⟩ | ⟨ecp, hlo, hhi, eword, eat, hdepth⟩ := hcase
  · exact .inl ⟨by rw [ecp, hcp], ecode.trans hcode, eword.trans hword, eat.trans hat⟩
  · exact .inr ⟨ecp.trans hcp, hlo, hhi, by rw [eword, wordAtCp, hstream, hcp], eat, hdepth⟩

/-- Settles O26: no write of a step and no end of it sets the counter back; a command's own writes never touch it. -/
theorem timeNeverGoesBack : Obligations.TimeNeverGoesBack := by
  unfold Obligations.TimeNeverGoesBack
  refine ⟨fun s t hs h => ?_, fun i s t hs hi h => ?_⟩
  · obtain ⟨u, hu, hend⟩ := step_ends hs h
    obtain ⟨-, -, -, -, hle⟩ := hu.globals
    exact hle.trans hend.cycle_le
  · obtain ⟨u, hu, hend⟩ := exec_cmd_ends hs hi h
    obtain ⟨-, -, hcycle, -⟩ := CmdWs.globals hu
    obtain rfl | ht | ⟨c, rfl⟩ := hend
    · exact hcycle
    · obtain ⟨-, -, hhalt, -⟩ := ht.fields
      exact hhalt.trans hcycle
    · exact hcycle

/-- Settles O36: only a notification of an enabled bit writes a driven-value. -/
theorem stepKeepsDisabledBits : Obligations.StepKeepsDisabledBits := by
  unfold Obligations.StepKeepsDisabledBits
  intro s t hs hd h
  obtain ⟨u, hu, hend⟩ := step_ends hs h
  exact (hu.keeps (fun _ _ hw hp => hp.write hw) hd).ends hend

/-- Settles O38: every write of a step appends to a log or leaves it, and `next_seq` never falls. -/
theorem stepOnlyAppendsToLogs : Obligations.StepOnlyAppendsToLogs := by
  unfold Obligations.StepOnlyAppendsToLogs
  intro s t hs h
  obtain ⟨u, hu, hend⟩ := step_ends hs h
  exact hu.grows.trans hend.grows

end Sys2Proof.Machine
end

section
/-! PROOF. What every step keeps: the pending callbacks and the shape of the state, the engines' waiting edges and latches, and
the nesting count. -/

namespace Sys2Proof.Machine

/-! ### The body of a command -/

/-- How a command's body may end: in its small writes or a fault before any, with the nesting count it began with, and with
everything in order if it was. -/
structure Runs (B : Nat → Prop) (s : State) (r : Res) : Prop where
  ends : CmdRes (InNodes s.cfg) B s r ∨ ∃ c, r = .halt (faulted c s)
  depth : DepthIs s.depth r
  good : ∀ t, AllGood s → r = .ok t → AllGood t

theorem Runs.raise {B : Nat → Prop} (c : FaultCode) (s : State) : Runs B s (raise c s) where
  ends := .inr ⟨c, rfl⟩
  depth := .halt
  good := fun _ _ h => by cases h

theorem Runs.checked {B : Nat → Prop} {b : Bool} {f : State → Res} {s : State} (h : b = true → Runs B s (f s)) :
    Runs B s (checked b s f) := by
  unfold Machine.checked
  cases b with
  | false => exact Runs.raise .badIndex s
  | true => exact h rfl

/-- A write that no line, latch, node or port register is made of. -/
theorem Runs.write {B : Nat → Prop} {s t : State} (h : CmdWs (InNodes s.cfg) B s t) (hd : t.depth = s.depth)
    (hg : AllGood s → AllGood t) : Runs B s (.ok t) where
  ends := .inl (RunRes.of_ok h)
  depth := fun u hu => by cases hu; exact hd
  good := fun u hs hu => by cases hu; exact hg hs

theorem Good.out {U : Job → Prop} {P : Nat → Nat → Prop} {L : Nat → Nat → Bool → Prop} {s : State} (h : Good U P L s)
    (v : BitVec 64) : Good U P L (out v s) :=
  h.transfer rfl ⟨rfl, rfl, rfl, rfl⟩ (fun _ => rfl) (fun _ => rfl) (fun _ => Iff.rfl) (fun _ => rfl) fun _ =>
    ⟨rfl, rfl, rfl, rfl, rfl⟩

theorem Runs.out {B : Nat → Prop} (v : BitVec 64) (s : State) : Runs B s (.ok (out v s)) :=
  .write (.single (.out v)) rfl fun h => h.out v

section
variable {s : State} {B : Nat → Prop}

theorem setDriving_runs (hs : Shaped s) (p : Nat) (d : Drive) : Runs B s (setDriving p d s) :=
  ⟨.inl (setDriving_cmd p d s hs.nodesIn), setDriving_depth p d s, fun _ => setDriving_good⟩

theorem configurePin_runs (hs : Shaped s) (p : Nat) (dir : Dir) (oc pu : Bool) : Runs B s (configurePin p dir oc pu s) :=
  ⟨.inl (configurePin_cmd p dir oc pu s hs.nodesIn), configurePin_depth p dir oc pu s, fun _ => configurePin_good⟩

theorem attachPin_runs (hs : Shaped s) {p n : Nat} (hp : p < s.cfg.numPins) (hn : n < s.cfg.numNodes) :
    Runs B s (attachPin p n s) :=
  ⟨.inl (attachPin_cmd p n s hs.nodesIn hn), attachPin_depth p n s, fun _ hg => attachPin_good hg hp hn⟩

theorem detachPin_runs (hs : Shaped s) {p : Nat} (hp : p < s.cfg.numPins) : Runs B s (detachPin p s) :=
  ⟨.inl (detachPin_cmd p s hs.nodesIn), detachPin_depth p s, fun _ hg => detachPin_good hg hp⟩

theorem writePort_runs (hs : Shaped s) (r : Nat) (v : Byte) : Runs B s (writePort r v s) :=
  ⟨.inl (writePort_cmd r v s hs.nodesIn), writePort_depth r v s, fun _ => writePort_good⟩

theorem twReset_runs (hs : Shaped s) (e : Nat) : Runs B s (twReset e s) :=
  ⟨.inl (twReset_cmd e s hs.nodesIn), twReset_depth e s, fun _ => twReset_good⟩

theorem attachEngine_runs (hs : Shaped s) {e : Nat} {scl sda : Byte} (hB : B e) (he : e < s.cfg.numEngines)
    (hscl : scl.toNat < s.cfg.numPins) (hsda : sda.toNat < s.cfg.numPins) : Runs B s (attachEngine e scl sda s) :=
  ⟨.inl (attachEngine_cmd hs hB he hscl hsda), attachEngine_depth e scl sda s, fun _ hg =>
    attachEngine_good he hscl hsda hg fun _ hu => (twReset_to hs he hu).1.cfg⟩

end

/-- Every command other than `ADVANCE` runs so. -/
theorem exec_runs (i : Instr) (s : State) (hs : Shaped s) (hi : ∀ imm, i ≠ .advance imm) :
    ∃ r, exec i s = commit r ∧ Runs (attaches i) s r := by
  cases i with
  | now => exact ⟨_, rfl, .out _ s⟩
  | advance imm => exact absurd rfl (hi imm)
  | pinDrive p l => exact ⟨_, rfl, .checked fun _ => setDriving_runs hs _ _⟩
  | pinRead p => exact ⟨_, rfl, .checked fun _ => .out _ s⟩
  | pinConfig p d oc pu => exact ⟨_, rfl, .checked fun _ => configurePin_runs hs _ _ _ _⟩
  | pinAnalog p mv => exact ⟨_, rfl, .checked fun _ => setDriving_runs hs _ _⟩
  | nodeAttach p n =>
    refine ⟨_, rfl, .checked fun hb => ?_⟩
    simp only [pinOk, nodeOk, Bool.and_eq_true, decide_eq_true_eq] at hb
    exact attachPin_runs hs hb.1 hb.2
  | nodeDetach p => exact ⟨_, rfl, .checked fun hb => detachPin_runs hs (of_decide_eq_true hb)⟩
  | nodeRead n => exact ⟨_, rfl, .checked fun _ => .out _ s⟩
  | portWrite r v => exact ⟨_, rfl, .checked fun _ => writePort_runs hs _ _⟩
  | portRead r =>
    refine ⟨_, rfl, .checked fun _ => ?_⟩
    dsimp only
    split
    · exact .out _ s
    · exact .write ((Relation.ReflTransGen.single (CmdW.casc (.diag _ _ _))).tail (.out _)) rfl fun h => (h.diag _ _ _).out _
  | twConfigure e a m =>
    exact ⟨_, rfl, .checked fun _ => .write (.single (.engine _ _ rfl rfl rfl (.inl ⟨rfl, rfl, rfl⟩))) rfl
      fun h => h.setEng _ _ ⟨rfl, rfl, rfl, rfl, rfl⟩⟩
  | twAttach e scl sda =>
    refine ⟨_, rfl, .checked fun hb => ?_⟩
    simp only [engOk, pinOk, Bool.and_eq_true, decide_eq_true_eq] at hb
    obtain ⟨⟨he, hscl⟩, hsda⟩ := hb
    split
    · exact .raise .pinConflict s
    · exact attachEngine_runs hs rfl he hscl hsda
  | twReset e => exact ⟨_, rfl, .checked fun _ => twReset_runs hs _⟩
  | twStatus e => exact ⟨_, rfl, .checked fun _ => .out _ s⟩

/-! ### The nesting count -/

theorem Runs.commit_depth {B : Nat → Prop} {s t : State} {r : Res} (h : Runs B s r) (hd : s.depth = 0) (ht : commit r = .next t) :
    t.depth = 0 := by
  cases r with
  | ok u => cases ht; exact (h.depth u rfl).trans hd
  | halt u =>
    cases ht
    obtain ⟨v, -, hv⟩ | ⟨c, hc⟩ := h.ends
    · obtain ⟨-, -, -, -, -, -, -, -, -, hdepth, -⟩ := hv.fields
      exact hdepth
    · cases hc; rfl

theorem fires_depth {target : Cycle} {s t : State} (hs : Ready s) (h : Relation.ReflTransGen (Fires target) s t) :
    t.depth = s.depth :=
  fires_keep (P := fun u => u.depth = s.depth) (fun u v x _ _ hf hd => (fire_depth x u v hf).trans hd) hs h rfl

theorem exec_depth_zero {i : Instr} {s t : State} (hs : Ready s) (hd : s.depth = 0) (h : exec i s = .next t) : t.depth = 0 := by
  obtain hi | ⟨imm, rfl⟩ := advance_or_not i
  · obtain ⟨r, hr, hruns⟩ := exec_runs i s hs.shaped hi
    exact hruns.commit_depth hd (hr ▸ h)
  · obtain rfl | ⟨target, u, -, hu, -, ⟨-, rfl⟩ | ⟨x, v, -, -, ht⟩⟩ := exec_advance_ends hs h
    · rfl
    · exact (fires_depth hs hu).trans hd
    · obtain ⟨-, -, -, -, -, -, -, -, -, hdepth, -⟩ := ht.fields
      exact hdepth

/-- Settles O37: whatever completes leaves `depth` as it was, and a fault clears it. -/
theorem depthIsZeroBetweenCommands : Obligations.DepthIsZeroBetweenCommands := by
  unfold Obligations.DepthIsZeroBetweenCommands
  refine ⟨fun s t hs hd h => ?_, fun _ => rfl⟩
  obtain ⟨-, ⟨i, hi⟩ | ⟨c, rfl⟩⟩ := step_cases h
  · exact exec_depth_zero hs hd hi
  · rfl

/-! ### Everything in order -/

theorem Good.withCycle {U : Job → Prop} {P : Nat → Nat → Prop} {L : Nat → Nat → Bool → Prop} {s : State} (h : Good U P L s)
    (target : Cycle) (cp : Nat) : Good U P L { s with cycle := target, cp := cp } :=
  h.transfer rfl ⟨rfl, rfl, rfl, rfl⟩ (fun _ => rfl) (fun _ => rfl) (fun _ => Iff.rfl) (fun _ => rfl) fun _ =>
    ⟨rfl, rfl, rfl, rfl, rfl⟩

theorem Runs.commit_allGood {B : Nat → Prop} {s t : State} {r : Res} (h : Runs B s r) (hg : AllGood s) (ht : commit r = .next t)
    (hf : t.faultCode = 0) : AllGood t := by
  cases r with
  | ok u => cases ht; exact (h.good u hg rfl).withCycle u.cycle (u.cp + 1)
  | halt u =>
    cases ht
    obtain ⟨v, -, hv⟩ | ⟨c, hc⟩ := h.ends
    · exact absurd hf hv.faulted
    · cases hc; exact absurd hf (faulted_ne_zero c s)

/-- A command of a running block in order that meets no fault leaves every node, pin, port register and latch in order. -/
theorem exec_allGood {i : Instr} {s t : State} (hs : Ready s) (hg : AllGood s) (h : exec i s = .next t) (hf : t.faultCode = 0) :
    AllGood t := by
  obtain hi | ⟨imm, rfl⟩ := advance_or_not i
  · obtain ⟨r, hr, hruns⟩ := exec_runs i s hs.shaped hi
    exact hruns.commit_allGood hg (hr ▸ h) hf
  · obtain rfl | ⟨target, u, -, hu, -, ⟨-, rfl⟩ | ⟨x, v, -, -, ht⟩⟩ := exec_advance_ends hs h
    · exact absurd hf (faulted_ne_zero _ s)
    · exact (fires_allGood hs hu hg).withCycle target (u.cp + 1)
    · exact absurd hf ht.faulted

theorem step_allGood {s t : State} (hs : InOrder s) (h : step s = .next t) (hf : t.faultCode = 0) : AllGood t := by
  obtain ⟨h0, ⟨i, hi⟩ | ⟨c, rfl⟩⟩ := step_cases h
  · exact exec_allGood (hs.ready h0) hs.allGood hi hf
  · exact absurd hf (faulted_ne_zero c s)

/-- Settles O32: a notification of a line reloads its latch, so a step that completes leaves every latch at its line's value. -/
theorem stepKeepsLatchesSynced : Obligations.StepKeepsLatchesSynced := by
  unfold Obligations.StepKeepsLatchesSynced
  intro s t hs h hf
  exact (step_allGood hs h hf).latchesSynced

/-! ### Waiting edges -/

/-- A firing takes its owner's entry and, of an engine, the edge waiting for it. -/
theorem EdgesHeld.begin {s : State} (hl : s.engines.length = s.cfg.numEngines) (h : EdgesHeld s) (x : Entry) :
    EdgesHeld (beginFiring x s) := by
  unfold beginFiring
  cases hx : x.owner with
  | node n =>
    refine h.of_same rfl (fun _ => rfl) fun e => ?_
    rw [show hasEntry (startFiring x s) (.eng e) ↔ hasEntry (cancel x.owner s) (.eng e) from Iff.rfl, hasEntry_cancel, hx]
    simp
  | eng e =>
    intro f hf
    rw [show hasEntry ((startFiring x s).setEng e { s.eng e with pend := none }) (.eng f) ↔ hasEntry (cancel x.owner s) (.eng f)
      from Iff.rfl, hasEntry_cancel, hx, setEng_eng]
    by_cases hef : e = f
    · subst hef
      rw [if_pos ⟨rfl, hl.symm ▸ hf⟩]
      simp
    · rw [if_neg fun hc => hef hc.1]
      have hheld := h f hf
      simp only [ne_eq, Owner.eng.injEq, Ne.symm hef, not_false_eq_true, true_and]
      exact hheld

theorem EdgesHeld.fires {target : Cycle} {s t : State} (hs : Ready s) (h : EdgesHeld s)
    (hf : Relation.ReflTransGen (Fires target) s t) : EdgesHeld t :=
  fires_keep (fun _ _ x hr hx hxt hp =>
    (hp.begin hr.shaped.engines x).acts (hr.shaped.begin x).engines (hr.fire_acts hx hxt)) hs hf h

theorem EdgesHeld.cmds {B : Nat → Prop} {s t : State} (hs : Shaped s) (h : EdgesHeld s) (hc : CmdWs (InNodes s.cfg) B s t) :
    EdgesHeld t := by
  induction hc with
  | refl => exact h
  | tail hb hc ih => exact ih.cmd (CmdWs.shaped hs hb).engines hc

theorem exec_edgesHeld {i : Instr} {s t : State} (hs : Ready s) (he : EdgesHeld s) (h : exec i s = .next t)
    (hf : t.faultCode = 0) : EdgesHeld t := by
  obtain hi | ⟨imm, rfl⟩ := advance_or_not i
  · obtain ⟨u, hu, rfl | ht | ⟨c, rfl⟩⟩ := exec_cmd_ends hs.shaped hi h
    · exact (he.cmds hs.shaped hu).of_same rfl (fun _ => rfl) fun _ => Iff.rfl
    · exact absurd hf ht.faulted
    · exact absurd hf (faulted_ne_zero c u)
  · obtain rfl | ⟨target, u, -, hu, -, ⟨-, rfl⟩ | ⟨x, v, -, -, ht⟩⟩ := exec_advance_ends hs h
    · exact absurd hf (faulted_ne_zero _ s)
    · exact (he.fires hs hu).of_same rfl (fun _ => rfl) fun _ => Iff.rfl
    · exact absurd hf ht.faulted

/-- Settles O33: an edge is latched together with its engine's entry, and taken or dropped together with it. -/
theorem stepKeepsEdgesPending : Obligations.StepKeepsEdgesPending := by
  unfold Obligations.StepKeepsEdgesPending
  intro s t hs h hf
  obtain ⟨h0, ⟨i, hi⟩ | ⟨c, rfl⟩⟩ := step_cases h
  · exact exec_edgesHeld (hs.ready h0) (hs.edges h0) hi hf
  · exact absurd hf (faulted_ne_zero c s)

/-! ### The pending callbacks and the shape -/

/-- A command schedules nothing before the next cycle. -/
theorem PendingOk.cmd {B : Nat → Prop} {s t : State} (h : PendingOk s) (hc : CmdW (InNodes s.cfg) B s t) : PendingOk t := by
  obtain ⟨-, -, hcycle, -, hcode, -⟩ := hc.globals
  obtain ⟨owners, seqs, below, inBlock, -⟩ := h.base.cmd hc
  refine ⟨owners, seqs, below, inBlock, fun hf x hx => ?_⟩
  rw [hcycle]
  exact (hc.due x hx).elim (h.later (hcode ▸ hf) x) id

theorem PendingOk.cmds {B : Nat → Prop} {s t : State} (h : PendingOk s) (hc : CmdWs (InNodes s.cfg) B s t) : PendingOk t := by
  induction hc with
  | refl => exact h
  | tail hb hc ih =>
    obtain ⟨hcfg, -⟩ := CmdWs.globals hb
    exact ih.cmd (hcfg ▸ hc)

theorem PendingOk.of_same {s t : State} (h : PendingOk s) (hc : t.cfg = s.cfg) (hp : t.pending = s.pending)
    (hn : t.nextSeq = s.nextSeq) (hl : t.faultCode = 0 → s.faultCode = 0 ∧ t.cycle = s.cycle) : PendingOk t := by
  refine ⟨hp ▸ h.owners, hp ▸ h.seqs, ?_, ?_, fun hf => ?_⟩
  · rw [hp, hn]; exact h.below
  · rw [hp, hc]; exact h.inBlock
  · obtain ⟨h0, hcycle⟩ := hl hf
    rw [hp, hcycle]
    exact h.later h0

theorem PendingOk.faulted {s : State} (h : PendingOk s) (c : FaultCode) : PendingOk (faulted c s) :=
  h.of_same rfl rfl rfl fun hf => absurd hf (faulted_ne_zero c s)

/-- With nothing due at or before it left, the counter may take the target. -/
theorem PendingBase.arrived {target : Cycle} {u : State} (h : PendingBase u) (hn : nextDue target u = none) (cp : Nat) :
    PendingOk { u with cycle := target, cp := cp } :=
  ⟨h.owners, h.seqs, h.below, h.inBlock, fun _ => nextDue_none hn⟩

theorem Shaped.faulted {s : State} (hs : Shaped s) (c : FaultCode) : Shaped (faulted c s) :=
  ⟨hs.pins, hs.nodes, hs.ports, hs.engines, hs.nodeOf, hs.enginePins⟩

theorem Shaped.withCycle {s : State} (hs : Shaped s) (target : Cycle) (cp : Nat) : Shaped { s with cycle := target, cp := cp } :=
  ⟨hs.pins, hs.nodes, hs.ports, hs.engines, hs.nodeOf, hs.enginePins⟩

theorem Shaped.edgeLatch {s : State} (hs : Shaped s) (e : Nat) (b : Bool) : Shaped (edgeLatch e b s) := by
  refine hs.of_same rfl (by simp [Machine.edgeLatch]) (fun _ => rfl) fun f => ?_
  unfold Machine.edgeLatch
  obtain h | ⟨rfl, h⟩ := setEng_eng_cases s e f { s.eng e with sclSeen := b, pend := some (if b then .rise else .fall) } <;>
    rw [h] <;> exact ⟨rfl, rfl, rfl⟩

theorem Shaped.halt {u t : State} (hs : Shaped u) (h : HaltOf u t) : Shaped t := by
  obtain rfl | rfl | ⟨e, b, -, -, rfl⟩ := h
  · exact hs.faulted _
  · exact hs.faulted _
  · exact (hs.edgeLatch e b).faulted _

theorem exec_pendingOk {i : Instr} {s t : State} (hs : Shaped s) (hp : PendingOk s) (h0 : s.faultCode = 0)
    (h : exec i s = .next t) : PendingOk t ∧ Shaped t := by
  obtain hi | ⟨imm, rfl⟩ := advance_or_not i
  · obtain ⟨u, hu, hend⟩ := exec_cmd_ends hs hi h
    have hpu := hp.cmds hu
    have hsu := CmdWs.shaped hs hu
    obtain rfl | ht | ⟨c, rfl⟩ := hend
    · exact ⟨hpu.of_same rfl rfl rfl fun hf => ⟨hf, rfl⟩, hsu.withCycle u.cycle (u.cp + 1)⟩
    · exact ⟨(hpu.base.halt ht).ok_of_fault ht.faulted, hsu.halt ht⟩
    · exact ⟨hpu.faulted c, hsu.faulted c⟩
  · obtain rfl | ⟨target, u, -, -, hr, ⟨hn, rfl⟩ | ⟨x, v, hx, hv, ht⟩⟩ := exec_advance_ends ⟨hs, hp.base, h0⟩ h
    · exact ⟨hp.faulted _, hs.faulted _⟩
    · exact ⟨hr.pending.arrived hn (u.cp + 1), hr.shaped.withCycle target (u.cp + 1)⟩
    · have hbegin := hr.pending.begin x (nextDue_le hx)
      exact ⟨((hbegin.acts (beginFiring_fields x u).1 hv).halt ht).ok_of_fault ht.faulted, ((hr.shaped.begin x).acts hv).halt ht⟩

/-- Settles O34: a command schedules after the counter, and `ADVANCE` ends with nothing due at its target left. -/
theorem stepKeepsPendingOrdered : Obligations.StepKeepsPendingOrdered := by
  unfold Obligations.StepKeepsPendingOrdered
  intro s t hs hp h
  obtain ⟨h0, ⟨i, hi⟩ | ⟨c, rfl⟩⟩ := step_cases h
  · exact exec_pendingOk hs hp h0 hi
  · exact ⟨hp.faulted c, hs.faulted c⟩

end Sys2Proof.Machine
end

section
/-! PROOF. What callbacks leave unchanged, whatever they do: the frame of `ADVANCE`. -/

namespace Sys2Proof.Machine

/-- What the host set of an engine agrees: attachment, pins and configuration (R42, R43). -/
def SameSettings (s t : State) (e : Nat) : Prop :=
  (t.eng e).attached = (s.eng e).attached ∧ (t.eng e).sclPin = (s.eng e).sclPin ∧ (t.eng e).sdaPin = (s.eng e).sdaPin ∧
    (t.eng e).configured = (s.eng e).configured ∧ (t.eng e).cfgAddress = (s.eng e).cfgAddress ∧
    (t.eng e).cfgCsmask = (s.eng e).cfgCsmask

/-- What a callback leaves. Driven are only data pins, of attached engines and of the engines in `E`. -/
structure CallbackFrame (E : Nat → Prop) (s t : State) : Prop where
  host : SameHostSide s t
  setup : ∀ q, SamePinSetup s t q
  driving : ∀ r, (t.port r).driving = (s.port r).driving
  engines : ∀ e, SameSettings s t e
  drives : ∀ q, (∀ e, e < s.cfg.numEngines → (s.eng e).attached = true ∨ E e → (s.eng e).sdaPin.toNat ≠ q) →
    (t.pin q).drive = (s.pin q).drive

theorem SameSettings.trans {s u t : State} {e : Nat} (h : SameSettings s u e) (k : SameSettings u t e) : SameSettings s t e := by
  obtain ⟨ha, hscl, hsda, hc, haddr, hmask⟩ := h
  obtain ⟨ka, kscl, ksda, kc, kaddr, kmask⟩ := k
  exact ⟨ka.trans ha, kscl.trans hscl, ksda.trans hsda, kc.trans hc, kaddr.trans haddr, kmask.trans hmask⟩

theorem setEng_settings {s : State} {e : Nat} {g : Engine} (h : g.attached = (s.eng e).attached ∧ g.sclPin = (s.eng e).sclPin ∧
    g.sdaPin = (s.eng e).sdaPin ∧ g.configured = (s.eng e).configured ∧ g.cfgAddress = (s.eng e).cfgAddress ∧
    g.cfgCsmask = (s.eng e).cfgCsmask) (f : Nat) : SameSettings s (s.setEng e g) f := by
  unfold SameSettings
  obtain hf | ⟨rfl, hf⟩ := setEng_eng_cases s e f g <;> rw [hf]
  · exact ⟨rfl, rfl, rfl, rfl, rfl, rfl⟩
  · exact h

section
variable {E : Nat → Prop} {s u t : State}

theorem CallbackFrame.trans (h : CallbackFrame E s u) (k : CallbackFrame E u t) : CallbackFrame E s t where
  host := ⟨k.host.1.trans h.host.1, k.host.2.1.trans h.host.2.1, k.host.2.2.trans h.host.2.2⟩
  setup := fun q => (h.setup q).trans (k.setup q)
  driving := fun r => (k.driving r).trans (h.driving r)
  engines := fun e => (h.engines e).trans (k.engines e)
  drives := fun q hq => by
    refine (k.drives q fun e he hE => ?_).trans (h.drives q hq)
    obtain ⟨ha, -, hsda, -⟩ := h.engines e
    rw [h.host.1] at he
    rw [ha] at hE
    rw [hsda]
    exact hq e he hE

/-- Where only the engines, the logs' diagnostics and the time base are written, and of the engines no setting. -/
theorem CallbackFrame.of_settings (hhost : SameHostSide s t) (hpins : t.pins = s.pins) (hports : t.ports = s.ports)
    (he : ∀ e, SameSettings s t e) : CallbackFrame E s t where
  host := hhost
  setup := fun q => by simp only [SamePinSetup, State.pin, hpins, and_self]
  driving := fun r => by simp only [State.port, hports]
  engines := he
  drives := fun q _ => by simp only [State.pin, hpins]

theorem CallbackFrame.refl (s : State) : CallbackFrame E s s :=
  .of_settings ⟨rfl, rfl, rfl⟩ rfl rfl fun _ => ⟨rfl, rfl, rfl, rfl, rfl, rfl⟩

theorem CallbackFrame.mono {E' : Nat → Prop} (h : CallbackFrame E s t) (hE : ∀ e, E e → (s.eng e).attached = true ∨ E' e) :
    CallbackFrame E' s t where
  host := h.host
  setup := h.setup
  driving := h.driving
  engines := h.engines
  drives := fun q hq => h.drives q fun e he ha => hq e he (ha.elim .inl (hE e))

theorem Casc.frame {A : Nat → Prop} (h : Casc A s t) : CallbackFrame E s t where
  host := by
    obtain ⟨hcfg, hstream, -, hout, -⟩ := h.globals
    exact ⟨hcfg, hstream, hout⟩
  setup := h.pin_fixed
  driving := Cascs.driving (.single h)
  engines := fun e => by
    obtain ⟨-, ha, hscl, hsda, hc, haddr, hmask, -⟩ := h.eng_fixed e
    exact ⟨ha, hscl, hsda, hc, haddr, hmask⟩
  drives := fun q hq => by
    obtain hk | ⟨-, e, he, ha, hp⟩ := h.drive q
    · exact hk
    · exact absurd hp (hq e he (.inl ha))

theorem Act.frame {A : Nat → Prop} (h : Act A E s t) : CallbackFrame E s t := by
  cases h with
  | casc h => exact h.frame
  | row e g h =>
    exact .of_settings ⟨rfl, rfl, rfl⟩ rfl rfl
      (setEng_settings ⟨h.attached, h.sclPin, h.sdaPin, h.configured, h.cfgAddress, h.cfgCsmask⟩)
  | drive e bit he hE =>
    refine ⟨⟨rfl, rfl, rfl⟩, fun p => ((Act.drive (A := A) e bit he hE).pin_fixed p).2, fun _ => rfl,
      fun _ => ⟨rfl, rfl, rfl, rfl, rfl, rfl⟩, fun q hq => ?_⟩
    rw [setPin_pin, if_neg fun hp => hq e he (.inr hE) hp.1]

theorem Acts.frame {A : Nat → Prop} (h : Acts A E s t) : CallbackFrame E s t :=
  h.keeps (P := CallbackFrame E s) (fun _ _ hw hf => hf.trans hw.frame) (.refl s)

theorem beginFiring_frame (x : Entry) (s : State) : CallbackFrame E s (beginFiring x s) := by
  obtain ⟨hcfg, hstream, -, hout, -, -, -, -, -, -, hpins, -, hports, -⟩ := beginFiring_fields x s
  refine .of_settings ⟨hcfg, hstream, hout⟩ hpins hports fun e => ?_
  unfold SameSettings
  obtain he | he := beginFiring_eng x s e <;> rw [he] <;> exact ⟨rfl, rfl, rfl, rfl, rfl, rfl⟩

theorem HaltOf.frame (h : HaltOf u t) : CallbackFrame E u t := by
  obtain rfl | rfl | ⟨e, b, -, -, rfl⟩ := h
  · exact .of_settings ⟨rfl, rfl, rfl⟩ rfl rfl fun _ => ⟨rfl, rfl, rfl, rfl, rfl, rfl⟩
  · exact .of_settings ⟨rfl, rfl, rfl⟩ rfl rfl fun _ => ⟨rfl, rfl, rfl, rfl, rfl, rfl⟩
  · exact .of_settings ⟨rfl, rfl, rfl⟩ rfl rfl (setEng_settings (s := u) ⟨rfl, rfl, rfl, rfl, rfl, rfl⟩)

end

/-- Firing an entry drives only data pins of attached engines, and of `E` if the entry may be that of an engine in `E`. -/
theorem Acts.fired_frame {A E : Nat → Prop} {u v : State} {x : Entry} (hx : x ∈ u.pending) (hE : ∀ e, ¬ E e → NoStray e u)
    (h : Acts A (FiredBy x) (beginFiring x u) v) : CallbackFrame E u v := by
  refine (beginFiring_frame x u).trans (h.frame.mono fun e he => ?_)
  by_cases hEe : E e
  · exact .inr hEe
  · obtain ⟨ha, -⟩ := (beginFiring_frame (E := E) x u).engines e
    left
    rw [ha]
    cases hat : (u.eng e).attached with
    | true => rfl
    | false => exact absurd ⟨x, hx, he⟩ (hE e hEe hat)

/-- The frame of `ADVANCE`, where only engines in `E` may have an entry without being attached. -/
theorem exec_advance_frame {E : Nat → Prop} {imm : BitVec 16} {s t : State} (hs : Ready s) (hE : ∀ e, ¬ E e → NoStray e s)
    (h : exec (.advance imm) s = .next t) : CallbackFrame E s t := by
  have hfired : ∀ a x b, x ∈ a.pending → (CallbackFrame E s a ∧ ∀ e, ¬ E e → NoStray e a) →
      Acts (InNodes a.cfg) (FiredBy x) (beginFiring x a) b → CallbackFrame E s b ∧ ∀ e, ¬ E e → NoStray e b :=
    fun a x b hx ⟨hf, hn⟩ hw => ⟨hf.trans (hw.fired_frame hx hn), fun e he =>
      Acts.keeps (P := NoStray e) (fun _ _ hc hp => hp.act hc) hw ((hn e he).begin x)⟩
  obtain rfl | ⟨target, u, -, hu, hr, hend⟩ := exec_advance_ends hs h
  · exact HaltOf.frame (.inr (.inl rfl))
  · have hfu := fires_keep (P := fun a => CallbackFrame E s a ∧ ∀ e, ¬ E e → NoStray e a)
      (fun a b x hr hx hab hp => hfired a x b (nextDue_some hx).1 hp (hr.fire_acts hx hab)) hs hu ⟨.refl s, hE⟩
    obtain ⟨-, rfl⟩ | ⟨x, v, hx, hv, ht⟩ := hend
    · exact hfu.1.trans (.of_settings ⟨rfl, rfl, rfl⟩ rfl rfl fun _ => ⟨rfl, rfl, rfl, rfl, rfl, rfl⟩)
    · exact (hfired u x v (nextDue_some hx).1 hfu hv).1.trans ht.frame

/-- Settles O60: a callback drives its own engine's data pin and releases those of attached engines; an entry of an engine that is
not attached is the only way another data pin is driven. -/
theorem frameOfAdvance : Obligations.FrameOfAdvance := by
  unfold Obligations.FrameOfAdvance
  intro imm s t hs h
  have hany := exec_advance_frame (E := fun _ => True) hs (fun _ he => absurd trivial he) h
  refine ⟨hany.host, hany.setup, hany.driving, hany.engines, fun q hq => hany.drives q fun e he _ => hq e he, fun hn q hq => ?_⟩
  have hattached := exec_advance_frame (E := fun e => s.cfg.numEngines ≤ e) hs (fun e he => hn e (Nat.lt_of_not_le he)) h
  exact hattached.drives q fun e he ha hp => hq ⟨e, he, ha.resolve_right (Nat.not_le_of_lt he), hp⟩

end Sys2Proof.Machine
end

section
/-! PROOF. What a line reads as, what pins and nodes offer, and the fields of the status word. -/

namespace Sys2Proof.Machine

/-! ### The status word (R245) -/

/-- The fields of more than one bit. Below `g.bits` stand 4 bits, below `g.shift` 4 more, and so on up. -/
theorem statusWord_fields (g : Engine) : (statusWord g).extractLsb' 0 4 = g.state.code ∧ (statusWord g).extractLsb' 4 4 = g.bits ∧
    (statusWord g).extractLsb' 8 8 = g.shift ∧ (statusWord g).extractLsb' 16 8 = g.matched ∧
    (statusWord g).extractLsb' 29 2 = pendCode g.pend := by
  unfold statusWord
  refine ⟨BitVec.extractLsb'_append_eq_right, ?_, ?_, ?_, ?_⟩
  · rw [BitVec.extractLsb'_append_eq_of_le (by decide)]
    exact BitVec.extractLsb'_append_eq_right
  · iterate 2 rw [BitVec.extractLsb'_append_eq_of_le (by decide)]
    exact BitVec.extractLsb'_append_eq_right
  · iterate 3 rw [BitVec.extractLsb'_append_eq_of_le (by decide)]
    exact BitVec.extractLsb'_append_eq_right
  · iterate 9 rw [BitVec.extractLsb'_append_eq_of_le (by decide)]
    exact BitVec.extractLsb'_append_eq_right

theorem statusWord_flags (g : Engine) : (statusWord g).getLsbD 24 = g.rw ∧ (statusWord g).getLsbD 25 = g.sdaDrive ∧
    (statusWord g).getLsbD 26 = g.ack ∧ (statusWord g).getLsbD 27 = g.attached ∧ (statusWord g).getLsbD 28 = g.configured ∧
    (statusWord g).getLsbD 31 = false := by
  simp only [statusWord, BitVec.getLsbD_append, Nat.reduceLT, Nat.reduceSub, ↓reduceIte, BitVec.getLsbD_ofBool, decide_true,
    Bool.true_and, true_and]
  rfl

/-- Settles O17: each field stands where the word is put together. -/
theorem statusWordFields : Obligations.StatusWordFields := by
  unfold Obligations.StatusWordFields
  rintro e s g he rfl
  obtain ⟨hstate, hbits, hshift, hmatched, hpend⟩ := statusWord_fields (s.eng e.toNat)
  obtain ⟨hrw, hsda, hack, hatt, hconf, htop⟩ := statusWord_flags (s.eng e.toNat)
  have hexec : exec (.twStatus e) s =
      commit (checked (engOk s e) s fun s => .ok (out ((statusWord (s.eng e.toNat)).setWidth 64) s)) := rfl
  rw [checked, if_pos (show engOk s e = true from decide_eq_true he)] at hexec
  refine ⟨statusWord (s.eng e.toNat), hexec, ?_, hbits, hshift, hmatched, hrw, hsda, hack, hatt, hconf, ?_, htop⟩
  · rw [hstate]
    cases (s.eng e.toNat).state <;> rfl
  · rw [hpend]
    obtain _ | _ | _ := (s.eng e.toNat).pend <;> rfl

/-! ### What a pin offers and what a level reads as (R143 to R145) -/

theorem contribution_digital {x : Pin} {l : Level} (h : x.drive = .digital l) : contribution x = contributionOf x.dir x.oc l := by
  unfold contribution
  rw [h]

theorem contributionOf_high (dir : Dir) {l : Level} (hl : l = .drivenHigh ∨ l = .weakHigh) :
    contributionOf dir true l = .floating := by
  simp [contributionOf, hl]

theorem contributionOf_kept {dir : Dir} {oc : Bool} {l : Level} (hd : dir ≠ .input)
    (h : oc = false ∨ (l ≠ .drivenHigh ∧ l ≠ .weakHigh)) : contributionOf dir oc l = l := by
  obtain rfl | ⟨h1, h2⟩ := h
  · simp [contributionOf, hd]
  · simp [contributionOf, hd, h1, h2]

theorem contribution_input {x : Pin} (h : x.dir = .input) : contribution x = .floating := by
  unfold contribution contributionOf
  split <;> simp [h]

theorem logic_cases (l : Level) : (logic l = some true ↔ l = .drivenHigh ∨ l = .weakHigh) ∧
    (logic l = some false ↔ l = .drivenLow ∨ l = .weakLow) ∧ (logic l = none ↔ l = .floating ∨ l = .unknown) := by
  cases l <;> decide

theorem isAnalog_iff (d : Drive) : d.isAnalog = true ↔ ∃ mv, d = .analog mv := by
  cases d <;> simp [Drive.isAnalog]

/-! ### Nodes and sources (R35, R146, R192) -/

theorem members_ascending (s : State) (n : Nat) : (members s n).Pairwise (· < ·) :=
  List.pairwise_lt_range.filter _

/-- The source a pull-up adds, in any direction. -/
def pullupSource (s : State) (x : Pin) : List Source :=
  if x.pu then [⟨s.cfg.vdd, s.cfg.zPullup⟩] else []

theorem pinSources_eq (s : State) (p : Nat) : pinSources s p = driveSources s.cfg p (s.pin p) ++ pullupSource s (s.pin p) := rfl

theorem driveSources_digital (c : Config) (p : Nat) {x : Pin} {l : Level} (h : x.drive = .digital l) :
    driveSources c p x = levelSources c (contribution x) := by
  unfold driveSources
  rw [h]

theorem driveSources_analog (c : Config) (p : Nat) {x : Pin} {mv : BitVec 16} (h : x.drive = .analog mv) (hd : x.dir ≠ .input) :
    driveSources c p x = [⟨(mv.toNat : Num) / 1000, (c.pins.getD p ⟨1, 0⟩).z⟩] := by
  unfold driveSources
  rw [h]
  exact if_neg hd

theorem driveSources_input (c : Config) (p : Nat) {x : Pin} (hd : x.dir = .input) : driveSources c p x = [] := by
  cases h : x.drive with
  | digital l => rw [driveSources_digital c p h, contribution_input hd]; rfl
  | analog mv => unfold driveSources; rw [h]; exact if_pos hd

/-- The rows of R192 for a digital contribution. -/
theorem pinSources_digital (s : State) (p : Nat) {l : Level} (h : (s.pin p).drive = .digital l) :
    pinSources s p = levelSources s.cfg (contribution (s.pin p)) ++ pullupSource s (s.pin p) := by
  rw [pinSources_eq, driveSources_digital s.cfg p h]

/-! ### Lone pins, the Thevenin equivalent and the thresholds (R149, R193, R196) -/

theorem aloneLevel_digital {s : State} {p : Nat} {l : Level} (h : (s.pin p).drive = .digital l) :
    aloneLevel s p = (resolveDigital [contribution (s.pin p)] (s.pin p).pu).1 := by
  simp [aloneLevel, h, Drive.isAnalog]

theorem aloneLevel_analog {s : State} {p : Nat} {mv : BitVec 16} (h : (s.pin p).drive = .analog mv) :
    aloneLevel s p = if pinSources s p = [] then .floating else levelOf s.cfg (theveninV (pinSources s p)) := by
  simp [aloneLevel, h, Drive.isAnalog]

theorem thevenin_mul_conductance {xs : List Source} (h : conductance xs ≠ 0) :
    theveninV xs * conductance xs = (xs.map fun x => x.v / x.z).sum ∧ theveninZ xs * conductance xs = 1 :=
  ⟨div_mul_cancel₀ _ h, div_mul_cancel₀ _ h⟩

theorem levelOf_cases (c : Config) (v : Num) : (c.vih ≤ v → levelOf c v = .drivenHigh) ∧
    (v < c.vih → v ≤ c.vil → levelOf c v = .drivenLow) ∧ (v < c.vih → c.vil < v → levelOf c v = .unknown) := by
  unfold levelOf
  refine ⟨fun h => if_pos h, fun h hl => ?_, fun h hl => ?_⟩
  · rw [if_neg (not_le.mpr h), if_pos hl]
  · rw [if_neg (not_le.mpr h), if_neg (not_le.mpr hl)]

/-- Settles O28, clause by clause. -/
theorem contributionAndLogic : Obligations.ContributionAndLogic := by
  unfold Obligations.ContributionAndLogic
  refine ⟨fun x l _ hi => contribution_input hi, fun x l h hoc hl => ?_, fun x l h hd ho => ?_, fun l => (logic_cases l).1,
    fun l => (logic_cases l).2.1, fun l => (logic_cases l).2.2, fun s n => ?_, ?_, ?_, levelOf_cases⟩
  · rw [contribution_digital h, hoc, contributionOf_high _ hl]
  · rw [contribution_digital h, contributionOf_kept hd ho]
  · refine ⟨members_ascending s n, fun p => mem_members, List.any_eq_true, ?_, rfl, rfl, rfl⟩
    simp only [analogMode, List.any_eq_true, isAnalog_iff]
  · rintro s p x up rfl rfl
    refine ⟨fun hi => ?_, fun mv hd h => ?_, fun l hd h => ?_, fun l h => aloneLevel_digital h, fun mv h => ?_⟩
    · rw [pinSources_eq, driveSources_input s.cfg p hi]
      rfl
    · rw [pinSources_eq, driveSources_analog s.cfg p h hd]
      rfl
    · rw [pinSources_digital s p h]
      refine ⟨fun hc => ?_, fun hc => ?_, fun hc => ?_, fun hc => ?_, ?_⟩
      · rw [hc]; rfl
      · rw [hc]; rfl
      · rw [hc]; rfl
      · rw [hc]; rfl
      · rintro (hc | hc) <;> rw [hc] <;> rfl
    · rw [aloneLevel_analog h]
      exact ⟨fun hs => if_pos hs, fun hs => if_neg hs⟩
  · rintro xs cond rfl hc
    exact thevenin_mul_conductance hc

end Sys2Proof.Machine
end

section
/-! PROOF. Where the commands on pins, nodes and port registers complete, and what they leave. -/

namespace Sys2Proof.Machine

/-! ### Completion -/

/-- A command that passes its checks and whose body goes on from `u` answers `u` with `cp` one further. -/
theorem commit_checked {b : Bool} {f : State → Res} {s u : State} (hb : b = true) (hf : f s = .ok u) :
    commit (checked b s f) = .next { u with cp := u.cp + 1 } := by
  rw [checked, if_pos hb, hf]
  rfl

/-- It is done, and a block in order is in order again. -/
theorem Runs.completed {B : Nat → Prop} {s u : State} {r : Res} (h : Runs B s r) (hr : r = .ok u) (ho : u.outLog = s.outLog) :
    Done s { u with cp := u.cp + 1 } ∧ (InOrder s → s.faultCode = 0 → InOrder { u with cp := u.cp + 1 }) := by
  subst hr
  obtain hc | ⟨c, hc⟩ := h.ends
  · have hdepth := h.depth u rfl
    exact ⟨CmdWs.done hc ho hdepth, fun hs h0 => CmdWs.inOrder hs h0 hc (h.good u hs.allGood rfl) hdepth⟩
  · cases hc

theorem RestKept.withCp {s u : State} {p : Nat} (h : RestKept s u p) (cp : Nat) : RestKept s { u with cp := cp } p :=
  ⟨h.setup, h.drives, h.driving, h.engines⟩

theorem PortWritten.withCp {s u : State} {r : Nat} {v : Byte} (h : PortWritten s u r v) (cp : Nat) :
    PortWritten s { u with cp := cp } r v :=
  ⟨h.driving, h.pins, h.drives, h.setup, h.others, h.engines⟩

/-! ### In a calm block -/

section
variable {s : State} (hs : InOrder s) (hc : Calm s) (h0 : s.faultCode = 0)
include hs hc h0

theorem exec_pinDrive_calm {p : Byte} (l : Level) (hp : p.toNat < s.cfg.numPins) :
    ∃ t, exec (.pinDrive p l) s = .next t ∧ Done s t ∧ InOrder t ∧ DrivenTo s t p.toNat (.digital l) ∧
      SamePinSetup s t p.toNat ∧ RestKept s t p.toNat := by
  obtain ⟨u, hu, -⟩ := hc.setDriving p.toNat (.digital l) fun ha => by cases ha
  obtain ⟨hbeside, hsetup, hdriven⟩ := setDriving_to (hs.shaped.pins ▸ hp) hu
  obtain ⟨hdone, horder⟩ := (setDriving_runs (B := AnyNode) hs.shaped _ _).completed hu hbeside.outLog
  exact ⟨_, commit_checked (b := pinOk s p) (decide_eq_true hp) hu, hdone, horder hs h0, hdriven, hsetup, hbeside.rest.withCp _⟩

theorem exec_nodeDetach_calm {p : Byte} (hp : p.toNat < s.cfg.numPins) :
    ∃ t, exec (.nodeDetach p) s = .next t ∧ Done s t ∧ InOrder t ∧ (t.pin p.toNat).node = none ∧
      (t.pin p.toNat).driven = aloneLevel t p.toNat ∧ (t.pin p.toNat).dir = (s.pin p.toNat).dir ∧
      (t.pin p.toNat).oc = (s.pin p.toNat).oc ∧ (t.pin p.toNat).pu = (s.pin p.toNat).pu ∧
      DriveKeptOrReleased s t p.toNat ∧ RestKept s t p.toNat := by
  obtain ⟨u, hu, -⟩ := hc.detachPin p.toNat
  obtain ⟨hbeside, hnode, hdir, hoc, hpu, hdrive⟩ := detachPin_to (hs.shaped.pins ▸ hp) hu
  obtain ⟨hdone, horder⟩ := (detachPin_runs (B := AnyNode) hs.shaped hp).completed hu hbeside.outLog
  obtain ⟨-, halone⟩ := (horder hs h0).resolved
  exact ⟨_, commit_checked (b := pinOk s p) (decide_eq_true hp) hu, hdone, horder hs h0, hnode,
    halone p.toNat (hbeside.cfg ▸ hp) hnode, hdir, hoc, hpu, hdrive, hbeside.rest.withCp _⟩

end

/-- Settles O42: in a calm block attaching a pin with a digital drive meets no fault. -/
theorem nodeAttachCompletes : Obligations.NodeAttachCompletes := by
  unfold Obligations.NodeAttachCompletes
  intro p n s hs hc h0 hp hn hd
  obtain ⟨u, hu, -⟩ := hc.attachPin p.toNat n.toNat hd
  obtain ⟨hbeside, hnode, hdir, hoc, hpu, hdrive⟩ := attachPin_to (hs.shaped.pins ▸ hp) hu
  obtain ⟨hdone, horder⟩ := (attachPin_runs (B := AnyNode) hs.shaped hp hn).completed hu hbeside.outLog
  have hcheck : (pinOk s p && nodeOk s n) = true := Bool.and_eq_true_iff.mpr ⟨decide_eq_true hp, decide_eq_true hn⟩
  refine ⟨_, commit_checked hcheck hu, hdone, horder hs h0, hnode, fun m => ?_, hdir, hoc, hpu, hdrive, hbeside.rest.withCp _⟩
  have hmem : p.toNat ∈ members u m ↔ m = n.toNat := by
    rw [mem_members, hnode, hbeside.cfg]
    exact ⟨fun h => (Option.some.inj h.2).symm, fun h => ⟨hp, congrArg some h.symm⟩⟩
  exact hmem

/-! ### A port register -/

theorem Config.wf_ports {c : Config} (h : c.wf = true) : c.ports.all (PortCfg.wf c.numPins) = true := by
  simp only [Config.wf, Bool.and_eq_true] at h
  exact h.1.1.1.1.1.2

theorem Config.wf_depth {c : Config} (h : c.wf = true) : 1 ≤ c.maxNotifyDepth := by
  simp only [Config.wf, Bool.and_eq_true, decide_eq_true_eq] at h
  exact h.1.1.1.1.1.1.2

/-- Well-formed parameters bind every enabled bit to a pin (R12). -/
theorem boundPin_lt {s : State} (hw : s.cfg.wf = true) {r i : Nat} (hr : r < s.cfg.numPorts) (hi : i ∈ enabledBits s r) :
    boundPin s r i < s.cfg.numPins := by
  obtain ⟨hi8, hen⟩ := mem_enabledBits.mp hi
  have hport : PortCfg.wf s.cfg.numPins (s.portCfg r) = true := by
    refine List.all_eq_true.mp (Config.wf_ports hw) _ ?_
    rw [State.portCfg, List.getD_eq_getElem _ _ hr]
    exact List.getElem_mem hr
  have hbit := List.all_eq_true.mp hport i (List.mem_range.mpr hi8)
  rw [hen] at hbit
  simpa [boundPin] using hbit

theorem writePort_completed {r : Nat} {v : Byte} {s u : State} (hs : Shaped s) (hw : s.cfg.wf = true) (hr : r < s.cfg.numPorts)
    (hu : writePort r v s = .ok u) : Done s { u with cp := u.cp + 1 } ∧ PortWritten s { u with cp := u.cp + 1 } r v ∧
      (InOrder s → s.faultCode = 0 → InOrder { u with cp := u.cp + 1 }) := by
  obtain ⟨hout, hwritten⟩ := writePort_to hs hr (fun i hi => boundPin_lt hw hr hi) hu
  obtain ⟨hdone, horder⟩ := (writePort_runs (B := AnyNode) hs _ _).completed hu hout
  exact ⟨hdone, hwritten.withCp _, horder⟩

/-- Settles O46: in a calm block writing a port register meets no fault, and wherever it meets none it leaves the same. -/
theorem portWriteCompletes : Obligations.PortWriteCompletes := by
  unfold Obligations.PortWriteCompletes
  refine ⟨fun r v s hs hc h0 hw hr => ?_, fun r v s t hs hw h hcp => ?_⟩
  · obtain ⟨u, hu, -⟩ := hc.writePort r.toNat v
    obtain ⟨hdone, hwritten, horder⟩ := writePort_completed hs.shaped hw hr hu
    exact ⟨_, commit_checked (b := portOk s r) (decide_eq_true hr) hu, hdone, horder hs h0, hwritten⟩
  · obtain ⟨hr, u, hu, -, rfl⟩ := checked_ok (b := portOk s r) (f := writePort r.toNat v) h hcp
      fun _ => writePort_cmd (A := AnyNode) (B := AnyNode) _ _ s (nodesIn_any s)
    exact writePort_completed hs hw (of_decide_eq_true hr) hu

end Sys2Proof.Machine
end

section
/-! PROOF. `PIN_DRIVE` and `NODE_DETACH` beside analog nodes, with no engine attached. -/

namespace Sys2Proof.Machine

/-! ### Changes that only rewrite what pins read -/

/-- The parameters and every pin's setup and driving state agree: only what pins read may differ. -/
structure OnlyRead (s t : State) : Prop where
  cfg : t.cfg = s.cfg
  pin : ∀ q, ∃ l, t.pin q = { s.pin q with driven := l }

section
variable {s u t : State}

theorem OnlyRead.refl (s : State) : OnlyRead s s := ⟨rfl, fun q => ⟨(s.pin q).driven, rfl⟩⟩

theorem OnlyRead.trans (h : OnlyRead s u) (k : OnlyRead u t) : OnlyRead s t := by
  refine ⟨k.cfg.trans h.cfg, fun q => ?_⟩
  obtain ⟨l, hl⟩ := h.pin q
  obtain ⟨m, hm⟩ := k.pin q
  exact ⟨m, by rw [hm, hl]⟩

theorem OnlyRead.offer (h : OnlyRead s t) (q : Nat) : (t.pin q).drive = (s.pin q).drive ∧ (t.pin q).dir = (s.pin q).dir ∧
    (t.pin q).oc = (s.pin q).oc ∧ (t.pin q).pu = (s.pin q).pu := by
  obtain ⟨l, hl⟩ := h.pin q
  rw [hl]
  exact ⟨rfl, rfl, rfl, rfl⟩

theorem OnlyRead.members (h : OnlyRead s t) (n : Nat) : members t n = members s n :=
  members_congr h.cfg n fun q => by
    obtain ⟨l, hl⟩ := h.pin q
    rw [hl]

theorem OnlyRead.analogMode (h : OnlyRead s t) (n : Nat) : analogMode t n = analogMode s n :=
  (nodeView_congr (h.members n) fun q _ => h.offer q).1

theorem OnlyRead.aloneLevel (h : OnlyRead s t) (p : Nat) : aloneLevel t p = aloneLevel s p :=
  aloneLevel_congr h.cfg (h.offer p)

end

theorem NoEngineAttached.of_same {s t : State} (h : NoEngineAttached s) (hc : t.cfg = s.cfg) (he : t.engines = s.engines) :
    NoEngineAttached t := by
  unfold NoEngineAttached State.eng at h ⊢
  rw [hc, he]
  exact h

/-! ### A digital node's record -/

/-- A node's record as the digital branch of a resolution leaves it: level and flag of the table, not settling, the voltage fields
as they were (R148, R150, R199). -/
def digitalRecord (x : Node) (d : Level × Bool) : Node :=
  { x with level := d.1, contended := d.2, settling := false }

theorem NodeResolved.record {s : State} {n : Nat} (h : NodeResolved s n) (ha : analogMode s n = false) :
    s.node n = digitalRecord (s.node n) (resolveDigital (offers s n) (pullup s n)) := by
  have hset : (s.node n).settling = false := by
    cases hx : (s.node n).settling with
    | false => rfl
    | true => exact absurd (h.settling hx) (by rw [ha]; decide)
  rw [← h.eq_table ha, digitalRecord, ← hset]

/-- A node of a block in order that shows such a record has no callback pending, and its members read its level. -/
theorem InOrder.shows {t : State} {n : Nat} {x : Node} {d : Level × Bool} (ht : InOrder t) (hn : n < t.cfg.numNodes)
    (hx : t.node n = digitalRecord x d) : ¬ hasEntry t (.node n) ∧ ∀ q ∈ members t n, (t.pin q).driven = d.1 := by
  refine ⟨fun he => ?_, fun q hq => ?_⟩
  · have hset := (ht.settle n hn).mp he
    rw [hx] at hset
    cases hset
  · obtain ⟨hlt, hnode⟩ := mem_members.mp hq
    rw [(ht.resolved.1 n hn).driven q hlt hnode, hx]
    rfl

/-! ### Resolutions with no engine attached -/

section
variable {s : State} (hs : Shaped s) (hq : NoEngineAttached s) (hd : s.depth < s.cfg.maxNotifyDepth)
include hs hq hd

theorem resolve_node_onlyRead {n : Nat} (hn : n < s.cfg.numNodes) (ha : analogMode s n = false) :
    ∃ t, resolve (.node n) s = .ok t ∧ t.engines = s.engines ∧ t.depth = s.depth ∧ OnlyRead s t ∧
      (∀ q, q ∉ members s n → t.pin q = s.pin q) ∧
      t.node n = digitalRecord (s.node n) (resolveDigital (offers s n) (pullup s n)) := by
  obtain ⟨t, ht, heng, hcfg, hdepth, hnode, hpin⟩ := resolve_node_quiet hs hn hq hd ha rfl
  refine ⟨t, ht, heng, hdepth, ⟨hcfg, fun q => ?_⟩, fun q hm => (hpin q).trans (if_neg hm), hnode⟩
  by_cases hm : q ∈ members s n
  · exact ⟨_, (hpin q).trans (if_pos hm)⟩
  · exact ⟨(s.pin q).driven, (hpin q).trans (if_neg hm)⟩

theorem resolve_pin_onlyRead {p : Nat} (hp : p < s.cfg.numPins) :
    ∃ t, resolve (.pin p) s = .ok t ∧ t.engines = s.engines ∧ OnlyRead s t ∧ (∀ m, t.node m = s.node m) ∧
      t.pin p = { s.pin p with driven := aloneLevel t p } := by
  obtain ⟨t, ht, heng, hcfg, -, hnode, hpin⟩ := resolve_pin_quiet hs hp hq hd
  have honly : OnlyRead s t := ⟨hcfg, fun q => by
    by_cases hqp : q = p
    · exact ⟨aloneLevel s p, by rw [hpin, if_pos hqp, hqp]⟩
    · exact ⟨(s.pin q).driven, by rw [hpin, if_neg hqp]⟩⟩
  refine ⟨t, ht, heng, honly, hnode, ?_⟩
  rw [honly.aloneLevel, hpin, if_pos rfl]

end

theorem setPin_self {s : State} {p : Nat} (hp : p < s.pins.length) : s.setPin p (s.pin p) = s := by
  have hpins : s.pins.set p (s.pin p) = s.pins := by
    rw [State.pin, List.getD_eq_getElem _ _ hp, List.set_getElem_self]
  unfold State.setPin
  rw [hpins]

theorem Shaped.setPin {s : State} (hs : Shaped s) (p : Nat) (x : Pin) (hn : ∀ n, x.node = some n → n < s.cfg.numNodes) :
    Shaped (s.setPin p x) := by
  refine ⟨(setPin_pins_length s p x).trans hs.pins, hs.nodes, hs.ports, hs.engines, fun q n hq => ?_, hs.enginePins⟩
  obtain h | ⟨-, h⟩ := setPin_pin_cases s p q x <;> rw [h] at hq
  · exact hs.nodeOf q n hq
  · exact hn n hq

theorem jobOf_node {s : State} {p n : Nat} (h : (s.pin p).node = some n) : jobOf s p = .node n := by
  unfold jobOf
  rw [h]

theorem jobOf_alone {s : State} {p : Nat} (h : (s.pin p).node = none) : jobOf s p = .pin p := by
  unfold jobOf
  rw [h]

/-- Driving a pin whose node is digital then (R160, R161, R199). -/
theorem setDriving_quiet {s u : State} {p : Nat} {d : Drive} (hs : InOrder s) (hq : NoEngineAttached s)
    (hd : s.depth < s.cfg.maxNotifyDepth) (hp : p < s.cfg.numPins) (hu : u = s.setPin p { s.pin p with drive := d })
    (ha : ∀ n, (s.pin p).node = some n → analogMode u n = false) :
    ∃ t, setDriving p d s = .ok t ∧ t.engines = s.engines ∧ OnlyRead u t ∧ ∀ n, (s.pin p).node = some n →
      t.node n = digitalRecord (s.node n) (resolveDigital (offers u n) (pullup u n)) := by
  have hlen : p < s.pins.length := hs.shaped.pins ▸ hp
  unfold setDriving setDrivingVia
  by_cases hsame : (s.pin p).drive = d
  · have hus : u = s := by rw [hu, ← hsame]; exact setPin_self hlen
    rw [if_pos hsame]
    refine ⟨s, rfl, rfl, hus ▸ .refl s, fun n hn => ?_⟩
    rw [hus] at ha ⊢
    exact (hs.resolved.1 n (hs.shaped.nodeOf p n hn)).record (ha n hn)
  · rw [if_neg hsame]
    have hus : Shaped u := hu ▸ hs.shaped.setPin p _ (hs.shaped.nodeOf p)
    have huq : NoEngineAttached u := hu ▸ hq
    have hud : u.depth < u.cfg.maxNotifyDepth := hu ▸ hd
    have hunode : (u.pin p).node = (s.pin p).node := by rw [hu, setPin_pin_self _ _ _ hlen]
    have hrec : ∀ n, u.node n = s.node n := fun n => by rw [hu]; rfl
    rw [← hu]
    dsimp only
    cases hn : (s.pin p).node with
    | none =>
      rw [jobOf_alone (hunode.trans hn)]
      obtain ⟨t, ht, heng, honly, -⟩ := resolve_pin_onlyRead hus huq hud (p := p) (by rw [hu]; exact hp)
      exact ⟨t, ht, heng.trans (by rw [hu]; rfl), honly, fun n h => by cases h⟩
    | some n =>
      rw [jobOf_node (hunode.trans hn)]
      obtain ⟨t, ht, heng, -, honly, -, hnode⟩ :=
        resolve_node_onlyRead hus huq hud (n := n) (by rw [hu]; exact hs.shaped.nodeOf p n hn) (ha n hn)
      refine ⟨t, ht, heng.trans (by rw [hu]; rfl), honly, fun m hm => ?_⟩
      cases hm
      rw [hnode, hrec]

/-- Settles O40: in a calm block driving a pin meets no fault, and with no engine attached it is one digital resolution. -/
theorem pinDriveCompletes : Obligations.PinDriveCompletes := by
  unfold Obligations.PinDriveCompletes
  refine ⟨fun p l s hs hc h0 hp => exec_pinDrive_calm hs hc h0 l hp, ?_⟩
  intro p l s u hs h0 hw hq hp hu ha
  have hroom : s.depth < s.cfg.maxNotifyDepth := by rw [hs.depth]; exact Config.wf_depth hw
  obtain ⟨t, ht, heng, honly, hnode⟩ := setDriving_quiet hs hq hroom hp hu ha
  obtain ⟨hbeside, hsetup, -⟩ := setDriving_to (hs.shaped.pins ▸ hp) ht
  obtain ⟨hdone, horder⟩ := (setDriving_runs (B := AnyNode) hs.shaped _ _).completed ht hbeside.outLog
  have hdrive : (t.pin p.toNat).drive = .digital l := by
    rw [(honly.offer p.toNat).1, hu, setPin_pin_self _ _ _ (hs.shaped.pins ▸ hp)]
  refine ⟨_, commit_checked (b := pinOk s p) (decide_eq_true hp) ht, hdone, horder hs h0, heng, hdrive, hsetup,
    hbeside.rest.withCp _, ?_⟩
  rintro n d hn rfl
  have hlt : n < t.cfg.numNodes := by rw [hbeside.cfg]; exact hs.shaped.nodeOf _ n hn
  obtain ⟨hnone, hread⟩ := (horder hs h0).shows hlt (hnode n hn)
  exact ⟨(honly.analogMode n).trans (ha n hn), hnone, hnode n hn, hread⟩

/-- Detaching a pin from a node that is digital without it (R165, R199). -/
theorem detachPin_quiet {s u : State} {p n : Nat} (hs : InOrder s) (hq : NoEngineAttached s) (hd : s.depth < s.cfg.maxNotifyDepth)
    (hp : p < s.cfg.numPins) (hn : (s.pin p).node = some n) (hu : u = s.setPin p { s.pin p with node := none })
    (ha : analogMode u n = false) :
    ∃ t, detachPin p s = .ok t ∧ t.engines = s.engines ∧ OnlyRead u t ∧
      t.pin p = { s.pin p with node := none, driven := aloneLevel t p } ∧
      t.node n = digitalRecord (s.node n) (resolveDigital (offers u n) (pullup u n)) := by
  have hus : Shaped u := hu ▸ hs.shaped.setPin p _ (fun m hm => by cases hm)
  have hup : u.pin p = { s.pin p with node := none } := by rw [hu, setPin_pin_self _ _ _ (hs.shaped.pins ▸ hp)]
  have hucfg : u.cfg = s.cfg := by rw [hu]; rfl
  have hueng : u.engines = s.engines := by rw [hu]; rfl
  have huq : NoEngineAttached u := hq.of_same hucfg hueng
  have hud : u.depth < u.cfg.maxNotifyDepth := hu ▸ hd
  obtain ⟨v, hv, hveng, hvdepth, hvonly, hvpin, hvnode⟩ :=
    resolve_node_onlyRead hus huq hud (n := n) (hucfg ▸ hs.shaped.nodeOf p n hn) ha
  have hvs : Shaped v := hus.casc ((resolve_casc (A := AnyNode) _ _ (nodesIn_any _) (jobIn_any _)).ok hv)
  obtain ⟨t, ht, hteng, htonly, htnode, htpin⟩ :=
    resolve_pin_onlyRead hvs (huq.of_same hvonly.cfg hveng) (by rw [hvdepth, hvonly.cfg]; exact hud) (p := p)
      (by rw [hvonly.cfg, hucfg]; exact hp)
  have hvp : v.pin p = { s.pin p with node := none } := by
    rw [hvpin p fun hm => ?_, hup]
    have hnode := (mem_members.mp hm).2
    rw [hup] at hnode
    cases hnode
  refine ⟨t, ?_, hteng.trans (hveng.trans hueng), hvonly.trans htonly, htpin.trans (by rw [hvp]), ?_⟩
  · unfold detachPin
    rw [hn]
    dsimp only
    rw [← hu, hv]
    exact ht
  · rw [htnode, hvnode, hu]
    rfl

/-- Settles O43: in a calm block detaching a pin meets no fault, and with no engine attached it is a digital resolution of the
node and then the lone pin's. -/
theorem nodeDetachCompletes : Obligations.NodeDetachCompletes := by
  unfold Obligations.NodeDetachCompletes
  refine ⟨fun p s hs hc h0 hp => exec_nodeDetach_calm hs hc h0 hp, ?_⟩
  rintro p n d s u hs h0 hw hq hp hn hu ha rfl
  have hroom : s.depth < s.cfg.maxNotifyDepth := by rw [hs.depth]; exact Config.wf_depth hw
  obtain ⟨t, ht, heng, honly, hpin, hnode⟩ := detachPin_quiet hs hq hroom hp hn hu ha
  obtain ⟨hbeside, -⟩ := detachPin_to (hs.shaped.pins ▸ hp) ht
  obtain ⟨hdone, horder⟩ := (detachPin_runs (B := AnyNode) hs.shaped hp).completed ht hbeside.outLog
  have hlt : n < t.cfg.numNodes := by rw [hbeside.cfg]; exact hs.shaped.nodeOf _ n hn
  obtain ⟨hnone, hread⟩ := (horder hs h0).shows hlt hnode
  exact ⟨_, commit_checked (b := pinOk s p) (decide_eq_true hp) ht, hdone, horder hs h0, heng, hpin, hbeside.rest.withCp _,
    (honly.analogMode n).trans ha, hnone, hnode, hread⟩

end Sys2Proof.Machine
end

section
/-! PROOF. `TW_ATTACH`: what it leaves wherever it completes, and that releasing the data pin of the one attached engine, off the
node of its clock pin, leaves the engine idle. -/

namespace Sys2Proof.Machine

/-! ### Writes that change nothing -/

theorem setEng_self (s : State) (e : Nat) : s.setEng e (s.eng e) = s := by
  have hengines : s.engines.set e (s.eng e) = s.engines := by
    by_cases he : e < s.engines.length
    · rw [State.eng, List.getD_eq_getElem _ _ he, List.set_getElem_self]
    · exact List.set_eq_of_length_le (Nat.le_of_not_lt he)
  unfold State.setEng
  rw [hengines]

theorem cancel_of_no_entry {s : State} {o : Owner} (h : ¬ hasEntry s o) : cancel o s = s := by
  have hpending : (s.pending.filter fun x => decide (x.owner ≠ o)) = s.pending :=
    List.filter_eq_self.mpr fun x hx => decide_eq_true fun ho => h ⟨x, hx, ho⟩
  unfold cancel
  rw [hpending]

/-! ### The table read low (R143, R147) -/

theorem logic_resolveDigital_low (c : List Level) (pu : Bool) : logic (resolveDigital c pu).1 = some false ↔
    .drivenHigh ∉ c ∧ .unknown ∉ c ∧ (.drivenLow ∈ c ∨ (.weakLow ∈ c ∧ .weakHigh ∉ c ∧ pu = false)) := by
  unfold resolveDigital
  by_cases hh : Level.drivenHigh ∈ c
  · by_cases hl : Level.drivenLow ∈ c <;> by_cases hu : Level.unknown ∈ c <;> simp [hh, hl, hu, logic]
  · by_cases hu : Level.unknown ∈ c
    · simp [hh, hu, logic]
    · by_cases hl : Level.drivenLow ∈ c
      · simp [hh, hu, hl, logic]
      · by_cases hwh : Level.weakHigh ∈ c <;> by_cases hwl : Level.weakLow ∈ c <;> cases pu <;>
          simp [hh, hu, hl, hwh, hwl, logic]

/-- Taking a low level away and adding none leaves no low reading that was not there. -/
theorem resolveDigital_low_of {c c' : List Level} {pu : Bool} (hsub : ∀ l, l ≠ .floating → l ∈ c' → l ∈ c)
    (hsup : ∀ l, l ≠ .floating → l ≠ .drivenLow → l ∈ c → l ∈ c') (h : logic (resolveDigital c' pu).1 = some false) :
    logic (resolveDigital c pu).1 = some false := by
  rw [logic_resolveDigital_low] at h ⊢
  obtain ⟨hh, hu, hlow⟩ := h
  refine ⟨fun hm => hh (hsup _ (by decide) (by decide) hm), fun hm => hu (hsup _ (by decide) (by decide) hm), ?_⟩
  obtain hl | ⟨hwl, hwh, hpu⟩ := hlow
  · exact .inl (hsub _ (by decide) hl)
  · exact .inr ⟨hsub _ (by decide) hwl, fun hm => hwh (hsup _ (by decide) (by decide) hm), hpu⟩

theorem contribution_floating {x : Pin} (h : x.drive = .digital .floating) : contribution x = .floating := by
  rw [contribution_digital h, contributionOf]
  split_ifs <;> rfl

theorem contribution_drivenLow {x : Pin} (h : x.drive = .digital .drivenLow) :
    contribution x = .drivenLow ∨ contribution x = .floating := by
  rw [contribution_digital h]
  by_cases hd : x.dir = .input
  · exact .inr (if_pos hd)
  · exact .inl (contributionOf_kept hd (.inr ⟨by decide, by decide⟩))

/-- A node does not come to read low when a member stops driving low (R147). -/
theorem digitalLevel_release_low {s : State} {p n : Nat} (hp : p < s.pins.length)
    (hd : (s.pin p).drive = .digital .drivenLow)
    (h : logic (digitalLevel (s.setPin p { s.pin p with drive := .digital .floating }) n) = some false) :
    logic (digitalLevel s n) = some false := by
  generalize hu : s.setPin p { s.pin p with drive := .digital .floating } = u at h
  have hself : u.pin p = { s.pin p with drive := .digital .floating } := by rw [← hu, setPin_pin_self _ _ _ hp]
  have hother : ∀ q, q ≠ p → u.pin q = s.pin q := fun q hq => by rw [← hu, setPin_pin, if_neg fun h' => hq h'.1.symm]
  have hmem : members u n = members s n := members_congr (by rw [← hu]; rfl) n fun q => by
    by_cases hq : q = p
    · rw [hq, hself]
    · rw [hother q hq]
  have hpull : pullup u n = pullup s n := by
    unfold pullup
    rw [hmem]
    congr 1
    funext q
    by_cases hq : q = p
    · rw [hq, hself]
    · rw [hother q hq]
  change logic (resolveDigital (offers u n) (pullup u n)).1 = some false at h
  rw [hpull] at h
  refine resolveDigital_low_of (c := offers s n) (fun l hl hm => ?_) (fun l hl hne hm => ?_) h
  · obtain ⟨q, hq, rfl⟩ := mem_offers.mp hm
    have hqp : q ≠ p := fun hqp => hl (hqp ▸ contribution_floating (x := u.pin p) (by rw [hself]))
    exact mem_offers.mpr ⟨q, hmem ▸ hq, by rw [hother q hqp]⟩
  · obtain ⟨q, hq, rfl⟩ := mem_offers.mp hm
    have hqp : q ≠ p := fun hqp => by
      subst hqp
      exact (contribution_drivenLow hd).elim hne hl
    exact mem_offers.mpr ⟨q, hmem ▸ hq, by rw [hother q hqp]⟩

/-! ### While the one attached engine's data pin is released -/

/-- Engine `e` reads `g` but for its data latch, has no entry, drives its data pin `p` to `Floating`, and no other is attached. -/
structure Released (e p : Nat) (g : Engine) (s : State) : Prop where
  others : ∀ f, f ≠ e → (s.eng f).attached = false
  eng : ∃ b, s.eng e = { g with sdaSeen := b }
  entry : ¬ hasEntry s (.eng e)
  drive : (s.pin p).drive = .digital .floating
  length : e < s.engines.length

/-- And no START is to be seen: where the line is low the data latch is. -/
structure Releasing (e p : Nat) (g : Engine) (s : State) : Prop extends Released e p g s where
  low : logic (s.pin p).driven = some false → (s.eng e).sdaSeen = false

/-- The engine is idle, with no edge waiting, and SDA released. -/
structure Engine.IsIdle (g : Engine) : Prop where
  state : g.state = .idle
  bits : g.bits = 0
  pend : g.pend = none
  sdaDrive : g.sdaDrive = false

section
variable {e p : Nat} {g : Engine} {s t : State}

theorem Released.of_same (h : Released e p g s) (he : t.engines = s.engines) (hp : ∀ x ∈ t.pending, x ∈ s.pending)
    (hd : (t.pin p).drive = (s.pin p).drive) : Released e p g t where
  others := by simpa only [State.eng, he] using h.others
  eng := by simpa only [State.eng, he] using h.eng
  entry := fun ⟨x, hx, ho⟩ => h.entry ⟨x, hp x hx, ho⟩
  drive := hd.trans h.drive
  length := he ▸ h.length

theorem Releasing.of_same (h : Releasing e p g s) (he : t.engines = s.engines) (hp : ∀ x ∈ t.pending, x ∈ s.pending)
    (hx : t.pin p = s.pin p) : Releasing e p g t :=
  ⟨h.toReleased.of_same he hp (by rw [hx]), by rw [hx, State.eng, he]; exact h.low⟩

/-- A STOP changes nothing of an idle engine that has released its pin (R249). -/
theorem stopVia_idle (res : Job → State → Res) (hi : (s.eng e).IsIdle) (hn : ¬ hasEntry s (.eng e))
    (hd : (s.pin (s.eng e).sdaPin.toNat).drive = .digital .floating) : stopVia res e s = .ok s := by
  obtain ⟨hstate, hbits, hpend, hsda⟩ := hi
  have hdrop : dropEdge e s = s := by
    unfold dropEdge
    rw [cancel_of_no_entry hn, ← hpend]
    exact setEng_self s e
  have hidle : s.setEng e { s.eng e with state := .idle, bits := 0 } = s := by
    rw [← hstate, ← hbits]
    exact setEng_self s e
  have hpull : s.setEng e { s.eng e with sdaDrive := !true } = s := by
    rw [Bool.not_true, ← hsda]
    exact setEng_self s e
  unfold stopVia driveSdaVia setDrivingVia
  rw [hdrop]
  dsimp only
  rw [hidle, hpull]
  exact if_pos hd

variable (res : Job → State → Res)

theorem Releasing.onSda (hi : g.IsIdle) (hsda : g.sdaPin.toNat = p) (h : Releasing e p g s) :
    ∃ t, onSdaVia res e s = .ok t ∧ Releasing e p g t := by
  obtain ⟨c, hc⟩ := h.eng
  have hpin : (s.eng e).sdaPin.toNat = p := by rw [hc]; exact hsda
  unfold onSdaVia
  rw [hpin]
  cases hb : logic (s.pin p).driven with
  | none => exact ⟨_, rfl, h.of_same rfl (fun _ hx => hx) rfl⟩
  | some b =>
    dsimp only
    by_cases hsame : b = (s.eng e).sdaSeen
    · exact ⟨s, if_pos hsame, h⟩
    · rw [if_neg hsame]
      have hself : (s.setEng e { s.eng e with sdaSeen := b }).eng e = { g with sdaSeen := b } := by
        rw [setEng_eng_self _ _ _ h.length, hc]
      have hset : Releasing e p g (s.setEng e { s.eng e with sdaSeen := b }) := by
        refine ⟨⟨fun f hf => ?_, ⟨b, hself⟩, h.entry, h.drive, by rw [setEng_engines_length]; exact h.length⟩, fun hlow => ?_⟩
        · rw [setEng_eng, if_neg fun h' => hf h'.1.symm]
          exact h.others f hf
        · rw [hself]
          exact Option.some.inj (hb.symm.trans hlow)
      cases b with
      | false => exact absurd (h.low hb).symm hsame
      | true =>
        have hstop := stopVia_idle res (s := s.setEng e { s.eng e with sdaSeen := true }) (e := e)
          (by rw [hself]; exact ⟨hi.state, hi.bits, hi.pend, hi.sdaDrive⟩) h.entry (by rw [hself]; exact hsda ▸ h.drive)
        refine ⟨_, ?_, hset⟩
        rw [if_pos rfl, hstop]
        exact ite_self _

theorem Releasing.notifyEngine {q : Nat} (hi : g.IsIdle) (hsda : g.sdaPin.toNat = p) (hq : q ≠ g.sclPin.toNat) (f : Nat)
    (h : Releasing e p g s) : ∃ t, notifyEngineVia res q f s = .ok t ∧ Releasing e p g t := by
  unfold notifyEngineVia
  by_cases hf : f = e
  · subst hf
    obtain ⟨c, hc⟩ := h.eng
    have hscl : ¬ q = (s.eng f).sclPin.toNat := by rw [hc]; exact hq
    rw [if_neg hscl, andThen_ok]
    split
    · split
      · exact h.onSda res hi hsda
      · exact ⟨s, rfl, h⟩
    · exact ⟨s, rfl, h⟩
  · rw [h.others f hf]
    exact ⟨s, rfl, h⟩

theorem Releasing.onPinChanged (h : Releasing e p g s) (r i : Nat) : Releasing e p g (onPinChanged r i s) := by
  unfold Machine.onPinChanged
  split
  · exact h.of_same rfl (fun _ hx => hx) rfl
  · exact h

theorem forEach_goesOn {α : Type} {P : State → Prop} {f : α → State → Res} (xs : List α)
    (hf : ∀ x ∈ xs, ∀ s, P s → ∃ t, f x s = .ok t ∧ P t) {s : State} (hs : P s) : ∃ t, forEach f xs s = .ok t ∧ P t := by
  induction xs generalizing s with
  | nil => exact ⟨s, rfl, hs⟩
  | cons x xs ih =>
    obtain ⟨u, hu, hpu⟩ := hf x List.mem_cons_self s hs
    rw [forEach_cons, hu]
    exact ih (fun y hy => hf y (List.mem_cons_of_mem x hy)) hpu

/-- A notification of any pin but the clock pin goes on, whatever resolutions would do (R152, R247). -/
theorem Releasing.notify {q : Nat} (hi : g.IsIdle) (hsda : g.sdaPin.toNat = p) (hq : q ≠ g.sclPin.toNat)
    (h : Releasing e p g s) : ∃ t, notifyVia res q s = .ok t ∧ Releasing e p g t := by
  unfold notifyVia
  refine forEach_goesOn (P := Releasing e p g) _ (fun f _ _ hu => hu.notifyEngine res hi hsda hq f) ?_
  refine List.foldlRecOn _ _ h fun u hu r _ => ?_
  exact List.foldlRecOn _ _ hu fun v hv i _ => hv.onPinChanged r i

/-- So does a publication at a node without the clock pin, if a low level is not new to the data latch. -/
theorem Released.publish {n : Nat} {l : Level} (hi : g.IsIdle) (hsda : g.sdaPin.toNat = p) (hs : Shaped s)
    (hp : p ∈ members s n) (hscl : g.sclPin.toNat ∉ members s n) (hl : logic l = some false → (s.eng e).sdaSeen = false)
    (h : Released e p g s) : ∃ t, publishVia res n l s = .ok t ∧ Releasing e p g t := by
  obtain ⟨-, hpending, -, hengines, -⟩ := publishWrites_fields n l s
  have hpin : (publishWrites n l s).pin p = { s.pin p with driven := l } := (publishWrites_pin hs n l p).trans (if_pos hp)
  unfold publishVia
  refine forEach_goesOn (P := Releasing e p g) _ (fun q hq _ hu => ?_) ⟨h.of_same hengines (fun x hx => hpending ▸ hx) ?_, ?_⟩
  · exact hu.notify res hi hsda fun hqs => hscl (hqs ▸ (List.mem_filter.mp hq).1)
  · rw [hpin]
  · rw [hpin, State.eng, hengines]
    exact hl

end

/-! ### Releasing the data pin -/

/-- A lone pin that drives `Floating` never reads low (R149). -/
theorem aloneLevel_floating {s : State} {p : Nat} (h : (s.pin p).drive = .digital .floating) :
    logic (aloneLevel s p) ≠ some false := by
  rw [aloneLevel_digital h, contribution_floating h, Ne, logic_resolveDigital_low]
  simp

section
variable {e p : Nat} {g : Engine} {s : State} (res : Job → State → Res) (hi : g.IsIdle) (hsda : g.sdaPin.toNat = p)
include hi hsda

theorem Released.runJob_alone (hne : p ≠ g.sclPin.toNat) (hp : p < s.pins.length) (h : Released e p g s) :
    ∃ t, runJobVia res (.pin p) s = .ok t ∧ Released e p g t := by
  by_cases hsame : (s.pin p).driven = aloneLevel s p
  · exact ⟨s, runJobVia_pin_same res hsame, h⟩
  · have hself := setPin_pin_self s p { s.pin p with driven := aloneLevel s p } hp
    have hstart : Releasing e p g (s.setPin p { s.pin p with driven := aloneLevel s p }) :=
      ⟨h.of_same rfl (fun _ hx => hx) (by rw [hself]), fun hlow => absurd (by rwa [hself] at hlow) (aloneLevel_floating h.drive)⟩
    obtain ⟨t, ht, hreleasing⟩ := hstart.notify res hi hsda hne
    exact ⟨t, (runJobVia_pin_new res hsame).trans ht, hreleasing.toReleased⟩

theorem Released.runJob_node {n : Nat} (hs : Shaped s) (hp : p ∈ members s n) (hscl : g.sclPin.toNat ∉ members s n)
    (ha : analogMode s n = false) (hlow : logic (digitalLevel s n) = some false → (s.eng e).sdaSeen = false)
    (h : Released e p g s) : ∃ t, runJobVia res (.node n) s = .ok t ∧ Released e p g t := by
  have hn : n < s.nodes.length := hs.nodes ▸ hs.nodeOf p n (mem_members.mp hp).2
  have hshaped : Shaped (digitalUpdate n s) := hs.casc (A := AnyNode) (digitalUpdate_casc n s)
  have hstart : Released e p g (digitalUpdate n s) := by
    rw [digitalUpdate_eq hn rfl]
    refine h.of_same rfl (fun x hx => ?_) rfl
    dsimp only at hx
    split at hx
    · exact (List.mem_filter.mp hx).1
    · exact hx
  rw [runJobVia_digital res ha]
  rw [digitalUpdate_eq hn rfl] at hshaped hstart ⊢
  obtain ⟨t, ht, hreleasing⟩ := hstart.publish res (n := n) (l := digitalLevel s n) hi hsda hshaped hp hscl hlow
  exact ⟨t, ht, hreleasing.toReleased⟩

/-- The resolution that releasing the data pin calls for goes on and leaves the engine idle. -/
theorem Released.resolve (hs : Shaped s) (hd : s.depth < s.cfg.maxNotifyDepth) (hdigital : NoAnalogNode s)
    (hp : p < s.cfg.numPins) (hne : p ≠ g.sclPin.toNat)
    (hoff : (s.pin g.sclPin.toNat).node = none ∨ (s.pin g.sclPin.toNat).node ≠ (s.pin p).node)
    (hlow : ∀ n, (s.pin p).node = some n → logic (digitalLevel s n) = some false → (s.eng e).sdaSeen = false)
    (h : Released e p g s) : ∃ t, resolve (jobOf s p) s = .ok t ∧ Released e p g t := by
  obtain ⟨res, -, hrun⟩ := resolve_run (j := jobOf s p) hd
  have hdeeper : Released e p g { s with depth := s.depth + 1 } := h.of_same rfl (fun _ hx => hx) rfl
  have hjob : ∃ t, runJobVia res (jobOf s p) { s with depth := s.depth + 1 } = .ok t ∧ Released e p g t := by
    cases hnode : (s.pin p).node with
    | none =>
      rw [jobOf_alone hnode]
      exact hdeeper.runJob_alone res hi hsda hne (hs.pins ▸ hp)
    | some n =>
      rw [jobOf_node hnode]
      refine hdeeper.runJob_node (n := n) res hi hsda ⟨hs.pins, hs.nodes, hs.ports, hs.engines, hs.nodeOf, hs.enginePins⟩
        (mem_members.mpr ⟨hp, hnode⟩) (fun hm => ?_) (hdigital n) (hlow n hnode)
      have hscl : (s.pin g.sclPin.toNat).node = some n := (mem_members.mp hm).2
      rw [hnode, hscl] at hoff
      exact hoff.elim (fun h => by cases h) fun h => h rfl
  obtain ⟨t, ht, hreleased⟩ := hjob
  rw [hrun, ht]
  exact ⟨_, rfl, hreleased.of_same rfl (fun _ hx => hx) rfl⟩

end

theorem Engine.cleared_isIdle (g : Engine) : Engine.IsIdle { g.cleared with sdaDrive := false } := ⟨rfl, rfl, rfl, rfl⟩

/-- The engine's fields cleared and its entry cancelled: the state in which `TwReset` drives SDA (R244). -/
def clearedAt (e : Nat) (s : State) : State :=
  cancel (.eng e) (s.setEng e { (s.eng e).cleared with sdaDrive := false })

/-- That state with the data pin driven to `Floating`. -/
def releasedAt (e : Nat) (s : State) : State :=
  (clearedAt e s).setPin (s.eng e).sdaPin.toNat { s.pin (s.eng e).sdaPin.toNat with drive := .digital .floating }

theorem clearedAt_eng {e : Nat} {s : State} (he : e < s.engines.length) :
    (clearedAt e s).eng e = { (s.eng e).cleared with sdaDrive := false } :=
  setEng_eng_self s e _ he

theorem clearedAt_eng_other {e f : Nat} (s : State) (hf : f ≠ e) : (clearedAt e s).eng f = s.eng f :=
  (setEng_eng s e f _).trans (if_neg fun h => hf h.1.symm)

theorem Shaped.clearedAt {e : Nat} {s : State} (hs : Shaped s) (he : e < s.engines.length) : Shaped (clearedAt e s) := by
  refine hs.of_same rfl ⟨rfl, rfl, rfl, setEng_engines_length s e _⟩ (fun _ => rfl) fun f => ?_
  by_cases hf : f = e
  · rw [hf, clearedAt_eng he]
    exact ⟨rfl, rfl, rfl⟩
  · rw [clearedAt_eng_other s hf]
    exact ⟨rfl, rfl, rfl⟩

theorem releasedAt_released {e : Nat} {s : State} (hs : Shaped s) (he : e < s.cfg.numEngines)
    (hsole : ∀ f, f < s.cfg.numEngines → (s.eng f).attached = true → f = e) (hp : (s.eng e).sdaPin.toNat < s.pins.length) :
    Released e (s.eng e).sdaPin.toNat { (s.eng e).cleared with sdaDrive := false } (releasedAt e s) where
  others := fun f hf => by
    rw [show (releasedAt e s).eng f = s.eng f from clearedAt_eng_other s hf]
    by_cases hlt : f < s.cfg.numEngines
    · exact eq_false_of_ne_true fun ha => hf (hsole f hlt ha)
    · rw [eng_out_of_range s f (hs.engines ▸ Nat.le_of_not_lt hlt)]
      rfl
  eng := ⟨(s.eng e).sdaSeen, clearedAt_eng (hs.engines ▸ he)⟩
  entry := fun h => ((hasEntry_cancel _ _ _).mp h).1 rfl
  drive := congrArg Pin.drive (setPin_pin_self (clearedAt e s) _ _ hp)
  length := by
    rw [show (releasedAt e s).engines.length = s.engines.length from setEng_engines_length s e _, hs.engines]
    exact he

/-- `TwReset` of the one attached engine, pulling its data pin off the clock pin's node, in a calm block in order, leaves the
engine idle with nothing pending and SDA released: no START is seen, and a STOP changes nothing (R244, R247, R249). -/
theorem twReset_released {e : Nat} {s : State} (hs : InOrder s) (hc : Calm s) (he : e < s.cfg.numEngines)
    (hsole : ∀ f, f < s.cfg.numEngines → (s.eng f).attached = true → f = e) (ha : (s.eng e).attached = true)
    (hpull : (s.eng e).sdaDrive = true) (hd : (s.pin (s.eng e).sdaPin.toNat).drive = .digital .drivenLow)
    (hne : (s.eng e).sclPin ≠ (s.eng e).sdaPin)
    (hoff : (s.pin (s.eng e).sclPin.toNat).node = none ∨
      (s.pin (s.eng e).sclPin.toNat).node ≠ (s.pin (s.eng e).sdaPin.toNat).node) :
    ∃ t, twReset e s = .ok t ∧ Released e (s.eng e).sdaPin.toNat { (s.eng e).cleared with sdaDrive := false } t := by
  have hlen : e < s.engines.length := hs.shaped.engines ▸ he
  obtain ⟨-, hpin⟩ := hs.shaped.enginePins e ha
  have hplen : (s.eng e).sdaPin.toNat < s.pins.length := hs.shaped.pins ▸ hpin
  have hreset : twReset e s = resolve (jobOf (releasedAt e s) (s.eng e).sdaPin.toNat) (releasedAt e s) := by
    rw [twReset_eq hlen, if_pos (by rw [ha, hpull]; rfl)]
    exact if_neg fun hf => by cases hd.symm.trans hf
  have hshaped : Shaped (releasedAt e s) := (hs.shaped.clearedAt hlen).setPin _ _ (hs.shaped.nodeOf _)
  have hnode : ∀ q, ((releasedAt e s).pin q).node = (s.pin q).node := fun q => by
    obtain h | ⟨rfl, h⟩ := setPin_pin_cases (clearedAt e s) (s.eng e).sdaPin.toNat q
      { s.pin (s.eng e).sdaPin.toNat with drive := .digital .floating }
    · exact congrArg Pin.node h
    · exact (congrArg Pin.node h).trans rfl
  rw [hreset]
  refine (releasedAt_released hs.shaped he hsole hplen).resolve (Engine.cleared_isIdle _) rfl hshaped ?_ ?_ hpin ?_ ?_ ?_
  · exact hc.depth ▸ Nat.lt_of_le_of_lt (Nat.zero_le _) hc.room
  · exact hc.digital.setPin (s.eng e).sdaPin.toNat _ fun hf => by cases hf
  · exact fun h => hne (BitVec.eq_of_toNat_eq h.symm)
  · rw [hnode, hnode]
    exact hoff
  · intro n hn hlow
    rw [hnode] at hn
    have hresolved := hs.resolved.1 n (hs.shaped.nodeOf _ n hn)
    have hbefore : logic (digitalLevel s n) = some false := digitalLevel_release_low hplen hd hlow
    have hdriven : (s.pin (s.eng e).sdaPin.toNat).driven = digitalLevel s n := by
      rw [hresolved.driven _ hpin hn, hresolved.level, hc.digital n]
      rfl
    have hseen := (hs.latches e he ha).2 false (by rw [hdriven]; exact hbefore)
    exact (congrArg Engine.sdaSeen (clearedAt_eng hlen)).trans hseen

/-! ### Attaching -/

/-- `TwReset` of an engine that is idle and clear already changes nothing (R244). -/
theorem twReset_of_clear {e : Nat} {s : State} (he : e < s.engines.length) (hclear : (s.eng e).cleared = s.eng e)
    (hd : (s.eng e).sdaDrive = false) (hn : ¬ hasEntry s (.eng e)) : twReset e s = .ok s := by
  rw [twReset_eq he, hd, Bool.and_false, hclear, setEng_self, cancel_of_no_entry hn]
  rfl

/-- Attaching an engine is attaching it once it is reset. -/
theorem attachEngine_of_reset {e : Nat} {scl sda : Byte} {s u : State} (hs : twReset e s = .ok u) (hu : twReset e u = .ok u) :
    attachEngine e scl sda s = attachEngine e scl sda u := by
  unfold attachEngine
  rw [hs, hu]

theorem AttachedTo.withCp {s u : State} {e scl sda : Byte} (h : AttachedTo s u e scl sda) (cp : Nat) :
    AttachedTo s { u with cp := cp } e scl sda :=
  ⟨h.attached, h.sclPin, h.sdaPin, h.sdaDrive, h.sclSeen, h.sdaSeen, h.sclDir, h.sclOc, h.sclPu, h.sdaDir, h.sdaOc, h.sdaPu,
    h.drive, ⟨h.kept.configured, h.kept.cfgAddress, h.kept.cfgCsmask, h.kept.matched, h.kept.rw, h.kept.periph⟩, h.idle,
    h.engines, h.node, h.setup, h.drives, h.driving⟩

theorem attachEngine_completed {e scl sda : Byte} {s u : State} (hs : Shaped s) (he : e.toNat < s.cfg.numEngines)
    (hscl : scl.toNat < s.cfg.numPins) (hsda : sda.toNat < s.cfg.numPins) (hne : scl ≠ sda)
    (hu : attachEngine e.toNat scl sda s = .ok u) :
    Done s { u with cp := u.cp + 1 } ∧ AttachedTo s { u with cp := u.cp + 1 } e scl sda ∧
      (InOrder s → s.faultCode = 0 → InOrder { u with cp := u.cp + 1 }) := by
  obtain ⟨hout, hattached⟩ := attachEngine_to hs he hscl hsda hne hu
  obtain ⟨hdone, horder⟩ := (attachEngine_runs (B := AnyNode) hs trivial he hscl hsda).completed hu hout
  exact ⟨hdone, hattached.withCp _, horder⟩

/-- Attaching an engine that its reset has left released: it ends idle, and its old data pin stays released. -/
theorem attachEngine_released {e scl sda : Byte} {s t u : State} {g : Engine} {p : Nat} (hs : Shaped s)
    (he : e.toNat < s.cfg.numEngines) (hscl : scl.toNat < s.cfg.numPins) (hsda : sda.toNat < s.cfg.numPins) (hne : scl ≠ sda)
    (ht : twReset e.toNat s = .ok t) (hg : Released e.toNat p { g.cleared with sdaDrive := false } t)
    (hu : attachEngine e.toNat scl sda s = .ok u) :
    (u.eng e.toNat).state = .idle ∧ (u.eng e.toNat).bits = 0 ∧ (u.eng e.toNat).shift = 0 ∧ (u.eng e.toNat).ack = false ∧
      (u.eng e.toNat).pend = none ∧ ¬ hasEntry u (.eng e.toNat) ∧ (u.pin p).drive = .digital .floating := by
  obtain ⟨hreset, -⟩ := twReset_to hs he ht
  obtain ⟨b, hb⟩ := hg.eng
  have hcmds : CmdWs (InNodes s.cfg) AnyNode s t := by
    have h := twReset_cmd (B := AnyNode) e.toNat s hs.nodesIn
    rw [ht] at h
    exact h
  have hrest : twReset e.toNat t = .ok t := twReset_of_clear hg.length (by rw [hb]) (by rw [hb]) hg.entry
  rw [attachEngine_of_reset ht hrest] at hu
  rw [← hreset.cfg] at he hscl hsda
  obtain ⟨-, hattached⟩ := attachEngine_to (CmdWs.shaped hs hcmds) he hscl hsda hne hu
  obtain ⟨hstate, hbits, hshift, hack, hpend, hentry⟩ := hattached.idle (.inr (by rw [hb]))
  refine ⟨hstate, hbits, hshift, hack, hpend, hentry, ?_⟩
  by_cases hp : p = sda.toNat
  · rw [hp]
    exact hattached.drive
  · exact (hattached.drives p hp).elim (fun h => h.trans hg.drive) And.left

/-- Settles O49: one pin for both lines is refused; in a calm block attaching meets no fault; and an engine that its reset has
left released ends idle. -/
theorem twAttachCompletes : Obligations.TwAttachCompletes := by
  unfold Obligations.TwAttachCompletes
  refine ⟨fun e scl s he hscl => ?_, fun e scl sda s hs hc h0 he hscl hsda hne => ?_, fun e scl sda s t hs hne h hcp => ?_⟩
  · have hcheck : (engOk s e && pinOk s scl && pinOk s scl) = true := by
      simp only [engOk, pinOk, decide_eq_true he, decide_eq_true hscl, Bool.and_self]
    show commit (checked _ s _) = _
    rw [checked, if_pos hcheck, if_pos rfl]
    rfl
  · obtain ⟨u, hu, -⟩ := hc.attachEngine e.toNat scl sda
    have hcheck : (engOk s e && pinOk s scl && pinOk s sda) = true := by
      simp only [engOk, pinOk, decide_eq_true he, decide_eq_true hscl, decide_eq_true hsda, Bool.and_self]
    obtain ⟨hdone, hattached, horder⟩ := attachEngine_completed hs.shaped he hscl hsda hne hu
    refine ⟨_, commit_checked hcheck ((if_neg hne).trans hu), hdone, horder hs h0, hattached, ?_⟩
    intro hsole ha hpull hd hpins hoff
    obtain ⟨t, ht, hreleased⟩ := twReset_released hs hc he hsole ha hpull hd hpins hoff
    have hleft := attachEngine_released hs.shaped he hscl hsda hne ht hreleased hu
    exact hleft
  · obtain ⟨hcheck, u, hu, -, rfl⟩ := checked_ok (A := InNodes s.cfg) (B := AnyNode)
      (b := engOk s e && pinOk s scl && pinOk s sda)
      (f := fun s => if scl = sda then raise .pinConflict s else attachEngine e.toNat scl sda s) h hcp fun hb => by
        simp only [engOk, pinOk, Bool.and_eq_true, decide_eq_true_eq] at hb
        rw [if_neg hne]
        exact attachEngine_cmd hs trivial hb.1.1 hb.1.2 hb.2
    simp only [engOk, pinOk, Bool.and_eq_true, decide_eq_true_eq] at hcheck
    obtain ⟨⟨he, hscl⟩, hsda⟩ := hcheck
    exact attachEngine_completed hs he hscl hsda hne ((if_neg hne).symm.trans hu)

end Sys2Proof.Machine
end

section
/-! PROOF. A word's byte image, the byte that eight rises shift in, the index check every command begins with, and the reads. -/

namespace Sys2Proof

/-! ### The byte image of a word (R65) -/

/-- The four bytes of a word, put together again, are the word. -/
theorem wordOfBytes_extractLsb' (w : Word) :
    wordOfBytes (w.extractLsb' 0 8) (w.extractLsb' 8 8) (w.extractLsb' 16 8) (w.extractLsb' 24 8) = w := by
  unfold wordOfBytes
  rw [BitVec.extractLsb'_append_extractLsb'_eq_extractLsb' (show 24 = 16 + 8 from rfl),
    BitVec.extractLsb'_append_extractLsb'_eq_extractLsb' (show 16 = 8 + 8 from rfl),
    BitVec.extractLsb'_append_extractLsb'_eq_extractLsb' (show 8 = 0 + 8 from rfl)]
  exact BitVec.extractLsb'_eq_self

theorem decodeBytes_bytesOfWord (w : Word) (rest : List Byte) :
    decodeBytes (bytesOfWord w ++ rest) = (decode w).map fun i => (i, rest) := by
  simp only [bytesOfWord, List.cons_append, List.nil_append, decodeBytes, wordOfBytes_extractLsb']
  cases decode w <;> rfl

/-- Settles O6: each byte stands where the image lists it, and the bytes put together again are the word. -/
theorem byteImageLittleEndian : Obligations.ByteImageLittleEndian := by
  unfold Obligations.ByteImageLittleEndian
  refine ⟨fun w k hk => ?_, fun _ => rfl, decodeBytes_bytesOfWord⟩
  interval_cases k <;> rfl

end Sys2Proof

namespace Sys2Proof.Machine

/-! ### The byte shifted in (R258, R262) -/

theorem getLsbD_bitByte (b : Bool) (k : Nat) : (bitByte b).getLsbD k = (decide (k = 0) && b) := by
  cases b <;> simp [bitByte]

/-- One rise moves every bit up by one, the new bit into bit 0. -/
theorem getLsbD_shiftIn (v : Byte) (b : Bool) (k : Nat) :
    (shiftIn v b).getLsbD k = if k = 0 then b else decide (k < 8) && v.getLsbD (k - 1) := by
  rw [shiftIn, BitVec.getLsbD_or, BitVec.getLsbD_shiftLeft, getLsbD_bitByte]
  cases k <;> simp

/-- Settles O52: the bit shifted in when `k` more rises follow ends as bit `k`. -/
theorem eightRisesMakeTheByte : Obligations.EightRisesMakeTheByte := by
  unfold Obligations.EightRisesMakeTheByte
  intro v old
  refine BitVec.eq_of_getLsbD_eq fun k hk => ?_
  simp only [List.foldl, getLsbD_shiftIn]
  interval_cases k <;> rfl

/-! ### The check a command begins with (R61, R88) -/

/-- Whatever a command does comes after the check of its indices; `NOW` and `ADVANCE` have none, and their check always passes. -/
theorem exec_eq_checked (i : Instr) (s : State) : ∃ f, exec i s = commit (checked (i.wellFormed s.cfg) s f) := by
  cases i with
  | now => exact ⟨fun s => .ok (out s.cycle s), rfl⟩
  | advance imm16 =>
    exact ⟨fun s => if s.cycle.toNat + imm16.toNat > maxCycle then raise .cycleOverflow s
      else advanceTo (BitVec.ofNat 64 (s.cycle.toNat + imm16.toNat)) s, rfl⟩
  | _ => exact ⟨_, rfl⟩

/-- Settles O11: the check that fails raises `BAD_INDEX` in the state the command began in. -/
theorem badIndexRaisesBeforeAnyEffect : Obligations.BadIndexRaisesBeforeAnyEffect := by
  unfold Obligations.BadIndexRaisesBeforeAnyEffect
  intro i s hbad
  obtain ⟨f, hf⟩ := exec_eq_checked i s
  rw [hf, hbad]
  rfl

/-! ### The reads (R111, R162, R166) -/

/-- Settles O16: a read whose index is in its space completes with one value appended. -/
theorem readsReturnValues : Obligations.ReadsReturnValues := by
  unfold Obligations.ReadsReturnValues
  refine ⟨fun _ => rfl, fun p s hp => ?_, fun n s hn => ?_⟩
  · exact commit_checked (b := pinOk s p) (u := out (levelValue (s.pin p.toNat).driven) s) (decide_eq_true hp) rfl
  · exact commit_checked (b := nodeOk s n) (u := out (levelValue (s.node n.toNat).level) s) (decide_eq_true hn) rfl

end Sys2Proof.Machine
end

section
/-! PROOF. The opcode map, the decoder and the encoder (30_encoding.md), and the step on a word that decodes and on one that does
not. -/

namespace Sys2Proof

/-! ### A word and its fields (R82, R83) -/

/-- A word is its four bytes. -/
theorem word4_fields (w : Word) : word4 (w.extractLsb' 24 8) (fieldA w) (fieldB w) (fieldC w) = w :=
  wordOfBytes_extractLsb' w

/-- The lower two bytes of a word are its 16-bit operand. -/
theorem fieldB_append_fieldC (w : Word) : fieldB w ++ fieldC w = field16 w :=
  BitVec.extractLsb'_append_extractLsb'_eq_extractLsb' (show 8 = 0 + 8 from rfl)

theorem word16_fields (w : Word) : word16 (w.extractLsb' 24 8) (fieldA w) (field16 w) = w := by
  refine Eq.trans ?_ (word4_fields w)
  rw [word16, word4, ← fieldB_append_fieldC]
  exact (BitVec.append_assoc (x₃ := fieldC w)).symm

section
variable (op a b c : Byte) (x : BitVec 16)

@[simp] theorem opcode_word4 : (word4 op a b c).extractLsb' 24 8 = op :=
  (BitVec.extractLsb'_append_eq_of_le (show 8 ≤ 24 by decide)).trans
    ((BitVec.extractLsb'_append_eq_of_le (show 8 ≤ 16 by decide)).trans BitVec.extractLsb'_append_eq_left)

@[simp] theorem fieldA_word4 : fieldA (word4 op a b c) = a :=
  (BitVec.extractLsb'_append_eq_of_le (show 8 ≤ 16 by decide)).trans
    ((BitVec.extractLsb'_append_eq_of_le le_rfl).trans BitVec.extractLsb'_append_eq_right)

@[simp] theorem fieldB_word4 : fieldB (word4 op a b c) = b :=
  (BitVec.extractLsb'_append_eq_of_le le_rfl).trans BitVec.extractLsb'_append_eq_right

@[simp] theorem fieldC_word4 : fieldC (word4 op a b c) = c :=
  BitVec.extractLsb'_append_eq_right

@[simp] theorem fieldA_word16 : fieldA (word16 op a x) = a :=
  (BitVec.extractLsb'_append_eq_of_le le_rfl).trans BitVec.extractLsb'_append_eq_right

@[simp] theorem field16_word16 : field16 (word16 op a x) = x :=
  BitVec.extractLsb'_append_eq_right

end

/-! ### The code fields (R84, R85) -/

theorem Level.ofCode_eq_some {c : BitVec 3} {l : Level} : Level.ofCode c = some l ↔ l.code = c := by
  revert c
  cases l <;> decide

theorem Dir.ofCode_eq_some {c : BitVec 2} {d : Dir} : Dir.ofCode c = some d ↔ d.code = c := by
  revert c
  cases d <;> decide

/-- The level code is the lower three bits of the last byte (R83). -/
theorem levelBits_fieldC (w : Word) : w.extractLsb' 0 3 = (fieldC w).extractLsb' 0 3 :=
  (BitVec.extractLsb'_extractLsb'_of_le (show 0 + 3 ≤ 8 by decide)).symm

/-- The direction code is the lower two bits of the last byte (R83). -/
theorem dirBits_fieldC (w : Word) : w.extractLsb' 0 2 = (fieldC w).extractLsb' 0 2 :=
  (BitVec.extractLsb'_extractLsb'_of_le (show 0 + 2 ≤ 8 by decide)).symm

theorem getLsbD_fieldC (w : Word) {k : Nat} (h : k < 8) : w.getLsbD k = (fieldC w).getLsbD k := by
  simp [fieldC, h]

/-- A byte with bits 7 to 3 clear is its lower three bits. -/
theorem append_low3 {x : Byte} (h : x &&& 0xF8 = 0) : (0 : BitVec 5) ++ x.extractLsb' 0 3 = x := by
  have hhigh : x.extractLsb' 3 5 &&& BitVec.allOnes 5 = 0 :=
    BitVec.extractLsb'_and.symm.trans (congrArg (BitVec.extractLsb' 3 5) h)
  rw [← hhigh, BitVec.and_allOnes]
  exact (BitVec.extractLsb'_append_extractLsb'_eq_extractLsb' (show 3 = 0 + 3 from rfl)).trans BitVec.extractLsb'_eq_self

/-- A byte with bits 7 to 4 clear is its bits 3 and 2 and its lower two bits. -/
theorem append_bits_low2 {x : Byte} (h : x &&& 0xF0 = 0) :
    (0 : BitVec 4) ++ BitVec.ofBool (x.getLsbD 3) ++ BitVec.ofBool (x.getLsbD 2) ++ x.extractLsb' 0 2 = x := by
  have hhigh : x.extractLsb' 4 4 &&& BitVec.allOnes 4 = 0 :=
    BitVec.extractLsb'_and.symm.trans (congrArg (BitVec.extractLsb' 4 4) h)
  have hbit (k : Nat) : BitVec.ofBool (x.getLsbD k) = x.extractLsb' k 1 := by
    ext i hi
    simp [Nat.lt_one_iff.mp hi]
  rw [← hhigh, BitVec.and_allOnes, hbit, hbit,
    BitVec.extractLsb'_append_extractLsb'_eq_extractLsb' (show 4 = 3 + 1 from rfl),
    BitVec.extractLsb'_append_extractLsb'_eq_extractLsb' (show 3 = 2 + 1 from rfl)]
  exact (BitVec.extractLsb'_append_extractLsb'_eq_extractLsb' (show 2 = 0 + 2 from rfl)).trans BitVec.extractLsb'_eq_self

/-! ### The rows of the opcode map (R89, R90) -/

theorem Op.mem_all (o : Op) : o ∈ Op.all := by
  cases o <;> decide

theorem Op.ofCode_code (o : Op) : Op.ofCode o.code = some o := by
  cases o <;> rfl

theorem Op.code_injective : Function.Injective Op.code := fun o p h => by
  simpa only [Op.ofCode_code, Option.some.injEq] using congrArg Op.ofCode h

theorem Op.ofCode_eq_none {b : Byte} : Op.ofCode b = none ↔ ∀ o : Op, b ≠ o.code := by
  simp [Op.ofCode, Op.mem_all, eq_comm (a := b)]

theorem Op.opcode_rowMatch (o : Op) : o.rowMatch.extractLsb' 24 8 = o.code :=
  BitVec.extractLsb'_append_eq_left

/-- Words are equal exactly when they agree in bits 31 to 24 and in bits 23 to 0. -/
theorem eq_iff_opcode_and_operands {w v : Word} :
    w = v ↔ w &&& 0xFF000000 = v &&& 0xFF000000 ∧ w &&& 0x00FFFFFF = v &&& 0x00FFFFFF := by
  have hsplit (x : Word) : x = x &&& 0xFF000000 ||| x &&& 0x00FFFFFF := by
    rw [← BitVec.and_or_distrib_left]
    exact BitVec.and_allOnes.symm
  refine ⟨fun h => h ▸ ⟨rfl, rfl⟩, fun ⟨hop, hrest⟩ => ?_⟩
  rw [hsplit w, hsplit v, hop, hrest]

/-- Under the mask of bits 31 to 24 a word keeps its opcode alone. -/
theorem and_opcodeMask (w : Word) : w &&& 0xFF000000 = word4 (w.extractLsb' 24 8) 0 0 0 := by
  conv_lhs => rw [← word4_fields w]
  refine (Laws.RowMatch.and_append4 _ _ _ _ 0xFF 0 0 0).trans ?_
  simp only [BitVec.ofNat_eq_ofNat, BitVec.and_zero]
  exact congrArg (word4 · 0 0 0) BitVec.and_allOnes

theorem and_opcodeMask_eq_iff {w v : Word} :
    w &&& 0xFF000000 = v &&& 0xFF000000 ↔ w.extractLsb' 24 8 = v.extractLsb' 24 8 := by
  rw [and_opcodeMask, and_opcodeMask]
  exact ⟨fun h => by simpa only [opcode_word4] using congrArg (BitVec.extractLsb' 24 8) h, fun h => by rw [h]⟩

/-- A word is well-formed for a row exactly when it has the row's opcode and its reserved bits are zero (R89, R90). -/
theorem Op.and_mask_eq_iff {o : Op} {w : Word} :
    w &&& o.mask = o.rowMatch ↔ w.extractLsb' 24 8 = o.code ∧ w &&& o.reservedMask = 0 := by
  have hmask : o.mask &&& 0xFF000000 = 0xFF000000 := by cases o <;> rfl
  have hrow : o.rowMatch &&& 0x00FFFFFF = 0 := by cases o <;> rfl
  rw [eq_iff_opcode_and_operands, BitVec.and_assoc, hmask, and_opcodeMask_eq_iff, o.opcode_rowMatch, BitVec.and_assoc, hrow,
    Op.reservedMask]

/-- A row of R90 as its table has it: the command, `match` and `mask`. -/
def Op.row (o : Op) : Op × Word × Word :=
  (o, o.rowMatch, o.mask)

/-- A word spells a row exactly when it has the row's opcode (R90). -/
theorem Op.and_opcodeMask_eq_row_iff {o : Op} {w : Word} :
    w &&& 0xFF000000 = o.row.2.1 &&& 0xFF000000 ↔ w.extractLsb' 24 8 = o.code := by
  rw [and_opcodeMask_eq_iff, Op.row, o.opcode_rowMatch]

/-! ### The decoder (R88) -/

/-- A word with a row's opcode is read as that row's command, once its reserved bits are zero. -/
theorem decode_of_opcode {o : Op} {w : Word} (h : w.extractLsb' 24 8 = o.code) :
    decode w = if w &&& o.reservedMask ≠ 0 then .error .reservedField else decodeFields o w := by
  rw [decode, h, o.ofCode_code]

theorem decode_of_wellFormed {o : Op} {w : Word} (h : w &&& o.mask = o.rowMatch) : decode w = decodeFields o w := by
  obtain ⟨hop, hres⟩ := Op.and_mask_eq_iff.mp h
  rw [decode_of_opcode hop, if_neg (not_not.mpr hres)]

/-- Past the opcode and the reserved bits only a code field can fail. -/
theorem decodeFields_error {o : Op} {w : Word} {e : DecodeError} (h : decodeFields o w = .error e) : e = .badCode := by
  cases o with
  | pinDrive | pinConfig =>
    simp only [decodeFields] at h
    split at h <;> cases h
    rfl
  | _ => cases h

theorem decodeFields_op {o : Op} {w : Word} {i : Instr} (h : decodeFields o w = .ok i) : i.op = o := by
  cases o with
  | pinDrive | pinConfig =>
    simp only [decodeFields] at h
    split at h <;> cases h
    rfl
  | _ => cases h; rfl

/-- The opcode is no row's, or a reserved bit is set, or the word is well-formed for a row and its fields decide. -/
theorem decode_cases (w : Word) :
    ((∀ o : Op, w.extractLsb' 24 8 ≠ o.code) ∧ decode w = .error .illegalOpcode) ∨
    (∃ o : Op, w.extractLsb' 24 8 = o.code ∧ w &&& o.mask ≠ o.rowMatch ∧ decode w = .error .reservedField) ∨
    ∃ o : Op, w &&& o.mask = o.rowMatch ∧ decode w = decodeFields o w := by
  by_cases hop : ∃ o : Op, w.extractLsb' 24 8 = o.code
  · obtain ⟨o, ho⟩ := hop
    by_cases hres : w &&& o.reservedMask = 0
    · have hm : w &&& o.mask = o.rowMatch := Op.and_mask_eq_iff.mpr ⟨ho, hres⟩
      exact .inr (.inr ⟨o, hm, decode_of_wellFormed hm⟩)
    · refine .inr (.inl ⟨o, ho, fun hm => hres (Op.and_mask_eq_iff.mp hm).2, ?_⟩)
      rw [decode_of_opcode ho, if_pos hres]
  · have hnone : ∀ o : Op, w.extractLsb' 24 8 ≠ o.code := not_exists.mp hop
    refine .inl ⟨hnone, ?_⟩
    rw [decode, Op.ofCode_eq_none.mpr hnone]

theorem decode_eq_illegalOpcode_iff {w : Word} :
    decode w = .error .illegalOpcode ↔ ∀ o : Op, w.extractLsb' 24 8 ≠ o.code := by
  obtain ⟨hnone, hd⟩ | ⟨o, ho, -, hd⟩ | ⟨o, hm, hd⟩ := decode_cases w
  · exact iff_of_true hd hnone
  · exact iff_of_false (by rw [hd]; nofun) fun h => h o ho
  · refine iff_of_false (fun h => ?_) fun h => h o (Op.and_mask_eq_iff.mp hm).1
    cases decodeFields_error (hd.symm.trans h)

theorem decode_eq_reservedField_iff {o : Op} {w : Word} (h : w.extractLsb' 24 8 = o.code) :
    decode w = .error .reservedField ↔ w &&& o.mask ≠ o.rowMatch := by
  by_cases hres : w &&& o.reservedMask = 0
  · have hm : w &&& o.mask = o.rowMatch := Op.and_mask_eq_iff.mpr ⟨h, hres⟩
    refine iff_of_false (fun he => ?_) (not_not.mpr hm)
    cases decodeFields_error ((decode_of_wellFormed hm).symm.trans he)
  · exact iff_of_true (by rw [decode_of_opcode h, if_pos hres]) fun hm => hres (Op.and_mask_eq_iff.mp hm).2

/-- A word that decodes is well-formed for the row of its command, and its fields are that command's. -/
theorem decode_eq_ok {w : Word} {i : Instr} (h : decode w = .ok i) :
    w &&& i.op.mask = i.op.rowMatch ∧ decodeFields i.op w = .ok i := by
  obtain ⟨-, hd⟩ | ⟨-, -, -, hd⟩ | ⟨o, hm, hd⟩ := decode_cases w <;> rw [hd] at h
  · cases h
  · cases h
  · rw [decodeFields_op h]
    exact ⟨hm, h⟩

theorem decode_ne_truncated (w : Word) : decode w ≠ .error .truncated := by
  obtain ⟨-, hd⟩ | ⟨-, -, -, hd⟩ | ⟨o, -, hd⟩ := decode_cases w <;> rw [hd] <;> intro h
  · cases h
  · cases h
  · cases decodeFields_error h

/-! ### The encoder and back (R82, R83, R86) -/

/-- The word the encoder writes is well-formed for the command's row. -/
theorem encode_and_mask (i : Instr) : encode i &&& i.op.mask = i.op.rowMatch := by
  cases i with
  | now => exact Laws.RowMatch.now
  | advance imm16 => exact Laws.RowMatch.advance imm16
  | pinDrive p lvl => exact Laws.RowMatch.pinDrive p lvl
  | pinRead p => exact Laws.RowMatch.pinRead p
  | pinConfig p dir oc pu => exact Laws.RowMatch.pinConfig p dir oc pu
  | pinAnalog p mv => exact Laws.RowMatch.pinAnalog p mv
  | nodeAttach p n => exact Laws.RowMatch.nodeAttach p n
  | nodeDetach p => exact Laws.RowMatch.nodeDetach p
  | nodeRead n => exact Laws.RowMatch.nodeRead n
  | portWrite r v => exact Laws.RowMatch.portWrite r v
  | portRead r => exact Laws.RowMatch.portRead r
  | twConfigure e addr csmask => exact Laws.RowMatch.twConfigure e addr csmask
  | twAttach e scl sda => exact Laws.RowMatch.twAttach e scl sda
  | twReset e => exact Laws.RowMatch.twReset e
  | twStatus e => exact Laws.RowMatch.twStatus e

/-- The codes in the last byte of a `PIN_CONFIG` word (R83). -/
theorem configByte_codes (d : Dir) (oc pu : Bool) {x : Byte}
    (hx : x = (0 : BitVec 4) ++ BitVec.ofBool pu ++ BitVec.ofBool oc ++ d.code) :
    x.extractLsb' 0 2 = d.code ∧ x.getLsbD 2 = oc ∧ x.getLsbD 3 = pu := by
  subst hx
  cases d <;> cases oc <;> cases pu <;> decide

/-- Each field of the word the encoder writes holds the operand it stands for. -/
theorem decodeFields_encode (i : Instr) : decodeFields i.op (encode i) = .ok i := by
  cases i with
  | pinDrive p l =>
    have hcode : ((0 : BitVec 5) ++ l.code : Byte).extractLsb' 0 3 = l.code := BitVec.extractLsb'_append_eq_right
    simp only [Instr.op, decodeFields, encode, levelBits_fieldC, fieldA_word4, fieldC_word4, hcode, Level.ofCode_eq_some.mpr rfl]
  | pinConfig p d oc pu =>
    obtain ⟨hdir, hoc, hpu⟩ := configByte_codes d oc pu rfl
    simp only [Instr.op, decodeFields, encode, dirBits_fieldC, getLsbD_fieldC _ (show 2 < 8 by decide),
      getLsbD_fieldC _ (show 3 < 8 by decide), fieldA_word4, fieldC_word4, hdir, hoc, hpu, Dir.ofCode_eq_some.mpr rfl]
  | _ => simp [Instr.op, decodeFields, encode]

/-- Settles O1: the encoder's word is well-formed for the command's row, and each of its fields holds its operand. -/
theorem decodeInvertsEncode : Obligations.DecodeInvertsEncode := by
  unfold Obligations.DecodeInvertsEncode
  intro i
  rw [decode_of_wellFormed (encode_and_mask i), decodeFields_encode]

/-- The bits below the opcode that a row's mask names are zero in a word that is well-formed for the row. -/
theorem extractLsb'_and_mask {o : Op} {w : Word} (h : w &&& o.mask = o.rowMatch) {k n : Nat} (hk : k + n ≤ 24) :
    w.extractLsb' k n &&& o.mask.extractLsb' k n = 0 :=
  calc w.extractLsb' k n &&& o.mask.extractLsb' k n
    _ = (w &&& o.mask).extractLsb' k n := BitVec.extractLsb'_and.symm
    _ = o.rowMatch.extractLsb' k n := by rw [h]
    _ = (0 : BitVec 24).extractLsb' k n := BitVec.extractLsb'_append_eq_of_add_le hk
    _ = 0 := BitVec.extractLsb'_zero

theorem word4_eq_of_fields {w : Word} {op a b c : Byte} (hop : w.extractLsb' 24 8 = op) (ha : a = fieldA w) (hb : b = fieldB w)
    (hc : c = fieldC w) : word4 op a b c = w := by
  rw [← hop, ha, hb, hc, word4_fields]

theorem word16_eq_of_fields {w : Word} {op a : Byte} (hop : w.extractLsb' 24 8 = op) (ha : a = fieldA w) :
    word16 op a (field16 w) = w := by
  rw [← hop, ha, word16_fields]

/-- The encoder writes a well-formed word back from its fields: a byte of the word is an operand, or reserved and so zero. -/
theorem encode_of_decodeFields {o : Op} {w : Word} {i : Instr} (h : w &&& o.mask = o.rowMatch)
    (hd : decodeFields o w = .ok i) : encode i = w := by
  have hop : w.extractLsb' 24 8 = o.code := (Op.and_mask_eq_iff.mp h).1
  have reserved {k : Nat} (hk : k + 8 ≤ 24) (hm : o.mask.extractLsb' k 8 = 0xFF) : 0 = w.extractLsb' k 8 := by
    rw [← extractLsb'_and_mask h hk, hm]
    exact BitVec.and_allOnes
  have hA : fieldA o.mask = 0xFF → 0 = fieldA w := reserved (by decide)
  have hB : fieldB o.mask = 0xFF → 0 = fieldB w := reserved (by decide)
  have hC : fieldC o.mask = 0xFF → 0 = fieldC w := reserved (by decide)
  have hlow : fieldC w &&& fieldC o.mask = 0 := extractLsb'_and_mask h (by decide)
  cases o with
  | now => cases hd; exact word4_eq_of_fields hop (hA rfl) (hB rfl) (hC rfl)
  | advance => cases hd; exact word16_eq_of_fields hop (hA rfl)
  | pinAnalog => cases hd; exact word16_eq_of_fields hop rfl
  | pinDrive =>
    simp only [decodeFields] at hd
    split at hd
    next l hl =>
      cases hd
      refine word4_eq_of_fields hop rfl (hB rfl) ?_
      rw [Level.ofCode_eq_some.mp hl, levelBits_fieldC, append_low3 hlow]
    next => cases hd
  | pinConfig =>
    simp only [decodeFields] at hd
    split at hd
    next d hdir =>
      cases hd
      refine word4_eq_of_fields hop rfl (hB rfl) ?_
      rw [Dir.ofCode_eq_some.mp hdir, dirBits_fieldC, getLsbD_fieldC _ (show 2 < 8 by decide),
        getLsbD_fieldC _ (show 3 < 8 by decide), append_bits_low2 hlow]
    next => cases hd
  | nodeAttach => cases hd; exact word4_eq_of_fields hop rfl rfl (hC rfl)
  | portWrite => cases hd; exact word4_eq_of_fields hop rfl (hB rfl) rfl
  | twConfigure | twAttach => cases hd; exact word4_eq_of_fields hop rfl rfl rfl
  | _ => cases hd; exact word4_eq_of_fields hop rfl (hB rfl) (hC rfl)

/-- Settles O2: a word that decodes is well-formed for its command's row, and is written back from its fields. -/
theorem encodeInvertsDecode : Obligations.EncodeInvertsDecode := by
  unfold Obligations.EncodeInvertsDecode
  intro w i h
  obtain ⟨hm, hd⟩ := decode_eq_ok h
  exact encode_of_decodeFields hm hd

/-- Settles O5: the decoder evaluated on the nine words. -/
theorem sampleWordsDecode : Obligations.SampleWordsDecode := by
  unfold Obligations.SampleWordsDecode
  decide

end Sys2Proof

namespace Sys2Proof.Machine

/-! ### The step on a word that decodes and on one that does not (R88) -/

theorem step_of_decode_ok {s : State} {w : Word} {i : Instr} (h0 : s.faultCode = 0) (hw : fetch s = some w)
    (hd : decode w = .ok i) : step s = exec i s := by
  simp [step, h0, hw, hd]

theorem step_of_decode_error {s : State} {w : Word} {d : DecodeError} (h0 : s.faultCode = 0) (hw : fetch s = some w)
    (hd : decode w = .error d) : step s = .next (faulted (faultOfDecode d) s) := by
  simp only [step, h0, hw, hd, ne_eq, not_true_eq_false, if_false]
  rfl

/-- The word a fault records is the one fetched. -/
theorem wordAtCp_of_fetch {s : State} {w : Word} (hw : fetch s = some w) : wordAtCp s = w := by
  rw [wordAtCp, List.getD_eq_getElem?_getD, show s.stream[s.cp]? = some w from hw, Option.getD_some]

/-- Settles O7: `step` adds nothing around `exec`. -/
theorem stepRunsDecodedCommand : Obligations.StepRunsDecodedCommand := by
  unfold Obligations.StepRunsDecodedCommand
  exact fun _ _ _ => step_of_decode_ok

/-- Settles O8: the fault record of the decode error, whose word is the one fetched; a word of 32 bits is never truncated. -/
theorem decodeFaultHasNoOtherEffect : Obligations.DecodeFaultHasNoOtherEffect := by
  unfold Obligations.DecodeFaultHasNoOtherEffect
  intro s w d h0 hw hd
  have hcut : d ≠ .truncated := fun h => decode_ne_truncated w (h ▸ hd)
  refine ⟨?_, hcut⟩
  rw [step_of_decode_error h0 hw hd, faulted, wordAtCp_of_fetch hw]
  cases d with
  | truncated => exact absurd rfl hcut
  | illegalOpcode | reservedField | badCode => rfl

/-! ### The opcode map and the code fields as the spec's tables have them (R84, R85, R90) -/

/-- Settles O3: the fifteen rows are those of the model's commands, and each clause is about the opcode and the reserved bits. -/
theorem opcodeMapRows : Obligations.OpcodeMapRows := by
  unfold Obligations.OpcodeMapRows
  intro rows hrows
  have hmap : rows = Op.all.map Op.row := hrows.trans (by decide)
  have hnone (w : Word) : (∀ r ∈ rows, w &&& 0xFF000000 ≠ r.2.1 &&& 0xFF000000) ↔ decode w = .error .illegalOpcode := by
    simp only [hmap, List.forall_mem_map, Op.mem_all, forall_const, ne_eq, Op.and_opcodeMask_eq_row_iff,
      decode_eq_illegalOpcode_iff]
  refine ⟨fun w => (hnone w).symm, fun r hr w hw => ?_, fun s w h0 hfetch hw => ?_⟩
  · rw [hmap] at hr
    obtain ⟨o, -, rfl⟩ := List.mem_map.mp hr
    have hop : w.extractLsb' 24 8 = o.code := Op.and_opcodeMask_eq_row_iff.mp hw
    refine ⟨decode_eq_reservedField_iff hop, fun i hi => ?_⟩
    obtain ⟨hm, -⟩ := decode_eq_ok hi
    exact Op.code_injective ((Op.and_mask_eq_iff.mp hm).1.symm.trans hop)
  · exact step_of_decode_error h0 hfetch ((hnone w).mp hw)

/-- The lower bits of a word under a mask of ones are those bits as a number. -/
theorem toNat_and_low (w : Word) {m : Word} {n : Nat} (hm : m.toNat = 2 ^ n - 1) :
    (w &&& m).toNat = (w.extractLsb' 0 n).toNat := by
  rw [BitVec.toNat_and, hm, Nat.and_two_pow_sub_one_eq_mod, BitVec.extractLsb'_toNat, Nat.shiftRight_zero]

/-- Settles O4: a word of either format is well-formed for its row, and its code is looked up number by number. -/
theorem codeFieldValues : Obligations.CodeFieldValues := by
  unfold Obligations.CodeFieldValues
  refine ⟨fun w h => ?_, fun w h => ?_, fun s w => step_of_decode_error, rfl, rfl, rfl, rfl, rfl, rfl⟩
  · rw [decode_of_wellFormed (o := .pinDrive) h, toNat_and_low w (n := 3) rfl, decodeFields, Level.ofCode]
    rcases (w.extractLsb' 0 3).toNat with _ | _ | _ | _ | _ | _ | _ <;> rfl
  · rw [decode_of_wellFormed (o := .pinConfig) h, toNat_and_low w (n := 2) rfl, decodeFields, Dir.ofCode]
    rcases (w.extractLsb' 0 2).toNat with _ | _ | _ | _ <;> rfl

end Sys2Proof.Machine
end

section
/-! PROOF. The time base: what `schedule` and `cancel` leave, which entry fires next, and what firing it runs. -/

namespace Sys2Proof.Machine

/-! ### Scheduling (R114, R115) -/

/-- An entry is its owner, its due cycle as a number, and its sequence number. -/
theorem Entry.eq_mk_iff {o : Owner} {due seq : Nat} (hi : due ≤ maxCycle) (x : Entry) :
    x = ⟨o, BitVec.ofNat 64 due, seq⟩ ↔ x.owner = o ∧ x.due.toNat = due ∧ x.seq = seq := by
  have hdue : x.due = BitVec.ofNat 64 due ↔ x.due.toNat = due := by
    rw [← BitVec.toNat_inj, toNat_ofNat_due hi]
  rw [← hdue]
  cases x
  simp

theorem mem_cancel {o : Owner} {s : State} {x : Entry} : x ∈ (cancel o s).pending ↔ x ∈ s.pending ∧ x.owner ≠ o := by
  simp [cancel]

theorem mem_scheduled {o : Owner} {due : Nat} {s : State} (hi : due ≤ maxCycle) (x : Entry) :
    x ∈ (scheduled o due s).pending ↔
      (x ∈ s.pending ∧ x.owner ≠ o) ∨ (x.owner = o ∧ x.due.toNat = due ∧ x.seq = s.nextSeq) := by
  rw [scheduled, List.mem_append, List.mem_singleton, mem_cancel, Entry.eq_mk_iff hi]

theorem schedule_past {o : Owner} {due : Nat} {s : State} (h : due ≤ s.cycle.toNat) :
    schedule o due s = .halt (faulted .schedPast s) :=
  if_pos h

/-- What follows a `schedule` runs in the state it leaves when it raises nothing. -/
theorem schedule_andThen {o : Owner} {due : Nat} {s : State} {f g : State → Res}
    (h : f (scheduled o due s) = g (scheduled o due s)) : (schedule o due s).andThen f = (schedule o due s).andThen g := by
  unfold schedule
  split
  · rfl
  · split
    · rfl
    · exact h

/-- Settles O25: `schedule_past` and the two branches of `schedule_later`; `cancel` is a filter. -/
theorem scheduleReplacesCancelRemoves : Obligations.ScheduleReplacesCancelRemoves := by
  unfold Obligations.ScheduleReplacesCancelRemoves
  refine ⟨fun o due s => ⟨schedule_past, fun hlo hhi => ?_, fun hlo hhi => ?_⟩, fun o s => ⟨fun _ => mem_cancel, rfl⟩⟩
  · rw [schedule_later o due s hlo]
    exact if_neg (Nat.not_le_of_lt hhi)
  · refine ⟨scheduled o due s, ?_, mem_scheduled hhi, rfl, rfl⟩
    rw [schedule_later o due s hlo]
    exact if_pos hhi

/-! ### What fires next (R112, R118) -/

theorem PendingBase.seq_ne {s : State} (h : PendingBase s) {x y : Entry} (hx : x ∈ s.pending) (hy : y ∈ s.pending)
    (hne : x ≠ y) : x.seq ≠ y.seq := by
  have hnodup : (s.pending.map Entry.seq).Nodup := List.pairwise_map.mpr (h.seqs.imp Nat.ne_of_lt)
  exact fun hseq => hne (List.inj_on_of_nodup_map hnodup hx hy hseq)

/-- Settles O22: `nextDue` picks a least pair, and no two entries share a sequence number. -/
theorem nextDueIsLeast : Obligations.NextDueIsLeast := by
  unfold Obligations.NextDueIsLeast
  intro s target x hs
  constructor
  · intro hx
    obtain ⟨hmem, hdue, hleast⟩ := nextDue_some hx
    refine ⟨hmem, hdue, fun y hy hne => ?_⟩
    have hseq := hs.seq_ne hy hmem hne
    have := hleast y hy
    omega
  · rintro ⟨hmem, hdue, hleast⟩
    cases hnext : nextDue target s with
    | none => exact absurd (nextDue_none hnext x hmem) (Nat.not_lt.mpr hdue)
    | some y =>
      obtain ⟨hy, -, hfirst⟩ := nextDue_some hnext
      by_contra hne
      have hxy := hleast y hy fun h => hne (h ▸ rfl)
      have := hfirst x hmem
      omega

theorem nextDue_eq_none {target : Cycle} {s : State} (h : ∀ x ∈ s.pending, target.toNat < x.due.toNat) :
    nextDue target s = none := by
  cases hx : nextDue target s with
  | none => rfl
  | some x =>
    obtain ⟨hmem, hdue, -⟩ := nextDue_some hx
    exact absurd (h x hmem) (Nat.not_lt_of_le hdue)

/-! ### The loop of `AdvanceTo`, without its fuel (R118) -/

theorem advanceLoop_none {target : Cycle} {s : State} (h : nextDue target s = none) (fuel : Nat) :
    advanceLoop target fuel s = .ok { s with cycle := target } := by
  cases fuel with
  | zero => rfl
  | succ fuel => simp [advanceLoop, h]

theorem advanceLoop_some {target : Cycle} {s : State} {x : Entry} (h : nextDue target s = some x) (fuel : Nat) :
    advanceLoop target (fuel + 1) s = (fire x s).andThen (advanceLoop target fuel) := by
  simp [advanceLoop, h]

/-- Any fuel above what is left to fire gives the same run. -/
theorem advanceLoop_fuel {target : Cycle} {s : State} (hs : Ready s) {f g : Nat} (hf : toFire target s < f)
    (hg : toFire target s < g) : advanceLoop target f s = advanceLoop target g s := by
  induction f generalizing s g with
  | zero => omega
  | succ f ih =>
    obtain ⟨g, rfl⟩ : ∃ k, g = k + 1 := ⟨g - 1, by omega⟩
    cases hx : nextDue target s with
    | none => rw [advanceLoop_none hx, advanceLoop_none hx]
    | some x =>
      rw [advanceLoop_some hx, advanceLoop_some hx]
      cases ht : fire x s with
      | halt t => rfl
      | ok t =>
        obtain ⟨hready, -⟩ := hs.fired hx ht
        have := toFire_lt hs hx ht
        exact ih hready (by omega) (by omega)

theorem advanceTo_none {target : Cycle} {s : State} (h : nextDue target s = none) :
    advanceTo target s = .ok { s with cycle := target } :=
  advanceLoop_none h _

theorem advanceTo_some {target : Cycle} {s : State} {x : Entry} (hs : Ready s) (h : nextDue target s = some x) :
    advanceTo target s = (fire x s).andThen (advanceTo target) := by
  refine (advanceLoop_some h _).trans ?_
  cases ht : fire x s with
  | halt t => rfl
  | ok t =>
    obtain ⟨hready, -⟩ := hs.fired h ht
    have hlt := toFire_lt hs h ht
    have hfuel := toFire_lt_fuel target s
    unfold advanceFuel at hfuel
    exact advanceLoop_fuel hready (by omega) (toFire_lt_fuel target t)

/-! ### The callbacks of an engine and of a node (R195, R250) -/

section
variable {e n : Nat} {s : State}

theorem engCallback_none (h : (s.eng e).pend = none) :
    engCallback e s = .ok (s.setEng e { s.eng e with pend := none }) := by
  simp only [engCallback, h]

theorem engCallback_some {edge : Edge} (h : (s.eng e).pend = some edge) :
    engCallback e s = edgeRow e edge (s.eng e).sdaSeen (s.setEng e { s.eng e with pend := none }) := by
  simp only [engCallback, h]

/-- The cycles to the next settle step of a node whose voltage is now `v` (R195, R197). -/
def settleStep (s : State) (n : Nat) (v : Num) : Nat :=
  stepCycles s.cfg v (s.node n).vt ((s.node n).zth * (s.node n).cth) (s.cycle.toNat - (s.node n).t0.toNat)

theorem settleUpdate_near (h : |voltageAt s n s.cycle - (s.node n).vt| ≤ s.cfg.settleEps) :
    settleUpdate n s = .ok (settleNode n (s.node n).vt (s.setNode n { s.node n with voltage := voltageAt s n s.cycle })) :=
  if_pos (decide_eq_true h)

theorem settleUpdate_far (h : s.cfg.settleEps < |voltageAt s n s.cycle - (s.node n).vt|) :
    settleUpdate n s = schedule (.node n) (s.cycle.toNat + settleStep s n (voltageAt s n s.cycle))
      (s.setNode n { s.node n with voltage := voltageAt s n s.cycle }) :=
  if_neg fun hnear => not_le_of_gt h (of_decide_eq_true hnear)

/-- A node near its target settles there: its callback goes, and the target's level is published. -/
theorem runJobVia_settle_near (res : Job → State → Res) (hn : n < s.nodes.length)
    (h : |voltageAt s n s.cycle - (s.node n).vt| ≤ s.cfg.settleEps) :
    runJobVia res (.settle n) s = publishVia res n (levelOf s.cfg (s.node n).vt)
      (cancel (.node n) (s.setNode n { s.node n with voltage := (s.node n).vt, settling := false })) := by
  change (settleUpdate n s).andThen _ = _
  rw [settleUpdate_near h, settleNode_setNode, setNode_node_self _ _ _ hn, andThen_ok, cancel_node, setNode_node_self _ _ _ hn]
  rfl

/-- A node away from it has its voltage written and its callback scheduled again, and its voltage's level is published. -/
theorem runJobVia_settle_far (res : Job → State → Res) (hn : n < s.nodes.length)
    (h : s.cfg.settleEps < |voltageAt s n s.cycle - (s.node n).vt|) :
    runJobVia res (.settle n) s =
      (schedule (.node n) (s.cycle.toNat + settleStep s n (voltageAt s n s.cycle))
        (s.setNode n { s.node n with voltage := voltageAt s n s.cycle })).andThen
          (publishVia res n (levelOf s.cfg (voltageAt s n s.cycle))) := by
  change (settleUpdate n s).andThen _ = _
  rw [settleUpdate_far h]
  refine schedule_andThen ?_
  have hv : (scheduled (.node n) (s.cycle.toNat + settleStep s n (voltageAt s n s.cycle))
      (s.setNode n { s.node n with voltage := voltageAt s n s.cycle })).node n =
        { s.node n with voltage := voltageAt s n s.cycle } := setNode_node_self _ _ _ hn
  rw [hv]
  rfl

end

/-- Before the horizon the next settle step is at most what is left of it (R197). -/
theorem stepCycles_le {c : Config} {v vt tau : Num} {k : Nat} (h : k < horizon c tau) :
    stepCycles c v vt tau k ≤ max 1 (horizon c tau - k) :=
  (if_pos h).trans_le (min_le_right _ _)

/-- Settles O21: the loop with enough fuel is the loop without any; the callbacks by the branches of their definitions. -/
theorem advanceFiresOneAtATime : Obligations.AdvanceFiresOneAtATime := by
  unfold Obligations.AdvanceFiresOneAtATime
  refine ⟨fun s target hs => ?_, ?_, ?_, fun s due seq => ⟨fun e => rfl, fun n => rfl⟩⟩
  · cases h : nextDue target s with
    | none => exact advanceTo_none h
    | some x => exact advanceTo_some hs h
  · rintro e s u rfl
    exact ⟨engCallback_none, fun edge => engCallback_some⟩
  · rintro n s x v step res hs hn rfl rfl rfl
    have hn' : n < s.nodes.length := hs.nodes ▸ hn
    exact ⟨runJobVia_settle_near res hn', runJobVia_settle_far res hn', one_le_stepCycles _ _ _ _ _, stepCycles_le⟩

end Sys2Proof.Machine
end

section
/-! PROOF. `ADVANCE`: its check, where it ends, where it completes, and the faults commands can raise. -/

namespace Sys2Proof.Machine

/-! ### The check of `ADVANCE` and its run (R117) -/

section
variable {imm : BitVec 16} {s : State}

theorem exec_advance_overflow (h : maxCycle < s.cycle.toNat + imm.toNat) :
    exec (.advance imm) s = .next (faulted .cycleOverflow s) :=
  congrArg commit (if_pos h)

theorem exec_advance_inRange (h : s.cycle.toNat + imm.toNat ≤ maxCycle) :
    exec (.advance imm) s = commit (advanceTo (BitVec.ofNat 64 (s.cycle.toNat + imm.toNat)) s) :=
  congrArg commit (if_neg (Nat.not_lt_of_le h))

end

/-- Settles O20: the check comes first, and with nothing due the loop ends at once. -/
theorem advanceOverflowsOrMovesTheCounter : Obligations.AdvanceOverflowsOrMovesTheCounter := by
  unfold Obligations.AdvanceOverflowsOrMovesTheCounter
  refine fun imm s => ⟨exec_advance_overflow, fun hle hlater => ?_⟩
  rw [← toNat_ofNat_due hle] at hlater
  rw [exec_advance_inRange hle, advanceTo_none (nextDue_eq_none hlater)]
  rfl

/-- A firing that faults writes the record at the entry's due cycle, and `cp` stays (R300). -/
theorem Ready.fire_halt_record {target : Cycle} {s t : State} {x : Entry} (hs : Ready s) (hx : nextDue target s = some x)
    (ht : fire x s = .halt t) : t.faultCode ≠ 0 ∧ t.cp = s.cp ∧ t.cycle = x.due ∧ t.faultCycle = x.due := by
  obtain ⟨u, hu, hut, -⟩ := hs.fire_halt hx ht
  obtain ⟨-, -, bcycle, -, bcp, -⟩ := beginFiring_fields x s
  obtain ⟨-, -, ucycle, -, ucp, -⟩ := Acts.globals hu
  obtain ⟨-, -, tcycle, -, tcp, -, -, -, tat, -⟩ := hut.fields
  have hdue : u.cycle = x.due := ucycle.trans bcycle
  exact ⟨hut.faulted, tcp.trans (ucp.trans bcp), tcycle.trans hdue, tat.trans hdue⟩

/-- Settles O23: the two ends of `advanceTo_fires`. -/
theorem advanceReachesTarget : Obligations.AdvanceReachesTarget := by
  unfold Obligations.AdvanceReachesTarget
  intro imm s t hs h0 hle h
  have hready := hs.ready h0
  have htarget := toNat_ofNat_due hle
  rw [exec_advance_inRange hle] at h
  obtain ⟨u, hu, hr, hn, hok⟩ | ⟨u, x, v, hu, hr, hn, hv, hhalt⟩ :=
    advanceTo_fires (BitVec.ofNat 64 (s.cycle.toNat + imm.toNat)) hready
  · rw [hok] at h
    cases h
    obtain ⟨-, -, -, -, hcp, -⟩ := fires_globals hready hu
    refine ⟨fun _ => ⟨htarget, congrArg (· + 1) hcp, fun x hx => ?_⟩, fun hf => absurd hr.running hf⟩
    rw [← htarget]
    exact nextDue_none hn x hx
  · rw [hhalt] at h
    cases h
    obtain ⟨hf, hcp, hcycle, hat⟩ := hr.fire_halt_record hn hv
    obtain ⟨-, -, -, -, ucp, -, -, hstart, -⟩ := fires_globals hready hu
    obtain ⟨hmem, hdue, -⟩ := nextDue_some hn
    have hlate := hr.pending.notPast hr.running x hmem
    refine ⟨fun hf' => absurd hf' hf, fun _ => ⟨hcp.trans ucp, hat.trans hcycle.symm, ?_, ?_⟩⟩
    · rw [hcycle]; omega
    · rw [hcycle]; omega

/-! ### Where `ADVANCE` completes -/

/-- A command of a running block in order that meets no fault leaves the block in order. -/
theorem exec_inOrder {i : Instr} {s t : State} (hs : InOrder s) (h0 : s.faultCode = 0) (h : exec i s = .next t)
    (hf : t.faultCode = 0) : InOrder t := by
  have hready := hs.ready h0
  have hgood := exec_allGood hready hs.allGood h hf
  obtain ⟨hpending, hshaped⟩ := exec_pendingOk hs.shaped hs.pending h0 h
  exact ⟨hshaped, hpending, hgood.resolved, hgood.settleSync, hgood.portsSynced, hgood.latchesSynced,
    fun _ => exec_edgesHeld hready (hs.edges h0) h hf, exec_depth_zero hready hs.depth h⟩

/-- Settles O24: in a calm block no firing faults (`Calm.advanceTo`). -/
theorem advanceCompletesWhenCalm : Obligations.AdvanceCompletesWhenCalm := by
  unfold Obligations.AdvanceCompletesWhenCalm
  intro imm s hs hc h0 hlt
  have hle : s.cycle.toNat + imm.toNat ≤ maxCycle := Nat.le_of_succ_le hlt
  have htarget := toNat_ofNat_due hle
  obtain ⟨u, hok, hu, hr, -⟩ := hc.advanceTo (hs.ready h0) hs.allGood _ (htarget.symm ▸ hlt)
  have hexec := (exec_advance_inRange hle).trans (congrArg commit hok)
  obtain ⟨-, hcfg, hstream, hout, hcp, hword, hat, -⟩ := fires_globals (hs.ready h0) hu
  exact ⟨_, hexec, htarget, congrArg (· + 1) hcp, ⟨hr.running.trans h0.symm, hword, hat⟩, ⟨hcfg, hstream, hout⟩,
    exec_inOrder hs h0 hexec hr.running⟩

/-! ### The faults that can arise (R114, R304) -/

/-- A command other than `ADVANCE` completes or raises one of four faults: none schedules in the past. -/
theorem exec_cmd_faultCode {i : Instr} {s t : State} (hs : Ready s) (hi : ∀ imm, i ≠ .advance imm) (h : exec i s = .next t) :
    t.faultCode = 0 ∨ ∃ c, c ≠ FaultCode.schedPast ∧ t.faultCode = c.code := by
  obtain ⟨r, hr, hends⟩ := exec_cmd i s hs.shaped hi
  rw [hr] at h
  obtain hc | rfl | rfl := hends
  · cases r with
    | ok u =>
      cases h
      obtain ⟨-, -, -, -, hcode, -⟩ := CmdWs.globals hc
      exact .inl (hcode.trans hs.running)
    | halt u =>
      cases h
      obtain ⟨v, -, hv⟩ := hc
      obtain ⟨-, -, -, -, -, -, -, -, -, -, -, hcode | hcode⟩ := hv.fields
      · exact .inr ⟨.notifyDepth, by decide, hcode⟩
      · exact .inr ⟨.cycleOverflow, by decide, hcode⟩
  · cases h; exact .inr ⟨.badIndex, by decide, rfl⟩
  · cases h; exact .inr ⟨.pinConflict, by decide, rfl⟩

/-- `ADVANCE` completes, or stops on `CYCLE_OVERFLOW` or `NOTIFY_DEPTH`. -/
theorem exec_advance_faultCode {imm : BitVec 16} {s t : State} (hs : Ready s) (h : exec (.advance imm) s = .next t) :
    t.faultCode = 0 ∨ t.faultCode = 6 ∨ t.faultCode = 7 := by
  obtain rfl | ⟨target, u, -, -, hr, ⟨-, rfl⟩ | ⟨x, v, -, -, ht⟩⟩ := exec_advance_ends hs h
  · exact .inr (.inl rfl)
  · exact .inl hr.running
  · obtain ⟨-, -, -, -, -, -, -, -, -, -, -, hcode⟩ := ht.fields
    exact .inr hcode.symm

/-- Settles O13: the faults of a cascade, of the index and pin checks, and of `ADVANCE`. -/
theorem faultsThatCanArise : Obligations.FaultsThatCanArise := by
  unfold Obligations.FaultsThatCanArise
  intro i s t hs h
  obtain hi | ⟨imm, rfl⟩ := advance_or_not i
  · refine ⟨?_, fun imm himm => absurd himm (hi imm)⟩
    obtain h0 | ⟨c, hc, hcode⟩ := exec_cmd_faultCode hs hi h
    · rw [h0]; decide
    · rw [hcode]
      cases c with
      | schedPast => exact absurd rfl hc
      | _ => decide
  · have hcode := exec_advance_faultCode hs h
    refine ⟨?_, fun _ _ => hcode⟩
    obtain hcode | hcode | hcode := hcode <;> rw [hcode] <;> decide

end Sys2Proof.Machine
end

section
/-! PROOF. What every step keeps of the levels, the engines' bus states and the callbacks of engines that are not attached. -/

namespace Sys2Proof.Machine

/-! ### Levels -/

/-- Settles O30: a resolution that completes puts its node or pin in order and leaves the rest so, whatever it starts on the way
(`resolveJob_puts`), and every command and callback resolves what it has changed (`exec_allGood`). -/
theorem stepKeepsEveryLevelResolved : Obligations.StepKeepsEveryLevelResolved := by
  unfold Obligations.StepKeepsEveryLevelResolved
  intro s t hs h hf
  have hgood : AllGood t := step_allGood hs h hf
  exact ⟨hgood.resolved, hgood.settleSync⟩

/-! ### Bus states -/

theorem StatesEntered.of_same {s t : State} (h : StatesEntered s) (he : ∀ e, (t.eng e).state = (s.eng e).state) :
    StatesEntered t := fun e => by
  rw [he]
  exact h e

theorem StatesEntered.begin {s : State} (h : StatesEntered s) (x : Entry) : StatesEntered (beginFiring x s) :=
  h.of_same fun e => by
    obtain he | he := beginFiring_eng x s e <;> rw [he]

theorem edgeLatch_state (e : Nat) (b : Bool) (s : State) (f : Nat) : ((edgeLatch e b s).eng f).state = (s.eng f).state := by
  unfold edgeLatch
  obtain hf | ⟨rfl, hf⟩ := setEng_eng_cases s e f { s.eng e with sclSeen := b, pend := some (if b then .rise else .fall) } <;>
    rw [hf]

theorem StatesEntered.write {s t : State} (h : StatesEntered s) (hw : StepW s t) : StatesEntered t := by
  cases hw with
  | cmd hw => exact h.cmd hw
  | act hw => exact h.act hw
  | begin x _ => exact h.begin x

theorem StatesEntered.ends {u t : State} (h : StatesEntered u) (ht : Ends u t) : StatesEntered t := by
  cases ht with
  | edgeFault e b => exact h.of_same (edgeLatch_state e b u)
  | _ => exact h

/-! ### Engines that are not attached -/

theorem NoStray.cmds {A B : Nat → Prop} {f : Nat} {s t : State} (h : NoStray f s) (hf : ¬ B f) (hc : CmdWs A B s t) :
    NoStray f t :=
  CmdWs.keeps (fun _ _ hw hp => hp.cmd hf hw) hc h

theorem NoStray.fires {target : Cycle} {f : Nat} {s t : State} (hs : Ready s) (h : NoStray f s)
    (hf : Relation.ReflTransGen (Fires target) s t) : NoStray f t :=
  fires_keep (fun _ _ x hr hx hxt hp =>
    Acts.keeps (fun _ _ hc hq => hq.act hc) (hr.fire_acts hx hxt) (hp.begin x)) hs hf h

/-- A command whose check fails is refused; any other is its body. -/
theorem checked_cases {b : Bool} {f : State → Res} {s t : State} (h : commit (checked b s f) = .next t) :
    t = faulted .badIndex s ∨ (b = true ∧ commit (f s) = .next t) := by
  cases b with
  | false => cases h; exact .inl rfl
  | true => exact .inr ⟨rfl, h⟩

/-- A command that ends without a fault met none in its body. -/
theorem Runs.running {B : Nat → Prop} {s t : State} {r : Res} (h : Runs B s r) (ht : commit r = .next t) (hf : t.faultCode = 0) :
    ∃ u, r = .ok u ∧ t = { u with cp := u.cp + 1 } := by
  cases r with
  | ok u => cases ht; exact ⟨u, rfl, rfl⟩
  | halt u =>
    cases ht
    obtain ⟨v, -, hv⟩ | ⟨c, hc⟩ := h.ends
    · exact absurd hf hv.faulted
    · cases hc; exact absurd hf (faulted_ne_zero c s)

/-- An engine is attached after the `TW_ATTACH` that names it. -/
theorem exec_twAttach_attached {e scl sda : Byte} {s t : State} (hs : Shaped s) (h : exec (.twAttach e scl sda) s = .next t)
    (hf : t.faultCode = 0) : (t.eng e.toNat).attached = true := by
  obtain rfl | ⟨hcheck, h⟩ := checked_cases h
  · exact absurd hf (faulted_ne_zero .badIndex s)
  simp only [engOk, pinOk, Bool.and_eq_true, decide_eq_true_eq] at hcheck
  obtain ⟨⟨he, hscl⟩, hsda⟩ := hcheck
  split at h
  · cases h
    exact absurd hf (faulted_ne_zero .pinConflict s)
  · obtain ⟨u, hu, rfl⟩ := (attachEngine_runs (B := AnyNode) hs trivial he hscl hsda).running h hf
    have hattached := attachEngine_attached hs he hu
    exact hattached

theorem exec_noStray {i : Instr} {f : Nat} {s t : State} (hs : Ready s) (hn : NoStray f s) (h : exec i s = .next t)
    (hf : t.faultCode = 0) : NoStray f t := by
  by_cases ha : attaches i f
  · cases i with
    | twAttach e scl sda =>
      obtain rfl : f = e.toNat := ha
      exact fun hat => absurd (exec_twAttach_attached hs.shaped h hf) (by rw [hat]; decide)
    | _ => exact ha.elim
  obtain hi | ⟨imm, rfl⟩ := advance_or_not i
  · obtain ⟨u, hu, rfl | ht | ⟨c, rfl⟩⟩ := exec_cmd_ends hs.shaped hi h
    · exact (hn.cmds ha hu).of_same rfl rfl
    · exact absurd hf ht.faulted
    · exact absurd hf (faulted_ne_zero c u)
  · obtain rfl | ⟨target, u, -, hu, -, ⟨-, rfl⟩ | ⟨x, v, -, -, ht⟩⟩ := exec_advance_ends hs h
    · exact absurd hf (faulted_ne_zero _ s)
    · exact (hn.fires hs hu).of_same rfl rfl
    · exact absurd hf ht.faulted

/-- Settles O35: no write of a step moves an engine to either state; only a notification schedules an edge, of an attached engine,
and `TW_ATTACH` ends with its engine attached. -/
theorem stepNeverEntersStartOrWritePending : Obligations.StepNeverEntersStartOrWritePending := by
  unfold Obligations.StepNeverEntersStartOrWritePending
  refine ⟨fun s t hs hst h => ?_, fun s t hs hn h hf e he => ?_⟩
  · obtain ⟨u, hu, hend⟩ := step_ends hs h
    exact (hu.keeps (fun _ _ hw hp => hp.write hw) hst).ends hend
  · obtain ⟨-, ⟨i, hi⟩ | ⟨c, rfl⟩⟩ := step_cases h
    · have hcfg : t.cfg = s.cfg := by
        obtain ⟨u, hu, hend⟩ := exec_ends hs hi
        exact hend.completes_or_faults.1.trans hu.globals.1
      exact exec_noStray hs (hn e (hcfg ▸ he)) hi hf
    · exact absurd hf (faulted_ne_zero c s)

end Sys2Proof.Machine
end

section
/-! PROOF. The digital resolution table, commands that change nothing, and what the commands on pins and nodes leave wherever they
complete. -/

namespace Sys2Proof.Machine

/-! ### The digital resolution table (R147) -/

section
variable {c : List Level} {pu : Bool}

theorem resolveDigital_contended (hh : .drivenHigh ∈ c) (hl : .drivenLow ∈ c) : resolveDigital c pu = (.unknown, true) :=
  if_pos ⟨hh, hl⟩

theorem resolveDigital_unknown (hn : ¬ (.drivenHigh ∈ c ∧ .drivenLow ∈ c)) (hu : .unknown ∈ c) :
    resolveDigital c pu = (.unknown, false) :=
  (if_neg hn).trans (if_pos hu)

theorem resolveDigital_high (hu : .unknown ∉ c) (hh : .drivenHigh ∈ c) (hl : .drivenLow ∉ c) :
    resolveDigital c pu = (.drivenHigh, false) := by
  rw [resolveDigital, if_neg fun h => hl h.2, if_neg hu, if_pos hh]

theorem resolveDigital_low (hu : .unknown ∉ c) (hl : .drivenLow ∈ c) (hh : .drivenHigh ∉ c) :
    resolveDigital c pu = (.drivenLow, false) := by
  rw [resolveDigital, if_neg fun h => hh h.1, if_neg hu, if_neg hh, if_pos hl]

/-- With no strong level and no `Unknown` the weak levels decide, a pull-up among them. -/
theorem resolveDigital_weak (hu : .unknown ∉ c) (hh : .drivenHigh ∉ c) (hl : .drivenLow ∉ c) : resolveDigital c pu =
    if (.weakHigh ∈ c ∨ pu = true) ∧ .weakLow ∈ c then (.unknown, false)
    else if .weakHigh ∈ c ∨ pu = true then (.weakHigh, false)
    else if .weakLow ∈ c then (.weakLow, false) else (.floating, false) := by
  rw [resolveDigital, if_neg fun h => hh h.1, if_neg hu, if_neg hh, if_neg hl]

theorem no_weakHigh (hw : .weakHigh ∉ c) (hpu : pu = false) : ¬ (.weakHigh ∈ c ∨ pu = true) := by
  rw [hpu]
  exact fun h => h.elim hw Bool.false_ne_true

end

theorem resolveDigital_congr {c d : List Level} (pu : Bool) (h : ∀ l, l ∈ c ↔ l ∈ d) :
    resolveDigital c pu = resolveDigital d pu := by
  simp only [resolveDigital, h]

/-- Settles O27: each line is a branch of the table, and its guards ask for members of the list alone. -/
theorem resolutionTable : Obligations.ResolutionTable := by
  unfold Obligations.ResolutionTable
  refine ⟨fun c pu => ⟨resolveDigital_contended, resolveDigital_unknown, resolveDigital_high, resolveDigital_low,
    fun hu hh hl => ?_⟩, fun c d pu => resolveDigital_congr pu⟩
  rw [resolveDigital_weak hu hh hl]
  refine ⟨fun hw hl => if_pos ⟨hw, hl⟩, fun hw hl => ?_, fun hw hpu hl => ?_, fun hw hpu hl => ?_⟩
  · rw [if_neg fun h => hl h.2, if_pos hw]
  · rw [if_neg fun h => no_weakHigh hw hpu h.1, if_neg (no_weakHigh hw hpu), if_pos hl]
  · rw [if_neg fun h => no_weakHigh hw hpu h.1, if_neg (no_weakHigh hw hpu), if_neg hl]

/-! ### Unchanged inputs (R154) -/

section
variable {p : Nat} {s : State}

theorem setDriving_same {d : Drive} (h : (s.pin p).drive = d) : setDriving p d s = .ok s :=
  if_pos h

theorem configurePin_same {dir : Dir} {oc pu : Bool} (hdir : (s.pin p).dir = dir) (hoc : (s.pin p).oc = oc)
    (hpu : (s.pin p).pu = pu) : configurePin p dir oc pu s = .ok s :=
  if_pos ⟨hdir, hoc, hpu⟩

theorem attachPin_same {n : Nat} (h : (s.pin p).node = some n) : attachPin p n s = .ok s :=
  if_pos h

theorem detachPin_alone (h : (s.pin p).node = none) : detachPin p s = .ok s := by
  rw [detachPin, h]

end

/-- Settles O39: each body answers the state it began in. -/
theorem unchangedInputsDoNothing : Obligations.UnchangedInputsDoNothing := by
  unfold Obligations.UnchangedInputsDoNothing
  intro s p hp
  have hpin : pinOk s p = true := decide_eq_true hp
  refine ⟨fun l h => commit_checked hpin (setDriving_same h), fun mv h => commit_checked hpin (setDriving_same h),
    fun d oc pu hd hoc hpu => commit_checked hpin (configurePin_same hd hoc hpu), fun n hn h => ?_,
    fun h => commit_checked hpin (detachPin_alone h)⟩
  have hcheck : (pinOk s p && nodeOk s n) = true := Bool.and_eq_true_iff.mpr ⟨hpin, decide_eq_true hn⟩
  exact commit_checked hcheck (attachPin_same h)

/-! ### `PIN_CONFIG` in a calm block -/

/-- Settles O41: in a calm block configuring a pin meets no fault. -/
theorem pinConfigCompletes : Obligations.PinConfigCompletes := by
  unfold Obligations.PinConfigCompletes
  intro p d oc pu s hs hc h0 hp
  obtain ⟨u, hu, -⟩ := hc.configurePin p.toNat d oc pu
  obtain ⟨hbeside, hnode, hdir, hoc, hpu, hdrive⟩ := configurePin_to (hs.shaped.pins ▸ hp) hu
  obtain ⟨hdone, horder⟩ := (configurePin_runs (B := AnyNode) hs.shaped _ _ _ _).completed hu hbeside.outLog
  exact ⟨_, commit_checked (b := pinOk s p) (decide_eq_true hp) hu, hdone, horder hs h0, hdir, hoc, hpu, hnode, hdrive,
    hbeside.rest.withCp _⟩

/-! ### The frame of a command on one pin, in any state -/

/-- A cascade leaves every pin as a change of that pin leaves another. -/
theorem Cascs.beside {s t : State} (h : Cascs AnyNode s t) (p : Nat) :
    Beside s t p ∧ SamePinSetup s t p ∧ DriveKeptOrReleased s t p := by
  obtain ⟨hcfg, -, -, hout, -⟩ := h.globals
  obtain ⟨hpins, -, -, hengs⟩ := h.lengths
  exact ⟨⟨hcfg, hpins, hengs, hout, fun q _ => h.pin_fixed q, fun q _ => h.drive q, h.driving,
    fun e => (Cascs.eng_fixed h e).2⟩, h.pin_fixed p, h.drive p⟩

theorem setPin_out_of_range {s : State} {p : Nat} (hp : ¬ p < s.pins.length) (x : Pin) : s.setPin p x = s := by
  unfold State.setPin
  rw [List.set_eq_of_length_le (Nat.le_of_not_lt hp)]

section
variable {p : Nat} {s t : State}

theorem setDriving_frame {d : Drive} (h : setDriving p d s = .ok t) : Beside s t p ∧ SamePinSetup s t p := by
  by_cases hp : p < s.pins.length
  · obtain ⟨hbeside, hsetup, -⟩ := setDriving_to hp h
    exact ⟨hbeside, hsetup⟩
  · obtain ⟨rfl, -⟩ | hc := setDriving_ok h
    · exact ⟨.refl _ _, rfl, rfl, rfl, rfl⟩
    · rw [setPin_out_of_range hp] at hc
      obtain ⟨hbeside, hsetup, -⟩ := hc.beside p
      exact ⟨hbeside, hsetup⟩

theorem configurePin_frame {dir : Dir} {oc pu : Bool} (h : configurePin p dir oc pu s = .ok t) :
    Beside s t p ∧ (t.pin p).node = (s.pin p).node ∧ DriveKeptOrReleased s t p := by
  by_cases hp : p < s.pins.length
  · obtain ⟨hbeside, hnode, -, -, -, hdrive⟩ := configurePin_to hp h
    exact ⟨hbeside, hnode, hdrive⟩
  · obtain ⟨rfl, -⟩ | hc := configurePin_ok h
    · exact ⟨.refl _ _, rfl, .inl rfl⟩
    · rw [setPin_out_of_range hp] at hc
      obtain ⟨hbeside, ⟨hnode, -⟩, hdrive⟩ := hc.beside p
      exact ⟨hbeside, hnode, hdrive⟩

/-- Of the pin itself attaching and detaching leave everything but its node. -/
structure NodeMoved (s t : State) (p : Nat) : Prop where
  beside : Beside s t p
  dir : (t.pin p).dir = (s.pin p).dir
  oc : (t.pin p).oc = (s.pin p).oc
  pu : (t.pin p).pu = (s.pin p).pu
  drive : DriveKeptOrReleased s t p

theorem NodeMoved.refl (s : State) (p : Nat) : NodeMoved s s p := ⟨.refl s p, rfl, rfl, rfl, .inl rfl⟩

theorem NodeMoved.withCp {s u : State} {p : Nat} (h : NodeMoved s u p) (cp : Nat) : NodeMoved s { u with cp := cp } p :=
  ⟨⟨h.beside.cfg, h.beside.pins, h.beside.engs, h.beside.outLog, h.beside.rest.withCp cp⟩, h.dir, h.oc, h.pu, h.drive⟩

theorem resolve_ok {j : Job} {s t : State} (h : resolve j s = .ok t) : Cascs AnyNode s t :=
  (resolve_casc j s (nodesIn_any s) (jobIn_any j)).ok h

theorem attachPin_frame {n : Nat} (h : attachPin p n s = .ok t) : NodeMoved s t p := by
  by_cases hp : p < s.pins.length
  · obtain ⟨hbeside, -, hdir, hoc, hpu, hdrive⟩ := attachPin_to hp h
    exact ⟨hbeside, hdir, hoc, hpu, hdrive⟩
  · have hnode : (s.pin p).node = none := by rw [pin_out_of_range s p (Nat.le_of_not_lt hp)]; rfl
    unfold attachPin at h
    rw [setPin_out_of_range hp, hnode] at h
    obtain ⟨hbeside, ⟨-, hdir, hoc, hpu⟩, hdrive⟩ := (resolve_ok h).beside p
    exact ⟨hbeside, hdir, hoc, hpu, hdrive⟩

theorem detachPin_frame (h : detachPin p s = .ok t) : NodeMoved s t p := by
  by_cases hp : p < s.pins.length
  · obtain ⟨hbeside, -, hdir, hoc, hpu, hdrive⟩ := detachPin_to hp h
    exact ⟨hbeside, hdir, hoc, hpu, hdrive⟩
  · have hnode : (s.pin p).node = none := by rw [pin_out_of_range s p (Nat.le_of_not_lt hp)]; rfl
    rw [detachPin_alone hnode] at h
    cases h
    exact .refl s p

end

/-! ### Where a command on one pin completes -/

/-- A command that completes passed its checks, its body went on, and it is done. -/
theorem checked_done {b : Bool} {f : State → Res} {s t : State} (h : commit (checked b s f) = .next t) (hcp : t.cp = s.cp + 1)
    (hf : CmdRes AnyNode AnyNode s (f s)) (hd : DepthIs s.depth (f s)) (ho : ∀ u, f s = .ok u → u.outLog = s.outLog) :
    b = true ∧ ∃ u, f s = .ok u ∧ t = { u with cp := u.cp + 1 } ∧ Done s t := by
  obtain ⟨hb, u, hu, hw, rfl⟩ := checked_ok h hcp fun _ => hf
  exact ⟨hb, u, hu, rfl, hw.done (ho u hu) (hd u hu)⟩

/-- What `PIN_DRIVE` and `PIN_ANALOG` leave where they complete. -/
structure DriveFrame (s t : State) (p : Nat) (d : Drive) : Prop where
  done : Done s t
  rest : RestKept s t p
  setup : SamePinSetup s t p
  driven : Shaped s → DrivenTo s t p d
  order : InOrder s → s.faultCode = 0 → InOrder t

theorem setDriving_completed {p : Byte} {d : Drive} {s t : State}
    (h : commit (checked (pinOk s p) s (setDriving p.toNat d)) = .next t) (hcp : t.cp = s.cp + 1) :
    DriveFrame s t p.toNat d := by
  obtain ⟨hp, u, hu, rfl, hdone⟩ := checked_done h hcp (setDriving_cmd _ _ s (nodesIn_any s)) (setDriving_depth _ _ s)
    fun u hu => (setDriving_frame hu).1.outLog
  obtain ⟨hbeside, hsetup⟩ := setDriving_frame hu
  refine ⟨hdone, hbeside.rest.withCp _, hsetup, fun hs => ?_, fun hs h0 => ?_⟩
  · obtain ⟨-, -, hdriven⟩ := setDriving_to (hs.pins ▸ of_decide_eq_true hp) hu
    exact hdriven
  · exact ((setDriving_runs (B := AnyNode) hs.shaped _ _).completed hu hbeside.outLog).2 hs h0

/-- What `PIN_CONFIG` leaves where it completes. -/
structure ConfigFrame (s t : State) (p : Nat) (dir : Dir) (oc pu : Bool) : Prop where
  done : Done s t
  rest : RestKept s t p
  node : (t.pin p).node = (s.pin p).node
  drive : DriveKeptOrReleased s t p
  fields : Shaped s → (t.pin p).dir = dir ∧ (t.pin p).oc = oc ∧ (t.pin p).pu = pu
  order : InOrder s → s.faultCode = 0 → InOrder t

theorem pinConfig_completed {p : Byte} {dir : Dir} {oc pu : Bool} {s t : State} (h : exec (.pinConfig p dir oc pu) s = .next t)
    (hcp : t.cp = s.cp + 1) : ConfigFrame s t p.toNat dir oc pu := by
  obtain ⟨hp, u, hu, rfl, hdone⟩ := checked_done (b := pinOk s p) (f := configurePin p.toNat dir oc pu) h hcp
    (configurePin_cmd _ _ _ _ s (nodesIn_any s)) (configurePin_depth _ _ _ _ s) fun u hu => (configurePin_frame hu).1.outLog
  obtain ⟨hbeside, hnode, hdrive⟩ := configurePin_frame hu
  refine ⟨hdone, hbeside.rest.withCp _, hnode, hdrive, fun hs => ?_, fun hs h0 => ?_⟩
  · obtain ⟨-, -, hdir, hoc, hpu, -⟩ := configurePin_to (hs.pins ▸ of_decide_eq_true hp) hu
    exact ⟨hdir, hoc, hpu⟩
  · exact ((configurePin_runs (B := AnyNode) hs.shaped _ _ _ _).completed hu hbeside.outLog).2 hs h0

/-- Settles O57: the pin's own write, and after it a cascade, which touches of other pins only released data pins. -/
theorem frameOfPinCommands : Obligations.FrameOfPinCommands := by
  unfold Obligations.FrameOfPinCommands
  rintro p i s t (⟨l, rfl⟩ | ⟨mv, rfl⟩ | ⟨d, oc, pu, rfl⟩) h hcp
  · obtain ⟨hdone, hrest, hsetup, hdriven, horder⟩ := setDriving_completed (d := .digital l) h hcp
    refine ⟨hdone, hrest, hsetup.1, fun _ => hsetup, nofun, fun hs => ⟨?_, nofun, nofun⟩, horder⟩
    rintro _ ⟨⟩
    exact hdriven hs
  · obtain ⟨hdone, hrest, hsetup, hdriven, horder⟩ := setDriving_completed (d := .analog mv) h hcp
    refine ⟨hdone, hrest, hsetup.1, fun _ => hsetup, nofun, fun hs => ⟨nofun, ?_, nofun⟩, horder⟩
    rintro _ ⟨⟩
    exact hdriven hs
  · obtain ⟨hdone, hrest, hnode, hdrive, hfields, horder⟩ := pinConfig_completed h hcp
    refine ⟨hdone, hrest, hnode, nofun, fun _ => hdrive, fun hs => ⟨nofun, nofun, ?_⟩, horder⟩
    rintro _ _ _ ⟨⟩
    exact hfields hs

/-- The node an analog-driving pin stands on is in analog mode (R36). -/
theorem analogMode_of_member {s : State} {p n : Nat} (hm : p ∈ members s n) (ha : (s.pin p).drive.isAnalog = true) :
    analogMode s n = true :=
  List.any_eq_true.mpr ⟨p, hm, ha⟩

/-- A pin is a member of the node it is on and of no other (R35). -/
theorem mem_members_of_node {s : State} {p n : Nat} (hp : p < s.cfg.numPins) (hn : (s.pin p).node = some n) (m : Nat) :
    p ∈ members s m ↔ m = n := by
  rw [mem_members, hn, Option.some.injEq]
  exact ⟨fun h => h.2.symm, fun h => ⟨hp, h.symm⟩⟩

theorem nodeAttach_completed {p n : Byte} {s t : State} (h : exec (.nodeAttach p n) s = .next t) (hcp : t.cp = s.cp + 1) :
    Done s t ∧ NodeMoved s t p.toNat ∧ (Shaped s → (t.pin p.toNat).node = some n.toNat ∧ p.toNat < s.cfg.numPins) ∧
      (InOrder s → s.faultCode = 0 → InOrder t) := by
  obtain ⟨hcheck, u, hu, rfl, hdone⟩ := checked_done (b := pinOk s p && nodeOk s n) (f := attachPin p.toNat n.toNat) h hcp
    (attachPin_cmd _ _ s (nodesIn_any s) trivial) (attachPin_depth _ _ s) fun u hu => (attachPin_frame hu).beside.outLog
  simp only [pinOk, nodeOk, Bool.and_eq_true, decide_eq_true_eq] at hcheck
  obtain ⟨hp, hn⟩ := hcheck
  have hmoved := attachPin_frame hu
  refine ⟨hdone, hmoved.withCp _, fun hs => ?_, fun hs h0 => ?_⟩
  · obtain ⟨-, hnode, -⟩ := attachPin_to (hs.pins ▸ hp) hu
    exact ⟨hnode, hp⟩
  · exact ((attachPin_runs (B := AnyNode) hs.shaped hp hn).completed hu hmoved.beside.outLog).2 hs h0

theorem nodeDetach_completed {p : Byte} {s t : State} (h : exec (.nodeDetach p) s = .next t) (hcp : t.cp = s.cp + 1) :
    Done s t ∧ NodeMoved s t p.toNat ∧ (Shaped s → (t.pin p.toNat).node = none) ∧
      (InOrder s → s.faultCode = 0 → InOrder t) := by
  obtain ⟨hcheck, u, hu, rfl, hdone⟩ := checked_done (b := pinOk s p) (f := detachPin p.toNat) h hcp
    (detachPin_cmd _ s (nodesIn_any s)) (detachPin_depth _ s) fun u hu => (detachPin_frame hu).beside.outLog
  have hp : p.toNat < s.cfg.numPins := of_decide_eq_true hcheck
  have hmoved := detachPin_frame hu
  refine ⟨hdone, hmoved.withCp _, fun hs => ?_, fun hs h0 => ?_⟩
  · obtain ⟨-, hnode, -⟩ := detachPin_to (hs.pins ▸ hp) hu
    exact hnode
  · exact ((detachPin_runs (B := AnyNode) hs.shaped hp).completed hu hmoved.beside.outLog).2 hs h0

/-- Settles O58: the pin's node written, and after it the cascades of one or two resolutions, which move no pin. -/
theorem frameOfAttachAndDetach : Obligations.FrameOfAttachAndDetach := by
  unfold Obligations.FrameOfAttachAndDetach
  rintro p i s t (⟨n, rfl⟩ | rfl) h hcp
  · obtain ⟨hdone, hmoved, hnode, horder⟩ := nodeAttach_completed h hcp
    refine ⟨hdone, hmoved.beside.rest, hmoved.dir, hmoved.oc, hmoved.pu, hmoved.drive, fun hs => ⟨?_, nofun⟩, horder⟩
    rintro _ ⟨⟩
    obtain ⟨hon, hp⟩ := hnode hs
    have hmem := mem_members_of_node (s := t) (hmoved.beside.cfg ▸ hp) hon
    refine ⟨hon, hmem, fun ha hsda => analogMode_of_member ((hmem _).mpr rfl) ?_⟩
    obtain hkept | ⟨-, hreleased⟩ := hmoved.drive
    · rw [hkept]
      exact ha
    · exact absurd hreleased hsda
  · obtain ⟨hdone, hmoved, hnode, horder⟩ := nodeDetach_completed h hcp
    refine ⟨hdone, hmoved.beside.rest, hmoved.dir, hmoved.oc, hmoved.pu, hmoved.drive, fun hs => ⟨nofun, fun _ => ?_⟩, horder⟩
    refine ⟨hnode hs, fun m hm => ?_⟩
    have hon := (mem_members.mp hm).2
    rw [hnode hs] at hon
    cases hon

end Sys2Proof.Machine
end

section
/-! PROOF. What a publication, a notification and the two line handlers of an engine do. -/

namespace Sys2Proof.Machine

/-! ### What a publication and a notification begin with (R150, R152) -/

/-- The writes of a publication touch pins and nodes alone. -/
theorem publishWrites_only (n : Nat) (l : Level) (s : State) : { publishWrites n l s with pins := s.pins, nodes := s.nodes } = s :=
  congrArg (fun u : State => { u with nodes := s.nodes }) (publishWrites_rest n l s).1

section
variable (res : Job → State → Res) {p e : Nat} {s : State}

theorem notifyEngineVia_unattached (h : (s.eng e).attached = false) : notifyEngineVia res p e s = .ok s :=
  if_neg (by rw [h]; exact Bool.false_ne_true)

/-- The clock handler comes before the data handler. -/
theorem notifyEngineVia_attached (h : (s.eng e).attached = true) : notifyEngineVia res p e s =
    (if p = (s.eng e).sclPin.toNat then onScl e s else .ok s).andThen fun u =>
      if p = (u.eng e).sdaPin.toNat then onSdaVia res e u else .ok u :=
  if_pos h

end

/-! ### The line handlers (R246, R247, R254) -/

section
variable (res : Job → State → Res) {e : Nat} {s : State}

theorem onScl_float (h : logic (s.pin (s.eng e).sclPin.toNat).driven = none) : onScl e s = .ok (diag .lineFloat e 0 s) := by
  simp only [onScl, h]

theorem onScl_same (h : logic (s.pin (s.eng e).sclPin.toNat).driven = some (s.eng e).sclSeen) : onScl e s = .ok s := by
  simp only [onScl, h, if_pos]

theorem onScl_change {b : Bool} (h : logic (s.pin (s.eng e).sclPin.toNat).driven = some b) (hb : b ≠ (s.eng e).sclSeen) :
    onScl e s = schedule (.eng e) (s.cycle.toNat + 1) (edgeLatch e b s) := by
  simp only [onScl, h, if_neg hb]
  rfl

theorem onSdaVia_float (h : logic (s.pin (s.eng e).sdaPin.toNat).driven = none) :
    onSdaVia res e s = .ok (diag .lineFloat e 1 s) := by
  simp only [onSdaVia, h]

theorem onSdaVia_same (h : logic (s.pin (s.eng e).sdaPin.toNat).driven = some (s.eng e).sdaSeen) : onSdaVia res e s = .ok s := by
  simp only [onSdaVia, h, if_pos]

theorem onSdaVia_low {b : Bool} (he : e < s.engines.length) (h : logic (s.pin (s.eng e).sdaPin.toNat).driven = some b)
    (hb : b ≠ (s.eng e).sdaSeen) (hscl : (s.eng e).sclSeen = false) :
    onSdaVia res e s = .ok (s.setEng e { s.eng e with sdaSeen := b }) := by
  simp only [onSdaVia, h, if_neg hb, setEng_eng_self _ _ _ he, hscl, Bool.false_eq_true, if_false]

theorem onSdaVia_high {b : Bool} (he : e < s.engines.length) (h : logic (s.pin (s.eng e).sdaPin.toNat).driven = some b)
    (hb : b ≠ (s.eng e).sdaSeen) (hscl : (s.eng e).sclSeen = true) :
    onSdaVia res e s = if b then stopVia res e (s.setEng e { s.eng e with sdaSeen := b })
      else startVia res e (s.setEng e { s.eng e with sdaSeen := b }) := by
  simp only [onSdaVia, h, if_neg hb, setEng_eng_self _ _ _ he, hscl, if_true]

end

/-! ### A START and a STOP (R248, R249) -/

theorem setEng_setEng (s : State) (e : Nat) (x y : Engine) : (s.setEng e x).setEng e y = s.setEng e y := by
  simp only [State.setEng, List.set_set]

/-- The engine as a START or a STOP leaves it: no edge waiting, its bit count 0, SDA released; in `RxAddress` with its shift
register cleared, or in `Idle`. -/
def Engine.afterBus (g : Engine) (stop : Bool) : Engine :=
  if stop then { g with pend := none, state := .idle, bits := 0, sdaDrive := false }
  else { g with pend := none, state := .rxAddress, bits := 0, shift := 0, sdaDrive := false }

/-- The state in which a START or a STOP releases the data pin. -/
def busEvent (e : Nat) (stop : Bool) (s : State) : State :=
  (cancel (.eng e) s).setEng e ((s.eng e).afterBus stop)

section
variable (res : Job → State → Res) {e : Nat} {s : State}

/-- A STOP or a START writes the engine and then releases its data pin. -/
theorem busVia_eq (he : e < s.engines.length) (stop : Bool) : (if stop then stopVia res e s else startVia res e s) =
    setDrivingVia res (s.eng e).sdaPin.toNat (.digital .floating) (busEvent e stop s) := by
  have hread : ∀ x, ((cancel (.eng e) s).setEng e x).eng e = x := fun x => setEng_eng_self _ _ x he
  cases stop with
  | true =>
    simp only [if_true, stopVia, driveSdaVia, dropEdge, setEng_setEng, cancel_eng, hread]
    rfl
  | false =>
    simp only [Bool.false_eq_true, if_false, startVia, driveSdaVia, dropEdge, setEng_setEng, cancel_eng, hread]
    rfl

/-- A change of the data line with the clock seen high is latched and is the event at once. -/
theorem onSdaVia_event {b : Bool} (he : e < s.engines.length) (h : logic (s.pin (s.eng e).sdaPin.toNat).driven = some b)
    (hb : b ≠ (s.eng e).sdaSeen) (hscl : (s.eng e).sclSeen = true) : onSdaVia res e s =
      setDrivingVia res (s.eng e).sdaPin.toNat (.digital .floating)
        (busEvent e b (s.setEng e { s.eng e with sdaSeen := b })) := by
  have he' : e < (s.setEng e { s.eng e with sdaSeen := b }).engines.length := by rwa [setEng_engines_length]
  rw [onSdaVia_high res he h hb hscl, busVia_eq res he', setEng_eng_self _ _ _ he]

theorem jobOf_setPin {p : Nat} {x : Pin} (hx : x.node = (s.pin p).node) : jobOf (s.setPin p x) p = jobOf s p := by
  unfold jobOf
  obtain hp | ⟨-, hp⟩ := setPin_pin_cases s p p x <;> rw [hp]
  rw [hx]

/-- A pin's new driving state is written before its node, or the pin, is resolved (R160). -/
theorem setDrivingVia_new {p : Nat} {d : Drive} (h : (s.pin p).drive ≠ d) :
    setDrivingVia res p d s = res (jobOf s p) (s.setPin p { s.pin p with drive := d }) := by
  rw [setDrivingVia, if_neg h]
  exact congrArg (fun j => res j _) (jobOf_setPin rfl)

end

/-! ### Which handlers a notification runs (R152, R253) -/

theorem andThen_return (r : Res) : r.andThen .ok = r := by
  cases r <;> rfl

theorem andThen_congr {r : Res} {f g : State → Res} (h : ∀ u, r = .ok u → f u = g u) : r.andThen f = r.andThen g := by
  cases r with
  | ok u => exact h u rfl
  | halt u => rfl

theorem edgeLatch_sdaPin (e : Nat) (b : Bool) (s : State) : ((edgeLatch e b s).eng e).sdaPin = (s.eng e).sdaPin := by
  unfold edgeLatch
  obtain h | ⟨-, h⟩ := setEng_eng_cases s e e { s.eng e with sclSeen := b, pend := some (if b then .rise else .fall) } <;> rw [h]

/-- The clock handler keeps the engine's data pin. -/
theorem onScl_sdaPin {e : Nat} {s u : State} (h : onScl e s = .ok u) : (u.eng e).sdaPin = (s.eng e).sdaPin := by
  cases hb : logic (s.pin (s.eng e).sclPin.toNat).driven with
  | none =>
    rw [onScl_float hb] at h
    cases h
    rfl
  | some b =>
    by_cases hsame : b = (s.eng e).sclSeen
    · rw [onScl_same (hsame ▸ hb)] at h
      cases h
      rfl
    · rw [onScl_change hb hsame, schedule_later _ _ (edgeLatch e b s) (Nat.lt_succ_self s.cycle.toNat)] at h
      split at h
      · cases h
        exact edgeLatch_sdaPin e b s
      · cases h

section
variable (res : Job → State → Res) {p e : Nat} {s : State} (ha : (s.eng e).attached = true)
include ha

theorem notifyEngineVia_neither (hscl : p ≠ (s.eng e).sclPin.toNat) (hsda : p ≠ (s.eng e).sdaPin.toNat) :
    notifyEngineVia res p e s = .ok s := by
  rw [notifyEngineVia_attached res ha, if_neg hscl]
  exact if_neg hsda

theorem notifyEngineVia_scl (hscl : p = (s.eng e).sclPin.toNat) (hsda : p ≠ (s.eng e).sdaPin.toNat) :
    notifyEngineVia res p e s = onScl e s := by
  rw [notifyEngineVia_attached res ha, if_pos hscl, ← andThen_return (onScl e s), andThen_assoc]
  refine andThen_congr fun u hu => ?_
  rw [andThen_ok, onScl_sdaPin hu]
  exact if_neg hsda

theorem notifyEngineVia_sda (hscl : p ≠ (s.eng e).sclPin.toNat) (hsda : p = (s.eng e).sdaPin.toNat) :
    notifyEngineVia res p e s = onSdaVia res e s := by
  rw [notifyEngineVia_attached res ha, if_neg hscl]
  exact if_pos hsda

theorem notifyEngineVia_both (hscl : p = (s.eng e).sclPin.toNat) (hsda : p = (s.eng e).sdaPin.toNat) :
    notifyEngineVia res p e s = (onScl e s).andThen (onSdaVia res e) := by
  rw [notifyEngineVia_attached res ha, if_pos hscl]
  refine andThen_congr fun u hu => ?_
  rw [onScl_sdaPin hu]
  exact if_pos hsda

end

/-! ### A publication and a notification as chains -/

theorem publishVia_chain (n : Nat) (l : Level) (s : State) (res : Job → State → Res) (hs : Shaped s) (hn : n < s.cfg.numNodes) :
    ∃ u : State, publishVia res n l s =
        ((members s n).filter fun p => decide ((s.pin p).driven ≠ l)).foldl (fun r p => r.andThen (notifyVia res p)) (.ok u) ∧
      { u with pins := s.pins, nodes := s.nodes } = s ∧ u.node n = { s.node n with level := l } ∧
      (∀ m, m ≠ n → u.node m = s.node m) ∧ (∀ p ∈ members s n, u.pin p = { s.pin p with driven := l }) ∧
      ∀ p, p ∉ members s n → u.pin p = s.pin p := by
  refine ⟨publishWrites n l s, forEach_eq_foldl _ _ _, publishWrites_only n l s, ?_, fun m hm => ?_, fun p hp => ?_, fun p hp => ?_⟩
  · rw [publishWrites_node, setNode_node_self _ _ _ (hs.nodes ▸ hn)]
  · rw [publishWrites_node, setNode_node, if_neg fun h => hm h.1.symm]
  · rw [publishWrites_pin hs, if_pos hp]
  · rw [publishWrites_pin hs, if_neg hp]

theorem notifyVia_chain (p : Nat) (s : State) (res : Job → State → Res) (hs : Shaped s) :
    ∃ u : State, notifyVia res p s =
        (List.range s.cfg.numEngines).foldl (fun r e => r.andThen (notifyEngineVia res p e)) (.ok u) ∧
      { u with ports := s.ports } = s ∧
      ∀ r, (u.port r).driving = (s.port r).driving ∧ ∀ i, i < 8 → (u.port r).driven.getLsbD i =
        if (s.portCfg r).enable.getLsbD i = true ∧ (s.portCfg r).base + i = p then
          (logic (s.pin p).driven).getD ((s.port r).driven.getLsbD i)
        else (s.port r).driven.getLsbD i := by
  have htold := notifyPorts_told p hs
  refine ⟨_, forEach_eq_foldl _ _ _, htold.rest, fun r => ⟨htold.driving r, fun i hi => ?_⟩⟩
  split
  · next hbound => exact htold.told r i hi hbound
  · next hbound => exact htold.other r i hi hbound

/-- Settles O54: the two chains, the handlers a notification runs, and each handler by its branches. -/
theorem lineHandlers : Obligations.LineHandlers := by
  unfold Obligations.LineHandlers
  refine ⟨publishVia_chain, notifyVia_chain, fun p e s res => ⟨notifyEngineVia_unattached res, fun ha =>
    ⟨notifyEngineVia_neither res ha, notifyEngineVia_scl res ha, notifyEngineVia_sda res ha, notifyEngineVia_both res ha⟩⟩, ?_⟩
  rintro e s g res hs he rfl
  have he' : e < s.engines.length := hs.engines ▸ he
  refine ⟨onScl_float, onScl_same, fun b => onScl_change, onSdaVia_float res, onSdaVia_same res,
    fun b => onSdaVia_low res he', ?_⟩
  rintro b p u rfl hline hb hscl hu
  have hevent : busEvent e b (s.setEng e { s.eng e with sdaSeen := b }) = u := by
    rw [hu, busEvent, setEng_eng_self _ _ _ he']
    refine (setEng_setEng (cancel (.eng e) s) e _ _).trans ?_
    cases b <;> rfl
  have hpin : ∀ q, u.pin q = s.pin q := fun q => by rw [hu]; rfl
  rw [onSdaVia_event res he' hline hb hscl, hevent, ← hpin]
  exact ⟨fun hd => if_pos hd, fun hd => setDrivingVia_new res hd⟩

end Sys2Proof.Machine
end

section
/-! PROOF. With no engine attached a command on one pin reaches only that pin, its node and the node's members. -/

namespace Sys2Proof.Machine

/-! ### Writes near a pin -/

/-- One small write that touches no pin outside `Q`, no node outside `M` and no port bit bound to a pin outside `Q`; or an end of
a command. -/
inductive NearW (Q M : Nat → Prop) (s : State) : State → Prop where
  | depth (d : Nat) : NearW Q M s { s with depth := d }
  | diag (k : DiagKind) (o : Nat) (d : Byte) : NearW Q M s (diag k o d s)
  | draw : NearW Q M s { s with draws := s.draws + 1 }
  | driven (p : Nat) (l : Level) (hp : Q p) : NearW Q M s (s.setPin p { s.pin p with driven := l })
  | node (n : Nat) (x : Node) (hn : M n) : NearW Q M s (s.setNode n x)
  | settleAt (n due : Nat) (hn : M n) : NearW Q M s (scheduled (.node n) due s)
  | cancelNode (n : Nat) (hn : M n) : NearW Q M s (cancel (.node n) s)
  | port (r i : Nat) (b : Bool) (hi : i < 8) (hp : Q (boundPin s r i)) :
      NearW Q M s (s.setPort r { s.port r with driven := setBit (s.port r).driven i b })
  | fault (c : FaultCode) : NearW Q M s (faulted c s)
  | goOn : NearW Q M s { s with cp := s.cp + 1 }

/-- A sequence of them. -/
abbrev Nears (Q M : Nat → Prop) : State → State → Prop := Relation.ReflTransGen (NearW Q M)

/-- What they leave: everything outside `Q` and `M`, and of the pins in `Q` all but what they read. -/
structure Kept (Q M : Nat → Prop) (s t : State) : Prop where
  only : OnlyRead s t
  engines : t.engines = s.engines
  pin : ∀ q, ¬ Q q → t.pin q = s.pin q
  node : ∀ n, ¬ M n → t.node n = s.node n
  entry : ∀ x : Entry, (∀ n, M n → x.owner ≠ .node n) → (x ∈ t.pending ↔ x ∈ s.pending)
  bit : ∀ r i, i < 8 → ¬ Q (boundPin s r i) → (t.port r).driven.getLsbD i = (s.port r).driven.getLsbD i

section
variable {Q M : Nat → Prop} {s u t : State}

theorem Kept.refl (s : State) : Kept Q M s s :=
  ⟨.refl s, rfl, fun _ _ => rfl, fun _ _ => rfl, fun _ _ => Iff.rfl, fun _ _ _ _ => rfl⟩

theorem Kept.trans (h : Kept Q M s u) (k : Kept Q M u t) : Kept Q M s t where
  only := h.only.trans k.only
  engines := k.engines.trans h.engines
  pin := fun q hq => (k.pin q hq).trans (h.pin q hq)
  node := fun n hn => (k.node n hn).trans (h.node n hn)
  entry := fun x hx => (k.entry x hx).trans (h.entry x hx)
  bit := fun r i hi hq => (k.bit r i hi (by rwa [boundPin_congr h.only.cfg])).trans (h.bit r i hi hq)

/-- A write of the time base, the logs or the fault record alone. -/
theorem Kept.of_network (hc : t.cfg = s.cfg) (hp : t.pins = s.pins) (hn : t.nodes = s.nodes) (hr : t.ports = s.ports)
    (he : t.engines = s.engines) (hx : ∀ x : Entry, (∀ n, M n → x.owner ≠ .node n) → (x ∈ t.pending ↔ x ∈ s.pending)) :
    Kept Q M s t where
  only := ⟨hc, fun q => ⟨(s.pin q).driven, by simp only [State.pin, hp]⟩⟩
  engines := he
  pin := fun q _ => by simp only [State.pin, hp]
  node := fun n _ => by simp only [State.node, hn]
  entry := hx
  bit := fun r i _ _ => by simp only [State.port, hr]

theorem Kept.driven {p : Nat} (l : Level) (hp : Q p) : Kept Q M s (s.setPin p { s.pin p with driven := l }) where
  only := ⟨rfl, fun q => by
    obtain h | ⟨rfl, h⟩ := setPin_pin_cases s p q { s.pin p with driven := l }
    · exact ⟨(s.pin q).driven, h⟩
    · exact ⟨l, h⟩⟩
  engines := rfl
  pin := fun q hq => by
    rw [setPin_pin, if_neg]
    rintro ⟨rfl, -⟩
    exact hq hp
  node := fun _ _ => rfl
  entry := fun _ _ => Iff.rfl
  bit := fun _ _ _ _ => rfl

theorem Kept.setNode {n : Nat} (x : Node) (hn : M n) : Kept Q M s (s.setNode n x) where
  only := ⟨rfl, fun q => ⟨(s.pin q).driven, rfl⟩⟩
  engines := rfl
  pin := fun _ _ => rfl
  node := fun m hm => by
    rw [setNode_node, if_neg]
    rintro ⟨rfl, -⟩
    exact hm hn
  entry := fun _ _ => Iff.rfl
  bit := fun _ _ _ _ => rfl

theorem Kept.port {r i : Nat} (b : Bool) (hi : i < 8) (hp : Q (boundPin s r i)) :
    Kept Q M s (s.setPort r { s.port r with driven := setBit (s.port r).driven i b }) where
  only := ⟨rfl, fun q => ⟨(s.pin q).driven, rfl⟩⟩
  engines := rfl
  pin := fun _ _ => rfl
  node := fun _ _ => rfl
  entry := fun _ _ => Iff.rfl
  bit := fun q j _ hq => by
    obtain h | ⟨rfl, h⟩ := setPort_port_cases s r q { s.port r with driven := setBit (s.port r).driven i b } <;> rw [h]
    refine (setBit_getLsbD _ _ _ _ hi).trans (if_neg ?_)
    rintro rfl
    exact hq hp

theorem NearW.kept (h : NearW Q M s t) : Kept Q M s t := by
  cases h with
  | driven p l hp => exact .driven l hp
  | node n x hn => exact .setNode x hn
  | port r i b hi hp => exact .port b hi hp
  | settleAt n due hn =>
    refine .of_network rfl rfl rfl rfl rfl fun x hx => ?_
    have hne : x ≠ ⟨.node n, BitVec.ofNat 64 due, s.nextSeq⟩ := fun h => hx n hn (h ▸ rfl)
    rw [scheduled, List.mem_append, List.mem_singleton, mem_cancel, or_iff_left hne]
    exact and_iff_left (hx n hn)
  | cancelNode n hn =>
    refine .of_network rfl rfl rfl rfl rfl fun x hx => ?_
    rw [mem_cancel]
    exact and_iff_left (hx n hn)
  | _ => exact .of_network rfl rfl rfl rfl rfl fun _ _ => Iff.rfl

theorem Nears.kept (h : Nears Q M s t) : Kept Q M s t := by
  induction h with
  | refl => exact .refl s
  | tail _ hw ih => exact ih.trans hw.kept

theorem NoEngineAttached.nears (hq : NoEngineAttached s) (h : Nears Q M s t) : NoEngineAttached t :=
  hq.of_same h.kept.only.cfg h.kept.engines

/-! ### Resolutions with no engine attached are made of them -/

/-- However an operation ends, what it and then another have written is near. -/
theorem Nears.andThen {r : Res} {f : State → Res} (hr : Nears Q M s r.state) (hf : ∀ u, r = .ok u → Nears Q M u (f u).state) :
    Nears Q M s (r.andThen f).state := by
  cases r with
  | ok u => exact hr.trans (hf u rfl)
  | halt u => exact hr

theorem Nears.foldl {α : Type} {f : State → α → State} (xs : List α) {s : State}
    (hf : ∀ x ∈ xs, ∀ u, u.cfg = s.cfg → Nears Q M u (f u x)) : Nears Q M s (xs.foldl f s) := by
  induction xs generalizing s with
  | nil => exact .refl
  | cons x xs ih =>
    have h := hf x List.mem_cons_self s rfl
    exact h.trans (ih fun y hy u hu => hf y (List.mem_cons_of_mem x hy) u (hu.trans h.kept.only.cfg))

theorem Nears.forEach {α : Type} {f : α → State → Res} (xs : List α) {s : State} (hq : NoEngineAttached s)
    (hf : ∀ x ∈ xs, ∀ u, u.cfg = s.cfg → NoEngineAttached u → Nears Q M u (f x u).state) :
    Nears Q M s (forEach f xs s).state := by
  induction xs generalizing s with
  | nil => exact .refl
  | cons x xs ih =>
    have h := hf x List.mem_cons_self s rfl hq
    refine h.andThen fun u hu => ?_
    rw [hu] at h
    exact ih (hq.nears h) fun y hy v hv => hf y (List.mem_cons_of_mem x hy) v (hv.trans h.kept.only.cfg)

theorem onPinChanged_near {r i : Nat} (hi : i < 8) (hp : Q (boundPin s r i)) : Nears Q M s (onPinChanged r i s) := by
  unfold onPinChanged
  split
  · exact .single (.port r i _ hi hp)
  · exact .refl

theorem notifyPort_near {p : Nat} (hp : Q p) (r : Nat) (s : State) : Nears Q M s (notifyPort p r s) := by
  refine Nears.foldl _ fun i hi u hu => ?_
  obtain ⟨hen, hbound⟩ := List.mem_filter.mp hi
  exact onPinChanged_near (enabledBits_lt hen) (by rwa [boundPin_congr hu, of_decide_eq_true hbound])

theorem schedule_near {n : Nat} (hn : M n) (due : Nat) (s : State) : Nears Q M s (schedule (.node n) due s).state := by
  unfold schedule
  split
  · exact .single (.fault _)
  · split
    · exact .single (.fault _)
    · exact .single (.settleAt n due hn)

theorem settleNode_near {n : Nat} (hn : M n) (v : Num) (s : State) : Nears Q M s (settleNode n v s) :=
  (Relation.ReflTransGen.single (.node n _ hn)).tail (.cancelNode n hn)

theorem analogUpdate_near {n : Nat} (hn : M n) (s : State) : Nears Q M s (analogUpdate n s).state := by
  unfold analogUpdate
  dsimp only
  split
  · exact .head (.node n _ hn) (.head .draw (settleNode_near hn _ _))
  · split
    · exact .head (.node n _ hn) (settleNode_near hn _ _)
    · exact .head (.node n _ hn) (.head (.node n _ hn) (schedule_near hn _ _))

theorem leaveAnalog_near {n : Nat} (hn : M n) (s : State) : Nears Q M s (leaveAnalog n s) := by
  unfold leaveAnalog
  split
  · exact .head (.node n _ hn) (.single (.cancelNode n hn))
  · exact .refl

theorem digitalUpdate_near {n : Nat} (hn : M n) (s : State) : Nears Q M s (digitalUpdate n s) := by
  unfold digitalUpdate
  refine (leaveAnalog_near hn s).trans ?_
  dsimp only
  split
  · exact .head (.node n _ hn) (.single (.diag _ _ _))
  · exact .single (.node n _ hn)

section
variable (res : Job → State → Res)

theorem notifyVia_near {p : Nat} (hp : Q p) (hq : NoEngineAttached s) : Nears Q M s (notifyVia res p s).state := by
  have hports : Nears Q M s ((List.range s.cfg.numPorts).foldl (fun s r => notifyPort p r s) s) :=
    Nears.foldl _ fun r _ u _ => notifyPort_near hp r u
  refine hports.trans (Nears.forEach _ (hq.nears hports) fun e he u hu hqu => ?_)
  have hlt : e < u.cfg.numEngines := by
    rw [hu, hports.kept.only.cfg]
    exact List.mem_range.mp he
  rw [notifyEngineVia_unattached res (hqu e hlt)]
  exact .refl

theorem publishVia_near {n : Nat} (l : Level) (hn : M n) (hm : ∀ q ∈ members s n, Q q) (hq : NoEngineAttached s) :
    Nears Q M s (publishVia res n l s).state := by
  have hwrites : Nears Q M s (publishWrites n l s) :=
    .head (.node n _ hn) (Nears.foldl _ fun p hp u _ => .single (.driven p l (hm p hp)))
  exact hwrites.trans (Nears.forEach _ (hq.nears hwrites) fun p hp u _ hqu =>
    notifyVia_near res (hm p (List.mem_of_mem_filter hp)) hqu)

/-- The job resolves a pin in `Q`, or a node in `M` whose members are in `Q`. -/
def JobNear (Q M : Nat → Prop) (s : State) : Job → Prop
  | .node n => M n ∧ ∀ q ∈ members s n, Q q
  | .pin p => Q p
  | .settle _ => False

theorem runJobVia_near {j : Job} (hj : JobNear Q M s j) (hq : NoEngineAttached s) : Nears Q M s (runJobVia res j s).state := by
  cases j with
  | settle n => exact hj.elim
  | pin p =>
    by_cases h : (s.pin p).driven = aloneLevel s p
    · rw [runJobVia_pin_same res h]
      exact .refl
    · rw [runJobVia_pin_new res h]
      exact .head (.driven p _ hj) (notifyVia_near res hj hq)
  | node n =>
    obtain ⟨hn, hm⟩ := hj
    have hpublish : ∀ {u l}, Nears Q M s u → Nears Q M u (publishVia res n l u).state := fun hu =>
      publishVia_near res _ hn (by rw [hu.kept.only.members]; exact hm) (hq.nears hu)
    cases ha : analogMode s n with
    | false =>
      rw [runJobVia_digital res ha]
      exact (digitalUpdate_near hn s).trans (hpublish (digitalUpdate_near hn s))
    | true =>
      rw [runJobVia_analog res ha]
      have hup := analogUpdate_near (Q := Q) hn s
      refine hup.andThen fun u hu => hpublish ?_
      rw [hu] at hup
      exact hup

end

theorem resolve_near {j : Job} (hj : JobNear Q M s j) (hq : NoEngineAttached s) : Nears Q M s (resolve j s).state := by
  obtain hd | hd := Nat.lt_or_ge s.depth s.cfg.maxNotifyDepth
  · obtain ⟨res, -, hrun⟩ := resolve_run (j := j) hd
    have hj' : JobNear Q M { s with depth := s.depth + 1 } j := by cases j <;> exact hj
    have hq' : NoEngineAttached { s with depth := s.depth + 1 } := hq
    rw [hrun]
    exact .head (.depth (s.depth + 1)) ((runJobVia_near res hj' hq').andThen fun u _ => .single (.depth _))
  · rw [resolve_full hd]
    exact .single (.fault _)

theorem commit_near {r : Res} (hr : Nears Q M s r.state) (h : commit r = .next t) : Nears Q M s t := by
  cases r with
  | ok u => cases h; exact hr.tail .goOn
  | halt u => cases h; exact hr

end

/-! ### A command on one pin's drive or configuration -/

/-- How such a command ends: refused; with nothing changed; or with the pin's record written, its node kept, and then its node, or
the pin, resolved. -/
inductive PinStep (s : State) (p : Nat) : State → Prop where
  | refused : PinStep s p (faulted .badIndex s)
  | same : PinStep s p { s with cp := s.cp + 1 }
  | resolved {t : State} (x : Pin) (hx : x.node = (s.pin p).node)
      (ht : commit (resolve (jobOf s p) (s.setPin p x)) = .next t) : PinStep s p t

theorem setDriving_pinStep {p : Byte} {d : Drive} {s t : State}
    (h : commit (checked (pinOk s p) s (setDriving p.toNat d)) = .next t) : PinStep s p.toNat t := by
  obtain rfl | ⟨-, h⟩ := checked_cases h
  · exact .refused
  by_cases hd : (s.pin p.toNat).drive = d
  · rw [setDriving_same hd] at h
    cases h
    exact .same
  · rw [setDriving, setDrivingVia_new resolve hd] at h
    exact .resolved _ (by rfl) h

theorem configurePin_pinStep {p : Byte} {dir : Dir} {oc pu : Bool} {s t : State}
    (h : commit (checked (pinOk s p) s (configurePin p.toNat dir oc pu)) = .next t) : PinStep s p.toNat t := by
  obtain rfl | ⟨-, h⟩ := checked_cases h
  · exact .refused
  unfold configurePin at h
  dsimp only at h
  split at h
  · cases h
    exact .same
  · rw [jobOf_setPin (by rfl)] at h
    exact .resolved _ (by rfl) h

/-- The pins it reaches: the pin and the other members of its node. -/
def Reached (s : State) (p q : Nat) : Prop :=
  q = p ∨ ((s.pin p).node ≠ none ∧ (s.pin q).node = (s.pin p).node)

theorem not_reached {s : State} {p q : Nat} (hq : q ≠ p) (hoff : (s.pin p).node = none ∨ (s.pin q).node ≠ (s.pin p).node) :
    ¬ Reached s p q := by
  rintro (h | ⟨hon, hsame⟩)
  · exact hq h
  · exact hoff.elim hon fun hne => hne hsame

section
variable {s t : State} {p : Nat}

theorem setPin_other {q : Nat} (x : Pin) (hq : q ≠ p) : (s.setPin p x).pin q = s.pin q := by
  rw [setPin_pin, if_neg fun h => hq h.1.symm]

theorem jobOf_near (x : Pin) : JobNear (Reached s p) (fun n => (s.pin p).node = some n) (s.setPin p x) (jobOf s p) := by
  cases hn : (s.pin p).node with
  | none =>
    rw [jobOf_alone hn]
    exact .inl rfl
  | some n =>
    rw [jobOf_node hn]
    refine ⟨rfl, fun q hm => ?_⟩
    by_cases hq : q = p
    · exact .inl hq
    · obtain ⟨-, hon⟩ := mem_members.mp hm
      rw [setPin_other x hq] at hon
      exact .inr ⟨by rw [hn]; exact Option.some_ne_none n, hon.trans hn.symm⟩

theorem setPin_read (s : State) (p : Nat) : s.setPin p (s.pin p) = s := by
  by_cases hp : p < s.pins.length
  · exact setPin_self hp
  · exact setPin_out_of_range hp _

theorem PinStep.kept (hq : NoEngineAttached s) (h : PinStep s p t) :
    ∃ x, Kept (Reached s p) (fun n => (s.pin p).node = some n) (s.setPin p x) t := by
  have hstay : ∀ {u : State}, Nears (Reached s p) (fun n => (s.pin p).node = some n) s u →
      ∃ x, Kept (Reached s p) (fun n => (s.pin p).node = some n) (s.setPin p x) u := fun hu =>
    ⟨s.pin p, by rw [setPin_read]; exact hu.kept⟩
  cases h with
  | refused => exact hstay (.single (.fault _))
  | same => exact hstay (.single .goOn)
  | resolved x _ ht => exact ⟨x, (commit_near (resolve_near (jobOf_near x) hq) ht).kept⟩

/-- Where it completes and changes a pin whose node is in analog mode then, the node's settling starts again (R194). -/
theorem PinStep.restarts (hs : Shaped s) (hq : NoEngineAttached s) (h : PinStep s p t) {n : Nat} (hcp : t.cp = s.cp + 1)
    (hn : (s.pin p).node = some n) (ha : analogMode t n = true)
    (hne : (t.pin p).drive ≠ (s.pin p).drive ∨ (t.pin p).dir ≠ (s.pin p).dir ∨ (t.pin p).oc ≠ (s.pin p).oc ∨
      (t.pin p).pu ≠ (s.pin p).pu) : (t.node n).v0 = voltageAt s n s.cycle ∧ (t.node n).t0 = s.cycle := by
  cases h with
  | refused => exact absurd hcp (Nat.ne_of_lt (Nat.lt_succ_self s.cp))
  | same => obtain h | h | h | h := hne <;> exact absurd rfl h
  | resolved x hx ht =>
    have hkept := (commit_near (resolve_near (jobOf_near x) hq) ht).kept
    rw [hkept.only.analogMode] at ha
    rw [jobOf_node hn] at ht
    obtain ⟨-, u, hu, -, rfl⟩ := checked_ok (A := AnyNode) (B := AnyNode) (b := true) ht hcp fun _ =>
      resolve_cmd _ _ (nodesIn_any _) trivial
    have hsu : Shaped (s.setPin p x) := hs.setPin p x fun m hm => hs.nodeOf p m (hx ▸ hm)
    have hstart := resolve_start hsu (hs.nodeOf p n hn) hq ha hu
    exact hstart

end

/-- Settles O59: what such a command writes after the pin's own record is near the pin. -/
theorem frameWithNoEngineAttached : Obligations.FrameWithNoEngineAttached := by
  unfold Obligations.FrameWithNoEngineAttached
  intro p i s t hs hq hi h
  have hstep : PinStep s p.toNat t := by
    obtain ⟨l, rfl⟩ | ⟨mv, rfl⟩ | ⟨d, oc, pu, rfl⟩ := hi
    · exact setDriving_pinStep h
    · exact setDriving_pinStep h
    · exact configurePin_pinStep h
  obtain ⟨x, hkept⟩ := hstep.kept hq
  refine ⟨hkept.engines, fun q hne hoff => (hkept.pin q (not_reached hne hoff)).trans (setPin_other x hne), fun q hne => ?_,
    fun n hn => ⟨hkept.node n hn, fun y hy => hkept.entry y fun m hm ho => ?_⟩, fun e y hy => hkept.entry y fun m _ ho => ?_,
    fun r j hj hne hoff => hkept.bit r j hj (not_reached hne hoff), fun n hcp hn ha => hstep.restarts hs hq hcp hn ha⟩
  · rw [(hkept.only.offer q).1, setPin_other x hne]
  · cases hy.symm.trans ho
    exact hn hm
  · cases hy.symm.trans ho

end Sys2Proof.Machine
end

section
/-! PROOF. A settling voltage and its exponential. -/

namespace Sys2Proof.Machine

/-! ### The exponential at one and at five time constants (R202) -/

theorem expNeg_one_mem : 3678 / 10000 ≤ expNeg 1 ∧ expNeg 1 ≤ 3679 / 10000 := by
  obtain ⟨hlow, hup⟩ := expNeg_mem (x := 1) zero_le_one
  rw [Rat.cast_one] at hlow hup
  have hlow' : ((3678 / 10000 : Num) : ℝ) ≤ (expNeg 1 : ℝ) := by
    push_cast
    linarith [Real.exp_neg_one_gt_d9]
  have hup' : (expNeg 1 : ℝ) ≤ ((3679 / 10000 : Num) : ℝ) := by
    push_cast
    linarith [Real.exp_neg_one_lt_d9]
  exact ⟨Rat.cast_le.mp hlow', Rat.cast_le.mp hup'⟩

theorem expNeg_five_le : expNeg 5 ≤ 6738 / 1000000 := by
  obtain ⟨-, hup⟩ := expNeg_mem (x := 5) (by norm_num)
  have hpow : Real.exp (-((5 : Num) : ℝ)) = Real.exp (-1) ^ 5 := by
    rw [← Real.exp_nat_mul]
    norm_num
  have hfive : (expNeg 5 : ℝ) ≤ ((6738 / 1000000 : Num) : ℝ) :=
    calc (expNeg 5 : ℝ) ≤ Real.exp (-1) ^ 5 := hpow ▸ hup
      _ ≤ 0.3678794412 ^ 5 := pow_le_pow_left₀ (Real.exp_pos _).le Real.exp_neg_one_lt_d9.le 5
      _ ≤ ((6738 / 1000000 : Num) : ℝ) := by norm_num
  exact Rat.cast_le.mp hfive

/-- The horizon is the least number of cycles that make five time constants (R197). -/
theorem horizon_le_iff (c : Config) (tau : Num) (h : Nat) : horizon c tau ≤ h ↔ 5 * tau * c.cycleHz ≤ (h : Num) := by
  unfold horizon
  rw [Int.toNat_le, Rat.ceil_le_iff, Int.cast_natCast]

/-! ### The voltage (R201) -/

/-- The time constants a node has settled for at cycle `t`. -/
def elapsedTaus (s : State) (n : Nat) (t : Cycle) : Num :=
  ((t.toNat - (s.node n).t0.toNat : Nat) : Num) / s.cfg.cycleHz / ((s.node n).zth * (s.node n).cth)

section
variable {s : State} {n : Nat}

section
variable (hset : (s.node n).settling = true)
include hset

theorem voltageAt_settling (t : Cycle) :
    voltageAt s n t = (s.node n).vt + ((s.node n).v0 - (s.node n).vt) * expNeg (elapsedTaus s n t) :=
  if_pos hset

theorem voltageAt_start : voltageAt s n (s.node n).t0 = (s.node n).v0 := by
  rw [voltageAt_settling hset, elapsedTaus, Nat.sub_self, Nat.cast_zero, zero_div, zero_div, expNeg_zero]
  ring

theorem voltageAt_sub (t : Cycle) :
    voltageAt s n t - (s.node n).vt = ((s.node n).v0 - (s.node n).vt) * expNeg (elapsedTaus s n t) := by
  rw [voltageAt_settling hset, add_sub_cancel_left]

end

section
variable (hhz : 0 < s.cfg.cycleHz) (htau : 0 < (s.node n).zth * (s.node n).cth)
include hhz htau

theorem elapsedTaus_nonneg (t : Cycle) : 0 ≤ elapsedTaus s n t := by
  unfold elapsedTaus
  positivity

theorem elapsedTaus_mono {t₁ t₂ : Cycle} (h : t₁.toNat ≤ t₂.toNat) : elapsedTaus s n t₁ ≤ elapsedTaus s n t₂ := by
  unfold elapsedTaus
  gcongr

theorem five_le_elapsedTaus {t : Cycle}
    (h : horizon s.cfg ((s.node n).zth * (s.node n).cth) ≤ t.toNat - (s.node n).t0.toNat) : 5 ≤ elapsedTaus s n t := by
  unfold elapsedTaus
  rw [le_div_iff₀ htau, le_div_iff₀ hhz]
  exact (horizon_le_iff _ _ _).mp h

/-- What is left of the step is the exponential's part of it. -/
theorem abs_voltageAt_sub (hset : (s.node n).settling = true) (t : Cycle) :
    |voltageAt s n t - (s.node n).vt| = |(s.node n).v0 - (s.node n).vt| * expNeg (elapsedTaus s n t) := by
  rw [voltageAt_sub hset, abs_mul, abs_of_pos (expNeg_pos (elapsedTaus_nonneg hhz htau t))]

/-- From the horizon on at most `exp(-5)` of the step is left (R197, R202). -/
theorem left_after_horizon (hset : (s.node n).settling = true) {t : Cycle}
    (h : horizon s.cfg ((s.node n).zth * (s.node n).cth) ≤ t.toNat - (s.node n).t0.toNat) :
    |voltageAt s n t - (s.node n).vt| ≤ |(s.node n).v0 - (s.node n).vt| * (6738 / 1000000) := by
  rw [abs_voltageAt_sub hhz htau hset]
  have hexp := (expNeg_anti (by norm_num) (five_le_elapsedTaus hhz htau h)).trans expNeg_five_le
  exact mul_le_mul_of_nonneg_left hexp (abs_nonneg _)

/-- A later voltage is no further from the target, and none is past it (R202). -/
theorem voltageAt_approaches (hset : (s.node n).settling = true) {t₁ t₂ : Cycle} (h : t₁.toNat ≤ t₂.toNat) :
    |voltageAt s n t₂ - (s.node n).vt| ≤ |voltageAt s n t₁ - (s.node n).vt| ∧
      0 ≤ (voltageAt s n t₁ - (s.node n).vt) * ((s.node n).v0 - (s.node n).vt) := by
  have hpos := elapsedTaus_nonneg hhz htau t₁
  constructor
  · rw [abs_voltageAt_sub hhz htau hset, abs_voltageAt_sub hhz htau hset]
    exact mul_le_mul_of_nonneg_left (expNeg_anti hpos (elapsedTaus_mono hhz htau h)) (abs_nonneg _)
  · rw [voltageAt_sub hset, mul_right_comm]
    exact mul_nonneg (mul_self_nonneg _) (expNeg_pos hpos).le

end
end

/-- Settles O55: the voltage is the target and the exponential's part of the step, which falls as time passes (`expNeg_anti`) and is
the real one but for the rounding of `expNeg_mem`. -/
theorem settlingVoltageConverges : Obligations.SettlingVoltageConverges := by
  unfold Obligations.SettlingVoltageConverges
  refine ⟨fun s n t₁ t₂ hset hhz htau _ h12 => ?_, horizon_le_iff, fun x => expNeg_mem⟩
  obtain ⟨hcloser, hside⟩ := voltageAt_approaches hhz htau hset h12
  refine ⟨voltageAt_start hset, hcloser, hside, ?_⟩
  rintro k x gap left rfl hx rfl hleft
  change x = elapsedTaus s n t₁ at hx
  have hpart : left = |(s.node n).v0 - (s.node n).vt| * expNeg x := by rw [hleft, hx, abs_voltageAt_sub hhz htau hset]
  have hgap := abs_nonneg ((s.node n).v0 - (s.node n).vt)
  have hgapReal : (0 : ℝ) ≤ ((|(s.node n).v0 - (s.node n).vt| : Num) : ℝ) := Rat.cast_nonneg.mpr hgap
  obtain ⟨hlow, hup⟩ := expNeg_mem (x := x) (hx ▸ elapsedTaus_nonneg hhz htau t₁)
  refine ⟨hx ▸ voltageAt_settling hset t₁, ?_, ?_, fun hone => ?_, fun hlate => ?_⟩
  · rw [hpart, Rat.cast_mul]
    exact mul_le_mul_of_nonneg_left hlow hgapReal
  · rw [hpart, Rat.cast_mul]
    exact mul_le_mul_of_nonneg_left hup hgapReal
  · obtain ⟨hlow1, hup1⟩ := expNeg_one_mem
    rw [hpart, hone]
    exact ⟨mul_le_mul_of_nonneg_left hlow1 hgap, mul_le_mul_of_nonneg_left hup1 hgap⟩
  · rw [hleft]
    exact left_after_horizon hhz htau hset hlate

end Sys2Proof.Machine
end

section
/-! PROOF. `PIN_ANALOG`: on a lone pin, and on the pin of a node. -/

namespace Sys2Proof.Machine

/-! ### On a lone pin (R200) -/

/-- With no node in analog mode, no settle callback is pending: a node in order has one only while it settles. -/
theorem InOrder.no_settle {t : State} (ht : InOrder t) (ha : NoAnalogNode t) (n : Nat) : ¬ hasEntry t (.node n) := by
  intro he
  have ⟨x, hx, hown⟩ := he
  have hin := ht.pending.inBlock x hx
  rw [hown] at hin
  have hmode := (ht.resolved.1 n hin).settling ((ht.settle n hin).mp he)
  rw [ha n] at hmode
  cases hmode

/-- Settles O44: in a calm block driving a lone pin meets no fault, whatever its drive, and puts no node in analog mode. -/
theorem pinAnalogAloneCompletes : Obligations.PinAnalogAloneCompletes := by
  unfold Obligations.PinAnalogAloneCompletes
  intro p mv s hs hc h0 hp hn
  obtain ⟨u, hu, hcalm⟩ := hc.setDriving p.toNat (.analog mv) fun _ => hn
  obtain ⟨hbeside, hsetup, hdriven⟩ := setDriving_to (hs.shaped.pins ▸ hp) hu
  obtain ⟨hdone, horder⟩ := (setDriving_runs (B := AnyNode) hs.shaped _ _).completed hu hbeside.outLog
  have ht := horder hs h0
  obtain ⟨-, halone⟩ := ht.resolved
  exact ⟨_, commit_checked (b := pinOk s p) (decide_eq_true hp) hu, hdone, ht, hdriven,
    halone p.toNat (hbeside.cfg ▸ hp) (hsetup.1.trans hn), hsetup, hbeside.rest.withCp _, ht.no_settle hcalm.digital⟩

/-! ### Well-formed parameters give a positive time constant (R13, R193) -/

/-- What R193 and R201 need of the parameters (notes/assumptions/6.md). -/
structure Config.Analog (c : Config) : Prop where
  cycleHz : 0 < c.cycleHz
  zStrong : 0 < c.zStrong
  zWeak : 0 < c.zWeak
  zPullup : 0 < c.zPullup
  pin : ∀ p, 0 < (c.pins.getD p ⟨1, 0⟩).z ∧ 0 ≤ (c.pins.getD p ⟨1, 0⟩).c

theorem Config.wf_analog {c : Config} (h : c.wf = true) : Config.Analog c := by
  simp only [Config.wf, Bool.and_eq_true, decide_eq_true_eq] at h
  obtain ⟨⟨⟨-, hhz⟩, hstrong, hweak, hpullup⟩, hpins⟩ := h
  refine ⟨hhz, hstrong, hweak, hpullup, fun p => ?_⟩
  by_cases hp : p < c.pins.length
  · rw [List.getD_eq_getElem _ _ hp]
    exact of_decide_eq_true (List.all_eq_true.mp hpins _ (List.getElem_mem hp))
  · rw [List.getD_eq_default _ _ (Nat.le_of_not_lt hp)]
    exact ⟨zero_lt_one, le_rfl⟩

section
variable {s : State} {n : Nat} (hc : Config.Analog s.cfg)
include hc

theorem levelSources_pos {l : Level} {x : Source} (hx : x ∈ levelSources s.cfg l) : 0 < x.z := by
  have hstrong := hc.zStrong
  have hweak := hc.zWeak
  cases l <;> simp only [levelSources, List.mem_singleton, List.not_mem_nil] at hx <;> subst hx <;> assumption

theorem pinSources_pos {p : Nat} {x : Source} (hx : x ∈ pinSources s p) : 0 < x.z := by
  obtain hx | hx := List.mem_append.mp hx
  · unfold driveSources at hx
    split at hx
    · exact levelSources_pos hc hx
    · split at hx
      · cases hx
      · obtain rfl := List.mem_singleton.mp hx
        exact (hc.pin p).1
  · split at hx
    · obtain rfl := List.mem_singleton.mp hx
      exact hc.zPullup
    · cases hx

theorem theveninZ_pos (hx : nodeSources s n ≠ []) : 0 < theveninZ (nodeSources s n) := by
  refine one_div_pos.mpr (List.sum_pos _ (fun g hg => ?_) (by simpa using hx))
  obtain ⟨x, hx, rfl⟩ := List.mem_map.mp hg
  obtain ⟨p, -, hx⟩ := List.mem_flatMap.mp hx
  exact one_div_pos.mpr (pinSources_pos hc hx)

theorem nodeC_nonneg : 0 ≤ nodeC s n := by
  refine List.sum_nonneg fun g hg => ?_
  obtain ⟨p, -, rfl⟩ := List.mem_map.mp hg
  exact (hc.pin p).2

theorem horizon_pos {tau : Num} (htau : 0 < tau) : 0 < horizon s.cfg tau := by
  have hhz := hc.cycleHz
  have hstep : (0 : Num) < 5 * tau * s.cfg.cycleHz := by positivity
  rw [← not_le, horizon_le_iff, Nat.cast_zero, not_le]
  exact hstep

end

/-! ### `AnalogUpdate` case by case (R193, R194) -/

/-- A node's record as `AnalogUpdate` leaves it: its settling starts again from its present voltage toward `vt` through `zth`, with
`w` its voltage from now on and `b` whether it settles. -/
def restartRecord (s : State) (n : Nat) (vt zth w : Num) (b : Bool) : Node :=
  { s.node n with
    voltage := w, v0 := voltageAt s n s.cycle, t0 := s.cycle, vt := vt, zth := zth, cth := nodeC s n, contended := false,
    settling := b }

section
variable {s : State} {n : Nat}

theorem analogUpdate_noSource (hn : n < s.nodes.length) (hx : nodeSources s n = []) :
    analogUpdate n s = .ok { cancel (.node n) (s.setNode n
      (restartRecord s n (voltageAt s n s.cycle) (Config.freeZth s.draws) (voltageAt s n s.cycle) false)) with
        draws := s.draws + 1 } := by
  unfold analogUpdate
  rw [hx]
  refine congrArg (fun u : State => Res.ok { u with draws := s.draws + 1 }) ((settleNode_setNode n _ s _).trans ?_)
  rw [setNode_node_self _ _ _ hn]
  rfl

theorem analogUpdate_atTarget (hn : n < s.nodes.length) (hx : nodeSources s n ≠ [])
    (h : nodeC s n = 0 ∨ |voltageAt s n s.cycle - theveninV (nodeSources s n)| ≤ s.cfg.settleEps) :
    analogUpdate n s = .ok (cancel (.node n) (s.setNode n
      (restartRecord s n (theveninV (nodeSources s n)) (theveninZ (nodeSources s n)) (theveninV (nodeSources s n)) false))) := by
  have hnear : (decide (nodeC s n = 0) ||
      withinEps s.cfg (voltageAt s n s.cycle) (theveninV (nodeSources s n))) = true := by
    simpa only [withinEps, Bool.or_eq_true, decide_eq_true_eq] using h
  unfold analogUpdate
  rw [if_neg (by simpa using hx)]
  refine (if_pos hnear).trans (congrArg Res.ok ((settleNode_setNode n _ s _).trans ?_))
  rw [setNode_node_self _ _ _ hn]
  rfl

/-- The cycles from the start to the first settle step (R194, R197). -/
def firstStep (s : State) (n : Nat) : Nat :=
  stepCycles s.cfg (voltageAt s n s.cycle) (theveninV (nodeSources s n)) (theveninZ (nodeSources s n) * nodeC s n) 0

theorem analogUpdate_away (hn : n < s.nodes.length) (hx : nodeSources s n ≠ []) (hc : nodeC s n ≠ 0)
    (h : s.cfg.settleEps < |voltageAt s n s.cycle - theveninV (nodeSources s n)|) :
    analogUpdate n s = schedule (.node n) (s.cycle.toNat + firstStep s n)
      (s.setNode n (restartRecord s n (theveninV (nodeSources s n)) (theveninZ (nodeSources s n)) (voltageAt s n s.cycle)
        true)) := by
  have hfar : ¬ (decide (nodeC s n = 0) ||
      withinEps s.cfg (voltageAt s n s.cycle) (theveninV (nodeSources s n))) = true := by
    simpa only [withinEps, Bool.or_eq_true, decide_eq_true_eq, not_or, not_le] using ⟨hc, h⟩
  unfold analogUpdate
  rw [if_neg (by simpa using hx)]
  refine (if_neg hfar).trans ?_
  rw [setNode_setNode, setNode_node_self _ _ _ hn]
  rfl

theorem firstStep_le (hc : Config.Analog s.cfg) (hx : nodeSources s n ≠ []) (hC : nodeC s n ≠ 0) :
    firstStep s n ≤ horizon s.cfg (theveninZ (nodeSources s n) * nodeC s n) := by
  have hpos := horizon_pos hc (mul_pos (theveninZ_pos hc hx) ((nodeC_nonneg hc).lt_of_ne' hC))
  exact (stepCycles_le hpos).trans (Nat.max_le.mpr ⟨hpos, Nat.sub_le _ _⟩)

end

/-- The three ways `AnalogUpdate` of node `n` ends: the target, resistance and voltage it records, whether the node settles, and
the callbacks then pending. -/
inductive Restart (s : State) (n : Nat) (pending : List Entry) : (vt zth w : Num) → (b : Bool) → Prop where
  | noSource (zth : Num) (hx : nodeSources s n = []) :
      Restart s n pending (voltageAt s n s.cycle) zth (voltageAt s n s.cycle) false
  | atTarget (hx : nodeSources s n ≠ [])
      (h : nodeC s n = 0 ∨ |voltageAt s n s.cycle - theveninV (nodeSources s n)| ≤ s.cfg.settleEps) :
      Restart s n pending (theveninV (nodeSources s n)) (theveninZ (nodeSources s n)) (theveninV (nodeSources s n)) false
  | away (hx : nodeSources s n ≠ []) (hC : nodeC s n ≠ 0)
      (h : s.cfg.settleEps < |voltageAt s n s.cycle - theveninV (nodeSources s n)|)
      (hy : ∃ y ∈ pending, y.owner = .node n ∧ s.cycle.toNat < y.due.toNat ∧
        y.due.toNat ≤ s.cycle.toNat + horizon s.cfg (theveninZ (nodeSources s n) * nodeC s n)) :
      Restart s n pending (theveninV (nodeSources s n)) (theveninZ (nodeSources s n)) (voltageAt s n s.cycle) true

/-- It goes on where the horizon fits the counter. -/
theorem analogUpdate_restarts {s : State} {n : Nat} (hn : n < s.nodes.length) (hc : Config.Analog s.cfg)
    (hroom : s.cycle.toNat + max 1 (horizon s.cfg (theveninZ (nodeSources s n) * nodeC s n)) ≤ maxCycle) :
    ∃ t vt zth w b, analogUpdate n s = .ok t ∧ t.engines = s.engines ∧ t.node n = restartRecord s n vt zth w b ∧
      Restart s n t.pending vt zth w b := by
  by_cases hx : nodeSources s n = []
  · exact ⟨_, _, _, _, _, analogUpdate_noSource hn hx, rfl, setNode_node_self _ _ _ hn, .noSource _ hx⟩
  by_cases hnear : nodeC s n = 0 ∨ |voltageAt s n s.cycle - theveninV (nodeSources s n)| ≤ s.cfg.settleEps
  · exact ⟨_, _, _, _, _, analogUpdate_atTarget hn hx hnear, rfl, setNode_node_self _ _ _ hn, .atTarget hx hnear⟩
  · obtain ⟨hC, hfar⟩ := not_or.mp hnear
    rw [not_le] at hfar
    have hlo : 1 ≤ firstStep s n := one_le_stepCycles _ _ _ _ _
    have hle := firstStep_le hc hx hC
    have hfit : s.cycle.toNat + firstStep s n ≤ maxCycle := by omega
    have hupdate := analogUpdate_away hn hx hC hfar
    rw [schedule_later _ _ _ (by rw [setNode_cycle]; omega), if_pos hfit] at hupdate
    refine ⟨_, _, _, _, _, hupdate, rfl, setNode_node_self _ _ _ hn, .away hx hC hfar
      ⟨⟨.node n, BitVec.ofNat 64 (s.cycle.toNat + firstStep s n), s.nextSeq⟩,
        (mem_scheduled hfit _).mpr (.inr ⟨rfl, toNat_ofNat_due hfit, rfl⟩), rfl, ?_⟩⟩
    rw [toNat_ofNat_due hfit]
    omega

/-! ### A resolution that only publishes at its end, with no engine attached (R150, R152) -/

/-- A resolution whose job ends in a publication from `v`: it goes on, and leaves the callbacks and, but for its level, the node's
record of `v`. -/
theorem resolve_publishes {j : Job} {n : Nat} {l : Level} {s v : State} {x : Node} {ps : List Entry} (hs : Shaped s)
    (hq : NoEngineAttached s) (hd : s.depth < s.cfg.maxNotifyDepth) (hn : n < s.cfg.numNodes)
    (hrun : ∀ res, runJobVia res j { s with depth := s.depth + 1 } = publishVia res n l v)
    (hv : Cascs AnyNode { s with depth := s.depth + 1 } v) (heng : v.engines = s.engines) (hps : v.pending = ps)
    (hx : v.node n = x) :
    ∃ t, resolve j s = .ok t ∧ t.engines = s.engines ∧ t.pending = ps ∧ t.node n = { x with level := l } := by
  obtain ⟨res, -, hres⟩ := resolve_run (j := j) hd
  have hcfg : v.cfg = s.cfg := hv.globals.1
  have hsv : Shaped v := (hs.casc (A := AnyNode) (.single (.depth _))).casc hv
  obtain ⟨ports, hpub, -⟩ := publishVia_quiet res (n := n) l hsv (hq.of_same hcfg heng)
  obtain ⟨-, hpending, -, hengines, -⟩ := publishWrites_fields n l v
  rw [hrun res, hpub] at hres
  refine ⟨_, hres, hengines.trans heng, hpending.trans hps, (publishWrites_node n l n).trans ?_⟩
  rw [setNode_node_self _ _ _ (by rw [hsv.nodes, hcfg]; exact hn), hx]

/-- The resolution of a node in analog mode restarts its settling and publishes the level of its voltage (R150, R194, R196). -/
theorem resolve_restarts {n : Nat} {s : State} (hs : Shaped s) (hq : NoEngineAttached s) (hd : s.depth < s.cfg.maxNotifyDepth)
    (ha : analogMode s n = true) (hc : Config.Analog s.cfg)
    (hroom : s.cycle.toNat + max 1 (horizon s.cfg (theveninZ (nodeSources s n) * nodeC s n)) ≤ maxCycle) :
    ∃ t vt zth w b, resolve (.node n) s = .ok t ∧ t.engines = s.engines ∧
      t.node n = { restartRecord s n vt zth w b with level := levelOf s.cfg w } ∧ Restart s n t.pending vt zth w b := by
  have hn := analogMode_lt hs ha
  obtain ⟨v, vt, zth, w, b, hv, heng, hnode, hend⟩ :=
    analogUpdate_restarts (s := { s with depth := s.depth + 1 }) (n := n) (hs.nodes ▸ hn) hc hroom
  have hcasc := (analogUpdate_casc (A := AnyNode) n trivial { s with depth := s.depth + 1 }).ok hv
  have hrun : ∀ res, runJobVia res (.node n) { s with depth := s.depth + 1 } =
      publishVia res n (levelOf s.cfg w) v := fun res => by
    rw [runJobVia_analog res (s := { s with depth := s.depth + 1 }) ha, hv, andThen_ok, hnode, hcasc.globals.1]
    rfl
  obtain ⟨t, ht, hteng, hpending, htnode⟩ := resolve_publishes hs hq hd hn hrun hcasc heng rfl hnode
  refine ⟨t, vt, zth, w, b, ht, hteng, htnode, ?_⟩
  rw [hpending]
  cases hend with
  | noSource zth hx => exact .noSource zth hx
  | atTarget hx h => exact .atTarget hx h
  | away hx hC h hy => exact .away hx hC h hy

/-! ### On the pin of a node (R198) -/

/-- What each of the three ends records, read off the sources and the distance to the target. -/
theorem Restart.records {s : State} {n : Nat} {pending : List Entry} {vt zth w : Num} {b : Bool}
    (h : Restart s n pending vt zth w b) :
    (nodeSources s n = [] → vt = voltageAt s n s.cycle ∧ w = voltageAt s n s.cycle ∧ b = false) ∧
    (nodeSources s n ≠ [] → vt = theveninV (nodeSources s n) ∧ zth = theveninZ (nodeSources s n) ∧
      ((nodeC s n = 0 ∨ |voltageAt s n s.cycle - theveninV (nodeSources s n)| ≤ s.cfg.settleEps) →
        w = theveninV (nodeSources s n) ∧ b = false) ∧
      (nodeC s n ≠ 0 → s.cfg.settleEps < |voltageAt s n s.cycle - theveninV (nodeSources s n)| →
        w = voltageAt s n s.cycle ∧ b = true ∧
        ∃ y ∈ pending, y.owner = .node n ∧ s.cycle.toNat < y.due.toNat ∧
          y.due.toNat ≤ s.cycle.toNat + horizon s.cfg (theveninZ (nodeSources s n) * nodeC s n))) := by
  cases h with
  | noSource zth hx => exact ⟨fun _ => ⟨rfl, rfl, rfl⟩, fun hne => absurd hx hne⟩
  | atTarget hx hnear =>
    exact ⟨fun hnil => absurd hnil hx, fun _ => ⟨rfl, rfl, fun _ => ⟨rfl, rfl⟩,
      fun hC hfar => absurd hnear (not_or.mpr ⟨hC, not_le_of_gt hfar⟩)⟩⟩
  | away hx hC hfar hy =>
    exact ⟨fun hnil => absurd hnil hx, fun _ => ⟨rfl, rfl, fun hnear => absurd hnear (not_or.mpr ⟨hC, not_le_of_gt hfar⟩),
      fun _ _ => ⟨rfl, rfl, hy⟩⟩⟩

/-- A change of a pin's driving state keeps its node's capacitance. -/
theorem nodeC_setPin_drive (s : State) (p : Nat) (d : Drive) (n : Nat) :
    nodeC (s.setPin p { s.pin p with drive := d }) n = nodeC s n := by
  have hmem : members (s.setPin p { s.pin p with drive := d }) n = members s n :=
    members_congr (s := s) (t := s.setPin p _) rfl n fun q => by
      obtain h | ⟨rfl, h⟩ := setPin_pin_cases s p q { s.pin p with drive := d } <;> rw [h]
  rw [nodeC, nodeC, hmem]
  rfl

/-- With no engine attached a driven pin keeps the driving state it was given. -/
theorem DrivenTo.of_quiet {s t : State} {p : Nat} {d : Drive} (h : DrivenTo s t p d) (hq : NoEngineAttached s) :
    (t.pin p).drive = d := by
  obtain h | ⟨-, e, he, ha, -⟩ := h
  · exact h
  · rw [hq e he] at ha
    cases ha

/-- Settles O45: the pin's node is in analog mode once the pin drives its voltage, and its resolution restarts its settling. -/
theorem pinAnalogOnNodeCompletes : Obligations.PinAnalogOnNodeCompletes := by
  unfold Obligations.PinAnalogOnNodeCompletes
  rintro p mv s u n xs v hs h0 hw hq hp hn hne hu rfl rfl hroom
  have hlen : p.toNat < s.pins.length := hs.shaped.pins ▸ hp
  have hmode : ∀ {t : State}, t.cfg = s.cfg → (t.pin p.toNat).node = some n → (t.pin p.toNat).drive = .analog mv →
      analogMode t n = true := fun hc hnode hdrive =>
    analogMode_of_member (mem_members.mpr ⟨hc ▸ hp, hnode⟩) (by rw [hdrive]; rfl)
  have hup : u.pin p.toNat = { s.pin p.toNat with drive := .analog mv } := by rw [hu, setPin_pin_self _ _ _ hlen]
  have hC : nodeC u n = nodeC s n := hu ▸ nodeC_setPin_drive s p.toNat (.analog mv) n
  have hcfg : u.cfg = s.cfg := by rw [hu]; rfl
  have hcycle : u.cycle = s.cycle := by rw [hu]; rfl
  have hv : voltageAt u n u.cycle = voltageAt s n s.cycle := by rw [hu]; rfl
  obtain ⟨t, vt, zth, w, b, ht, hteng, hnode, hend⟩ := resolve_restarts (s := u) (n := n)
    (hu ▸ hs.shaped.setPin _ _ (hs.shaped.nodeOf p.toNat)) (hu ▸ hq)
    (by rw [hu]; exact hs.depth.trans_lt (Config.wf_depth hw)) (hmode hcfg (by rw [hup]; exact hn) (by rw [hup]))
    (hcfg ▸ Config.wf_analog hw) (by rw [hC, hcfg, hcycle]; exact hroom)
  have hset : setDriving p.toNat (.analog mv) s = .ok t := by
    rw [setDriving, setDrivingVia_new resolve hne, jobOf_node hn, ← hu]
    exact ht
  obtain ⟨hbeside, hsetup, hdriven⟩ := setDriving_to hlen hset
  obtain ⟨hdone, horder⟩ := (setDriving_runs (B := AnyNode) hs.shaped _ _).completed hset hbeside.outLog
  have hdrive := hdriven.of_quiet hq
  have hrecords := hend.records
  rw [hC, hv, hcfg, hcycle] at hrecords
  refine ⟨_, commit_checked (b := pinOk s p) (decide_eq_true hp) hset, hdone, horder hs h0, hteng.trans (by rw [hu]; rfl),
    hdrive, hmode hbeside.cfg (hsetup.1.trans hn) hdrive, ?_⟩
  rw [show State.node { t with cp := t.cp + 1 } n = _ from hnode]
  exact ⟨hv, hcycle, hC, congrArg (levelOf · w) hcfg, hrecords⟩

end Sys2Proof.Machine
end

section
/-! PROOF. A settling node through `ADVANCE`. -/

namespace Sys2Proof.Machine

/-! ### A settle callback with no engine attached (R195) -/

section
variable {s : State} {n : Nat} (hs : Shaped s) (hq : NoEngineAttached s) (hd : s.depth < s.cfg.maxNotifyDepth)
  (hn : n < s.cfg.numNodes)
include hs hq hd hn

theorem resolve_settle_near (h : |voltageAt s n s.cycle - (s.node n).vt| ≤ s.cfg.settleEps) :
    ∃ t, resolve (.settle n) s = .ok t ∧ t.engines = s.engines ∧ t.pending = (cancel (.node n) s).pending ∧
      t.node n = { s.node n with voltage := (s.node n).vt, level := levelOf s.cfg (s.node n).vt, settling := false } := by
  have hn' : n < s.nodes.length := hs.nodes ▸ hn
  exact resolve_publishes (x := { s.node n with voltage := (s.node n).vt, settling := false }) hs hq hd hn
    (fun res => runJobVia_settle_near (s := { s with depth := s.depth + 1 }) res hn' h)
    ((Relation.ReflTransGen.single (.node n _)).tail (.cancelNode n)) rfl rfl (setNode_node_self _ _ _ hn')

theorem resolve_settle_far (h : s.cfg.settleEps < |voltageAt s n s.cycle - (s.node n).vt|)
    (hfit : s.cycle.toNat + settleStep s n (voltageAt s n s.cycle) ≤ maxCycle) :
    ∃ t, resolve (.settle n) s = .ok t ∧ t.engines = s.engines ∧
      t.pending = (scheduled (.node n) (s.cycle.toNat + settleStep s n (voltageAt s n s.cycle)) s).pending ∧
      t.node n = { s.node n with
        voltage := voltageAt s n s.cycle, level := levelOf s.cfg (voltageAt s n s.cycle) } := by
  have hn' : n < s.nodes.length := hs.nodes ▸ hn
  have hlater : s.cycle.toNat < s.cycle.toNat + settleStep s n (voltageAt s n s.cycle) :=
    Nat.lt_add_of_pos_right (one_le_stepCycles _ _ _ _ _)
  have hschedule := schedule_later (.node n) (s.cycle.toNat + settleStep s n (voltageAt s n s.cycle))
    (State.setNode { s with depth := s.depth + 1 } n { s.node n with voltage := voltageAt s n s.cycle }) hlater
  rw [if_pos hfit] at hschedule
  exact resolve_publishes (x := { s.node n with voltage := voltageAt s n s.cycle }) hs hq hd hn
    (fun res => (runJobVia_settle_far (s := { s with depth := s.depth + 1 }) res hn' h).trans
      (congrArg (Res.andThen · _) hschedule))
    ((Relation.ReflTransGen.single (.node n _)).tail (.settleAt n _ trivial hlater hfit)) rfl rfl (setNode_node_self _ _ _ hn')

end

/-! ### Between two firings (R118, R197) -/

/-- Node `n` is settling, its horizon is `h` cycles, which the counter has left, and what is left of its step then is within the
threshold. -/
structure Charges (s : State) (n h : Nat) : Prop where
  settling : (s.node n).settling = true
  cycleHz : 0 < s.cfg.cycleHz
  tau : 0 < (s.node n).zth * (s.node n).cth
  horizon : h = horizon s.cfg ((s.node n).zth * (s.node n).cth)
  fits : (s.node n).t0.toNat + h ≤ maxCycle
  near : |(s.node n).v0 - (s.node n).vt| * (6738 / 1000000) ≤ s.cfg.settleEps

section
variable {s u : State} {n h : Nat}

/-- Neither its voltage nor its level says how a node settles. -/
theorem Charges.of_record (hc : Charges s n h) (hcfg : u.cfg = s.cfg) {w : Num} {l : Level}
    (hnode : u.node n = { s.node n with voltage := w, level := l }) : Charges u n h := by
  obtain ⟨h1, h2, h3, h4, h5, h6⟩ := hc
  exact ⟨by rw [hnode]; exact h1, hcfg ▸ h2, by rw [hnode]; exact h3, by rw [hnode, hcfg]; exact h4, by rw [hnode]; exact h5,
    by rw [hnode, hcfg]; exact h6⟩

/-- A node further from its target than the threshold is before its horizon, so that its next callback is due by then. -/
theorem Charges.next_due (hc : Charges s n h) (hstart : (s.node n).t0.toNat ≤ s.cycle.toNat)
    (hfar : s.cfg.settleEps < |voltageAt s n s.cycle - (s.node n).vt|) :
    s.cycle.toNat + settleStep s n (voltageAt s n s.cycle) ≤ (s.node n).t0.toNat + h := by
  have hearly : s.cycle.toNat - (s.node n).t0.toNat < h := by
    by_contra hlate
    rw [not_lt, hc.horizon] at hlate
    have hleft := left_after_horizon hc.cycleHz hc.tau hc.settling hlate
    exact absurd (hleft.trans hc.near) (not_le_of_gt hfar)
  have hstep : settleStep s n (voltageAt s n s.cycle) ≤ max 1 (h - (s.cycle.toNat - (s.node n).t0.toNat)) := by
    rw [hc.horizon] at hearly ⊢
    exact stepCycles_le hearly
  omega

/-- Where the node stands: its callback is the only one pending, due by its horizon; or it is settled and nothing is pending. -/
inductive Stage (s : State) (n h : Nat) (u : State) : Prop where
  | waiting (w : Num) (l : Level) (y : Entry) (hnode : u.node n = { s.node n with voltage := w, level := l })
      (hpending : u.pending = [y]) (howner : y.owner = .node n) (hlo : (s.node n).t0.toNat ≤ y.due.toNat)
      (hhi : y.due.toNat ≤ (s.node n).t0.toNat + h)
  | settled (hnode : u.node n =
        { s.node n with voltage := (s.node n).vt, level := levelOf s.cfg (s.node n).vt, settling := false })
      (hpending : u.pending = [])

/-- The callback of a waiting node, with nothing else pending, goes on, and leaves it waiting for its next one or settled. -/
theorem Charges.resolve_settle (hc : Charges s n h) (hs : Shaped s) (hq : NoEngineAttached s)
    (hd : s.depth < s.cfg.maxNotifyDepth) (hn : n < s.cfg.numNodes) (hp : s.pending = [])
    (hstart : (s.node n).t0.toNat ≤ s.cycle.toNat) :
    ∃ t, resolve (.settle n) s = .ok t ∧ t.engines = s.engines ∧ Stage s n h t := by
  by_cases hnear : |voltageAt s n s.cycle - (s.node n).vt| ≤ s.cfg.settleEps
  · obtain ⟨t, ht, heng, hpending, hnode⟩ := resolve_settle_near hs hq hd hn hnear
    refine ⟨t, ht, heng, .settled hnode ?_⟩
    rw [hpending, cancel, hp]
    rfl
  · rw [not_le] at hnear
    have hnext := hc.next_due hstart hnear
    have hfit := hnext.trans hc.fits
    obtain ⟨t, ht, heng, hpending, hnode⟩ := resolve_settle_far hs hq hd hn hnear hfit
    rw [scheduled, cancel, hp] at hpending
    refine ⟨t, ht, heng, .waiting _ _ _ hnode hpending rfl ?_ ?_⟩ <;> rw [toNat_ofNat_due hfit]
    · exact hstart.trans (Nat.le_add_right _ _)
    · exact hnext

/-- What holds between two firings of an `ADVANCE` from `s`. -/
structure OnWay (s : State) (n h : Nat) (u : State) : Prop where
  cfg : u.cfg = s.cfg
  engines : u.engines = s.engines
  depth : u.depth = s.depth
  stage : Stage s n h u

/-- A firing goes on, and leaves the node on its way. -/
theorem Charges.fire (hc : Charges s n h) (hq : NoEngineAttached s) (hd : s.depth < s.cfg.maxNotifyDepth)
    (hn : n < s.cfg.numNodes) (hu : Shaped u) (hw : OnWay s n h u) {x : Entry} (hx : x ∈ u.pending) :
    ∃ t, fire x u = .ok t ∧ OnWay s n h t := by
  obtain ⟨hcfg, heng, hdepth, hstage⟩ := hw
  cases hstage with
  | settled hnode hpending =>
    rw [hpending] at hx
    cases hx
  | waiting w l y hnode hpending howner hlo hhi =>
    rw [hpending] at hx
    obtain rfl := List.mem_singleton.mp hx
    have hfn : (startFiring x u).node n = { s.node n with voltage := w, level := l } := hnode
    have hnone : (startFiring x u).pending = [] := by
      rw [startFiring, cancel, hpending]
      simp
    obtain ⟨t, ht, hteng, htstage⟩ := (hc.of_record (u := startFiring x u) hcfg hfn).resolve_settle
      (hu.of_same rfl ⟨rfl, rfl, rfl, rfl⟩ (fun _ => rfl) fun _ => ⟨rfl, rfl, rfl⟩) (hq.of_same hcfg heng)
      (by rw [show (startFiring x u).depth = s.depth from hdepth, show (startFiring x u).cfg = s.cfg from hcfg]; exact hd)
      (hcfg ▸ hn) hnone (by rw [hfn]; exact hlo)
    have hfire : Machine.fire x u = .ok t := by
      rw [Machine.fire, howner]
      exact ht
    have hglobals := (resolve_ok ht).globals
    refine ⟨t, hfire, hglobals.1.trans hcfg, hteng.trans heng, (fire_depth x u t hfire).trans hdepth, ?_⟩
    cases htstage with
    | waiting w' l' y' hnode' hpending' howner' hlo' hhi' =>
      rw [hfn] at hnode' hlo' hhi'
      exact .waiting w' l' y' hnode' hpending' howner' hlo' hhi'
    | settled hnode' hpending' =>
      rw [hfn, show (startFiring x u).cfg = s.cfg from hcfg] at hnode'
      exact .settled hnode' hpending'

end

/-- An `ADVANCE` past its horizon settles the node: no firing faults, and a callback still waiting would be due. -/
theorem Charges.advanceTo {s : State} {n h : Nat} (hc : Charges s n h) (hs : Ready s) (hq : NoEngineAttached s)
    (hd : s.depth < s.cfg.maxNotifyDepth) (hn : n < s.cfg.numNodes) (hstage : Stage s n h s) {target : Cycle}
    (htarget : (s.node n).t0.toNat + h ≤ target.toNat) :
    ∃ u, advanceTo target s = .ok { u with cycle := target } ∧ Relation.ReflTransGen (Fires target) s u ∧ u.pending = [] ∧
      u.node n = { s.node n with voltage := (s.node n).vt, level := levelOf s.cfg (s.node n).vt, settling := false } := by
  have hway : ∀ {u}, Relation.ReflTransGen (Fires target) s u → OnWay s n h u := fun hu =>
    fires_keep (fun a b x hr hx hab hw => by
      obtain ⟨hmem, -⟩ := nextDue_some hx
      obtain ⟨t, ht, hwt⟩ := hc.fire hq hd hn hr.shaped hw hmem
      rw [hab] at ht
      cases ht
      exact hwt) hs hu ⟨rfl, rfl, rfl, hstage⟩
  obtain ⟨u, hu, hr, hnone, hok⟩ | ⟨u, x, t, hu, hr, hx, ht, -⟩ := advanceTo_fires target hs
  · obtain ⟨-, -, -, hstage⟩ := hway hu
    cases hstage with
    | settled hnode hpending => exact ⟨u, hok, hu, hpending, hnode⟩
    | waiting w l y hnode hpending howner hlo hhi =>
      have hlate := nextDue_none hnone y (by rw [hpending]; exact List.mem_singleton_self y)
      omega
  · obtain ⟨hmem, -⟩ := nextDue_some hx
    obtain ⟨v, hv, -⟩ := hc.fire hq hd hn hr.shaped (hway hu) hmem
    rw [ht] at hv
    cases hv

/-- Settles O56: every firing goes on and schedules by the horizon (`Charges.fire`), so past it the node is settled. -/
theorem settlesWithinFiveTau : Obligations.SettlesWithinFiveTau := by
  unfold Obligations.SettlesWithinFiveTau
  intro s n x imm h hs h0 hw hq hn hx howner htau hh hstart hdue hnear hreach hle
  have hset : (s.node n).settling = true := (hs.settle n hn).mp ⟨x, by rw [hx]; exact List.mem_singleton_self x, howner⟩
  have hlater := hs.pending.later h0 x (by rw [hx]; exact List.mem_singleton_self x)
  have htarget := toNat_ofNat_due hle
  have hc : Charges s n h := ⟨hset, (Config.wf_analog hw).cycleHz, htau, hh, hreach.trans hle, hnear⟩
  obtain ⟨u, hok, hu, hpending, hnode⟩ := hc.advanceTo (hs.ready h0) hq (hs.depth.trans_lt (Config.wf_depth hw)) hn
    (.waiting _ _ x rfl hx howner (hstart.trans hlater.le) hdue) (htarget.symm ▸ hreach)
  have hexec := (exec_advance_inRange hle).trans (congrArg commit hok)
  obtain ⟨hready, hcfg, -, -, hcp, hword, hat, -⟩ := fires_globals (hs.ready h0) hu
  have ht := exec_inOrder hs h0 hexec hready.running
  refine ⟨_, hexec, htarget, congrArg (· + 1) hcp, ⟨hready.running.trans h0.symm, hword, hat⟩, ht,
    congrArg Node.settling hnode, congrArg Node.voltage hnode, congrArg Node.level hnode, ?_, fun p hp => ?_⟩
  · rintro ⟨y, hy, -⟩
    change y ∈ u.pending at hy
    rw [hpending] at hy
    cases hy
  · obtain ⟨hlt, hon⟩ := mem_members.mp hp
    exact ((ht.resolved.1 n (hcfg ▸ hn)).driven p hlt hon).trans (congrArg Node.level hnode)

end Sys2Proof.Machine
end

section
/-! PROOF. Port registers: the read of one, and that after every step each shows its pins (44_port_register.md). -/

namespace Sys2Proof.Machine

/-! ### What every step keeps (R217) -/

/-- Settles O31: a pin's driven state changes only in a resolution, which notifies the bits bound to the pin, so a step that
completes leaves every bit at its pin's value. -/
theorem stepKeepsPortsSynced : Obligations.StepKeepsPortsSynced := by
  unfold Obligations.StepKeepsPortsSynced
  intro s t hs h hf
  have hgood : AllGood t := step_allGood hs h hf
  exact hgood.portsSynced

/-! ### The read (R215) -/

/-- Setting the bits of a list in turn sets these and leaves the others. -/
theorem getLsbD_foldl_setBit {is : List Nat} (his : ∀ i ∈ is, i < 8) (m : Byte) (j : Nat) :
    (is.foldl (fun m i => setBit m i true) m).getLsbD j = true ↔ j ∈ is ∨ m.getLsbD j = true := by
  induction is generalizing m with
  | nil => simp
  | cons i is ih =>
    obtain ⟨hi, his⟩ := List.forall_mem_cons.mp his
    rw [List.foldl_cons, ih his, setBit_getLsbD m i j true hi, List.mem_cons]
    by_cases hj : j = i <;> simp [hj]

/-- The bits of the mask: enabled, inside the output mask, on a pin whose level has no definite value. -/
theorem getLsbD_floatMask {s : State} {r i : Nat} (hi : i < 8) :
    (floatMask s r).getLsbD i = true ↔ (s.portCfg r).enable.getLsbD i = true ∧ (s.portCfg r).outMask.getLsbD i = true ∧
      logic (s.pin (boundPin s r i)).driven = none := by
  unfold floatMask
  rw [getLsbD_foldl_setBit fun j hj => enabledBits_lt (List.mem_of_mem_filter hj)]
  simp [mem_enabledBits, hi]

/-- `PORT_READ` of a valid index completes with its record, if the mask is not 0, and its value. -/
theorem exec_portRead {r : Byte} {s : State} (hr : r.toNat < s.cfg.numPorts) :
    exec (.portRead r) s = .next { s with
      diagLog := if floatMask s r.toNat = 0 then s.diagLog else s.diagLog ++ [⟨2, s.cycle, r, floatMask s r.toNat⟩]
      outLog := s.outLog ++ [⟨s.cycle, (portValue s r.toNat).setWidth 64⟩]
      cp := s.cp + 1 } := by
  change execPortRead r s = _
  rw [execPortRead, checked, if_pos (show portOk s r = true from decide_eq_true hr)]
  by_cases hfl : floatMask s r.toNat = 0
  · simp only [if_pos hfl]
    rfl
  · simp only [if_neg hfl, diag, BitVec.ofNat_toNat, BitVec.setWidth_eq]
    rfl

/-- Settles O18: the mask's bits are those of `floatMask`, and the read is `exec_portRead`. -/
theorem portReadValue : Obligations.PortReadValue := by
  unfold Obligations.PortReadValue
  intro r s hr
  exact ⟨floatMask s r.toNat, fun _ hi => getLsbD_floatMask hi, exec_portRead hr⟩

end Sys2Proof.Machine
end

section
/-! PROOF. `TW_CONFIGURE` and `TW_RESET`: where they complete, and what they leave. -/

namespace Sys2Proof.Machine

/-! ### Configuring (R242) -/

/-- Settles O19: the body is one write of the engine's record. -/
theorem twConfigureStores : Obligations.TwConfigureStores := by
  unfold Obligations.TwConfigureStores
  intro e addr csmask s hs he
  refine ⟨_, commit_checked (b := engOk s e) (decide_eq_true he) rfl, ?_, fun f hf => ?_, rfl, rfl⟩
  · exact setEng_eng_self s _ _ (hs.engines ▸ he)
  · exact (setEng_eng s _ f _).trans (if_neg fun h => hf h.1.symm)

/-! ### Resetting (R244) -/

theorem PullReleased.withCp {s u : State} {e : Nat} (h : PullReleased s u e) (cp : Nat) : PullReleased s { u with cp := cp } e :=
  ⟨h.sdaDrive, h.bits, h.shift, h.ack, h.drive, h.attached, h.sclPin, h.sdaPin,
    ⟨h.kept.configured, h.kept.cfgAddress, h.kept.cfgCsmask, h.kept.matched, h.kept.rw, h.kept.periph⟩, h.engines, h.setup,
    h.drives, h.driving⟩

theorem exec_twReset {e : Byte} {s u : State} (he : e.toNat < s.cfg.numEngines) (hu : twReset e.toNat s = .ok u) :
    exec (.twReset e) s = .next { u with cp := u.cp + 1 } :=
  commit_checked (b := engOk s e) (decide_eq_true he) hu

theorem twReset_done {e : Nat} {s u : State} (hs : Shaped s) (he : e < s.cfg.numEngines) (hu : twReset e s = .ok u) :
    Done s { u with cp := u.cp + 1 } ∧ (InOrder s → s.faultCode = 0 → InOrder { u with cp := u.cp + 1 }) := by
  obtain ⟨hreset, -⟩ := twReset_to hs he hu
  exact (twReset_runs (B := AnyNode) hs e).completed hu hreset.outLog

theorem twReset_completed {e : Nat} {s u : State} (hs : Shaped s) (he : e < s.cfg.numEngines) (ha : (s.eng e).attached = true)
    (hpull : (s.eng e).sdaDrive = true) (hu : twReset e s = .ok u) : Done s { u with cp := u.cp + 1 } ∧
      PullReleased s { u with cp := u.cp + 1 } e ∧ (InOrder s → s.faultCode = 0 → InOrder { u with cp := u.cp + 1 }) := by
  obtain ⟨-, hreleased⟩ := twReset_to hs he hu
  obtain ⟨hdone, horder⟩ := twReset_done hs he hu
  exact ⟨hdone, (hreleased ha hpull).withCp _, horder⟩

/-- An engine that is not pulling its data pin is cleared, and nothing is resolved. -/
theorem twReset_not_pulling {e : Nat} {s : State} (he : e < s.engines.length)
    (hpull : (s.eng e).attached = false ∨ (s.eng e).sdaDrive = false) :
    twReset e s = .ok (cancel (.eng e) (s.setEng e (s.eng e).cleared)) := by
  rw [twReset_eq he, Bool.and_eq_false_iff.mpr hpull]
  rfl

/-- Settles O47: an engine that is not pulling is cleared by two writes; in a calm block one that is meets no fault either, and
wherever it meets none it leaves the same. -/
theorem twResetCompletes : Obligations.TwResetCompletes := by
  unfold Obligations.TwResetCompletes
  refine ⟨fun e s hs he hpull => ?_, fun e s hs hc h0 he ha hpull => ?_, fun e s t hs ha hpull h hcp => ?_⟩
  · have hlen : e.toNat < s.engines.length := hs.engines ▸ he
    refine ⟨_, exec_twReset he (twReset_not_pulling hlen hpull), rfl, ?_, fun f hf => ?_, rfl, rfl⟩
    · exact setEng_eng_self s _ _ hlen
    · exact (setEng_eng s _ f _).trans (if_neg fun h => hf h.1.symm)
  · obtain ⟨u, hu, -⟩ := hc.twReset e.toNat
    obtain ⟨hdone, hreleased, horder⟩ := twReset_completed hs.shaped he ha hpull hu
    exact ⟨_, exec_twReset he hu, hdone, horder hs h0, hreleased⟩
  · obtain ⟨hcheck, u, hu, -, rfl⟩ := checked_ok (b := engOk s e) (f := twReset e.toNat) h hcp
      fun _ => twReset_cmd (A := AnyNode) (B := AnyNode) _ s (nodesIn_any s)
    exact twReset_completed hs (of_decide_eq_true hcheck) ha hpull hu

/-- Settles O48: the resolution that the release starts leaves the engine idle (`twReset_released`). -/
theorem twResetLeavesIdle : Obligations.TwResetLeavesIdle := by
  unfold Obligations.TwResetLeavesIdle
  intro e s hs hc h0 he hsole ha hpull hd hne hoff
  obtain ⟨u, hu, hreleased⟩ := twReset_released hs hc he hsole ha hpull hd hne hoff
  obtain ⟨hdone, -⟩ := twReset_done hs.shaped he hu
  obtain ⟨b, hb⟩ := hreleased.eng
  refine ⟨_, exec_twReset he hu, hdone, ?_, ?_, hreleased.entry, hreleased.drive⟩
  · exact congrArg Engine.state hb
  · exact congrArg Engine.pend hb

end Sys2Proof.Machine
end

section
/-! PROOF. The address match bit by bit, and the rows of the transition table (45_twowire_engine.md R251 to R271). -/

namespace Sys2Proof.Machine

/-! ### The address match (R257) -/

theorem getLsbD_addressBits {k : Nat} : (0xFE : Byte).getLsbD k = true ↔ 1 ≤ k ∧ k ≤ 7 := by
  by_cases hk : k < 8
  · interval_cases k <;> decide
  · rw [BitVec.getLsbD_of_ge _ _ (Nat.le_of_not_lt hk)]
    simp only [Bool.false_eq_true, false_iff]
    omega

/-- Two bytes differ in no bit of a mask exactly when they agree in each. -/
theorem xor_and_eq_zero_iff (a b m : Byte) :
    (a ^^^ b) &&& m = 0 ↔ ∀ k, m.getLsbD k = true → a.getLsbD k = b.getLsbD k := by
  refine ⟨fun h k hm => ?_, fun h => BitVec.eq_of_getLsbD_eq fun k _ => ?_⟩
  · have hk := congrArg (fun v : Byte => v.getLsbD k) h
    simpa [hm] using hk
  · cases hm : m.getLsbD k with
    | false => simp [hm]
    | true => simp [h k hm]

/-- Settles O51: the mask of R257 selects bits 7 to 1 of the configured one. -/
theorem addressMatchBits : Obligations.AddressMatchBits := by
  unfold Obligations.AddressMatchBits
  intro g b
  have hmask : ∀ k, (g.cfgCsmask &&& 0xFE).getLsbD k = true ↔ g.cfgCsmask.getLsbD k = true ∧ 1 ≤ k ∧ k ≤ 7 := fun k => by
    rw [BitVec.getLsbD_and, Bool.and_eq_true, getLsbD_addressBits]
  rw [addressMatch, Bool.and_eq_true, beq_iff_eq, BitVec.and_assoc, xor_and_eq_zero_iff]
  refine and_congr_right fun _ => forall_congr' fun k => ?_
  rw [hmask]
  exact ⟨fun h h1 h7 hm => h ⟨hm, h1, h7⟩, fun h ⟨hm, h1, h7⟩ => h h1 h7 hm⟩

/-! ### The rows by their bit counts -/

theorem bits_eq_eight {b : BitVec 4} (h : b.toNat + 1 = 8) : b + 1 = 8 := by
  bv_omega

/-- R45: the count that stands in for one past 15. -/
theorem freeCount_le (draw : Nat) : (freeCount draw).toNat ≤ 9 := by
  rw [freeCount, BitVec.toNat_ofNat]
  omega

section
variable {e : Nat} {sda : Bool} {s : State}

theorem rowRxAddressRise_before (h : (s.eng e).bits.toNat + 1 < 8) : rowRxAddressRise e sda s =
    .ok (s.setEng e { s.eng e with shift := shiftIn (s.eng e).shift sda, bits := (s.eng e).bits + 1 }) :=
  if_pos h

theorem rowRxAddressRise_match (h : (s.eng e).bits.toNat + 1 = 8)
    (hm : addressMatch (s.eng e) (shiftIn (s.eng e).shift sda) = true) : rowRxAddressRise e sda s =
      .ok (s.setEng e { s.eng e with
        shift := shiftIn (s.eng e).shift sda, bits := 8, matched := shiftIn (s.eng e).shift sda,
        rw := (shiftIn (s.eng e).shift sda).getLsbD 0, state := .ackAddress }) := by
  rw [rowRxAddressRise, if_neg (by omega), if_pos h, if_pos hm, bits_eq_eight h]

theorem rowRxAddressRise_mismatch (h : (s.eng e).bits.toNat + 1 = 8)
    (hm : addressMatch (s.eng e) (shiftIn (s.eng e).shift sda) = false) : rowRxAddressRise e sda s =
      .ok (diag .addrMismatch e (shiftIn (s.eng e).shift sda)
        (s.setEng e { s.eng e with shift := shiftIn (s.eng e).shift sda, bits := 0, state := .idle })) := by
  rw [rowRxAddressRise, if_neg (by omega), if_pos h, hm]
  rfl

theorem rowRxAddressRise_past (h : 8 ≤ (s.eng e).bits.toNat) : rowRxAddressRise e sda s = .ok s := by
  rw [rowRxAddressRise, if_neg (by omega), if_neg (by omega)]

theorem rowRxDataRise_before (h : (s.eng e).bits.toNat + 1 < 8) : rowRxDataRise e sda s =
    .ok (s.setEng e { s.eng e with shift := shiftIn (s.eng e).shift sda, bits := (s.eng e).bits + 1 }) :=
  if_pos h

theorem rowRxDataRise_last (h : (s.eng e).bits.toNat + 1 = 8) : rowRxDataRise e sda s =
    .ok (s.setEng e { s.eng e with
      shift := shiftIn (s.eng e).shift sda, bits := 8, periph := (s.eng e).periph ++ [.rx (shiftIn (s.eng e).shift sda)],
      ack := Config.rxAnswer e (s.eng e).periph (shiftIn (s.eng e).shift sda), state := .ackReceivedData }) := by
  rw [rowRxDataRise, if_neg (by omega), if_pos h, bits_eq_eight h]

theorem rowRxDataRise_past (h : 8 ≤ (s.eng e).bits.toNat) : rowRxDataRise e sda s = .ok s := by
  rw [rowRxDataRise, if_neg (by omega), if_neg (by omega)]

theorem rowAckAddressFall_eight (h : (s.eng e).bits.toNat = 8) : rowAckAddressFall e s =
    (driveSda e false s).andThen fun t => .ok (t.setEng e { t.eng e with bits := 9 }) :=
  if_pos h

theorem rowAckAddressFall_write (h : (s.eng e).bits.toNat = 9) (hrw : (s.eng e).rw = false) : rowAckAddressFall e s =
    (driveSda e true s).andThen fun t => .ok (t.setEng e { t.eng e with shift := 0, bits := 0, state := .rxData }) := by
  rw [rowAckAddressFall, if_neg (by omega), if_pos h, hrw]
  rfl

theorem rowAckAddressFall_read (h : (s.eng e).bits.toNat = 9) (hrw : (s.eng e).rw = true) :
    rowAckAddressFall e s = loadTx e s := by
  rw [rowAckAddressFall, if_neg (by omega), if_pos h, if_pos hrw]

theorem rowAckAddressFall_other (h8 : (s.eng e).bits.toNat ≠ 8) (h9 : (s.eng e).bits.toNat ≠ 9) :
    rowAckAddressFall e s = .ok s := by
  rw [rowAckAddressFall, if_neg h8, if_neg h9]

theorem rowTxDataRise_count (h : (s.eng e).bits.toNat ≠ 15) :
    rowTxDataRise e s = .ok (s.setEng e { s.eng e with bits := (s.eng e).bits + 1 }) :=
  if_neg h

theorem rowTxDataRise_full (h : (s.eng e).bits.toNat = 15) : ∃ b : BitVec 4, b.toNat ≤ 9 ∧
    rowTxDataRise e s = .ok { s.setEng e { s.eng e with bits := b } with draws := s.draws + 1 } :=
  ⟨freeCount s.draws, freeCount_le s.draws, if_pos h⟩

theorem rowTxDataFall_before (h : (s.eng e).bits.toNat < 8) :
    rowTxDataFall e s = driveSda e ((s.eng e).shift.getLsbD (7 - (s.eng e).bits.toNat)) s := by
  rw [rowTxDataFall, if_neg (by omega), if_pos h]

theorem rowTxDataFall_eight (h : (s.eng e).bits.toNat = 8) : rowTxDataFall e s =
    (driveSda e true s).andThen fun t => .ok (t.setEng e { t.eng e with state := .ackRead }) :=
  if_pos h

theorem rowTxDataFall_past (h : 8 < (s.eng e).bits.toNat) : rowTxDataFall e s = .ok s := by
  rw [rowTxDataFall, if_neg (by omega), if_neg (by omega)]

theorem rowAckReadRise_nack (h : (s.eng e).bits.toNat = 8) (hsda : sda = true) :
    rowAckReadRise e sda s = .ok (s.setEng e { s.eng e with ack := false, bits := 0, state := .idle }) :=
  (if_pos h).trans (if_pos hsda)

theorem rowAckReadRise_ack (h : (s.eng e).bits.toNat = 8) (hsda : sda = false) :
    rowAckReadRise e sda s = .ok (s.setEng e { s.eng e with ack := true, bits := 9 }) :=
  (if_pos h).trans (if_neg (hsda ▸ Bool.false_ne_true))

theorem rowAckReadRise_other (h : (s.eng e).bits.toNat ≠ 8) : rowAckReadRise e sda s = .ok s :=
  if_neg h

theorem rowAckReadFall_nine (h : (s.eng e).bits.toNat = 9) : rowAckReadFall e s = loadTx e s :=
  if_pos h

theorem rowAckReadFall_other (h : (s.eng e).bits.toNat ≠ 9) : rowAckReadFall e s = .ok s :=
  if_neg h

/-! ### Which row an edge runs (R251, R271) -/

/-- In `Idle` a rise is recorded and a fall does nothing (R256). -/
theorem edgeRow_idle (h : (s.eng e).state = .idle) :
    edgeRow e .rise sda s = .ok (diag .ignoredBit e (bitByte sda) s) ∧ edgeRow e .fall sda s = .ok s := by
  constructor <;> simp only [edgeRow, h]

theorem edgeRow_rxAddress (h : (s.eng e).state = .rxAddress) :
    edgeRow e .fall sda s = .ok s ∧ edgeRow e .rise sda s = rowRxAddressRise e sda s := by
  constructor <;> simp only [edgeRow, h]

theorem edgeRow_ackAddress (h : (s.eng e).state = .ackAddress) :
    edgeRow e .rise sda s = .ok s ∧ edgeRow e .fall sda s = rowAckAddressFall e s := by
  constructor <;> simp only [edgeRow, h]

theorem edgeRow_rxData (h : (s.eng e).state = .rxData) :
    edgeRow e .fall sda s = .ok s ∧ edgeRow e .rise sda s = rowRxDataRise e sda s := by
  constructor <;> simp only [edgeRow, h]

theorem edgeRow_ackReceivedData (h : (s.eng e).state = .ackReceivedData) :
    edgeRow e .rise sda s = .ok s ∧ edgeRow e .fall sda s = rowAckReceivedDataFall e s := by
  constructor <;> simp only [edgeRow, h]

theorem edgeRow_ackAfterWrite (h : (s.eng e).state = .ackAfterWrite) :
    edgeRow e .rise sda s = .ok s ∧ edgeRow e .fall sda s = rowAckAfterWriteFall e s := by
  constructor <;> simp only [edgeRow, h]

theorem edgeRow_txData (h : (s.eng e).state = .txData) :
    edgeRow e .rise sda s = rowTxDataRise e s ∧ edgeRow e .fall sda s = rowTxDataFall e s := by
  constructor <;> simp only [edgeRow, h]

theorem edgeRow_ackRead (h : (s.eng e).state = .ackRead) :
    edgeRow e .rise sda s = rowAckReadRise e sda s ∧ edgeRow e .fall sda s = rowAckReadFall e s := by
  constructor <;> simp only [edgeRow, h]

theorem edgeRow_not_entered (h : (s.eng e).state = .start ∨ (s.eng e).state = .writePending) (edge : Edge) :
    edgeRow e edge sda s = .ok s := by
  obtain h | h := h <;> simp only [edgeRow, h]

end

/-! ### Driving SDA (R252) -/

/-- `Drive` writes `sda_drive` and then drives the data pin, which that write leaves the same. -/
theorem driveSda_eq (e : Nat) (bit : Bool) (s : State) : driveSda e bit s =
    setDrivingVia resolve (s.eng e).sdaPin.toNat (.digital (if bit then .floating else .drivenLow))
      (s.setEng e { s.eng e with sdaDrive := !bit }) := by
  have hpin : ((s.setEng e { s.eng e with sdaDrive := !bit }).eng e).sdaPin = (s.eng e).sdaPin := by
    obtain h | ⟨-, h⟩ := setEng_eng_cases s e e { s.eng e with sdaDrive := !bit } <;> rw [h]
  rw [driveSda, driveSdaVia, hpin]

/-- Settles O50: the row of each bus state by its bit counts, `Drive` by whether the pin already drives so, and `LoadTx`. -/
theorem transitionTableRows : Obligations.TransitionTableRows := by
  unfold Obligations.TransitionTableRows
  intro e s sda g v hg hv
  replace hv : v = shiftIn g.shift sda := hv
  subst hg hv
  refine ⟨edgeRow_idle, fun hst => ?_, fun hst => ?_, fun hst => ?_, edgeRow_ackReceivedData, edgeRow_ackAfterWrite,
    fun hst => ?_, fun hst => ?_, edgeRow_not_entered, ?_, ?_⟩
  · obtain ⟨hfall, hrise⟩ := edgeRow_rxAddress (sda := sda) hst
    rw [hrise]
    exact ⟨hfall, rowRxAddressRise_before, rowRxAddressRise_match, rowRxAddressRise_mismatch, rowRxAddressRise_past⟩
  · obtain ⟨hrise, hfall⟩ := edgeRow_ackAddress (sda := sda) hst
    rw [hfall]
    exact ⟨hrise, rowAckAddressFall_eight, rowAckAddressFall_write, rowAckAddressFall_read, rowAckAddressFall_other⟩
  · obtain ⟨hfall, hrise⟩ := edgeRow_rxData (sda := sda) hst
    rw [hrise]
    exact ⟨hfall, rowRxDataRise_before, rowRxDataRise_last, rowRxDataRise_past⟩
  · obtain ⟨hrise, hfall⟩ := edgeRow_txData (sda := sda) hst
    rw [hrise, hfall]
    exact ⟨rowTxDataRise_count, rowTxDataRise_full, rowTxDataFall_before, rowTxDataFall_eight, rowTxDataFall_past⟩
  · obtain ⟨hrise, hfall⟩ := edgeRow_ackRead (sda := sda) hst
    rw [hrise, hfall]
    exact ⟨rowAckReadRise_nack, rowAckReadRise_ack, rowAckReadRise_other, rowAckReadFall_nine, rowAckReadFall_other⟩
  · rintro bit _ _ _ rfl rfl rfl
    rw [driveSda_eq]
    exact ⟨fun hd => if_pos hd, fun hd => setDrivingVia_new resolve hd⟩
  · rintro _ rfl
    rfl

end Sys2Proof.Machine
end

section
/-! PROOF. Where the block takes no step (R302, R345), and what raising a fault leaves (R300). -/

namespace Sys2Proof.Machine

/-! ### Where a step is taken (R88) -/

theorem step_of_halted {s : State} (h : s.faultCode ≠ 0) : step s = .fault .halted :=
  if_pos h

theorem fetch_eq_none_iff (s : State) : fetch s = none ↔ s.stream.length ≤ s.cp :=
  List.getElem?_eq_none_iff

/-- A command answers a next state from any state, in order or not. -/
theorem exec_next (i : Instr) (s : State) : ∃ t, exec i s = .next t := by
  obtain ⟨f, hf⟩ := exec_eq_checked i s
  rw [hf]
  exact commit_next _

theorem step_of_fetch_none {s : State} (h0 : s.faultCode = 0) (hw : fetch s = none) : step s = .fault .streamEnd := by
  simp [step, h0, hw]

/-- A running block that finds a word at `cp` takes a step: the command's, or that of the decode fault. -/
theorem step_of_fetch_some {s : State} {w : Word} (h0 : s.faultCode = 0) (hw : fetch s = some w) : ∃ t, step s = .next t := by
  cases hd : decode w with
  | ok i => exact step_of_decode_ok h0 hw hd ▸ exec_next i s
  | error d => exact ⟨_, step_of_decode_error h0 hw hd⟩

/-- A running block's run has ended exactly where it finds no word at `cp`. -/
theorem step_eq_streamEnd_iff {s : State} (h0 : s.faultCode = 0) : step s = .fault .streamEnd ↔ fetch s = none := by
  refine ⟨fun h => ?_, step_of_fetch_none h0⟩
  cases hw : fetch s with
  | none => rfl
  | some w =>
    obtain ⟨t, ht⟩ := step_of_fetch_some h0 hw
    cases ht.symm.trans h

/-- Settles O9: the first branch of the step; the reset record; and every word at `cp` gives a step (`step_of_fetch_some`). -/
theorem noStepWhenHaltedOrEnded : Obligations.NoStepWhenHaltedOrEnded := by
  unfold Obligations.NoStepWhenHaltedOrEnded
  exact ⟨fun _ => step_of_halted, fun _ => ⟨rfl, rfl, rfl⟩,
    fun s h0 => (step_eq_streamEnd_iff h0).trans (fetch_eq_none_iff s)⟩

/-! ### Raising a fault (R300, R301) -/

/-- Settles O10: a chain that begins with a fault ends in the state it leaves (`raise_eq`), whose code is R301's. -/
theorem raiseWritesRecord : Obligations.RaiseWritesRecord := by
  unfold Obligations.RaiseWritesRecord
  intro s f c
  rw [raise_eq, andThen_halt, faulted, wordAtCp]
  cases c <;> rfl

end Sys2Proof.Machine
end

section
/-! PROOF. The reset state (R341, R342), and power-on reset (R340, R343). -/

namespace Sys2Proof.Machine

/-! ### One unit of each kind (R341) -/

section
variable (c : Config)

@[simp] theorem resetWith_pin (p : Nat) : (State.resetWith c).pin p = Pin.reset :=
  (getD_mem_or (List.replicate c.numPins Pin.reset) p Pin.reset).elim List.eq_of_mem_replicate id

@[simp] theorem resetWith_node (n : Nat) : (State.resetWith c).node n = Node.reset :=
  (getD_mem_or (List.replicate c.numNodes Node.reset) n Node.reset).elim List.eq_of_mem_replicate id

@[simp] theorem resetWith_eng (e : Nat) : (State.resetWith c).eng e = Engine.reset :=
  (getD_mem_or (List.replicate c.numEngines Engine.reset) e Engine.reset).elim List.eq_of_mem_replicate id

/-- Outside the index space too, where no bit is enabled and every default is 0. -/
@[simp] theorem resetWith_port (r : Nat) : (State.resetWith c).port r = Port.reset ((State.resetWith c).portCfg r) :=
  List.getD_map c.ports ⟨0, 0, 0, 0⟩ Port.reset

@[simp] theorem resetWith_cfg : (State.resetWith c).cfg = c := rfl

theorem resetWith_pins_length : (State.resetWith c).pins.length = c.numPins := List.length_replicate

theorem resetWith_nodes_length : (State.resetWith c).nodes.length = c.numNodes := List.length_replicate

theorem resetWith_ports_length : (State.resetWith c).ports.length = c.numPorts := List.length_map _

theorem resetWith_engines_length : (State.resetWith c).engines.length = c.numEngines := List.length_replicate

end

/-- Settles O14: every unit of each kind reads as that kind's reset value, whose fields are R341's. -/
theorem resetFields : Obligations.ResetFields := by
  unfold Obligations.ResetFields
  rintro c _ rfl
  simp only [resetWith_pin, resetWith_node, resetWith_eng, resetWith_port]
  refine ⟨rfl, rfl, rfl, rfl, rfl, rfl, rfl, rfl, rfl, rfl, rfl, fun _ _ => ?_, fun _ _ => ?_, fun _ _ => ?_, fun _ _ => ?_,
    resetWith_pins_length c, resetWith_nodes_length c, resetWith_ports_length c, resetWith_engines_length c⟩
  · simp [Pin.reset]
  · simp [Node.reset]
  · exact ⟨rfl, rfl⟩
  · simp [Engine.reset]

/-! ### The network, the port registers and the engines (R342) -/

section
variable (c : Config)

theorem resetWith_members (n : Nat) : members (State.resetWith c) n = [] := by
  simp [members, Pin.reset]

/-- A pin at reset is an `Input` without pull-up, so it offers nothing (R145, R149). -/
theorem resetWith_aloneLevel (p : Nat) : aloneLevel (State.resetWith c) p = .floating := by
  rw [aloneLevel_digital (l := .floating) (by rw [resetWith_pin]; rfl), resetWith_pin]
  rfl

theorem resetWith_noAnalogNode : NoAnalogNode (State.resetWith c) := fun n => by
  rw [analogMode, resetWith_members]
  rfl

theorem resetWith_no_entry (o : Owner) : ¬ hasEntry (State.resetWith c) o := by
  simp [hasEntry, State.resetWith]

theorem resetWith_shaped : Shaped (State.resetWith c) where
  pins := resetWith_pins_length c
  nodes := resetWith_nodes_length c
  ports := resetWith_ports_length c
  engines := resetWith_engines_length c
  nodeOf p n h := by simp [Pin.reset] at h
  enginePins e h := by simp [Engine.reset] at h

theorem resetWith_pendingOk : PendingOk (State.resetWith c) where
  owners := .nil
  seqs := .nil
  below := List.forall_mem_nil _
  inBlock := List.forall_mem_nil _
  later _ := List.forall_mem_nil _

/-- The table gives an empty node `Floating` without contention (R147). -/
theorem resetWith_nodeResolved (n : Nat) : NodeResolved (State.resetWith c) n where
  level := by
    rw [resetWith_noAnalogNode, resetWith_node, digitalLevel, pullup, resetWith_members]
    rfl
  contended := by
    rw [resetWith_noAnalogNode, resetWith_node, pullup, resetWith_members]
    rfl
  driven p _ _ := by
    rw [resetWith_pin, resetWith_node]
    rfl
  settling h := by simp [Node.reset] at h
  analog h := by simp [resetWith_noAnalogNode c n] at h

theorem resetWith_resolved : Resolved (State.resetWith c) :=
  ⟨fun n _ => resetWith_nodeResolved c n, fun p _ _ => by rw [resetWith_aloneLevel, resetWith_pin]; rfl⟩

theorem resetWith_settleSync : SettleSync (State.resetWith c) := fun n _ => by
  simp [resetWith_no_entry, Node.reset]

/-- No pin has a definite value. -/
theorem resetWith_portsSynced : PortsSynced (State.resetWith c) := fun r _ i _ b h => by
  rw [resetWith_pin] at h
  cases h

theorem resetWith_latchesSynced : LatchesSynced (State.resetWith c) := fun e _ h => by
  simp [Engine.reset] at h

theorem resetWith_edgesPending : EdgesPending (State.resetWith c) := fun _ e _ => by
  simp [resetWith_no_entry, Engine.reset]

theorem resetWith_inOrder : InOrder (State.resetWith c) where
  shaped := resetWith_shaped c
  pending := resetWith_pendingOk c
  resolved := resetWith_resolved c
  settle := resetWith_settleSync c
  ports := resetWith_portsSynced c
  latches := resetWith_latchesSynced c
  edges := resetWith_edgesPending c
  depth := rfl

theorem resetWith_statesEntered : StatesEntered (State.resetWith c) := fun e => by
  simp [Engine.reset]

/-- Masking out the enabled bits leaves a disabled one at its default (R41). -/
theorem resetWith_disabledBitsDefault : DisabledBitsDefault (State.resetWith c) := fun r _ i hi hen => by
  rw [resetWith_port, Port.reset, BitVec.getLsbD_and, BitVec.getLsbD_not, hen]
  simp [hi]

end

/-! ### Power-on reset (R340, R343) -/

/-- Settles O15: every pin offers nothing, every node is empty, nothing is pending and no engine is attached, so each invariant
holds (`resetWith_inOrder`); power-on reset rebuilds that state from the configuration. -/
theorem resetInOrder : Obligations.ResetInOrder := by
  unfold Obligations.ResetInOrder
  intro c
  refine ⟨resetWith_inOrder c, resetWith_statesEntered c, resetWith_disabledBitsDefault c,
    fun e _ _ => resetWith_no_entry c (.eng e), resetWith_members c, resetWith_aloneLevel c, ?_, rfl⟩
  rintro s rfl
  exact ⟨rfl, rfl, rfl⟩

end Sys2Proof.Machine
end
